-- ==== Sys2Proof/Word.lean ====
section
/-! DEFINITION. The word types of the machine (R7, R75, R90). -/
namespace Sys2Proof

/-- A byte of any memory. -/
abbrev Byte := BitVec 8

/-- An instruction word, a vector lane or an accumulator element (R75, R91). -/
abbrev W32 := BitVec 32

/-- A scalar register (R90). -/
abbrev W64 := BitVec 64

end Sys2Proof
end

