-- ==== Sys2Proof/Syntax.lean ====
section
/-! DEFINITION. The syntax of one step: the 216 instruction words of Hyrel (R78) and the 74 events of the table of
operations, one constructor per row of the table. Registers and immediates are the bits of their fields; how they are
laid out in a word stands in Decode.lean alone. -/
namespace Sys2Proof

/-- The three streams of a core (R30, R90). -/
inductive Strm where
  | L | C | S
  deriving DecidableEq, Repr, Inhabited

/-- A unit that accepts engine commands (R339, R436): dray `pair` of a column, coach `m` of a column, a column's
near-memory path, a column's decode engine. -/
inductive Engine where
  | dray (col pair : Nat)
  | coach (col m : Nat)
  | near (col : Nat)
  | decode (col : Nat)
  deriving DecidableEq, Repr, Inhabited

/-- The algorithms an SPDM requester may offer (R426); `other` is any algorithm the responder does not offer. -/
inductive SpdmAlg where
  | ecdsaP384 | sha384 | secp384r1 | aes256gcm | keySchedule | other (n : Nat)
  deriving DecidableEq, Repr, Inhabited

/-- A flit on its way into this package: as its peer has sent it, as it comes, and the writes that its payload holds, each a
frame, an offset and bytes (R406, R237: the manual does not lay a payload out). -/
structure FlitIn where
  sent : List Byte
  got : List Byte
  brings : List (Nat × Nat × List Byte) := []
  deriving DecidableEq, Repr, Inhabited

/-- A link whose dropped lane is being tested, and the test flits that the lane has passed with no byte error (R408). -/
structure LaneTest where
  link : Nat
  clean : Nat
  deriving DecidableEq, Repr, Inhabited

/-- What a read through CXL.io names (R396, R416, R418, R425). DESIGN CHOICE, unsafe: log entry 54. -/
inductive RuntimeRead where
  | region (idx : Nat)
  | regionBase
  | opStream (col idx : Nat)
  | tensorRecord (handle : Nat)
  | dims (handle : Nat)
  | recipeList (handle : Nat)
  | descriptor (handle block : Nat)
  | view (handle : Nat)
  | bytes (handle off n : Nat)
  /-- CR_SPILL_FAR to CR_DROP_WEIGHT as `which` 0 to 4, then RECIPE_DEPTH_MAX, and from 6 on WM_LO and WM_HI of each tier
  partition (R344). -/
  | cost (col which : Nat)
  | step (granule : Nat)
  | hotness (col vf buf : Nat)
  | regionEnergy (idx : Nat)
  | coreEnergy (core : Nat)
  | vc (col : Nat)
  | laneCounters (lane : Nat)
  | linkCounters (link : Nat)
  | lthr
  | sliceRank
  | contextPool (col : Nat)
  | trctl (layer : Nat)
  | bootFail
  | bootReason
  deriving DecidableEq, Repr, Inhabited

/-- What a Hyrel-runtime access through CXL.io names when the item has no row of its own (R416).
DESIGN CHOICE, unsafe: log entry 54. -/
inductive RuntimeItem where
  /-- A region control block (R318). -/
  | region (idx : Nat) (block : BitVec 512)
  /-- The base of the region table (R318). -/
  | regionBase (base : BitVec 64)
  /-- An operator stream descriptor created: ring handle, capacity, region (R321). -/
  | streamCreate (col idx : Nat) (ring cap region : Nat)
  /-- The status field of an operator stream (R322). -/
  | streamStatus (col idx : Nat) (status : Nat)
  /-- The head of an operator stream, when the runtime advances past a record (R322). -/
  | streamHead (col idx : Nat) (head : BitVec 64)
  /-- A residency record created or rewritten (R341). -/
  | tensorRecord (handle : Nat) (rec : BitVec 512)
  /-- A residency record destroyed (R344). -/
  | tensorDestroy (handle : Nat)
  /-- The dims record of a tensor (R343). -/
  | dims (handle : Nat) (rec : BitVec 768)
  /-- The recipe input list of a tensor (R343). -/
  | recipeList (handle : Nat) (rec : BitVec 512)
  /-- A block descriptor (R198, R199). -/
  | descriptor (handle block : Nat) (d : BitVec 256)
  /-- A view record (R329). -/
  | view (handle : Nat) (rec : BitVec 512)
  /-- CR_SPILL_FAR, CR_SPILL_NEIGH, CR_COMP, CR_COMP_MINRATIO, CR_DROP_WEIGHT as `which` 0 to 4 (R344). -/
  | cost (col which : Nat) (v : BitVec 32)
  /-- A step of the side table (R219), by frame granule. -/
  | step (granule : Nat) (v : BitVec 32)
  /-- Counters that the runtime or the management plane may write (R384). -/
  | hotness (col vf buf : Nat) (bytes stall : BitVec 48)
  | regionEnergy (idx : Nat) (v : BitVec 64)
  | coreEnergy (core : Nat) (v : BitVec 48)
  | laneCounters (lane : Nat) (corrected drops handbacks : BitVec 48)
  | linkCounters (link : Nat) (corrected uncorrectable txCorrected txUncorrectable : BitVec 48)
  /-- LTHR (R408). -/
  | lthr (v : BitVec 16)
  /-- The package's slice rank (R410). -/
  | sliceRank (v : Nat)
  /-- The context pool of a column sequencer: handle and number of areas (R372). -/
  | contextPool (col handle n : Nat)
  /-- Bytes the runtime writes into a tensor in device memory (R89, R317). -/
  | bytes (handle off : Nat) (data : List Byte)
  /-- A firmware image loaded into boot flash (R425). -/
  | bootFlash (image : List Byte)
  /-- Frames lent to the column by its spill partners (R348). -/
  | lentFrames (col n : Nat)
  /-- The ordinary tensor that holds the view table of a column, 0 for none (R317). -/
  | viewTable (col handle : Nat)
  /-- Packages of the slice (R410). -/
  | slicePackages (n : Nat)
  /-- A read: it changes nothing, and its bytes stand in the answer (R396, R416, R418). -/
  | read (what : RuntimeRead)
  deriving DecidableEq, Repr, Inhabited

/-- One constructor per row of the table of operations and events. Field names follow the manual: rd, ra, rb, rc are
scalar registers, vd, va, vb, vc vector registers, md, ma, mb masks, mk a predicate, rm a rounding-mode code, fmt a
format code, imm an immediate. -/
inductive Instr where
  /-- R108: Writes the sum of two scalar registers modulo 2^64. -/
  | add (rd : BitVec 5) (ra : BitVec 5) (rb : BitVec 5)
  /-- R108: Writes the difference of two scalar registers modulo 2^64. -/
  | sub (rd : BitVec 5) (ra : BitVec 5) (rb : BitVec 5)
  /-- R108: Writes the bitwise AND of two scalar registers. -/
  | and (rd : BitVec 5) (ra : BitVec 5) (rb : BitVec 5)
  /-- R108: Writes the bitwise OR of two scalar registers. -/
  | or (rd : BitVec 5) (ra : BitVec 5) (rb : BitVec 5)
  /-- R108: Writes the bitwise XOR of two scalar registers. -/
  | xor (rd : BitVec 5) (ra : BitVec 5) (rb : BitVec 5)
  /-- R108: Shifts a scalar register left by the low six bits of another. -/
  | sll (rd : BitVec 5) (ra : BitVec 5) (rb : BitVec 5)
  /-- R108: Shifts a scalar register right logically by the low six bits of another. -/
  | srl (rd : BitVec 5) (ra : BitVec 5) (rb : BitVec 5)
  /-- R108: Shifts a scalar register right arithmetically by the low six bits of another. -/
  | sra (rd : BitVec 5) (ra : BitVec 5) (rb : BitVec 5)
  /-- R108: Writes the signed lesser of two scalar registers. -/
  | min (rd : BitVec 5) (ra : BitVec 5) (rb : BitVec 5)
  /-- R108: Writes the signed greater of two scalar registers. -/
  | max (rd : BitVec 5) (ra : BitVec 5) (rb : BitVec 5)
  /-- R108: Writes the unsigned lesser of two scalar registers. -/
  | minu (rd : BitVec 5) (ra : BitVec 5) (rb : BitVec 5)
  /-- R108: Writes the unsigned greater of two scalar registers. -/
  | maxu (rd : BitVec 5) (ra : BitVec 5) (rb : BitVec 5)
  /-- R108: Writes 1 when the first register is signed-less than the second, else 0. -/
  | slt (rd : BitVec 5) (ra : BitVec 5) (rb : BitVec 5)
  /-- R108: Writes 1 when the first register is unsigned-less than the second, else 0. -/
  | sltu (rd : BitVec 5) (ra : BitVec 5) (rb : BitVec 5)
  /-- R108: Writes 1 when two scalar registers are equal, else 0. -/
  | seq (rd : BitVec 5) (ra : BitVec 5) (rb : BitVec 5)
  /-- R108: Copies a scalar register. -/
  | mov (rd : BitVec 5) (ra : BitVec 5)
  /-- R108: Writes the count of leading zero bits of a scalar register. -/
  | clz (rd : BitVec 5) (ra : BitVec 5)
  /-- R108: Writes the count of trailing zero bits of a scalar register. -/
  | ctz (rd : BitVec 5) (ra : BitVec 5)
  /-- R108: Writes the count of one bits of a scalar register. -/
  | popc (rd : BitVec 5) (ra : BitVec 5)
  /-- R109: Writes the low 64 bits of the product of two scalar registers. -/
  | mul (rd : BitVec 5) (ra : BitVec 5) (rb : BitVec 5)
  /-- R109: Writes the high 64 bits of the signed 128-bit product. -/
  | mulh (rd : BitVec 5) (ra : BitVec 5) (rb : BitVec 5)
  /-- R109: Writes the high 64 bits of the unsigned 128-bit product. -/
  | mulhu (rd : BitVec 5) (ra : BitVec 5) (rb : BitVec 5)
  /-- R110: Writes the signed quotient truncated toward zero, with defined results for zero and overflow. -/
  | div (rd : BitVec 5) (ra : BitVec 5) (rb : BitVec 5)
  /-- R110: Writes the unsigned quotient, all ones for a zero divisor. -/
  | divu (rd : BitVec 5) (ra : BitVec 5) (rb : BitVec 5)
  /-- R110: Writes the signed remainder, the dividend for a zero divisor. -/
  | rem (rd : BitVec 5) (ra : BitVec 5) (rb : BitVec 5)
  /-- R110: Writes the unsigned remainder, the dividend for a zero divisor. -/
  | remu (rd : BitVec 5) (ra : BitVec 5) (rb : BitVec 5)
  /-- R111: Writes a times b plus c modulo 2^64. -/
  | mad (rd : BitVec 5) (ra : BitVec 5) (rb : BitVec 5) (rc : BitVec 5)
  /-- R111: Writes a when c is nonzero, else b. -/
  | sel (rd : BitVec 5) (ra : BitVec 5) (rb : BitVec 5) (rc : BitVec 5)
  /-- R111: Writes signed min(max(a, b), c). -/
  | clamp (rd : BitVec 5) (ra : BitVec 5) (rb : BitVec 5) (rc : BitVec 5)
  /-- R112: Adds a sign-extended 16-bit immediate to a scalar register. -/
  | addi (rd : BitVec 5) (ra : BitVec 5) (imm : BitVec 16)
  /-- R112: ANDs a zero-extended 16-bit immediate into a scalar register. -/
  | andi (rd : BitVec 5) (ra : BitVec 5) (imm : BitVec 16)
  /-- R112: ORs a zero-extended 16-bit immediate into a scalar register. -/
  | ori (rd : BitVec 5) (ra : BitVec 5) (imm : BitVec 16)
  /-- R112: XORs a zero-extended 16-bit immediate into a scalar register. -/
  | xori (rd : BitVec 5) (ra : BitVec 5) (imm : BitVec 16)
  /-- R112: Writes 1 when the register is signed-less than the sign-extended immediate. -/
  | slti (rd : BitVec 5) (ra : BitVec 5) (imm : BitVec 16)
  /-- R113: Shifts a scalar register left by an immediate. -/
  | slli (rd : BitVec 5) (ra : BitVec 5) (pos : BitVec 6)
  /-- R113: Shifts a scalar register right logically by an immediate. -/
  | srli (rd : BitVec 5) (ra : BitVec 5) (pos : BitVec 6)
  /-- R113: Shifts a scalar register right arithmetically by an immediate. -/
  | srai (rd : BitVec 5) (ra : BitVec 5) (pos : BitVec 6)
  /-- R113: Extracts a zero-extended bit field. -/
  | bfx (rd : BitVec 5) (ra : BitVec 5) (pos : BitVec 6) (wm1 : BitVec 6)
  /-- R113: Inserts the low bits of a register into a bit field of the destination, keeping other bits. -/
  | bfi (rd : BitVec 5) (ra : BitVec 5) (pos : BitVec 6) (wm1 : BitVec 6)
  /-- R114: Loads a sign-extended 21-bit immediate. -/
  | li (rd : BitVec 5) (imm : BitVec 21)
  /-- R114: Writes a 16-bit immediate into one 16-bit quarter of a register, keeping the rest. -/
  | lui (rd : BitVec 5) (h : BitVec 2) (imm : BitVec 16)
  /-- R115: Adds two fp32 values rounded in the named mode. -/
  | fadd (rd : BitVec 5) (ra : BitVec 5) (rb : BitVec 5) (rm : BitVec 3)
  /-- R115: Subtracts two fp32 values rounded in the named mode. -/
  | fsub (rd : BitVec 5) (ra : BitVec 5) (rb : BitVec 5) (rm : BitVec 3)
  /-- R115: Multiplies two fp32 values rounded in the named mode. -/
  | fmul (rd : BitVec 5) (ra : BitVec 5) (rb : BitVec 5) (rm : BitVec 3)
  /-- R115: Computes x times y plus z in fp32 with one rounding. -/
  | ffma (rd : BitVec 5) (ra : BitVec 5) (rb : BitVec 5) (rc : BitVec 5) (rm : BitVec 3)
  /-- R116: Writes the lesser of two fp32 values with NaN and signed-zero rules. -/
  | fmin (rd : BitVec 5) (ra : BitVec 5) (rb : BitVec 5)
  /-- R116: Writes the greater of two fp32 values with NaN and signed-zero rules. -/
  | fmax (rd : BitVec 5) (ra : BitVec 5) (rb : BitVec 5)
  /-- R115: Writes the correctly rounded fp32 reciprocal. -/
  | frcp (rd : BitVec 5) (ra : BitVec 5) (rm : BitVec 3)
  /-- R117: Writes 1 when the fp32 comparison condition holds, else 0. -/
  | fcmp (rd : BitVec 5) (ra : BitVec 5) (rb : BitVec 5) (cond : BitVec 3)
  /-- R118: Converts a scalar value between formats with the named rounding mode and saturation. -/
  | fcvt (rd : BitVec 5) (ra : BitVec 5) (dst : BitVec 6) (src : BitVec 6) (rm : BitVec 3) (sat : BitVec 1)
  /-- R119: Compares two scalar registers and transfers to the target when the condition holds. -/
  | br (cond : BitVec 3) (ra : BitVec 5) (rb : BitVec 5) (off : BitVec 9) (slot : BitVec 4)
  /-- R120: Transfers unconditionally to a relative line and slot. -/
  | jmp (off : BitVec 22) (slot : BitVec 4)
  /-- R121: Writes the return PC into s31 and transfers to the target. -/
  | call (off : BitVec 22) (slot : BitVec 4)
  /-- R122: Transfers to the PC held in a scalar register. -/
  | jmpr (ra : BitVec 5)
  /-- R122: Transfers to the PC held in s31. -/
  | ret
  /-- R124: Increments a loop counter and branches back while below the bound, else resets it and counts an exit. -/
  | loop (lc : BitVec 2) (ra : BitVec 5) (off : BitVec 9) (slot : BitVec 4)
  /-- R126: Waits for and pops a bit from the branch-outcome queue and branches when it equals the polarity. -/
  | brq (p : BitVec 1) (off : BitVec 9) (slot : BitVec 4)
  /-- R127: Waits for the stream's tokens and marks the stream arrived at the end of the job. -/
  | rdv
  /-- R123: Advances the PC with no other effect. -/
  | nop
  /-- R130: Waits until the stream's event flag is set, then clears it. -/
  | wfe
  /-- R130: Sets the event flag of the other two streams of the core. -/
  | sev
  /-- R134: Raises cause TRAP with a 16-bit code and enters the region handler. -/
  | trap (code : BitVec 16)
  /-- R135: Ends handler mode and resumes, kills or escalates the interrupted job as the frame directs. -/
  | eret
  /-- R192: Loads 1 to 8 bytes from the scratchpad, optionally as an acquire. -/
  | ld (rd : BitVec 5) (ra : BitVec 5) (size : BitVec 2) (order : BitVec 1) (imm : BitVec 12)
  /-- R192: Stores 1 to 8 bytes to the scratchpad, optionally as a release. -/
  | st (rs : BitVec 5) (ra : BitVec 5) (size : BitVec 2) (order : BitVec 1) (imm : BitVec 12)
  /-- R193: Atomically adds to a scratchpad word and returns the old value. -/
  | amoAdd (rd : BitVec 5) (ra : BitVec 5) (rb : BitVec 5) (w : BitVec 1)
  /-- R193: Atomically takes the signed minimum in a scratchpad word. -/
  | amoMin (rd : BitVec 5) (ra : BitVec 5) (rb : BitVec 5) (w : BitVec 1)
  /-- R193: Atomically takes the signed maximum in a scratchpad word. -/
  | amoMax (rd : BitVec 5) (ra : BitVec 5) (rb : BitVec 5) (w : BitVec 1)
  /-- R193: Atomically ANDs into a scratchpad word. -/
  | amoAnd (rd : BitVec 5) (ra : BitVec 5) (rb : BitVec 5) (w : BitVec 1)
  /-- R193: Atomically ORs into a scratchpad word. -/
  | amoOr (rd : BitVec 5) (ra : BitVec 5) (rb : BitVec 5) (w : BitVec 1)
  /-- R193: Atomically XORs into a scratchpad word. -/
  | amoXor (rd : BitVec 5) (ra : BitVec 5) (rb : BitVec 5) (w : BitVec 1)
  /-- R193: Atomically swaps a scratchpad word. -/
  | amoSwap (rd : BitVec 5) (ra : BitVec 5) (rb : BitVec 5) (w : BitVec 1)
  /-- R193: Atomically compares a scratchpad word and swaps on equality. -/
  | cas (rd : BitVec 5) (ra : BitVec 5) (rb : BitVec 5) (rc : BitVec 5) (w : BitVec 1)
  /-- R194: Waits until the stream's earlier accesses are performed at the named scope. -/
  | fence (scope : BitVec 3)
  /-- R195: Allocates a dynamic scratchpad range with guard granules. -/
  | spal (rd : BitVec 5) (ra : BitVec 5)
  /-- R195: Frees a dynamic scratchpad allocation. -/
  | spfree (ra : BitVec 5)
  /-- R253: Loads from the own layer's stack-scope replica. -/
  | lds (rd : BitVec 5) (ra : BitVec 5) (size : BitVec 2) (imm : BitVec 12)
  /-- R253: Enqueues a stack-scope write packet for the stack bus. -/
  | sts (rs : BitVec 5) (ra : BitVec 5) (size : BitVec 2) (imm : BitVec 12)
  /-- R255: Enqueues a stack-scope atomic add. -/
  | amosAdd (rd : BitVec 5) (ra : BitVec 5) (rb : BitVec 5) (w : BitVec 1)
  /-- R255: Enqueues a stack-scope atomic signed minimum. -/
  | amosMin (rd : BitVec 5) (ra : BitVec 5) (rb : BitVec 5) (w : BitVec 1)
  /-- R255: Enqueues a stack-scope atomic signed maximum. -/
  | amosMax (rd : BitVec 5) (ra : BitVec 5) (rb : BitVec 5) (w : BitVec 1)
  /-- R255: Enqueues a stack-scope atomic AND. -/
  | amosAnd (rd : BitVec 5) (ra : BitVec 5) (rb : BitVec 5) (w : BitVec 1)
  /-- R255: Enqueues a stack-scope atomic OR. -/
  | amosOr (rd : BitVec 5) (ra : BitVec 5) (rb : BitVec 5) (w : BitVec 1)
  /-- R255: Enqueues a stack-scope atomic XOR. -/
  | amosXor (rd : BitVec 5) (ra : BitVec 5) (rb : BitVec 5) (w : BitVec 1)
  /-- R255: Enqueues a stack-scope atomic swap. -/
  | amosSwap (rd : BitVec 5) (ra : BitVec 5) (rb : BitVec 5) (w : BitVec 1)
  /-- R255: Enqueues a stack-scope compare-and-swap. -/
  | cass (rd : BitVec 5) (ra : BitVec 5) (rb : BitVec 5) (rc : BitVec 5) (w : BitVec 1)
  /-- R257: Accepts a bulk broadcast of a scratchpad range to the cores of named roles over bulk slots. -/
  | sbcast (rd : BitVec 5) (ra : BitVec 5) (rb : BitVec 5) (rc : BitVec 5)
  /-- R259: Arms or disarms the stream's stack-scope watch range. -/
  | swatch (ra : BitVec 5) (rb : BitVec 5)
  /-- R260: Returns slot ownership, next-slot distance, round counter or stack queue occupancy. -/
  | slotq (rd : BitVec 5) (ra : BitVec 5)
  /-- R140: Adds fp32 lanes under an optional predicate. -/
  | vadd (vd : BitVec 6) (va : BitVec 6) (vb : BitVec 6) (mk : BitVec 3)
  /-- R140: Subtracts fp32 lanes. -/
  | vsub (vd : BitVec 6) (va : BitVec 6) (vb : BitVec 6) (mk : BitVec 3)
  /-- R140: Multiplies fp32 lanes. -/
  | vmul (vd : BitVec 6) (va : BitVec 6) (vb : BitVec 6) (mk : BitVec 3)
  /-- R140: Takes the lesser fp32 lane by the rule of fmin. -/
  | vmin (vd : BitVec 6) (va : BitVec 6) (vb : BitVec 6) (mk : BitVec 3)
  /-- R140: Takes the greater fp32 lane by the rule of fmax. -/
  | vmax (vd : BitVec 6) (va : BitVec 6) (vb : BitVec 6) (mk : BitVec 3)
  /-- R140: Clears bit 31 of each lane. -/
  | vabs (vd : BitVec 6) (va : BitVec 6) (mk : BitVec 3)
  /-- R140: Inverts bit 31 of each lane. -/
  | vneg (vd : BitVec 6) (va : BitVec 6) (mk : BitVec 3)
  /-- R141: Fused multiply-add over fp32 lanes or packed 16-bit halves. -/
  | vfma (vd : BitVec 6) (va : BitVec 6) (vb : BitVec 6) (vc : BitVec 6) (ty : BitVec 2)
  /-- R142: Adds packed bf16 or fp16 halves. -/
  | vaddPacked (vd : BitVec 6) (va : BitVec 6) (vb : BitVec 6) (mk : BitVec 3) (ty : BitVec 1)
  /-- R142: Subtracts packed 16-bit halves. -/
  | vsubPacked (vd : BitVec 6) (va : BitVec 6) (vb : BitVec 6) (mk : BitVec 3) (ty : BitVec 1)
  /-- R142: Multiplies packed 16-bit halves. -/
  | vmulPacked (vd : BitVec 6) (va : BitVec 6) (vb : BitVec 6) (mk : BitVec 3) (ty : BitVec 1)
  /-- R142: Takes the lesser of packed 16-bit halves. -/
  | vminPacked (vd : BitVec 6) (va : BitVec 6) (vb : BitVec 6) (mk : BitVec 3) (ty : BitVec 1)
  /-- R142: Takes the greater of packed 16-bit halves. -/
  | vmaxPacked (vd : BitVec 6) (va : BitVec 6) (vb : BitVec 6) (mk : BitVec 3) (ty : BitVec 1)
  /-- R142: Takes the magnitude of packed 16-bit halves. -/
  | vabsPacked (vd : BitVec 6) (va : BitVec 6) (mk : BitVec 3) (ty : BitVec 1)
  /-- R142: Negates packed 16-bit halves. -/
  | vnegPacked (vd : BitVec 6) (va : BitVec 6) (mk : BitVec 3) (ty : BitVec 1)
  /-- R143: Computes 2^x per fp32 lane, correctly rounded. -/
  | vexp2 (vd : BitVec 6) (va : BitVec 6) (mk : BitVec 3)
  /-- R143: Computes log2 per fp32 lane. -/
  | vlog2 (vd : BitVec 6) (va : BitVec 6) (mk : BitVec 3)
  /-- R143: Computes the reciprocal per fp32 lane. -/
  | vrcp (vd : BitVec 6) (va : BitVec 6) (mk : BitVec 3)
  /-- R143: Computes the reciprocal square root per fp32 lane. -/
  | vrsq (vd : BitVec 6) (va : BitVec 6) (mk : BitVec 3)
  /-- R144: Computes tanh per lane by a fixed rne composition. -/
  | vtanh (vd : BitVec 6) (va : BitVec 6) (mk : BitVec 3)
  /-- R144: Computes the sigmoid per lane by a fixed rne composition. -/
  | vsigm (vd : BitVec 6) (va : BitVec 6) (mk : BitVec 3)
  /-- R145: Compares lanes and writes a whole mask register. -/
  | vcmp (md : BitVec 3) (va : BitVec 6) (vb : BitVec 6) (mk : BitVec 3) (cond : BitVec 3) (ty : BitVec 2)
  /-- R146: Selects each lane from one of two registers by a mask. -/
  | vsel (vd : BitVec 6) (va : BitVec 6) (vb : BitVec 6) (sel : BitVec 3)
  /-- R147: ANDs 32-bit lanes. -/
  | vand (vd : BitVec 6) (va : BitVec 6) (vb : BitVec 6) (mk : BitVec 3)
  /-- R147: ORs 32-bit lanes. -/
  | vor (vd : BitVec 6) (va : BitVec 6) (vb : BitVec 6) (mk : BitVec 3)
  /-- R147: XORs 32-bit lanes. -/
  | vxor (vd : BitVec 6) (va : BitVec 6) (vb : BitVec 6) (mk : BitVec 3)
  /-- R147: Shifts lanes left. -/
  | vshl (vd : BitVec 6) (va : BitVec 6) (vb : BitVec 6) (mk : BitVec 3)
  /-- R147: Shifts lanes right logically. -/
  | vshr (vd : BitVec 6) (va : BitVec 6) (vb : BitVec 6) (mk : BitVec 3)
  /-- R147: Shifts lanes right arithmetically. -/
  | vsra (vd : BitVec 6) (va : BitVec 6) (vb : BitVec 6) (mk : BitVec 3)
  /-- R147: Adds lanes modulo 2^32. -/
  | viadd (vd : BitVec 6) (va : BitVec 6) (vb : BitVec 6) (mk : BitVec 3)
  /-- R147: Subtracts lanes modulo 2^32. -/
  | visub (vd : BitVec 6) (va : BitVec 6) (vb : BitVec 6) (mk : BitVec 3)
  /-- R147: Multiplies lanes modulo 2^32. -/
  | vimul (vd : BitVec 6) (va : BitVec 6) (vb : BitVec 6) (mk : BitVec 3)
  /-- R148: Converts lanes between fp32 and a sub-element of another format. -/
  | vcvt (vd : BitVec 6) (va : BitVec 6) (fmt : BitVec 6) (dir : BitVec 1) (rm : BitVec 3) (sat : BitVec 1) (part : BitVec 3)
  /-- R150: Quantises two 32-value blocks to an MX format and writes codes, scales, amax and saturation count. -/
  | vquant (vd : BitVec 6) (va : BitVec 6) (vs : BitVec 6) (fmt : BitVec 6)
  /-- R151: Dequantises MX codes with their scales to fp32. -/
  | vdeq (vd : BitVec 6) (va : BitVec 6) (vs : BitVec 6) (fmt : BitVec 6)
  /-- R152: Applies an optionally signed and scaled Hadamard transform to each 32-lane block. -/
  | vhad (vd : BitVec 6) (va : BitVec 6) (mn : BitVec 3) (norm : BitVec 1) (sign : BitVec 1)
  /-- R153: Permutes lanes by an index register through the crossbar. -/
  | vperm (vd : BitVec 6) (va : BitVec 6) (vb : BitVec 6) (mk : BitVec 3)
  /-- R153: Rotates lanes by an immediate through the crossbar. -/
  | vrot (vd : BitVec 6) (va : BitVec 6) (imm : BitVec 6) (mk : BitVec 3)
  /-- R153: Broadcasts the low 32 bits of a scalar register to lanes. -/
  | vbcast (vd : BitVec 6) (ra : BitVec 5) (mk : BitVec 3)
  /-- R160: Sums contributing lanes by a fixed tree and writes the sum to every lane. -/
  | vreds (vd : BitVec 6) (va : BitVec 6) (mk : BitVec 3) (ty : BitVec 2)
  /-- R160: Takes the maximum of contributing lanes and writes it to every lane. -/
  | vredx (vd : BitVec 6) (va : BitVec 6) (mk : BitVec 3) (ty : BitVec 2)
  /-- R161: Writes inclusive running sums in lane order. -/
  | vscan (vd : BitVec 6) (va : BitVec 6) (mk : BitVec 3) (ty : BitVec 2)
  /-- R155: Loads 256 scratchpad bytes into a vector register through the crossbar. -/
  | vld (vd : BitVec 6) (ra : BitVec 5) (imm : BitVec 7)
  /-- R155: Stores a vector register as 256 scratchpad bytes. -/
  | vst (vd : BitVec 6) (ra : BitVec 5) (imm : BitVec 7)
  /-- R155: Gathers one scratchpad word per lane by offsets in a vector register. -/
  | vgth (vd : BitVec 6) (ra : BitVec 5) (vi : BitVec 6) (imm : BitVec 7)
  /-- R157: Scatters one word per lane in increasing lane order. -/
  | vsct (vd : BitVec 6) (ra : BitVec 5) (vi : BitVec 6) (imm : BitVec 7)
  /-- R164: Inserts a scalar into one lane. -/
  | vins (vd : BitVec 6) (ra : BitVec 5) (lane : BitVec 6)
  /-- R164: Extracts one lane into a scalar register. -/
  | vext (rd : BitVec 5) (va : BitVec 6) (lane : BitVec 6)
  /-- R164: Selects the accumulator that the vector registers window. -/
  | vwin (acc : BitVec 3)
  /-- R164: Packs the low halves of lane pairs of two registers. -/
  | vpack (vd : BitVec 6) (va : BitVec 6) (vb : BitVec 6) (mk : BitVec 3)
  /-- R164: Unpacks 16-bit halves into zero-extended lanes. -/
  | vunpk (vd : BitVec 6) (va : BitVec 6) (mk : BitVec 3)
  /-- R165: ANDs two mask registers. -/
  | mand (md : BitVec 3) (ma : BitVec 3) (mb : BitVec 3)
  /-- R165: ORs two mask registers. -/
  | mor (md : BitVec 3) (ma : BitVec 3) (mb : BitVec 3)
  /-- R165: Inverts a mask register. -/
  | mnot (md : BitVec 3) (ma : BitVec 3)
  /-- R165: Counts the set bits of a mask into a scalar register. -/
  | mpop (ma : BitVec 3) (rs : BitVec 5)
  /-- R162: Sorts lanes by fp32 key descending and writes the payloads in that order. -/
  | vsortk (vd : BitVec 6) (va : BitVec 6) (vb : BitVec 6) (mk : BitVec 3)
  /-- R163: Writes Philox random words per lane and advances SRCTR. -/
  | vrng (vd : BitVec 6) (mk : BitVec 3)
  /-- R170: Writes the shape register of an operand tile. -/
  | tshape (tile : BitVec 3) (ra : BitVec 5)
  /-- R170: Zeroes every byte of an operand tile. -/
  | tzero (tile : BitVec 3)
  /-- R170: Fills an operand tile by popping 256-byte entries from a data queue. -/
  | tpop (tile : BitVec 3) (q : BitVec 2)
  /-- R171: Loads an operand tile from the scratchpad. -/
  | tld (tile : BitVec 3) (ra : BitVec 5) (imm : BitVec 14)
  /-- R171: Stores an operand tile to the scratchpad. -/
  | tst (tile : BitVec 3) (ra : BitVec 5) (imm : BitVec 14)
  /-- R174: Accumulates A times B-transposed into an accumulator on the leased bench. -/
  | mma (acc : BitVec 3) (ta : BitVec 3) (tb : BitVec 3)
  /-- R176: Accumulates a scaled product, popping e8m0 scales from sq. -/
  | mmas (acc : BitVec 3) (ta : BitVec 3) (tb : BitVec 3)
  /-- R174: Accumulates A times B into an accumulator. -/
  | mmat (acc : BitVec 3) (ta : BitVec 3) (tb : BitVec 3)
  /-- R180: Zeroes an accumulator tile. -/
  | azero (acc : BitVec 3)
  /-- R180: Loads an accumulator tile unconverted from the scratchpad. -/
  | ald (acc : BitVec 3) (ra : BitVec 5) (imm : BitVec 14)
  /-- R181: Converts an accumulator by the selected row and stores it, with a trailer for narrow outputs. -/
  | ast (acc : BitVec 3) (ra : BitVec 5) (imm : BitVec 14)
  /-- R180: Transposes one accumulator into another. -/
  | atr (ad : BitVec 3) (asrc : BitVec 3)
  /-- R182: Releases any held lease, requests the bench and waits for the grant of n commands. -/
  | lease (n : BitVec 7)
  /-- R182: Releases the bench lease if held. -/
  | unlease
  /-- R172: Chooses the loop counter that selects the format row. -/
  | fmtsel (k : BitVec 2)
  /-- R272: Pushes 256 scratchpad bytes into a data queue from L. -/
  | qpushDq (n : BitVec 2) (ra : BitVec 5)
  /-- R272: Pushes a vector register into an output queue from C. -/
  | qpushOq (n : BitVec 1) (vs : BitVec 6)
  /-- R272: Pops a data-queue entry into a vector register in C. -/
  | qpopDq (n : BitVec 2) (vd : BitVec 6)
  /-- R272: Pops an output-queue entry into the scratchpad in S. -/
  | qpopOq (n : BitVec 1) (ra : BitVec 5)
  /-- R273: Returns head, tail and occupancy of a queue. -/
  | qstat (q : BitVec 3) (rd : BitVec 5)
  /-- R272: Pushes one branch-outcome bit into bq. -/
  | bqpush (ra : BitVec 5)
  /-- R274: Pushes a 16-bit token into a token FIFO. -/
  | tksend (fifo : BitVec 3) (ra : BitVec 5)
  /-- R274: Pops a token from a token FIFO. -/
  | tkrecv (fifo : BitVec 3) (rd : BitVec 5)
  /-- R274: Pushes 1 to 8 scale bytes into sq in one ac. -/
  | sqpush (ra : BitVec 5) (n : BitVec 3)
  /-- R276: Places a marker at the tail of each named command queue. -/
  | mark (mask : BitVec 4)
  /-- R277: Waits until every marker of the stream has reached its queue head. -/
  | joinm
  /-- R285: Issues a copy between tensor and scratchpad, dq or sq, possibly multicast or reducing. -/
  | cpy (tok : BitVec 5) (ra : BitVec 5) (rb : BitVec 5) (dir : BitVec 2) (dq : BitVec 2) (red : BitVec 1) (byte : BitVec 1) (nd : BitVec 2)
  /-- R286: Issues a quantising copy into a trailered MX tensor block. -/
  | cpyq (tok : BitVec 5) (ra : BitVec 5) (rb : BitVec 5) (byte : BitVec 1)
  /-- R287: Issues an indexed row gather from a tensor to scratchpad or dq. -/
  | gth (tok : BitVec 5) (ra : BitVec 5) (rb : BitVec 5) (dqdir : BitVec 1) (dq : BitVec 2)
  /-- R413: Issues a collective over the members of a rank role. -/
  | coll (tok : BitVec 5) (ra : BitVec 5) (rb : BitVec 5) (op : BitVec 3) (rop : BitVec 2)
  /-- R219: Issues a near-memory parameter update by 4 KiB granules with step numbers. -/
  | nmc (tok : BitVec 5) (ra : BitVec 5) (rb : BitVec 5) (mom : BitVec 1)
  /-- R420: Issues a video decode of a bitstream into an output tensor. -/
  | dec (tok : BitVec 5) (ra : BitVec 5) (rb : BitVec 5) (codec : BitVec 2) (layout : BitVec 1)
  /-- R361: Pins a tensor, rebuilding it first if dropped. -/
  | tref (rd : BitVec 5) (ra : BitVec 5)
  /-- R361: Removes a pin taken by tref. -/
  | tunpin (ra : BitVec 5)
  /-- R362: Sends a residency hint to move a tensor or clear its next use. -/
  | thint (ra : BitVec 5) (rb : BitVec 5)
  /-- R363: Opens a shadow version of an ordinary tensor. -/
  | tnewv (rd : BitVec 5) (ra : BitVec 5) (rb : BitVec 5)
  /-- R363: Opens a zero-filled shadow version. -/
  | tnewvZero (rd : BitVec 5) (ra : BitVec 5) (rb : BitVec 5)
  /-- R364: Publishes the open shadow after all admitted writes land. -/
  | pubv (rd : BitVec 5) (ra : BitVec 5)
  /-- R365: Returns one word of a tensor's residency state. -/
  | tinfo (rd : BitVec 5) (ra : BitVec 5) (rb : BitVec 5)
  /-- R366: Advances the operator position of the job's stream. -/
  | useadv (rd : BitVec 5) (ra : BitVec 5)
  /-- R367: Maps a cache triple to a new block. -/
  | kvalloc (rd : BitVec 5) (ra : BitVec 5) (rb : BitVec 5)
  /-- R367: Returns the mapping state of a cache triple. -/
  | kvmap (rd : BitVec 5) (ra : BitVec 5) (rb : BitVec 5)
  /-- R367: Maps a second triple to the block of a first and raises its share count. -/
  | kvshare (rd : BitVec 5) (ra : BitVec 5) (rb : BitVec 5) (rc : BitVec 5)
  /-- R367: Unmaps a cache triple and lowers the share count. -/
  | kvfree (rd : BitVec 5) (ra : BitVec 5) (rb : BitVec 5)
  /-- R299: Adds 32-bit lanes exactly modulo 2^32. -/
  | radd (vd : BitVec 6) (va : BitVec 6) (vb : BitVec 6)
  /-- R299: Subtracts 32-bit lanes exactly modulo 2^32. -/
  | rsub (vd : BitVec 6) (va : BitVec 6) (vb : BitVec 6)
  /-- R300: Multiplies fixed-point lanes and pushes the discarded low bits onto the cullet stack. -/
  | rmul (vd : BitVec 6) (va : BitVec 6) (vb : BitVec 6)
  /-- R300: Pops an rmul entry and restores the multiplied lanes exactly. -/
  | rmulUndo (vd : BitVec 6) (va : BitVec 6) (vb : BitVec 6)
  /-- R301: Shifts lanes right and pushes the discarded bits. -/
  | rshr (vd : BitVec 6) (va : BitVec 6) (k : BitVec 6)
  /-- R301: Pops an rshr entry and restores the shifted lanes. -/
  | rshrUndo (vd : BitVec 6) (va : BitVec 6) (k : BitVec 6)
  /-- R302: Applies a reversible leaky rectifier and pushes remainders. -/
  | rlrelu (vd : BitVec 6) (va : BitVec 6) (vb : BitVec 6)
  /-- R302: Pops an rlrelu entry and restores the input lanes. -/
  | rlreluUndo (vd : BitVec 6) (va : BitVec 6) (vb : BitVec 6)
  /-- R303: Narrows lanes by truncation and pushes the discarded bits. -/
  | rnrw (vd : BitVec 6) (va : BitVec 6) (fmt : BitVec 6)
  /-- R303: Pops an rnrw entry and restores the wide lanes. -/
  | rnrwUndo (vd : BitVec 6) (va : BitVec 6) (fmt : BitVec 6)
  /-- R305: Pushes a 16-bit marker entry onto the cullet stack. -/
  | cmark (imm : BitVec 16)
  /-- R305: Checks and pops a cullet marker entry. -/
  | cchk (imm : BitVec 16)
  /-- R311: Detaches the current cullet tensor and attaches another. -/
  | catt (ra : BitVec 5)
  /-- R306: Returns the cullet depth, on-core bytes and spilled chunks. -/
  | cdepth (rd : BitVec 5)
  /-- R386: Reads one counter through a 13-bit index. -/
  | rdcnt (rd : BitVec 5) (ra : BitVec 5) (imm : BitVec 13)
  /-- R387: Writes a performance counter selection and clears that counter. -/
  | cntsel (ra : BitVec 5) (imm : BitVec 13)
  /-- R389: Clears a pmc, the bank-conflict matrix, the snapshots or the loop-exit count. -/
  | cntclr (imm : BitVec 13)
  /-- R390: Reads the package time base. -/
  | rdtime (rd : BitVec 5)
  /-- R391: Stalls C until LWC is at most a bound. -/
  | waitc (imm : BitVec 13)
  /-- R391: Sets the stream's buffer tag. -/
  | bufsel (imm : BitVec 13)
  /-- R393: Takes a bank-conflict snapshot and returns the prior snapshot count. -/
  | psnap (rd : BitVec 5)
  /-- R101: Reads a control register, zero for handler-only registers outside handler mode. -/
  | getc (reg : BitVec 5) (creg : BitVec 12)
  /-- R101: Writes a control register with range checks. -/
  | setc (reg : BitVec 5) (creg : BitVec 12)
  /-- R331: Appends an operator record to an operator stream and signals the walker. -/
  | launch (rd : BitVec 5) (ra : BitVec 5) (rb : BitVec 5)
  /-- R206: Invalidates block translation cache entries across the package. -/
  | binv (ra : BitVec 5) (rb : BitVec 5)
  /-- R261: Stages a stack-bus slot table entry for the next round boundary. -/
  | slotset (ra : BitVec 5) (rb : BitVec 5)
  /-- R81: A decoded word that is no instruction (an unlisted major or selector, or a nonzero reserved field) raises
  ILLEGAL_OP precisely. -/
  | illegalOp (w : BitVec 32)
  /-- R154: A vld, vgth, vsct, vperm or vrot completes and decrements LWC, which can release a waiting waitc or a 33rd
  crossbar instruction. -/
  | crossbarInstructionCompletion (core : Nat)
  /-- R322: A host write of an operator stream's tail wakes the sequencer. -/
  | hostTailWrite (col idx : Nat) (tail : BitVec 64)
  /-- R333: The sequencer checks a record, applies use lists, opens shadows and hands the nest to walkers. -/
  | operatorRecordStart (col idx : Nat)
  /-- R234: After all jobs retire and writes are performed, shadows are published and done rises. -/
  | operatorEnd (col idx : Nat)
  /-- R328: A walker hands a ready or saved tile to a free core of the group after region arbitration. -/
  | tileHandOut (layer : Nat)
  /-- R129: When all three streams have arrived, the job is checked and retired. -/
  | jobRetirement (core : Nat)
  /-- R337: The control plane pre-empts a lower-priority job to serve a floor or preempt region. -/
  | preemption (core : Nat)
  /-- R369: A core stops all streams, completes in-flight work and saves its context area. -/
  | coreStop (core : Nat)
  /-- R379: The core restores a context area and each stream continues at its line address. -/
  | resume (core : Nat)
  /-- R377: The runtime orders resume or kill of an escalated stop through the management plane. -/
  | mgmtEretOrder (core : Nat) (action : BitVec 8)
  /-- R99: TIMER reaching TIMERCMP raises a trap to the handler. -/
  | timerTrap (core : Nat)
  /-- R270: A watchdog count reaching its limit faults the waiting stream. -/
  | queueDeadlock (core : Nat) (strm : Strm)
  /-- R278: An engine takes a command from the head of its queue. -/
  | engineCommandAcceptance (eng : Engine)
  /-- R281: A held command begins moving bytes when the commands it is held behind complete. -/
  | rangeHoldRelease (core : Nat) (strm : Strm) (seq : Nat)
  /-- R285: An engine pushes a transfer's next entry into a dq or sq once it has room. -/
  | engineQueuePush (core : Nat) (strm : Strm) (seq : Nat)
  /-- R278: A command finishes and its status word is written into its token. -/
  | engineCommandCompletion (core : Nat) (strm : Strm) (seq : Nat)
  /-- R208: A transfer faults, writes its record and stops the core. -/
  | transferFault (core : Nat) (strm : Strm) (seq : Nat)
  /-- R205: A walker fetches a block descriptor into a translation cache. -/
  | translationWalk (core : Nat) (strm : Strm) (seq : Nat)
  /-- R228: A column applies a package-scope write or stamp once its vector-clock conditions hold. -/
  | writeApply (col n : Nat)
  /-- R229: A serving column serves a tensor read once its vector clock covers the reader's. -/
  | readServe (core : Nat) (strm : Strm) (seq : Nat)
  /-- R183: A free bench is granted to a requesting core. -/
  | benchLeaseGrant (bench : Nat)
  /-- R178: A held chunk takes arriving scales and continues. -/
  | heldChunkScaleArrival (core : Nat)
  /-- R246: A stack-bus round begins and the round counter advances. -/
  | stackRoundBoundary (col : Nat) (sleep : List (Nat × Nat))
  /-- R248: A slot accepts packets or one bulk beat from its owner. -/
  | stackSlot (col : Nat)
  /-- R250: Every awake layer applies a slot's content four ac after it. -/
  | stackSlotApply (col : Nat)
  /-- R264: Participating replicas become fresh. -/
  | resyncEnd (col : Nat)
  /-- R428: A layer pair finishes leaving retention or gated. -/
  | layerPairWakeDone (col pair : Nat)
  /-- R427: The arbiter forms grants for the next 1 us window. -/
  | powerGrantWindow (accepted demand : List Nat)
  /-- R429: A sensor at 105 C halves the column's compute grant. -/
  | thermalHigh (col pair sensor : Nat)
  /-- R429: A sensor at 115 C debug-stops the column and reports to the host. -/
  | thermalCritical (col pair sensor : Nat)
  /-- R430: A rail out of tolerance stops every core. -/
  | railOutOfTolerance (rail : Nat)
  /-- R350: An engine evaluates a partition and starts spill, compress or drop actions. -/
  | evictionEvaluation (col tier : Nat)
  /-- R353: A spill, compression, move or drop completes and the state is set. -/
  | residencyActionDone (handle : Nat)
  /-- R353: An action met by a new pin or transfer stops at a block boundary. -/
  | residencyActionStop (handle : Nat)
  /-- R356: The home engine rebuilds a dropped tensor, recursing into dropped inputs. -/
  | rebuild (handle depth : Nat)
  /-- R357: A recipe job is started on a free core of the home column. -/
  | recipeJobStart (handle : Nat)
  /-- R357: No free core within 1,024 ac pre-empts a job for the recipe. -/
  | recipeCoreTimeout (handle : Nat)
  /-- R357: A recipe job exceeding rlimit instructions is killed. -/
  | recipeLimitKill (core : Nat)
  /-- R356: The recipe job ends and the tensor becomes resident or returns to dropped. -/
  | rebuildComplete (handle : Nat)
  /-- R312: A chunk of the ring begins to spill to the cullet tensor. -/
  | culletSpillStart (core : Nat)
  /-- R312: The spill completes and base advances. -/
  | culletSpillDone (core : Nat)
  /-- R313: The highest chunk begins to refill below base. -/
  | culletRefillStart (core : Nat)
  /-- R313: The refill completes and base retreats. -/
  | culletRefillDone (core : Nat)
  /-- R407: A receiver takes a flit, correcting, discarding or delivering it in sequence. -/
  | flitReceive (link : Nat) (flit : FlitIn)
  /-- R408: A retrained lane rejoins after 65,536 clean test flits. -/
  | laneHandBack (link : LaneTest)
  /-- R409: The runtime retrains a down link. -/
  | linkRetrain (link : Nat)
  /-- R417: A host access through CXL.mem reaches host-bit blocks or is refused. -/
  | cxlMemHostAccess (loc off n : Nat) (write : Option (List Byte))
  /-- R416: A runtime CXL.io write to a register or record with no row of its own. -/
  | runtimeRegisterWrite (fn : Option (BitVec 3)) (item : RuntimeItem)
  /-- R344: A watermark write that would leave WM_LO at or above WM_HI sets WM_LO to WM_HI minus 1. -/
  | watermarkWrite (col tier : Nat) (hi : Bool) (v : BitVec 16)
  /-- R344: Writes RECIPE_DEPTH_MAX, ignoring 0 or values above 8. -/
  | recipeDepthMaxWrite (col : Nat) (v : BitVec 8)
  /-- R213: Changes a column-cache partition after vacating and writing back. -/
  | partitionSizeSet (col units : Nat)
  /-- R427: Firmware writes the board power limit. -/
  | limitWrite (watts : BitVec 16)
  /-- R425: The physical function clears BOOTFAIL. -/
  | bootfailClear
  /-- R423: Start-up runs boot stages or enters minimal mode after three failures. -/
  | reset
  /-- R423: Firmware writes BOOTOK, clearing BOOTFAIL. -/
  | bootok
  /-- R423: No BOOTOK within 2 s resets the package as a failed start. -/
  | bootWatchdogExpiry
  /-- R426: SPDM request answered with supported versions. -/
  | getVersion
  /-- R426: SPDM request answered with capabilities. -/
  | getCapabilities
  /-- R426: SPDM negotiation offering only the listed algorithms, else ERROR. -/
  | negotiateAlgorithms (offer : List SpdmAlg)
  /-- R426: SPDM request for certificate digests. -/
  | getDigests
  /-- R426: SPDM request for the slot 0 certificate chain. -/
  | getCertificate (slot : Nat)
  /-- R426: SPDM challenge signed with the identity key. -/
  | challenge (nonce : List Byte)
  /-- R426: SPDM request for ROM, firmware and SVN measurements. -/
  | getMeasurements (index : Nat)
  /-- R426: SPDM key exchange over secp384r1. -/
  | keyExchange (share : List Byte)
  /-- R426: SPDM FINISH establishing the session. -/
  | finish (verify : List Byte)
  /-- R397: The management plane stops a set of cores at one ac. -/
  | debugStopRequest (set : List Nat)
  /-- R399: Releases debug-stopped cores and restarts TIMER. -/
  | debugRelease (set : List Nat)
  /-- R401: Reads one 8-byte debug item with a status code. -/
  | debugRead (addr : BitVec 64)
  /-- R401: Writes one 8-byte debug item or breakpoint. -/
  | debugWrite (addr v : BitVec 64)
  /-- R402: A trace control write starts or restarts recording. -/
  | trctlWrite (layer : Nat) (v : BitVec 64)
  /-- R403: Recording ends after its count and sets done. -/
  | traceEnd (layer : Nat)
  /-- R422: Loss of the 12 V auxiliary power clears BOOTFAIL and BOOTREASON, which are otherwise kept through every reset. -/
  | auxiliaryPowerLoss
  /-- R422: Firmware burns SVN fuses after a verified update, raising the least accepted security version. -/
  | firmwareFuseBurn (bits : BitVec 64)
  deriving DecidableEq, Repr, Inhabited

end Sys2Proof
end

