-- ==== Sys2Proof/Config.lean ====
section
/-! DEFINITION. What the manual leaves to the part or to outside standards, as free values: opaque constants with no
body, so that no proof can see what they are. -/
namespace Sys2Proof

/-- A decoded video: what a coding standard outside the manual makes of a bitstream (R419, R420). -/
structure Video where
  /-- Bytes are corrupt or outside R419 after `frames` whole frames. -/
  bad : Bool
  /-- Frames decoded before the end or the error. -/
  frames : Nat
  width : Nat
  height : Nat
  /-- Bit depth is 8, so samples are taken times 4 (R420). -/
  eightBit : Bool
  mono : Bool
  /-- Samples of one plane of one frame, in row order; chroma planes at half width and height. -/
  samples : List (List Nat)
  deriving DecidableEq, Repr, Inhabited

/-- The frames a codec (0 AV1, 1 HEVC) decodes from a bitstream: the coding standards are outside the manual (R419).
DESIGN CHOICE, safe: log entry 24. -/
opaque Config.video : Nat → List Byte → Video

/-- The KEYHASH fuses, set at manufacture (R422). -/
opaque Config.keyHash : BitVec 384

/-- The SVN fuses as set at manufacture (R422). -/
opaque Config.svnAtManufacture : W64

/-- The 24 check symbols that RS(256, 232) gives to the first 232 bytes of a flit, as one number (R406): the manual names no
generator. DESIGN CHOICE, safe: log entry 52. -/
opaque Config.rsCheck : List Byte → BitVec 192

/-- What RS(256, 232) makes of a received flit that no codeword lies within 12 byte errors of: a flit and the byte positions
corrected, or none (R406). DESIGN CHOICE, safe: log entry 52. -/
opaque Config.rsDecode : List Byte → Option (List Byte × List Nat)

/-- Energy, in nJ, that a core (by COREID) has drawn up to an ac, with its share of its bench (R384): the manual gives no
formula. DESIGN CHOICE, safe: log entry 8. -/
opaque Config.energy : Nat → Nat → BitVec 48

/-- Whether self-test, memory and waveguide training of a start-up succeed (R423, R425); the argument is a fresh counter. -/
opaque Config.startUpGood : Nat → Bool

/-- Whether a FINISH request proves its session (R426): the check is that of the SPDM standard. -/
opaque Config.finishValid : List Byte → Bool

/-- The banks in which a permute on the crossbar gives way to other requesters (R154), by the lanes that its lanes take: the
manual does not name them. DESIGN CHOICE, safe: log entry 96. -/
opaque Config.permuteBanks : List Nat → List Nat

/-- The nominal voltage of a rail, in mV (R427): 0 compute, 1 SRAM, 2 base logic, 3 optics, 4 HBM, 5 far DRAM. The manual
gives no voltages. DESIGN CHOICE, safe: log entry 94. -/
opaque Config.millivolts : Nat → Nat

/-- The power, in mW, that one piece of work needs on a rail in a window (R427); the argument is a fresh counter. The manual
gives no powers. DESIGN CHOICE, safe: log entry 94. -/
opaque Config.workPower : Nat → Nat

/-- How far, in a window in which a column's grant is below its demand, the arbiter limits a core (by COREID) in an ac:
from 1 on it withholds a bench chunk's start, from 2 on vector issue too, from 3 on scalar issue too. R340 gives no
numbers. DESIGN CHOICE, safe: log entry 81. -/
opaque Config.withholds : Nat → Nat → Nat

/-- What the checks of a rank in another package say of a coll (R238, R241, R414): they pass, its command differs, its
destination denies or is refused otherwise (handle, block, cause, detail), or its shadow does not match. -/
inductive RemoteAnswer where
  | passes
  | differs
  | denies (handle block detail : Nat)
  | refuses (handle block cause detail : Nat)
  | stale
  deriving DecidableEq, Repr, Inhabited

/-- The answer of a rank in another package to a coll; the argument is a fresh counter. What happens there is outside this
package. DESIGN CHOICE, safe: log entry 16. -/
opaque Config.remoteAnswer : Nat → RemoteAnswer

/-- Contents of a block or accumulated value the manual leaves undefined; the argument is a fresh counter. -/
opaque Config.freeByte : Nat → Byte

/-- Whether a read of a 4 KiB granule meets an error its ECC cannot correct (R211, R219); the argument is a fresh
counter. -/
opaque Config.eccError : Nat → Bool

/-- A byte of the column cache's partition of an SRAM layer, by its offset there and the lines that the layer holds, as line
number and words: the manual does not say where the cache keeps them (R214). DESIGN CHOICE, safe: log entry 12. -/
opaque Config.cacheByte : Nat → List (Nat × List Nat) → Byte

/-- The answers of the SPDM responder beyond what R426 fixes: certificates, digests, signatures and key shares, by a fresh
counter, the request's place in R426's list, and its payload. -/
opaque Config.spdm : Nat → Nat → List Byte → List Byte

/-- The digest of the boot ROM, measurement 1 (R426). -/
opaque Config.romDigest : BitVec 384

/-- The firmware image in boot flash at manufacture (R423). -/
opaque Config.bootImage : List Byte

end Sys2Proof
end

