-- ==== Sys2Proof/Machine/Codes.lean ====
section
/-! DEFINITION. The code spaces that instruction fields name: formats (R31), rounding modes (R39), control registers
(R94), cause codes (R368) and token status codes (R104). -/
namespace Sys2Proof.Machine

/-- Width in bits of a format code of R31; 0 for a reserved code. -/
def fmtWidth (f : Nat) : Nat :=
  if f = 0x00 ∨ f = 0x0A ∨ f = 0x0B then 32
  else if f = 0x01 ∨ f = 0x02 then 16
  else if f = 0x05 then 4
  else if f = 0x03 ∨ f = 0x04 ∨ f = 0x06 ∨ f = 0x08 ∨ f = 0x09 then 8
  else if 0x10 ≤ f ∧ f ≤ 0x2E ∧ f % 8 ≠ 7 then 8
  else 0

/-- The format code is not reserved (R31). -/
def fmtValid (f : Nat) : Bool := fmtWidth f != 0

/-- A format of the sb8 or ub8 families (R31, R37). -/
def fmtP3109 (f : Nat) : Bool := 0x10 ≤ f && f ≤ 0x2E && f % 8 != 7

/-- An element format that vquant, vdeq, cpyq and scaled tiles take (R60, R149, R286). -/
def fmtMx (f : Nat) : Bool := f == 0x03 || f == 0x04 || f == 0x05 || fmtP3109 f

/-- The formats rnrw takes: bf16 or an 8-bit floating-point format (R297). -/
def fmtNarrow (f : Nat) : Bool := f == 0x01 || f == 0x03 || f == 0x04 || fmtP3109 f

/-- int8 and uint8, the integer bench inputs (R54). -/
def fmtInt8 (f : Nat) : Bool := f == 0x08 || f == 0x09

/-- The floating-point bench inputs of R31. -/
def fmtFloatBench (f : Nat) : Bool :=
  f == 0x01 || f == 0x02 || fmtMx f

/-- The source formats of cpyq: values in a floating-point layout (R218). -/
def fmtQuantSrc (f : Nat) : Bool := f == 0x00 || fmtFloatBench f

/-- The rounding-mode code is one of R39's five modes. -/
def rmValid (m : Nat) : Bool := m ≤ 4

/-- Extent of an MX block along K and along M or N, by geometry code (R52). -/
def geomBk (g : Nat) : Nat := 32 / 2 ^ g
def geomBj (g : Nat) : Nat := 2 ^ g

/-! ### Control registers (R94) -/

/-- The number names a control register. -/
def cregAssigned (c : Nat) : Bool :=
  c ≤ 0x00A || (0x010 ≤ c && c ≤ 0x016) || (0x020 ≤ c && c ≤ 0x027) || (0x100 ≤ c && c ≤ 0x109)

/-- setc of this register is refused as an encoding (R94, R101: read-only). -/
def cregReadOnly (c : Nat) : Bool :=
  c == 0x000 || c == 0x012 || c == 0x013 || c == 0x016 || (0x100 ≤ c && c ≤ 0x104) || c == 0x107 || c == 0x108

/-- setc of this register needs handler mode (R94, R80). -/
def cregSetPriv (c : Nat) : Bool := c == 0x105 || c == 0x106 || c == 0x109

/-- Registers that setc writes and the streams of a core share (R94). -/
def cregShared (c : Nat) : Bool := c == 0x00A || c == 0x105 || c == 0x106 || c == 0x109

/-- getc outside handler mode reads zero (R94, R101). -/
def cregHandlerRead (c : Nat) : Bool := (0x100 ≤ c && c ≤ 0x104) || c == 0x107 || c == 0x108 || c == 0x109

/-- Held by the C stream only (R94). -/
def cregCOnly (c : Nat) : Bool := (0x010 ≤ c && c ≤ 0x016) || (0x020 ≤ c && c ≤ 0x027)

/-- Held by C and S only (R94). -/
def cregCS (c : Nat) : Bool := c == 0x008 || c == 0x009

end Sys2Proof.Machine
end

