-- ==== Sys2Proof/WellFormed.lean ====
section
/-! DEFINITION. The limits of R78 and R81 on the field values of an instruction. A word that breaks one is ILLEGAL_OP.
An event carries no word and is always well formed. -/
namespace Sys2Proof
open Sys2Proof.Machine

/-- The field values of the instruction lie inside the limits of R78, R81 and R101. -/
def Instr.wf (i : Instr) : Bool :=
  match i with
  | .bfx _ _ pos wm1 => pos.toNat + wm1.toNat + 1 ≤ 64
  | .bfi _ _ pos wm1 => pos.toNat + wm1.toNat + 1 ≤ 64
  | .fadd _ _ _ rm => rmValid rm.toNat
  | .fsub _ _ _ rm => rmValid rm.toNat
  | .fmul _ _ _ rm => rmValid rm.toNat
  | .ffma _ _ _ _ rm => rmValid rm.toNat
  | .frcp _ _ rm => rmValid rm.toNat
  | .fcvt _ _ dst src rm _ => fmtValid dst.toNat && fmtValid src.toNat && rmValid rm.toNat
  | .br cond _ _ _ _ => cond.toNat ≤ 5
  | .fence scope => scope.toNat ≤ 4
  | .vfma _ _ _ _ ty => ty.toNat ≠ 3
  | .vcmp _ _ _ _ cond ty => ty.toNat ≠ 3 && (cond.toNat < 6 || ty.toNat == 0)
  | .vcvt _ _ fmt _ rm _ part => fmtValid fmt.toNat && rmValid rm.toNat && (part.toNat + 1) * fmtWidth fmt.toNat ≤ 32
  | .vquant _ _ _ fmt => fmtMx fmt.toNat
  | .vdeq _ _ _ fmt => fmtMx fmt.toNat
  | .vhad _ _ mn _ sign => sign.toNat == 1 || mn.toNat == 0
  | .vreds _ _ _ ty => ty.toNat ≠ 3
  | .vredx _ _ _ ty => ty.toNat ≠ 3
  | .vscan _ _ _ ty => ty.toNat ≠ 3
  | .lease n => 1 ≤ n.toNat && n.toNat ≤ 64
  | .qstat q _ => q.toNat ≤ 5
  | .tksend fifo _ => fifo.toNat ≤ 5
  | .tkrecv fifo _ => fifo.toNat ≤ 5
  | .mark mask => mask.toNat ≠ 0
  | .cpy _ _ _ dir dq red _ nd => (dir.toNat == 1 || (red.toNat == 0 && nd.toNat == 0)) && (dir.toNat == 2 || dq.toNat == 0)
  | .gth _ _ _ dqdir dq => dqdir.toNat == 1 || dq.toNat == 0
  | .coll _ _ _ op rop => op.toNat ≤ 5 && rop.toNat ≤ 2 && (op.toNat == 1 || op.toNat == 2 || rop.toNat == 0)
  | .dec _ _ _ codec _ => codec.toNat ≤ 1
  | .rshr _ _ k => k.toNat ≤ 31
  | .rshrUndo _ _ k => k.toNat ≤ 31
  | .rnrw _ _ fmt => fmtNarrow fmt.toNat
  | .rnrwUndo _ _ fmt => fmtNarrow fmt.toNat
  | .getc _ creg => cregAssigned creg.toNat
  | .setc _ creg => cregAssigned creg.toNat && !cregReadOnly creg.toNat
  | .illegalOp _ => false
  | _ => true

/-- The constructor stands for an instruction word, not for an event of the table. -/
def Instr.isEvent (i : Instr) : Bool :=
  match i with
  | .crossbarInstructionCompletion .. => true
  | .hostTailWrite .. => true
  | .operatorRecordStart .. => true
  | .operatorEnd .. => true
  | .tileHandOut .. => true
  | .jobRetirement .. => true
  | .preemption .. => true
  | .coreStop .. => true
  | .resume .. => true
  | .mgmtEretOrder .. => true
  | .timerTrap .. => true
  | .queueDeadlock .. => true
  | .engineCommandAcceptance .. => true
  | .rangeHoldRelease .. => true
  | .engineQueuePush .. => true
  | .engineCommandCompletion .. => true
  | .transferFault .. => true
  | .translationWalk .. => true
  | .writeApply .. => true
  | .readServe .. => true
  | .benchLeaseGrant .. => true
  | .heldChunkScaleArrival .. => true
  | .stackRoundBoundary .. => true
  | .stackSlot .. => true
  | .stackSlotApply .. => true
  | .resyncEnd .. => true
  | .layerPairWakeDone .. => true
  | .powerGrantWindow .. => true
  | .thermalHigh .. => true
  | .thermalCritical .. => true
  | .railOutOfTolerance .. => true
  | .evictionEvaluation .. => true
  | .residencyActionDone .. => true
  | .residencyActionStop .. => true
  | .rebuild .. => true
  | .recipeJobStart .. => true
  | .recipeCoreTimeout .. => true
  | .recipeLimitKill .. => true
  | .rebuildComplete .. => true
  | .culletSpillStart .. => true
  | .culletSpillDone .. => true
  | .culletRefillStart .. => true
  | .culletRefillDone .. => true
  | .flitReceive .. => true
  | .laneHandBack .. => true
  | .linkRetrain .. => true
  | .cxlMemHostAccess .. => true
  | .runtimeRegisterWrite .. => true
  | .watermarkWrite .. => true
  | .recipeDepthMaxWrite .. => true
  | .partitionSizeSet .. => true
  | .limitWrite .. => true
  | .bootfailClear .. => true
  | .reset .. => true
  | .bootok .. => true
  | .bootWatchdogExpiry .. => true
  | .getVersion .. => true
  | .getCapabilities .. => true
  | .negotiateAlgorithms .. => true
  | .getDigests .. => true
  | .getCertificate .. => true
  | .challenge .. => true
  | .getMeasurements .. => true
  | .keyExchange .. => true
  | .finish .. => true
  | .debugStopRequest .. => true
  | .debugRelease .. => true
  | .debugRead .. => true
  | .debugWrite .. => true
  | .trctlWrite .. => true
  | .traceEnd .. => true
  | .auxiliaryPowerLoss .. => true
  | .firmwareFuseBurn .. => true
  | _ => false

end Sys2Proof
end

