-- ==== Sys2Proof/Decode.lean ====
section
/-! DEFINITION. The decoder and the encoder, both written from the field tables of R75 to R79. Words are read as
natural numbers, so that a field is a division and a remainder. -/
namespace Sys2Proof

/-- Bits [hi:lo] of a word. -/
def fld (w hi lo : Nat) : Nat := w / 2 ^ lo % 2 ^ (hi + 1 - lo)

/-- The `n` bits of a word that begin at bit `lo`. -/
def fldv (n w lo : Nat) : BitVec n := BitVec.ofNat n (w / 2 ^ lo)

/-- Major 0x01 of R78. -/
def decodeMajor01 (w : Nat) : Option Instr :=
  if fld w 10 0 = 0 then some (.add (fldv 5 w 21) (fldv 5 w 16) (fldv 5 w 11))
  else if fld w 10 0 = 1 then some (.sub (fldv 5 w 21) (fldv 5 w 16) (fldv 5 w 11))
  else if fld w 10 0 = 2 then some (.and (fldv 5 w 21) (fldv 5 w 16) (fldv 5 w 11))
  else if fld w 10 0 = 3 then some (.or (fldv 5 w 21) (fldv 5 w 16) (fldv 5 w 11))
  else if fld w 10 0 = 4 then some (.xor (fldv 5 w 21) (fldv 5 w 16) (fldv 5 w 11))
  else if fld w 10 0 = 5 then some (.sll (fldv 5 w 21) (fldv 5 w 16) (fldv 5 w 11))
  else if fld w 10 0 = 6 then some (.srl (fldv 5 w 21) (fldv 5 w 16) (fldv 5 w 11))
  else if fld w 10 0 = 7 then some (.sra (fldv 5 w 21) (fldv 5 w 16) (fldv 5 w 11))
  else if fld w 10 0 = 8 then some (.min (fldv 5 w 21) (fldv 5 w 16) (fldv 5 w 11))
  else if fld w 10 0 = 9 then some (.max (fldv 5 w 21) (fldv 5 w 16) (fldv 5 w 11))
  else if fld w 10 0 = 10 then some (.minu (fldv 5 w 21) (fldv 5 w 16) (fldv 5 w 11))
  else if fld w 10 0 = 11 then some (.maxu (fldv 5 w 21) (fldv 5 w 16) (fldv 5 w 11))
  else if fld w 10 0 = 12 then some (.slt (fldv 5 w 21) (fldv 5 w 16) (fldv 5 w 11))
  else if fld w 10 0 = 13 then some (.sltu (fldv 5 w 21) (fldv 5 w 16) (fldv 5 w 11))
  else if fld w 10 0 = 14 then some (.seq (fldv 5 w 21) (fldv 5 w 16) (fldv 5 w 11))
  else if fld w 15 0 = 15 then some (.mov (fldv 5 w 21) (fldv 5 w 16))
  else if fld w 15 0 = 16 then some (.clz (fldv 5 w 21) (fldv 5 w 16))
  else if fld w 15 0 = 17 then some (.ctz (fldv 5 w 21) (fldv 5 w 16))
  else if fld w 15 0 = 18 then some (.popc (fldv 5 w 21) (fldv 5 w 16))
  else none

/-- Major 0x02 of R78. -/
def decodeMajor02 (w : Nat) : Option Instr :=
  if fld w 10 0 = 0 then some (.mul (fldv 5 w 21) (fldv 5 w 16) (fldv 5 w 11))
  else if fld w 10 0 = 1 then some (.mulh (fldv 5 w 21) (fldv 5 w 16) (fldv 5 w 11))
  else if fld w 10 0 = 2 then some (.mulhu (fldv 5 w 21) (fldv 5 w 16) (fldv 5 w 11))
  else if fld w 10 0 = 3 then some (.div (fldv 5 w 21) (fldv 5 w 16) (fldv 5 w 11))
  else if fld w 10 0 = 4 then some (.divu (fldv 5 w 21) (fldv 5 w 16) (fldv 5 w 11))
  else if fld w 10 0 = 5 then some (.rem (fldv 5 w 21) (fldv 5 w 16) (fldv 5 w 11))
  else if fld w 10 0 = 6 then some (.remu (fldv 5 w 21) (fldv 5 w 16) (fldv 5 w 11))
  else none

/-- Major 0x03 of R78. -/
def decodeMajor03 (w : Nat) : Option Instr :=
  if fld w 5 0 = 0 then some (.mad (fldv 5 w 21) (fldv 5 w 16) (fldv 5 w 11) (fldv 5 w 6))
  else if fld w 5 0 = 1 then some (.sel (fldv 5 w 21) (fldv 5 w 16) (fldv 5 w 11) (fldv 5 w 6))
  else if fld w 5 0 = 2 then some (.clamp (fldv 5 w 21) (fldv 5 w 16) (fldv 5 w 11) (fldv 5 w 6))
  else none

/-- Major 0x04 of R78. -/
def decodeMajor04 (w : Nat) : Option Instr :=
  some (.addi (fldv 5 w 21) (fldv 5 w 16) (fldv 16 w 0))

/-- Major 0x05 of R78. -/
def decodeMajor05 (w : Nat) : Option Instr :=
  some (.andi (fldv 5 w 21) (fldv 5 w 16) (fldv 16 w 0))

/-- Major 0x06 of R78. -/
def decodeMajor06 (w : Nat) : Option Instr :=
  some (.ori (fldv 5 w 21) (fldv 5 w 16) (fldv 16 w 0))

/-- Major 0x07 of R78. -/
def decodeMajor07 (w : Nat) : Option Instr :=
  some (.xori (fldv 5 w 21) (fldv 5 w 16) (fldv 16 w 0))

/-- Major 0x08 of R78. -/
def decodeMajor08 (w : Nat) : Option Instr :=
  some (.slti (fldv 5 w 21) (fldv 5 w 16) (fldv 16 w 0))

/-- Major 0x09 of R78. -/
def decodeMajor09 (w : Nat) : Option Instr :=
  if fld w 6 0 = 0 ∧ fld w 15 13 = 0 then some (.slli (fldv 5 w 21) (fldv 5 w 16) (fldv 6 w 7))
  else if fld w 6 0 = 0 ∧ fld w 15 13 = 1 then some (.srli (fldv 5 w 21) (fldv 5 w 16) (fldv 6 w 7))
  else if fld w 6 0 = 0 ∧ fld w 15 13 = 2 then some (.srai (fldv 5 w 21) (fldv 5 w 16) (fldv 6 w 7))
  else if fld w 0 0 = 0 ∧ fld w 15 13 = 3 then some (.bfx (fldv 5 w 21) (fldv 5 w 16) (fldv 6 w 7) (fldv 6 w 1))
  else if fld w 0 0 = 0 ∧ fld w 15 13 = 4 then some (.bfi (fldv 5 w 21) (fldv 5 w 16) (fldv 6 w 7) (fldv 6 w 1))
  else none

/-- Major 0x0A of R78. -/
def decodeMajor0A (w : Nat) : Option Instr :=
  some (.li (fldv 5 w 21) (fldv 21 w 0))

/-- Major 0x0B of R78. -/
def decodeMajor0B (w : Nat) : Option Instr :=
  if fld w 20 18 = 0 then some (.lui (fldv 5 w 21) (fldv 2 w 16) (fldv 16 w 0))
  else none

/-- Major 0x0C of R78. -/
def decodeMajor0C (w : Nat) : Option Instr :=
  if fld w 2 0 = 0 ∧ fld w 10 6 = 0 then some (.fadd (fldv 5 w 21) (fldv 5 w 16) (fldv 5 w 11) (fldv 3 w 3))
  else if fld w 2 0 = 1 ∧ fld w 10 6 = 0 then some (.fsub (fldv 5 w 21) (fldv 5 w 16) (fldv 5 w 11) (fldv 3 w 3))
  else if fld w 2 0 = 2 ∧ fld w 10 6 = 0 then some (.fmul (fldv 5 w 21) (fldv 5 w 16) (fldv 5 w 11) (fldv 3 w 3))
  else if fld w 2 0 = 3 then some (.ffma (fldv 5 w 21) (fldv 5 w 16) (fldv 5 w 11) (fldv 5 w 6) (fldv 3 w 3))
  else if fld w 10 0 = 4 then some (.fmin (fldv 5 w 21) (fldv 5 w 16) (fldv 5 w 11))
  else if fld w 10 0 = 5 then some (.fmax (fldv 5 w 21) (fldv 5 w 16) (fldv 5 w 11))
  else if fld w 2 0 = 6 ∧ fld w 15 6 = 0 then some (.frcp (fldv 5 w 21) (fldv 5 w 16) (fldv 3 w 3))
  else if fld w 5 0 = 7 ∧ fld w 10 9 = 0 then some (.fcmp (fldv 5 w 21) (fldv 5 w 16) (fldv 5 w 11) (fldv 3 w 6))
  else none

/-- Major 0x0D of R78. -/
def decodeMajor0D (w : Nat) : Option Instr :=
  some (.fcvt (fldv 5 w 21) (fldv 5 w 16) (fldv 6 w 10) (fldv 6 w 4) (fldv 3 w 1) (fldv 1 w 0))

/-- Major 0x0E of R78. -/
def decodeMajor0E (w : Nat) : Option Instr :=
  some (.br (fldv 3 w 23) (fldv 5 w 18) (fldv 5 w 13) (fldv 9 w 4) (fldv 4 w 0))

/-- Major 0x0F of R78. -/
def decodeMajor0F (w : Nat) : Option Instr :=
  some (.jmp (fldv 22 w 4) (fldv 4 w 0))

/-- Major 0x10 of R78. -/
def decodeMajor10 (w : Nat) : Option Instr :=
  some (.call (fldv 22 w 4) (fldv 4 w 0))

/-- Major 0x11 of R78. -/
def decodeMajor11 (w : Nat) : Option Instr :=
  if fld w 16 0 = 0 ∧ fld w 25 22 = 0 then some (.jmpr (fldv 5 w 17))
  else if fld w 25 0 = 4194304 then some (.ret)
  else if fld w 14 13 = 0 ∧ fld w 25 22 = 2 then some (.loop (fldv 2 w 20) (fldv 5 w 15) (fldv 9 w 4) (fldv 4 w 0))
  else if fld w 20 13 = 0 ∧ fld w 25 22 = 3 then some (.brq (fldv 1 w 21) (fldv 9 w 4) (fldv 4 w 0))
  else if fld w 25 0 = 16777216 then some (.rdv)
  else if fld w 25 0 = 20971520 then some (.nop)
  else if fld w 25 0 = 25165824 then some (.wfe)
  else if fld w 25 0 = 29360128 then some (.sev)
  else if fld w 25 16 = 512 then some (.trap (fldv 16 w 0))
  else if fld w 25 0 = 37748736 then some (.eret)
  else none

/-- Major 0x12 of R78. -/
def decodeMajor12 (w : Nat) : Option Instr :=
  if fld w 12 12 = 0 then some (.ld (fldv 5 w 21) (fldv 5 w 16) (fldv 2 w 14) (fldv 1 w 13) (fldv 12 w 0))
  else none

/-- Major 0x13 of R78. -/
def decodeMajor13 (w : Nat) : Option Instr :=
  if fld w 12 12 = 0 then some (.st (fldv 5 w 21) (fldv 5 w 16) (fldv 2 w 14) (fldv 1 w 13) (fldv 12 w 0))
  else none

/-- Major 0x14 of R78. -/
def decodeMajor14 (w : Nat) : Option Instr :=
  if fld w 4 0 = 0 ∧ fld w 10 6 = 0 then some (.amoAdd (fldv 5 w 21) (fldv 5 w 16) (fldv 5 w 11) (fldv 1 w 5))
  else if fld w 4 0 = 1 ∧ fld w 10 6 = 0 then some (.amoMin (fldv 5 w 21) (fldv 5 w 16) (fldv 5 w 11) (fldv 1 w 5))
  else if fld w 4 0 = 2 ∧ fld w 10 6 = 0 then some (.amoMax (fldv 5 w 21) (fldv 5 w 16) (fldv 5 w 11) (fldv 1 w 5))
  else if fld w 4 0 = 3 ∧ fld w 10 6 = 0 then some (.amoAnd (fldv 5 w 21) (fldv 5 w 16) (fldv 5 w 11) (fldv 1 w 5))
  else if fld w 4 0 = 4 ∧ fld w 10 6 = 0 then some (.amoOr (fldv 5 w 21) (fldv 5 w 16) (fldv 5 w 11) (fldv 1 w 5))
  else if fld w 4 0 = 5 ∧ fld w 10 6 = 0 then some (.amoXor (fldv 5 w 21) (fldv 5 w 16) (fldv 5 w 11) (fldv 1 w 5))
  else if fld w 4 0 = 6 ∧ fld w 10 6 = 0 then some (.amoSwap (fldv 5 w 21) (fldv 5 w 16) (fldv 5 w 11) (fldv 1 w 5))
  else if fld w 4 0 = 7 then some (.cas (fldv 5 w 21) (fldv 5 w 16) (fldv 5 w 11) (fldv 5 w 6) (fldv 1 w 5))
  else if fld w 5 0 = 8 ∧ fld w 25 9 = 0 then some (.fence (fldv 3 w 6))
  else if fld w 15 0 = 9 then some (.spal (fldv 5 w 21) (fldv 5 w 16))
  else if fld w 15 0 = 10 ∧ fld w 25 21 = 0 then some (.spfree (fldv 5 w 16))
  else none

/-- Major 0x15 of R78. -/
def decodeMajor15 (w : Nat) : Option Instr :=
  if fld w 13 12 = 0 then some (.lds (fldv 5 w 21) (fldv 5 w 16) (fldv 2 w 14) (fldv 12 w 0))
  else if fld w 13 12 = 2 then some (.sts (fldv 5 w 21) (fldv 5 w 16) (fldv 2 w 14) (fldv 12 w 0))
  else none

/-- Major 0x16 of R78. -/
def decodeMajor16 (w : Nat) : Option Instr :=
  if fld w 4 0 = 0 ∧ fld w 10 6 = 0 then some (.amosAdd (fldv 5 w 21) (fldv 5 w 16) (fldv 5 w 11) (fldv 1 w 5))
  else if fld w 4 0 = 1 ∧ fld w 10 6 = 0 then some (.amosMin (fldv 5 w 21) (fldv 5 w 16) (fldv 5 w 11) (fldv 1 w 5))
  else if fld w 4 0 = 2 ∧ fld w 10 6 = 0 then some (.amosMax (fldv 5 w 21) (fldv 5 w 16) (fldv 5 w 11) (fldv 1 w 5))
  else if fld w 4 0 = 3 ∧ fld w 10 6 = 0 then some (.amosAnd (fldv 5 w 21) (fldv 5 w 16) (fldv 5 w 11) (fldv 1 w 5))
  else if fld w 4 0 = 4 ∧ fld w 10 6 = 0 then some (.amosOr (fldv 5 w 21) (fldv 5 w 16) (fldv 5 w 11) (fldv 1 w 5))
  else if fld w 4 0 = 5 ∧ fld w 10 6 = 0 then some (.amosXor (fldv 5 w 21) (fldv 5 w 16) (fldv 5 w 11) (fldv 1 w 5))
  else if fld w 4 0 = 6 ∧ fld w 10 6 = 0 then some (.amosSwap (fldv 5 w 21) (fldv 5 w 16) (fldv 5 w 11) (fldv 1 w 5))
  else if fld w 4 0 = 7 then some (.cass (fldv 5 w 21) (fldv 5 w 16) (fldv 5 w 11) (fldv 5 w 6) (fldv 1 w 5))
  else if fld w 5 0 = 8 then some (.sbcast (fldv 5 w 21) (fldv 5 w 16) (fldv 5 w 11) (fldv 5 w 6))
  else if fld w 10 0 = 9 ∧ fld w 25 21 = 0 then some (.swatch (fldv 5 w 16) (fldv 5 w 11))
  else if fld w 15 0 = 10 then some (.slotq (fldv 5 w 21) (fldv 5 w 16))
  else none

/-- Major 0x17 of R78. -/
def decodeMajor17 (w : Nat) : Option Instr :=
  if fld w 4 0 = 0 then some (.vadd (fldv 6 w 20) (fldv 6 w 14) (fldv 6 w 8) (fldv 3 w 5))
  else if fld w 4 0 = 1 then some (.vsub (fldv 6 w 20) (fldv 6 w 14) (fldv 6 w 8) (fldv 3 w 5))
  else if fld w 4 0 = 2 then some (.vmul (fldv 6 w 20) (fldv 6 w 14) (fldv 6 w 8) (fldv 3 w 5))
  else if fld w 4 0 = 3 then some (.vmin (fldv 6 w 20) (fldv 6 w 14) (fldv 6 w 8) (fldv 3 w 5))
  else if fld w 4 0 = 4 then some (.vmax (fldv 6 w 20) (fldv 6 w 14) (fldv 6 w 8) (fldv 3 w 5))
  else if fld w 4 0 = 5 ∧ fld w 13 8 = 0 then some (.vabs (fldv 6 w 20) (fldv 6 w 14) (fldv 3 w 5))
  else if fld w 4 0 = 6 ∧ fld w 13 8 = 0 then some (.vneg (fldv 6 w 20) (fldv 6 w 14) (fldv 3 w 5))
  else none

/-- Major 0x18 of R78. -/
def decodeMajor18 (w : Nat) : Option Instr :=
  some (.vfma (fldv 6 w 20) (fldv 6 w 14) (fldv 6 w 8) (fldv 6 w 2) (fldv 2 w 0))

/-- Major 0x19 of R78. -/
def decodeMajor19 (w : Nat) : Option Instr :=
  if fld w 3 0 = 0 then some (.vaddPacked (fldv 6 w 20) (fldv 6 w 14) (fldv 6 w 8) (fldv 3 w 5) (fldv 1 w 4))
  else if fld w 3 0 = 1 then some (.vsubPacked (fldv 6 w 20) (fldv 6 w 14) (fldv 6 w 8) (fldv 3 w 5) (fldv 1 w 4))
  else if fld w 3 0 = 2 then some (.vmulPacked (fldv 6 w 20) (fldv 6 w 14) (fldv 6 w 8) (fldv 3 w 5) (fldv 1 w 4))
  else if fld w 3 0 = 3 then some (.vminPacked (fldv 6 w 20) (fldv 6 w 14) (fldv 6 w 8) (fldv 3 w 5) (fldv 1 w 4))
  else if fld w 3 0 = 4 then some (.vmaxPacked (fldv 6 w 20) (fldv 6 w 14) (fldv 6 w 8) (fldv 3 w 5) (fldv 1 w 4))
  else if fld w 3 0 = 5 ∧ fld w 13 8 = 0 then some (.vabsPacked (fldv 6 w 20) (fldv 6 w 14) (fldv 3 w 5) (fldv 1 w 4))
  else if fld w 3 0 = 6 ∧ fld w 13 8 = 0 then some (.vnegPacked (fldv 6 w 20) (fldv 6 w 14) (fldv 3 w 5) (fldv 1 w 4))
  else none

/-- Major 0x1A of R78. -/
def decodeMajor1A (w : Nat) : Option Instr :=
  if fld w 4 0 = 0 ∧ fld w 13 8 = 0 then some (.vexp2 (fldv 6 w 20) (fldv 6 w 14) (fldv 3 w 5))
  else if fld w 4 0 = 1 ∧ fld w 13 8 = 0 then some (.vlog2 (fldv 6 w 20) (fldv 6 w 14) (fldv 3 w 5))
  else if fld w 4 0 = 2 ∧ fld w 13 8 = 0 then some (.vrcp (fldv 6 w 20) (fldv 6 w 14) (fldv 3 w 5))
  else if fld w 4 0 = 3 ∧ fld w 13 8 = 0 then some (.vrsq (fldv 6 w 20) (fldv 6 w 14) (fldv 3 w 5))
  else if fld w 4 0 = 4 ∧ fld w 13 8 = 0 then some (.vtanh (fldv 6 w 20) (fldv 6 w 14) (fldv 3 w 5))
  else if fld w 4 0 = 5 ∧ fld w 13 8 = 0 then some (.vsigm (fldv 6 w 20) (fldv 6 w 14) (fldv 3 w 5))
  else none

/-- Major 0x1B of R78. -/
def decodeMajor1B (w : Nat) : Option Instr :=
  if fld w 22 20 = 0 then some (.vcmp (fldv 3 w 23) (fldv 6 w 14) (fldv 6 w 8) (fldv 3 w 5) (fldv 3 w 2) (fldv 2 w 0))
  else none

/-- Major 0x1C of R78. -/
def decodeMajor1C (w : Nat) : Option Instr :=
  if fld w 4 0 = 0 then some (.vsel (fldv 6 w 20) (fldv 6 w 14) (fldv 6 w 8) (fldv 3 w 5))
  else none

/-- Major 0x1D of R78. -/
def decodeMajor1D (w : Nat) : Option Instr :=
  if fld w 4 0 = 0 then some (.vand (fldv 6 w 20) (fldv 6 w 14) (fldv 6 w 8) (fldv 3 w 5))
  else if fld w 4 0 = 1 then some (.vor (fldv 6 w 20) (fldv 6 w 14) (fldv 6 w 8) (fldv 3 w 5))
  else if fld w 4 0 = 2 then some (.vxor (fldv 6 w 20) (fldv 6 w 14) (fldv 6 w 8) (fldv 3 w 5))
  else if fld w 4 0 = 3 then some (.vshl (fldv 6 w 20) (fldv 6 w 14) (fldv 6 w 8) (fldv 3 w 5))
  else if fld w 4 0 = 4 then some (.vshr (fldv 6 w 20) (fldv 6 w 14) (fldv 6 w 8) (fldv 3 w 5))
  else if fld w 4 0 = 5 then some (.vsra (fldv 6 w 20) (fldv 6 w 14) (fldv 6 w 8) (fldv 3 w 5))
  else if fld w 4 0 = 6 then some (.viadd (fldv 6 w 20) (fldv 6 w 14) (fldv 6 w 8) (fldv 3 w 5))
  else if fld w 4 0 = 7 then some (.visub (fldv 6 w 20) (fldv 6 w 14) (fldv 6 w 8) (fldv 3 w 5))
  else if fld w 4 0 = 8 then some (.vimul (fldv 6 w 20) (fldv 6 w 14) (fldv 6 w 8) (fldv 3 w 5))
  else none

/-- Major 0x1E of R78. -/
def decodeMajor1E (w : Nat) : Option Instr :=
  some (.vcvt (fldv 6 w 20) (fldv 6 w 14) (fldv 6 w 8) (fldv 1 w 7) (fldv 3 w 4) (fldv 1 w 3) (fldv 3 w 0))

/-- Major 0x1F of R78. -/
def decodeMajor1F (w : Nat) : Option Instr :=
  if fld w 1 0 = 0 then some (.vquant (fldv 6 w 20) (fldv 6 w 14) (fldv 6 w 8) (fldv 6 w 2))
  else if fld w 1 0 = 1 then some (.vdeq (fldv 6 w 20) (fldv 6 w 14) (fldv 6 w 8) (fldv 6 w 2))
  else none

/-- Major 0x20 of R78. -/
def decodeMajor20 (w : Nat) : Option Instr :=
  if fld w 8 0 = 0 then some (.vhad (fldv 6 w 20) (fldv 6 w 14) (fldv 3 w 11) (fldv 1 w 10) (fldv 1 w 9))
  else none

/-- Major 0x21 of R78. -/
def decodeMajor21 (w : Nat) : Option Instr :=
  if fld w 4 0 = 0 then some (.vperm (fldv 6 w 20) (fldv 6 w 14) (fldv 6 w 8) (fldv 3 w 5))
  else if fld w 4 0 = 1 then some (.vrot (fldv 6 w 20) (fldv 6 w 14) (fldv 6 w 8) (fldv 3 w 5))
  else if fld w 4 0 = 2 ∧ fld w 13 8 = 0 ∧ fld w 19 19 = 0 then some (.vbcast (fldv 6 w 20) (fldv 5 w 14) (fldv 3 w 5))
  else none

/-- Major 0x22 of R78. -/
def decodeMajor22 (w : Nat) : Option Instr :=
  if fld w 2 0 = 0 ∧ fld w 13 8 = 0 then some (.vreds (fldv 6 w 20) (fldv 6 w 14) (fldv 3 w 5) (fldv 2 w 3))
  else if fld w 2 0 = 1 ∧ fld w 13 8 = 0 then some (.vredx (fldv 6 w 20) (fldv 6 w 14) (fldv 3 w 5) (fldv 2 w 3))
  else if fld w 2 0 = 2 ∧ fld w 13 8 = 0 then some (.vscan (fldv 6 w 20) (fldv 6 w 14) (fldv 3 w 5) (fldv 2 w 3))
  else none

/-- Major 0x23 of R78. -/
def decodeMajor23 (w : Nat) : Option Instr :=
  if fld w 14 7 = 0 then some (.vld (fldv 6 w 20) (fldv 5 w 15) (fldv 7 w 0))
  else if fld w 14 7 = 1 then some (.vst (fldv 6 w 20) (fldv 5 w 15) (fldv 7 w 0))
  else if fld w 8 7 = 2 then some (.vgth (fldv 6 w 20) (fldv 5 w 15) (fldv 6 w 9) (fldv 7 w 0))
  else if fld w 8 7 = 3 then some (.vsct (fldv 6 w 20) (fldv 5 w 15) (fldv 6 w 9) (fldv 7 w 0))
  else none

/-- Major 0x24 of R78. -/
def decodeMajor24 (w : Nat) : Option Instr :=
  if fld w 7 0 = 0 ∧ fld w 19 19 = 0 then some (.vins (fldv 6 w 20) (fldv 5 w 14) (fldv 6 w 8))
  else if fld w 7 0 = 1 ∧ fld w 25 25 = 0 then some (.vext (fldv 5 w 20) (fldv 6 w 14) (fldv 6 w 8))
  else if fld w 7 0 = 2 ∧ fld w 25 11 = 0 then some (.vwin (fldv 3 w 8))
  else if fld w 4 0 = 3 then some (.vpack (fldv 6 w 20) (fldv 6 w 14) (fldv 6 w 8) (fldv 3 w 5))
  else if fld w 4 0 = 4 ∧ fld w 13 8 = 0 then some (.vunpk (fldv 6 w 20) (fldv 6 w 14) (fldv 3 w 5))
  else none

/-- Major 0x25 of R78. -/
def decodeMajor25 (w : Nat) : Option Instr :=
  if fld w 16 0 = 0 then some (.mand (fldv 3 w 23) (fldv 3 w 20) (fldv 3 w 17))
  else if fld w 16 0 = 1 then some (.mor (fldv 3 w 23) (fldv 3 w 20) (fldv 3 w 17))
  else if fld w 19 0 = 2 then some (.mnot (fldv 3 w 23) (fldv 3 w 20))
  else if fld w 11 0 = 3 ∧ fld w 19 17 = 0 ∧ fld w 25 23 = 0 then some (.mpop (fldv 3 w 20) (fldv 5 w 12))
  else none

/-- Major 0x26 of R78. -/
def decodeMajor26 (w : Nat) : Option Instr :=
  if fld w 4 0 = 0 then some (.vsortk (fldv 6 w 20) (fldv 6 w 14) (fldv 6 w 8) (fldv 3 w 5))
  else if fld w 4 0 = 1 ∧ fld w 19 8 = 0 then some (.vrng (fldv 6 w 20) (fldv 3 w 5))
  else none

/-- Major 0x27 of R78. -/
def decodeMajor27 (w : Nat) : Option Instr :=
  if fld w 17 0 = 0 then some (.tshape (fldv 3 w 23) (fldv 5 w 18))
  else if fld w 22 0 = 1 then some (.tzero (fldv 3 w 23))
  else if fld w 15 0 = 2 ∧ fld w 22 18 = 0 then some (.tpop (fldv 3 w 23) (fldv 2 w 16))
  else none

/-- Major 0x28 of R78. -/
def decodeMajor28 (w : Nat) : Option Instr :=
  if fld w 17 14 = 0 then some (.tld (fldv 3 w 23) (fldv 5 w 18) (fldv 14 w 0))
  else if fld w 17 14 = 8 then some (.tst (fldv 3 w 23) (fldv 5 w 18) (fldv 14 w 0))
  else none

/-- Major 0x29 of R78. -/
def decodeMajor29 (w : Nat) : Option Instr :=
  if fld w 16 0 = 0 then some (.mma (fldv 3 w 23) (fldv 3 w 20) (fldv 3 w 17))
  else if fld w 16 0 = 32768 then some (.mmas (fldv 3 w 23) (fldv 3 w 20) (fldv 3 w 17))
  else if fld w 16 0 = 65536 then some (.mmat (fldv 3 w 23) (fldv 3 w 20) (fldv 3 w 17))
  else none

/-- Major 0x2A of R78. -/
def decodeMajor2A (w : Nat) : Option Instr :=
  if fld w 22 0 = 0 then some (.azero (fldv 3 w 23))
  else if fld w 17 14 = 2 then some (.ald (fldv 3 w 23) (fldv 5 w 18) (fldv 14 w 0))
  else if fld w 17 14 = 4 then some (.ast (fldv 3 w 23) (fldv 5 w 18) (fldv 14 w 0))
  else if fld w 19 0 = 98304 then some (.atr (fldv 3 w 23) (fldv 3 w 20))
  else none

/-- Major 0x2B of R78. -/
def decodeMajor2B (w : Nat) : Option Instr :=
  if fld w 25 7 = 0 then some (.lease (fldv 7 w 0))
  else if fld w 25 0 = 33554432 then some (.unlease)
  else none

/-- Major 0x2C of R78. -/
def decodeMajor2C (w : Nat) : Option Instr :=
  if fld w 25 2 = 0 then some (.fmtsel (fldv 2 w 0))
  else none

/-- Major 0x2D of R78. -/
def decodeMajor2D (w : Nat) : Option Instr :=
  if fld w 13 0 = 0 ∧ fld w 20 19 = 2 ∧ fld w 25 23 = 0 then some (.qpushDq (fldv 2 w 21) (fldv 5 w 14))
  else if fld w 13 0 = 0 ∧ fld w 20 20 = 0 ∧ fld w 25 22 = 2 then some (.qpushOq (fldv 1 w 21) (fldv 6 w 14))
  else if fld w 13 0 = 0 ∧ fld w 20 20 = 0 ∧ fld w 25 23 = 2 then some (.qpopDq (fldv 2 w 21) (fldv 6 w 14))
  else if fld w 13 0 = 0 ∧ fld w 20 19 = 2 ∧ fld w 25 22 = 6 then some (.qpopOq (fldv 1 w 21) (fldv 5 w 14))
  else if fld w 13 0 = 0 ∧ fld w 20 19 = 0 ∧ fld w 25 24 = 2 then some (.qstat (fldv 3 w 21) (fldv 5 w 14))
  else if fld w 13 0 = 0 ∧ fld w 25 19 = 96 then some (.bqpush (fldv 5 w 14))
  else none

/-- Major 0x2E of R78. -/
def decodeMajor2E (w : Nat) : Option Instr :=
  if fld w 15 0 = 0 ∧ fld w 25 24 = 0 then some (.tksend (fldv 3 w 21) (fldv 5 w 16))
  else if fld w 15 0 = 0 ∧ fld w 25 24 = 1 then some (.tkrecv (fldv 3 w 21) (fldv 5 w 16))
  else if fld w 15 3 = 0 ∧ fld w 25 21 = 16 then some (.sqpush (fldv 5 w 16) (fldv 3 w 0))
  else none

/-- Major 0x2F of R78. -/
def decodeMajor2F (w : Nat) : Option Instr :=
  if fld w 25 4 = 0 then some (.mark (fldv 4 w 0))
  else if fld w 25 0 = 33554432 then some (.joinm)
  else none

/-- Major 0x30 of R78. -/
def decodeMajor30 (w : Nat) : Option Instr :=
  if fld w 10 8 = 0 then some (.cpy (fldv 5 w 21) (fldv 5 w 16) (fldv 5 w 11) (fldv 2 w 6) (fldv 2 w 4) (fldv 1 w 3) (fldv 1 w 2) (fldv 2 w 0))
  else if fld w 1 0 = 0 ∧ fld w 10 3 = 40 then some (.cpyq (fldv 5 w 21) (fldv 5 w 16) (fldv 5 w 11) (fldv 1 w 2))
  else if fld w 3 0 = 0 ∧ fld w 6 6 = 0 ∧ fld w 10 8 = 2 then some (.gth (fldv 5 w 21) (fldv 5 w 16) (fldv 5 w 11) (fldv 1 w 7) (fldv 2 w 4))
  else none

/-- Major 0x31 of R78. -/
def decodeMajor31 (w : Nat) : Option Instr :=
  if fld w 2 0 = 0 ∧ fld w 10 8 = 0 then some (.coll (fldv 5 w 21) (fldv 5 w 16) (fldv 5 w 11) (fldv 3 w 5) (fldv 2 w 3))
  else if fld w 10 1 = 128 then some (.nmc (fldv 5 w 21) (fldv 5 w 16) (fldv 5 w 11) (fldv 1 w 0))
  else if fld w 4 0 = 0 ∧ fld w 10 8 = 2 then some (.dec (fldv 5 w 21) (fldv 5 w 16) (fldv 5 w 11) (fldv 2 w 6) (fldv 1 w 5))
  else none

/-- Major 0x32 of R78. -/
def decodeMajor32 (w : Nat) : Option Instr :=
  if fld w 15 0 = 0 then some (.tref (fldv 5 w 21) (fldv 5 w 16))
  else if fld w 15 0 = 1 ∧ fld w 25 21 = 0 then some (.tunpin (fldv 5 w 16))
  else if fld w 10 0 = 2 ∧ fld w 25 21 = 0 then some (.thint (fldv 5 w 16) (fldv 5 w 11))
  else if fld w 10 0 = 3 then some (.tnewv (fldv 5 w 21) (fldv 5 w 16) (fldv 5 w 11))
  else if fld w 10 0 = 4 then some (.tnewvZero (fldv 5 w 21) (fldv 5 w 16) (fldv 5 w 11))
  else if fld w 15 0 = 5 then some (.pubv (fldv 5 w 21) (fldv 5 w 16))
  else if fld w 10 0 = 6 then some (.tinfo (fldv 5 w 21) (fldv 5 w 16) (fldv 5 w 11))
  else if fld w 15 0 = 7 then some (.useadv (fldv 5 w 21) (fldv 5 w 16))
  else none

/-- Major 0x33 of R78. -/
def decodeMajor33 (w : Nat) : Option Instr :=
  if fld w 10 0 = 0 then some (.kvalloc (fldv 5 w 21) (fldv 5 w 16) (fldv 5 w 11))
  else if fld w 10 0 = 1 then some (.kvmap (fldv 5 w 21) (fldv 5 w 16) (fldv 5 w 11))
  else if fld w 5 0 = 2 then some (.kvshare (fldv 5 w 21) (fldv 5 w 16) (fldv 5 w 11) (fldv 5 w 6))
  else if fld w 10 0 = 3 then some (.kvfree (fldv 5 w 21) (fldv 5 w 16) (fldv 5 w 11))
  else none

/-- Major 0x34 of R78. -/
def decodeMajor34 (w : Nat) : Option Instr :=
  if fld w 7 0 = 0 then some (.radd (fldv 6 w 20) (fldv 6 w 14) (fldv 6 w 8))
  else if fld w 7 0 = 1 then some (.rsub (fldv 6 w 20) (fldv 6 w 14) (fldv 6 w 8))
  else if fld w 7 0 = 2 then some (.rmul (fldv 6 w 20) (fldv 6 w 14) (fldv 6 w 8))
  else if fld w 7 0 = 3 then some (.rmulUndo (fldv 6 w 20) (fldv 6 w 14) (fldv 6 w 8))
  else if fld w 7 0 = 4 then some (.rshr (fldv 6 w 20) (fldv 6 w 14) (fldv 6 w 8))
  else if fld w 7 0 = 5 then some (.rshrUndo (fldv 6 w 20) (fldv 6 w 14) (fldv 6 w 8))
  else if fld w 7 0 = 6 then some (.rlrelu (fldv 6 w 20) (fldv 6 w 14) (fldv 6 w 8))
  else if fld w 7 0 = 7 then some (.rlreluUndo (fldv 6 w 20) (fldv 6 w 14) (fldv 6 w 8))
  else none

/-- Major 0x35 of R78. -/
def decodeMajor35 (w : Nat) : Option Instr :=
  if fld w 4 0 = 0 ∧ fld w 25 23 = 0 then some (.rnrw (fldv 6 w 17) (fldv 6 w 11) (fldv 6 w 5))
  else if fld w 4 0 = 0 ∧ fld w 25 23 = 1 then some (.rnrwUndo (fldv 6 w 17) (fldv 6 w 11) (fldv 6 w 5))
  else if fld w 25 16 = 256 then some (.cmark (fldv 16 w 0))
  else if fld w 25 16 = 384 then some (.cchk (fldv 16 w 0))
  else if fld w 17 0 = 0 ∧ fld w 25 23 = 4 then some (.catt (fldv 5 w 18))
  else if fld w 17 0 = 0 ∧ fld w 25 23 = 5 then some (.cdepth (fldv 5 w 18))
  else none

/-- Major 0x36 of R78. -/
def decodeMajor36 (w : Nat) : Option Instr :=
  if fld w 2 0 = 0 then some (.rdcnt (fldv 5 w 21) (fldv 5 w 16) (fldv 13 w 3))
  else if fld w 2 0 = 1 ∧ fld w 25 21 = 0 then some (.cntsel (fldv 5 w 16) (fldv 13 w 3))
  else if fld w 2 0 = 2 ∧ fld w 25 16 = 0 then some (.cntclr (fldv 13 w 3))
  else if fld w 20 0 = 3 then some (.rdtime (fldv 5 w 21))
  else if fld w 2 0 = 4 ∧ fld w 25 16 = 0 then some (.waitc (fldv 13 w 3))
  else if fld w 2 0 = 5 ∧ fld w 25 16 = 0 then some (.bufsel (fldv 13 w 3))
  else if fld w 20 0 = 6 then some (.psnap (fldv 5 w 21))
  else none

/-- Major 0x37 of R78. -/
def decodeMajor37 (w : Nat) : Option Instr :=
  if fld w 20 12 = 0 then some (.getc (fldv 5 w 21) (fldv 12 w 0))
  else if fld w 20 12 = 256 then some (.setc (fldv 5 w 21) (fldv 12 w 0))
  else none

/-- Major 0x38 of R78. -/
def decodeMajor38 (w : Nat) : Option Instr :=
  if fld w 10 0 = 0 then some (.launch (fldv 5 w 21) (fldv 5 w 16) (fldv 5 w 11))
  else if fld w 10 0 = 1 ∧ fld w 25 21 = 0 then some (.binv (fldv 5 w 16) (fldv 5 w 11))
  else if fld w 10 0 = 2 ∧ fld w 25 21 = 0 then some (.slotset (fldv 5 w 16) (fldv 5 w 11))
  else none

/-- The instruction whose fields a word holds, before the limits of R81; none when no row of R78 fits. -/
def decodeFields (w : Nat) : Option Instr :=
  match fld w 31 26 with
  | 0x01 => decodeMajor01 w
  | 0x02 => decodeMajor02 w
  | 0x03 => decodeMajor03 w
  | 0x04 => decodeMajor04 w
  | 0x05 => decodeMajor05 w
  | 0x06 => decodeMajor06 w
  | 0x07 => decodeMajor07 w
  | 0x08 => decodeMajor08 w
  | 0x09 => decodeMajor09 w
  | 0x0A => decodeMajor0A w
  | 0x0B => decodeMajor0B w
  | 0x0C => decodeMajor0C w
  | 0x0D => decodeMajor0D w
  | 0x0E => decodeMajor0E w
  | 0x0F => decodeMajor0F w
  | 0x10 => decodeMajor10 w
  | 0x11 => decodeMajor11 w
  | 0x12 => decodeMajor12 w
  | 0x13 => decodeMajor13 w
  | 0x14 => decodeMajor14 w
  | 0x15 => decodeMajor15 w
  | 0x16 => decodeMajor16 w
  | 0x17 => decodeMajor17 w
  | 0x18 => decodeMajor18 w
  | 0x19 => decodeMajor19 w
  | 0x1A => decodeMajor1A w
  | 0x1B => decodeMajor1B w
  | 0x1C => decodeMajor1C w
  | 0x1D => decodeMajor1D w
  | 0x1E => decodeMajor1E w
  | 0x1F => decodeMajor1F w
  | 0x20 => decodeMajor20 w
  | 0x21 => decodeMajor21 w
  | 0x22 => decodeMajor22 w
  | 0x23 => decodeMajor23 w
  | 0x24 => decodeMajor24 w
  | 0x25 => decodeMajor25 w
  | 0x26 => decodeMajor26 w
  | 0x27 => decodeMajor27 w
  | 0x28 => decodeMajor28 w
  | 0x29 => decodeMajor29 w
  | 0x2A => decodeMajor2A w
  | 0x2B => decodeMajor2B w
  | 0x2C => decodeMajor2C w
  | 0x2D => decodeMajor2D w
  | 0x2E => decodeMajor2E w
  | 0x2F => decodeMajor2F w
  | 0x30 => decodeMajor30 w
  | 0x31 => decodeMajor31 w
  | 0x32 => decodeMajor32 w
  | 0x33 => decodeMajor33 w
  | 0x34 => decodeMajor34 w
  | 0x35 => decodeMajor35 w
  | 0x36 => decodeMajor36 w
  | 0x37 => decodeMajor37 w
  | 0x38 => decodeMajor38 w
  | _ => none

/-- A qpush or qpop whose queue and form R79 does not permit in any stream: such a word is an instruction word, and
raises STREAM_MISMATCH (R271). -/
def queueFormMismatch (w : Nat) : Bool :=
  fld w 31 26 == 0x2D && fld w 25 24 ≤ 1 && fld w 23 21 ≤ 5 && fld w 13 0 == 0 &&
    (fld w 20 20 == 0 || fld w 19 19 == 0) &&
    ((fld w 25 24 == 0) == ((fld w 20 20 == 0) == (fld w 23 21 ≤ 3)))

/-- Why a word is not an instruction. -/
inductive Reject where
  /-- No row of R78 fits the word: an unlisted major or selector, or a nonzero reserved field (R81). -/
  | noInstruction
  /-- A field lies outside the limits of R81. -/
  | outOfLimits
  /-- A queue instruction with a queue and form that no stream may use (R79, R271). -/
  | queueForm
  deriving DecidableEq, Repr

/-- What a word is. -/
inductive Decoded where
  | instr (i : Instr)
  | reject (r : Reject)
  deriving DecidableEq, Repr

/-- Decodes one word; total, and rejecting by name (R81). -/
def decode (w : W32) : Decoded :=
  match decodeFields w.toNat with
  | some i => if i.wf then .instr i else .reject .outOfLimits
  | none => if queueFormMismatch w.toNat then .reject .queueForm else .reject .noInstruction

/-- A little-endian word from four bytes (R7). -/
def wordOfBytes (a b c d : Byte) : W32 :=
  BitVec.ofNat 32 (a.toNat + 2 ^ 8 * b.toNat + 2 ^ 16 * c.toNat + 2 ^ 24 * d.toNat)

/-- Decodes the word at the head of a byte list, and the bytes after it; none when fewer than four bytes stand there. -/
def decodeBytes : List Byte → Option (Decoded × List Byte)
  | a :: b :: c :: d :: rest => some (decode (wordOfBytes a b c d), rest)
  | _ => none

/-- The little-endian bytes of a word. -/
def bytesOfWord (w : Nat) : List Byte :=
  [BitVec.ofNat 8 w, BitVec.ofNat 8 (w / 2 ^ 8), BitVec.ofNat 8 (w / 2 ^ 16), BitVec.ofNat 8 (w / 2 ^ 24)]

/-- The instruction the decoder reads from a word given by the table's bits. Every word of Hyrel has 32 bits (R75). -/
def decodeTableWord (nbits w : Nat) : Option Instr :=
  match decodeBytes (bytesOfWord (w % 2 ^ nbits)) with
  | some (.instr i, _) => some i
  | _ => none

/-- A word with a field value added at bit `lo`. -/
def put (w lo v : Nat) : Nat := w + 2 ^ lo * v

/-- The word of an instruction, as a number; none for an event, which has no word. -/
def encodeNat (i : Instr) : Option Nat :=
  match i with
  | .add rd ra rb => some (put (put (put 0x04000000 21 rd.toNat) 16 ra.toNat) 11 rb.toNat)
  | .sub rd ra rb => some (put (put (put 0x04000001 21 rd.toNat) 16 ra.toNat) 11 rb.toNat)
  | .and rd ra rb => some (put (put (put 0x04000002 21 rd.toNat) 16 ra.toNat) 11 rb.toNat)
  | .or rd ra rb => some (put (put (put 0x04000003 21 rd.toNat) 16 ra.toNat) 11 rb.toNat)
  | .xor rd ra rb => some (put (put (put 0x04000004 21 rd.toNat) 16 ra.toNat) 11 rb.toNat)
  | .sll rd ra rb => some (put (put (put 0x04000005 21 rd.toNat) 16 ra.toNat) 11 rb.toNat)
  | .srl rd ra rb => some (put (put (put 0x04000006 21 rd.toNat) 16 ra.toNat) 11 rb.toNat)
  | .sra rd ra rb => some (put (put (put 0x04000007 21 rd.toNat) 16 ra.toNat) 11 rb.toNat)
  | .min rd ra rb => some (put (put (put 0x04000008 21 rd.toNat) 16 ra.toNat) 11 rb.toNat)
  | .max rd ra rb => some (put (put (put 0x04000009 21 rd.toNat) 16 ra.toNat) 11 rb.toNat)
  | .minu rd ra rb => some (put (put (put 0x0400000a 21 rd.toNat) 16 ra.toNat) 11 rb.toNat)
  | .maxu rd ra rb => some (put (put (put 0x0400000b 21 rd.toNat) 16 ra.toNat) 11 rb.toNat)
  | .slt rd ra rb => some (put (put (put 0x0400000c 21 rd.toNat) 16 ra.toNat) 11 rb.toNat)
  | .sltu rd ra rb => some (put (put (put 0x0400000d 21 rd.toNat) 16 ra.toNat) 11 rb.toNat)
  | .seq rd ra rb => some (put (put (put 0x0400000e 21 rd.toNat) 16 ra.toNat) 11 rb.toNat)
  | .mov rd ra => some (put (put 0x0400000f 21 rd.toNat) 16 ra.toNat)
  | .clz rd ra => some (put (put 0x04000010 21 rd.toNat) 16 ra.toNat)
  | .ctz rd ra => some (put (put 0x04000011 21 rd.toNat) 16 ra.toNat)
  | .popc rd ra => some (put (put 0x04000012 21 rd.toNat) 16 ra.toNat)
  | .mul rd ra rb => some (put (put (put 0x08000000 21 rd.toNat) 16 ra.toNat) 11 rb.toNat)
  | .mulh rd ra rb => some (put (put (put 0x08000001 21 rd.toNat) 16 ra.toNat) 11 rb.toNat)
  | .mulhu rd ra rb => some (put (put (put 0x08000002 21 rd.toNat) 16 ra.toNat) 11 rb.toNat)
  | .div rd ra rb => some (put (put (put 0x08000003 21 rd.toNat) 16 ra.toNat) 11 rb.toNat)
  | .divu rd ra rb => some (put (put (put 0x08000004 21 rd.toNat) 16 ra.toNat) 11 rb.toNat)
  | .rem rd ra rb => some (put (put (put 0x08000005 21 rd.toNat) 16 ra.toNat) 11 rb.toNat)
  | .remu rd ra rb => some (put (put (put 0x08000006 21 rd.toNat) 16 ra.toNat) 11 rb.toNat)
  | .mad rd ra rb rc => some (put (put (put (put 0x0c000000 21 rd.toNat) 16 ra.toNat) 11 rb.toNat) 6 rc.toNat)
  | .sel rd ra rb rc => some (put (put (put (put 0x0c000001 21 rd.toNat) 16 ra.toNat) 11 rb.toNat) 6 rc.toNat)
  | .clamp rd ra rb rc => some (put (put (put (put 0x0c000002 21 rd.toNat) 16 ra.toNat) 11 rb.toNat) 6 rc.toNat)
  | .addi rd ra imm => some (put (put (put 0x10000000 21 rd.toNat) 16 ra.toNat) 0 imm.toNat)
  | .andi rd ra imm => some (put (put (put 0x14000000 21 rd.toNat) 16 ra.toNat) 0 imm.toNat)
  | .ori rd ra imm => some (put (put (put 0x18000000 21 rd.toNat) 16 ra.toNat) 0 imm.toNat)
  | .xori rd ra imm => some (put (put (put 0x1c000000 21 rd.toNat) 16 ra.toNat) 0 imm.toNat)
  | .slti rd ra imm => some (put (put (put 0x20000000 21 rd.toNat) 16 ra.toNat) 0 imm.toNat)
  | .slli rd ra pos => some (put (put (put 0x24000000 21 rd.toNat) 16 ra.toNat) 7 pos.toNat)
  | .srli rd ra pos => some (put (put (put 0x24002000 21 rd.toNat) 16 ra.toNat) 7 pos.toNat)
  | .srai rd ra pos => some (put (put (put 0x24004000 21 rd.toNat) 16 ra.toNat) 7 pos.toNat)
  | .bfx rd ra pos wm1 => some (put (put (put (put 0x24006000 21 rd.toNat) 16 ra.toNat) 7 pos.toNat) 1 wm1.toNat)
  | .bfi rd ra pos wm1 => some (put (put (put (put 0x24008000 21 rd.toNat) 16 ra.toNat) 7 pos.toNat) 1 wm1.toNat)
  | .li rd imm => some (put (put 0x28000000 21 rd.toNat) 0 imm.toNat)
  | .lui rd h imm => some (put (put (put 0x2c000000 21 rd.toNat) 16 h.toNat) 0 imm.toNat)
  | .fadd rd ra rb rm => some (put (put (put (put 0x30000000 21 rd.toNat) 16 ra.toNat) 11 rb.toNat) 3 rm.toNat)
  | .fsub rd ra rb rm => some (put (put (put (put 0x30000001 21 rd.toNat) 16 ra.toNat) 11 rb.toNat) 3 rm.toNat)
  | .fmul rd ra rb rm => some (put (put (put (put 0x30000002 21 rd.toNat) 16 ra.toNat) 11 rb.toNat) 3 rm.toNat)
  | .ffma rd ra rb rc rm => some (put (put (put (put (put 0x30000003 21 rd.toNat) 16 ra.toNat) 11 rb.toNat) 6 rc.toNat) 3 rm.toNat)
  | .fmin rd ra rb => some (put (put (put 0x30000004 21 rd.toNat) 16 ra.toNat) 11 rb.toNat)
  | .fmax rd ra rb => some (put (put (put 0x30000005 21 rd.toNat) 16 ra.toNat) 11 rb.toNat)
  | .frcp rd ra rm => some (put (put (put 0x30000006 21 rd.toNat) 16 ra.toNat) 3 rm.toNat)
  | .fcmp rd ra rb cond => some (put (put (put (put 0x30000007 21 rd.toNat) 16 ra.toNat) 11 rb.toNat) 6 cond.toNat)
  | .fcvt rd ra dst src rm sat => some (put (put (put (put (put (put 0x34000000 21 rd.toNat) 16 ra.toNat) 10 dst.toNat) 4 src.toNat) 1 rm.toNat) 0 sat.toNat)
  | .br cond ra rb off slot => some (put (put (put (put (put 0x38000000 23 cond.toNat) 18 ra.toNat) 13 rb.toNat) 4 off.toNat) 0 slot.toNat)
  | .jmp off slot => some (put (put 0x3c000000 4 off.toNat) 0 slot.toNat)
  | .call off slot => some (put (put 0x40000000 4 off.toNat) 0 slot.toNat)
  | .jmpr ra => some (put 0x44000000 17 ra.toNat)
  | .ret => some 0x44400000
  | .loop lc ra off slot => some (put (put (put (put 0x44800000 20 lc.toNat) 15 ra.toNat) 4 off.toNat) 0 slot.toNat)
  | .brq p off slot => some (put (put (put 0x44c00000 21 p.toNat) 4 off.toNat) 0 slot.toNat)
  | .rdv => some 0x45000000
  | .nop => some 0x45400000
  | .wfe => some 0x45800000
  | .sev => some 0x45c00000
  | .trap code => some (put 0x46000000 0 code.toNat)
  | .eret => some 0x46400000
  | .ld rd ra size order imm => some (put (put (put (put (put 0x48000000 21 rd.toNat) 16 ra.toNat) 14 size.toNat) 13 order.toNat) 0 imm.toNat)
  | .st rs ra size order imm => some (put (put (put (put (put 0x4c000000 21 rs.toNat) 16 ra.toNat) 14 size.toNat) 13 order.toNat) 0 imm.toNat)
  | .amoAdd rd ra rb w => some (put (put (put (put 0x50000000 21 rd.toNat) 16 ra.toNat) 11 rb.toNat) 5 w.toNat)
  | .amoMin rd ra rb w => some (put (put (put (put 0x50000001 21 rd.toNat) 16 ra.toNat) 11 rb.toNat) 5 w.toNat)
  | .amoMax rd ra rb w => some (put (put (put (put 0x50000002 21 rd.toNat) 16 ra.toNat) 11 rb.toNat) 5 w.toNat)
  | .amoAnd rd ra rb w => some (put (put (put (put 0x50000003 21 rd.toNat) 16 ra.toNat) 11 rb.toNat) 5 w.toNat)
  | .amoOr rd ra rb w => some (put (put (put (put 0x50000004 21 rd.toNat) 16 ra.toNat) 11 rb.toNat) 5 w.toNat)
  | .amoXor rd ra rb w => some (put (put (put (put 0x50000005 21 rd.toNat) 16 ra.toNat) 11 rb.toNat) 5 w.toNat)
  | .amoSwap rd ra rb w => some (put (put (put (put 0x50000006 21 rd.toNat) 16 ra.toNat) 11 rb.toNat) 5 w.toNat)
  | .cas rd ra rb rc w => some (put (put (put (put (put 0x50000007 21 rd.toNat) 16 ra.toNat) 11 rb.toNat) 6 rc.toNat) 5 w.toNat)
  | .fence scope => some (put 0x50000008 6 scope.toNat)
  | .spal rd ra => some (put (put 0x50000009 21 rd.toNat) 16 ra.toNat)
  | .spfree ra => some (put 0x5000000a 16 ra.toNat)
  | .lds rd ra size imm => some (put (put (put (put 0x54000000 21 rd.toNat) 16 ra.toNat) 14 size.toNat) 0 imm.toNat)
  | .sts rs ra size imm => some (put (put (put (put 0x54002000 21 rs.toNat) 16 ra.toNat) 14 size.toNat) 0 imm.toNat)
  | .amosAdd rd ra rb w => some (put (put (put (put 0x58000000 21 rd.toNat) 16 ra.toNat) 11 rb.toNat) 5 w.toNat)
  | .amosMin rd ra rb w => some (put (put (put (put 0x58000001 21 rd.toNat) 16 ra.toNat) 11 rb.toNat) 5 w.toNat)
  | .amosMax rd ra rb w => some (put (put (put (put 0x58000002 21 rd.toNat) 16 ra.toNat) 11 rb.toNat) 5 w.toNat)
  | .amosAnd rd ra rb w => some (put (put (put (put 0x58000003 21 rd.toNat) 16 ra.toNat) 11 rb.toNat) 5 w.toNat)
  | .amosOr rd ra rb w => some (put (put (put (put 0x58000004 21 rd.toNat) 16 ra.toNat) 11 rb.toNat) 5 w.toNat)
  | .amosXor rd ra rb w => some (put (put (put (put 0x58000005 21 rd.toNat) 16 ra.toNat) 11 rb.toNat) 5 w.toNat)
  | .amosSwap rd ra rb w => some (put (put (put (put 0x58000006 21 rd.toNat) 16 ra.toNat) 11 rb.toNat) 5 w.toNat)
  | .cass rd ra rb rc w => some (put (put (put (put (put 0x58000007 21 rd.toNat) 16 ra.toNat) 11 rb.toNat) 6 rc.toNat) 5 w.toNat)
  | .sbcast rd ra rb rc => some (put (put (put (put 0x58000008 21 rd.toNat) 16 ra.toNat) 11 rb.toNat) 6 rc.toNat)
  | .swatch ra rb => some (put (put 0x58000009 16 ra.toNat) 11 rb.toNat)
  | .slotq rd ra => some (put (put 0x5800000a 21 rd.toNat) 16 ra.toNat)
  | .vadd vd va vb mk => some (put (put (put (put 0x5c000000 20 vd.toNat) 14 va.toNat) 8 vb.toNat) 5 mk.toNat)
  | .vsub vd va vb mk => some (put (put (put (put 0x5c000001 20 vd.toNat) 14 va.toNat) 8 vb.toNat) 5 mk.toNat)
  | .vmul vd va vb mk => some (put (put (put (put 0x5c000002 20 vd.toNat) 14 va.toNat) 8 vb.toNat) 5 mk.toNat)
  | .vmin vd va vb mk => some (put (put (put (put 0x5c000003 20 vd.toNat) 14 va.toNat) 8 vb.toNat) 5 mk.toNat)
  | .vmax vd va vb mk => some (put (put (put (put 0x5c000004 20 vd.toNat) 14 va.toNat) 8 vb.toNat) 5 mk.toNat)
  | .vabs vd va mk => some (put (put (put 0x5c000005 20 vd.toNat) 14 va.toNat) 5 mk.toNat)
  | .vneg vd va mk => some (put (put (put 0x5c000006 20 vd.toNat) 14 va.toNat) 5 mk.toNat)
  | .vfma vd va vb vc ty => some (put (put (put (put (put 0x60000000 20 vd.toNat) 14 va.toNat) 8 vb.toNat) 2 vc.toNat) 0 ty.toNat)
  | .vaddPacked vd va vb mk ty => some (put (put (put (put (put 0x64000000 20 vd.toNat) 14 va.toNat) 8 vb.toNat) 5 mk.toNat) 4 ty.toNat)
  | .vsubPacked vd va vb mk ty => some (put (put (put (put (put 0x64000001 20 vd.toNat) 14 va.toNat) 8 vb.toNat) 5 mk.toNat) 4 ty.toNat)
  | .vmulPacked vd va vb mk ty => some (put (put (put (put (put 0x64000002 20 vd.toNat) 14 va.toNat) 8 vb.toNat) 5 mk.toNat) 4 ty.toNat)
  | .vminPacked vd va vb mk ty => some (put (put (put (put (put 0x64000003 20 vd.toNat) 14 va.toNat) 8 vb.toNat) 5 mk.toNat) 4 ty.toNat)
  | .vmaxPacked vd va vb mk ty => some (put (put (put (put (put 0x64000004 20 vd.toNat) 14 va.toNat) 8 vb.toNat) 5 mk.toNat) 4 ty.toNat)
  | .vabsPacked vd va mk ty => some (put (put (put (put 0x64000005 20 vd.toNat) 14 va.toNat) 5 mk.toNat) 4 ty.toNat)
  | .vnegPacked vd va mk ty => some (put (put (put (put 0x64000006 20 vd.toNat) 14 va.toNat) 5 mk.toNat) 4 ty.toNat)
  | .vexp2 vd va mk => some (put (put (put 0x68000000 20 vd.toNat) 14 va.toNat) 5 mk.toNat)
  | .vlog2 vd va mk => some (put (put (put 0x68000001 20 vd.toNat) 14 va.toNat) 5 mk.toNat)
  | .vrcp vd va mk => some (put (put (put 0x68000002 20 vd.toNat) 14 va.toNat) 5 mk.toNat)
  | .vrsq vd va mk => some (put (put (put 0x68000003 20 vd.toNat) 14 va.toNat) 5 mk.toNat)
  | .vtanh vd va mk => some (put (put (put 0x68000004 20 vd.toNat) 14 va.toNat) 5 mk.toNat)
  | .vsigm vd va mk => some (put (put (put 0x68000005 20 vd.toNat) 14 va.toNat) 5 mk.toNat)
  | .vcmp md va vb mk cond ty => some (put (put (put (put (put (put 0x6c000000 23 md.toNat) 14 va.toNat) 8 vb.toNat) 5 mk.toNat) 2 cond.toNat) 0 ty.toNat)
  | .vsel vd va vb sel => some (put (put (put (put 0x70000000 20 vd.toNat) 14 va.toNat) 8 vb.toNat) 5 sel.toNat)
  | .vand vd va vb mk => some (put (put (put (put 0x74000000 20 vd.toNat) 14 va.toNat) 8 vb.toNat) 5 mk.toNat)
  | .vor vd va vb mk => some (put (put (put (put 0x74000001 20 vd.toNat) 14 va.toNat) 8 vb.toNat) 5 mk.toNat)
  | .vxor vd va vb mk => some (put (put (put (put 0x74000002 20 vd.toNat) 14 va.toNat) 8 vb.toNat) 5 mk.toNat)
  | .vshl vd va vb mk => some (put (put (put (put 0x74000003 20 vd.toNat) 14 va.toNat) 8 vb.toNat) 5 mk.toNat)
  | .vshr vd va vb mk => some (put (put (put (put 0x74000004 20 vd.toNat) 14 va.toNat) 8 vb.toNat) 5 mk.toNat)
  | .vsra vd va vb mk => some (put (put (put (put 0x74000005 20 vd.toNat) 14 va.toNat) 8 vb.toNat) 5 mk.toNat)
  | .viadd vd va vb mk => some (put (put (put (put 0x74000006 20 vd.toNat) 14 va.toNat) 8 vb.toNat) 5 mk.toNat)
  | .visub vd va vb mk => some (put (put (put (put 0x74000007 20 vd.toNat) 14 va.toNat) 8 vb.toNat) 5 mk.toNat)
  | .vimul vd va vb mk => some (put (put (put (put 0x74000008 20 vd.toNat) 14 va.toNat) 8 vb.toNat) 5 mk.toNat)
  | .vcvt vd va fmt dir rm sat part => some (put (put (put (put (put (put (put 0x78000000 20 vd.toNat) 14 va.toNat) 8 fmt.toNat) 7 dir.toNat) 4 rm.toNat) 3 sat.toNat) 0 part.toNat)
  | .vquant vd va vs fmt => some (put (put (put (put 0x7c000000 20 vd.toNat) 14 va.toNat) 8 vs.toNat) 2 fmt.toNat)
  | .vdeq vd va vs fmt => some (put (put (put (put 0x7c000001 20 vd.toNat) 14 va.toNat) 8 vs.toNat) 2 fmt.toNat)
  | .vhad vd va mn norm sign => some (put (put (put (put (put 0x80000000 20 vd.toNat) 14 va.toNat) 11 mn.toNat) 10 norm.toNat) 9 sign.toNat)
  | .vperm vd va vb mk => some (put (put (put (put 0x84000000 20 vd.toNat) 14 va.toNat) 8 vb.toNat) 5 mk.toNat)
  | .vrot vd va imm mk => some (put (put (put (put 0x84000001 20 vd.toNat) 14 va.toNat) 8 imm.toNat) 5 mk.toNat)
  | .vbcast vd ra mk => some (put (put (put 0x84000002 20 vd.toNat) 14 ra.toNat) 5 mk.toNat)
  | .vreds vd va mk ty => some (put (put (put (put 0x88000000 20 vd.toNat) 14 va.toNat) 5 mk.toNat) 3 ty.toNat)
  | .vredx vd va mk ty => some (put (put (put (put 0x88000001 20 vd.toNat) 14 va.toNat) 5 mk.toNat) 3 ty.toNat)
  | .vscan vd va mk ty => some (put (put (put (put 0x88000002 20 vd.toNat) 14 va.toNat) 5 mk.toNat) 3 ty.toNat)
  | .vld vd ra imm => some (put (put (put 0x8c000000 20 vd.toNat) 15 ra.toNat) 0 imm.toNat)
  | .vst vd ra imm => some (put (put (put 0x8c000080 20 vd.toNat) 15 ra.toNat) 0 imm.toNat)
  | .vgth vd ra vi imm => some (put (put (put (put 0x8c000100 20 vd.toNat) 15 ra.toNat) 9 vi.toNat) 0 imm.toNat)
  | .vsct vd ra vi imm => some (put (put (put (put 0x8c000180 20 vd.toNat) 15 ra.toNat) 9 vi.toNat) 0 imm.toNat)
  | .vins vd ra lane => some (put (put (put 0x90000000 20 vd.toNat) 14 ra.toNat) 8 lane.toNat)
  | .vext rd va lane => some (put (put (put 0x90000001 20 rd.toNat) 14 va.toNat) 8 lane.toNat)
  | .vwin acc => some (put 0x90000002 8 acc.toNat)
  | .vpack vd va vb mk => some (put (put (put (put 0x90000003 20 vd.toNat) 14 va.toNat) 8 vb.toNat) 5 mk.toNat)
  | .vunpk vd va mk => some (put (put (put 0x90000004 20 vd.toNat) 14 va.toNat) 5 mk.toNat)
  | .mand md ma mb => some (put (put (put 0x94000000 23 md.toNat) 20 ma.toNat) 17 mb.toNat)
  | .mor md ma mb => some (put (put (put 0x94000001 23 md.toNat) 20 ma.toNat) 17 mb.toNat)
  | .mnot md ma => some (put (put 0x94000002 23 md.toNat) 20 ma.toNat)
  | .mpop ma rs => some (put (put 0x94000003 20 ma.toNat) 12 rs.toNat)
  | .vsortk vd va vb mk => some (put (put (put (put 0x98000000 20 vd.toNat) 14 va.toNat) 8 vb.toNat) 5 mk.toNat)
  | .vrng vd mk => some (put (put 0x98000001 20 vd.toNat) 5 mk.toNat)
  | .tshape tile ra => some (put (put 0x9c000000 23 tile.toNat) 18 ra.toNat)
  | .tzero tile => some (put 0x9c000001 23 tile.toNat)
  | .tpop tile q => some (put (put 0x9c000002 23 tile.toNat) 16 q.toNat)
  | .tld tile ra imm => some (put (put (put 0xa0000000 23 tile.toNat) 18 ra.toNat) 0 imm.toNat)
  | .tst tile ra imm => some (put (put (put 0xa0020000 23 tile.toNat) 18 ra.toNat) 0 imm.toNat)
  | .mma acc ta tb => some (put (put (put 0xa4000000 23 acc.toNat) 20 ta.toNat) 17 tb.toNat)
  | .mmas acc ta tb => some (put (put (put 0xa4008000 23 acc.toNat) 20 ta.toNat) 17 tb.toNat)
  | .mmat acc ta tb => some (put (put (put 0xa4010000 23 acc.toNat) 20 ta.toNat) 17 tb.toNat)
  | .azero acc => some (put 0xa8000000 23 acc.toNat)
  | .ald acc ra imm => some (put (put (put 0xa8008000 23 acc.toNat) 18 ra.toNat) 0 imm.toNat)
  | .ast acc ra imm => some (put (put (put 0xa8010000 23 acc.toNat) 18 ra.toNat) 0 imm.toNat)
  | .atr ad asrc => some (put (put 0xa8018000 23 ad.toNat) 20 asrc.toNat)
  | .lease n => some (put 0xac000000 0 n.toNat)
  | .unlease => some 0xae000000
  | .fmtsel k => some (put 0xb0000000 0 k.toNat)
  | .qpushDq n ra => some (put (put 0xb4100000 21 n.toNat) 14 ra.toNat)
  | .qpushOq n vs => some (put (put 0xb4800000 21 n.toNat) 14 vs.toNat)
  | .qpopDq n vd => some (put (put 0xb5000000 21 n.toNat) 14 vd.toNat)
  | .qpopOq n ra => some (put (put 0xb5900000 21 n.toNat) 14 ra.toNat)
  | .qstat q rd => some (put (put 0xb6000000 21 q.toNat) 14 rd.toNat)
  | .bqpush ra => some (put 0xb7000000 14 ra.toNat)
  | .tksend fifo ra => some (put (put 0xb8000000 21 fifo.toNat) 16 ra.toNat)
  | .tkrecv fifo rd => some (put (put 0xb9000000 21 fifo.toNat) 16 rd.toNat)
  | .sqpush ra n => some (put (put 0xba000000 16 ra.toNat) 0 n.toNat)
  | .mark mask => some (put 0xbc000000 0 mask.toNat)
  | .joinm => some 0xbe000000
  | .cpy tok ra rb dir dq red byte nd => some (put (put (put (put (put (put (put (put 0xc0000000 21 tok.toNat) 16 ra.toNat) 11 rb.toNat) 6 dir.toNat) 4 dq.toNat) 3 red.toNat) 2 byte.toNat) 0 nd.toNat)
  | .cpyq tok ra rb byte => some (put (put (put (put 0xc0000140 21 tok.toNat) 16 ra.toNat) 11 rb.toNat) 2 byte.toNat)
  | .gth tok ra rb dqdir dq => some (put (put (put (put (put 0xc0000200 21 tok.toNat) 16 ra.toNat) 11 rb.toNat) 7 dqdir.toNat) 4 dq.toNat)
  | .coll tok ra rb op rop => some (put (put (put (put (put 0xc4000000 21 tok.toNat) 16 ra.toNat) 11 rb.toNat) 5 op.toNat) 3 rop.toNat)
  | .nmc tok ra rb mom => some (put (put (put (put 0xc4000100 21 tok.toNat) 16 ra.toNat) 11 rb.toNat) 0 mom.toNat)
  | .dec tok ra rb codec layout => some (put (put (put (put (put 0xc4000200 21 tok.toNat) 16 ra.toNat) 11 rb.toNat) 6 codec.toNat) 5 layout.toNat)
  | .tref rd ra => some (put (put 0xc8000000 21 rd.toNat) 16 ra.toNat)
  | .tunpin ra => some (put 0xc8000001 16 ra.toNat)
  | .thint ra rb => some (put (put 0xc8000002 16 ra.toNat) 11 rb.toNat)
  | .tnewv rd ra rb => some (put (put (put 0xc8000003 21 rd.toNat) 16 ra.toNat) 11 rb.toNat)
  | .tnewvZero rd ra rb => some (put (put (put 0xc8000004 21 rd.toNat) 16 ra.toNat) 11 rb.toNat)
  | .pubv rd ra => some (put (put 0xc8000005 21 rd.toNat) 16 ra.toNat)
  | .tinfo rd ra rb => some (put (put (put 0xc8000006 21 rd.toNat) 16 ra.toNat) 11 rb.toNat)
  | .useadv rd ra => some (put (put 0xc8000007 21 rd.toNat) 16 ra.toNat)
  | .kvalloc rd ra rb => some (put (put (put 0xcc000000 21 rd.toNat) 16 ra.toNat) 11 rb.toNat)
  | .kvmap rd ra rb => some (put (put (put 0xcc000001 21 rd.toNat) 16 ra.toNat) 11 rb.toNat)
  | .kvshare rd ra rb rc => some (put (put (put (put 0xcc000002 21 rd.toNat) 16 ra.toNat) 11 rb.toNat) 6 rc.toNat)
  | .kvfree rd ra rb => some (put (put (put 0xcc000003 21 rd.toNat) 16 ra.toNat) 11 rb.toNat)
  | .radd vd va vb => some (put (put (put 0xd0000000 20 vd.toNat) 14 va.toNat) 8 vb.toNat)
  | .rsub vd va vb => some (put (put (put 0xd0000001 20 vd.toNat) 14 va.toNat) 8 vb.toNat)
  | .rmul vd va vb => some (put (put (put 0xd0000002 20 vd.toNat) 14 va.toNat) 8 vb.toNat)
  | .rmulUndo vd va vb => some (put (put (put 0xd0000003 20 vd.toNat) 14 va.toNat) 8 vb.toNat)
  | .rshr vd va k => some (put (put (put 0xd0000004 20 vd.toNat) 14 va.toNat) 8 k.toNat)
  | .rshrUndo vd va k => some (put (put (put 0xd0000005 20 vd.toNat) 14 va.toNat) 8 k.toNat)
  | .rlrelu vd va vb => some (put (put (put 0xd0000006 20 vd.toNat) 14 va.toNat) 8 vb.toNat)
  | .rlreluUndo vd va vb => some (put (put (put 0xd0000007 20 vd.toNat) 14 va.toNat) 8 vb.toNat)
  | .rnrw vd va fmt => some (put (put (put 0xd4000000 17 vd.toNat) 11 va.toNat) 5 fmt.toNat)
  | .rnrwUndo vd va fmt => some (put (put (put 0xd4800000 17 vd.toNat) 11 va.toNat) 5 fmt.toNat)
  | .cmark imm => some (put 0xd5000000 0 imm.toNat)
  | .cchk imm => some (put 0xd5800000 0 imm.toNat)
  | .catt ra => some (put 0xd6000000 18 ra.toNat)
  | .cdepth rd => some (put 0xd6800000 18 rd.toNat)
  | .rdcnt rd ra imm => some (put (put (put 0xd8000000 21 rd.toNat) 16 ra.toNat) 3 imm.toNat)
  | .cntsel ra imm => some (put (put 0xd8000001 16 ra.toNat) 3 imm.toNat)
  | .cntclr imm => some (put 0xd8000002 3 imm.toNat)
  | .rdtime rd => some (put 0xd8000003 21 rd.toNat)
  | .waitc imm => some (put 0xd8000004 3 imm.toNat)
  | .bufsel imm => some (put 0xd8000005 3 imm.toNat)
  | .psnap rd => some (put 0xd8000006 21 rd.toNat)
  | .getc reg creg => some (put (put 0xdc000000 21 reg.toNat) 0 creg.toNat)
  | .setc reg creg => some (put (put 0xdc100000 21 reg.toNat) 0 creg.toNat)
  | .launch rd ra rb => some (put (put (put 0xe0000000 21 rd.toNat) 16 ra.toNat) 11 rb.toNat)
  | .binv ra rb => some (put (put 0xe0000001 16 ra.toNat) 11 rb.toNat)
  | .slotset ra rb => some (put (put 0xe0000002 16 ra.toNat) 11 rb.toNat)
  | .illegalOp w => some w.toNat
  | _ => none

/-- The word of a well-formed instruction (R75, R78). -/
def encode (i : Instr) : Option W32 := (encodeNat i).map (BitVec.ofNat 32)

end Sys2Proof
end

