-- ==== Sys2Proof/Machine/Formats.lean ====
section
/-! DEFINITION. Number formats, rounding and conversion (R31 to R53): exact values, their decoding from every format,
rounding on a format's grid, and the one conversion procedure of R44. -/
namespace Sys2Proof.Machine

/-- An exact value (R44): a NaN that carries the sign and fraction of its fp32 form (R46), an infinity, or
(-1)^neg * m * 2^e. A zero keeps its sign. -/
inductive Num where
  | nan (neg : Bool) (frac : Nat)
  | inf (neg : Bool)
  | fin (neg : Bool) (m : Nat) (e : Int)
  deriving DecidableEq, Repr, Inhabited

/-- The NaN every arithmetic operation produces, 0x7FC0_0000 in fp32 (R50). -/
def Num.qnan : Num := .nan false 0x400000

def Num.neg : Num → Bool
  | .nan n _ => n
  | .inf n => n
  | .fin n _ _ => n

def Num.isNan : Num → Bool
  | .nan .. => true
  | _ => false

def Num.isInf : Num → Bool
  | .inf _ => true
  | _ => false

def Num.isZero : Num → Bool
  | .fin _ 0 _ => true
  | _ => false

/-- The exact value with its sign inverted. -/
def Num.negate : Num → Num
  | .nan n f => .nan (!n) f
  | .inf n => .inf (!n)
  | .fin n m e => .fin (!n) m e

/-- floor(log2 (m * 2^e)) for m nonzero. -/
def log2Mag (m : Nat) (e : Int) : Int := (Nat.log2 m : Int) + e

/-- m1 * 2^e1 < m2 * 2^e2. -/
def magLt (m1 : Nat) (e1 : Int) (m2 : Nat) (e2 : Int) : Bool :=
  if e1 ≤ e2 then m1 < m2 * 2 ^ (e2 - e1).toNat else m1 * 2 ^ (e1 - e2).toNat < m2

/-! ### The layouts of R33, R35, R36 and R37 -/

/-- Precision P of a format of the P3109 family (R37). -/
def p3109P (f : Nat) : Nat := f % 8 + 1

/-- The format is unsigned: ub8 family and uint8 (R36, R37). -/
def fmtUnsigned (f : Nat) : Bool := f == 0x09 || (fmtP3109 f && 0x20 ≤ f)

/-- An e variant of the P3109 family, which has infinities (R37). -/
def p3109Inf (f : Nat) : Bool := fmtP3109 f && f / 8 % 2 == 1

/-- Width t of the trailing significand (R33, R37). -/
def fmtT (f : Nat) : Nat :=
  if f = 0x00 then 23 else if f = 0x01 then 7 else if f = 0x02 then 10 else if f = 0x03 then 3
  else if f = 0x04 then 2 else if f = 0x05 then 1 else p3109P f - 1

/-- Exponent bias (R33, R37). -/
def fmtBias (f : Nat) : Int :=
  if f = 0x00 ∨ f = 0x01 then 127 else if f = 0x02 ∨ f = 0x04 then 15 else if f = 0x03 then 7
  else if f = 0x05 then 1
  else if fmtUnsigned f then 2 ^ (9 - p3109P f - 1) else 2 ^ (8 - p3109P f - 1)

/-- The format has a negative zero (R33; the P3109 family has none, R37). -/
def fmtNegZero (f : Nat) : Bool := f ≤ 0x05

/-- A two's complement or unsigned integer format, rq32 included (R36). -/
def fmtInteger (f : Nat) : Bool := f == 0x08 || f == 0x09 || f == 0x0A || f == 0x0B

def fmtHasNan (f : Nat) : Bool := !(fmtInteger f || f == 0x05)

def fmtHasInf (f : Nat) : Bool := f == 0x00 || f == 0x01 || f == 0x02 || f == 0x04 || p3109Inf f

/-- Code of the largest finite value of a floating-point format (R33, R38). -/
def fmtLargest (f : Nat) : Nat :=
  if f = 0x00 then 0x7F7FFFFF else if f = 0x01 then 0x7F7F else if f = 0x02 then 0x7BFF
  else if f = 0x03 then 0x7E else if f = 0x04 then 0x7B else if f = 0x05 then 0x7
  else if fmtUnsigned f then (if p3109Inf f then 0xFD else 0xFE)
  else if p3109Inf f then 0x7E else 0x7F

/-- A code read as two's complement of `w` bits. -/
def signedOf (w c : Nat) : Int := if c % 2 ^ w < 2 ^ (w - 1) then (c % 2 ^ w : Nat) else (c % 2 ^ w : Nat) - (2 ^ w : Nat)

/-- An integer as an exact value, times 2^e. -/
def Num.ofInt (v : Int) (e : Int) : Num := .fin (v < 0) v.natAbs e

/-- The finite value of exponent field `E` and trailing field `T` (R33). -/
def finOfFields (f : Nat) (neg : Bool) (E T : Nat) : Num :=
  if E = 0 then .fin neg T (1 - fmtBias f - fmtT f) else .fin neg (2 ^ fmtT f + T) (E - fmtBias f - fmtT f)

/-- The exact value of a code of format `f`; `rqf` is RQF (R33, R35, R36, R37, and R46 for NaNs). -/
def decodeNum (rqf f c : Nat) : Num :=
  if f = 0x08 then .ofInt (signedOf 8 c) 0
  else if f = 0x09 then .fin false (c % 256) 0
  else if f = 0x0A then .ofInt (signedOf 32 c) 0
  else if f = 0x0B then .ofInt (signedOf 32 c) (-(rqf : Int))
  else if f = 0x06 then (if c % 256 = 255 then .qnan else .fin false 1 ((c % 256 : Nat) - 127))
  else if fmtP3109 f then
    let c := c % 256
    if fmtUnsigned f then
      if c = 0xFF then .qnan
      else if p3109Inf f ∧ c = 0xFE then .inf false
      else finOfFields f false (c / 2 ^ fmtT f) (c % 2 ^ fmtT f)
    else
      if c = 0x80 then .qnan
      else if p3109Inf f ∧ c % 128 = 0x7F then .inf (c ≥ 128)
      else finOfFields f (c ≥ 128) (c % 128 / 2 ^ fmtT f) (c % 2 ^ fmtT f)
  else
    let w := fmtWidth f
    let c := c % 2 ^ w
    let neg : Bool := c ≥ 2 ^ (w - 1)
    let t := fmtT f
    let E := c % 2 ^ (w - 1) / 2 ^ t
    let T := c % 2 ^ t
    let top := 2 ^ (w - 1 - t) - 1
    if f = 0x03 then (if c % 128 = 0x7F then .nan neg 0x400000 else finOfFields f neg E T)
    else if f = 0x05 then finOfFields f neg E T
    else if E = top then (if T = 0 then .inf neg else .nan neg (T * 2 ^ (23 - t)))
    else finOfFields f neg E T

/-! ### Rounding (R39 to R41) -/

/-- Rounds the magnitude m * 2^e to a whole number of units 2^u. `odd q` says whether grid point q counts as odd in a
tie; `rb` are the 16 random bits of mode sr (R39, R40, R41). -/
def roundUnits (mode : Nat) (rb : Nat) (neg : Bool) (odd : Nat → Bool) (m : Nat) (e u : Int) : Nat :=
  if u ≤ e then m * 2 ^ (e - u).toNat
  else
    let d := (u - e).toNat
    let q := m / 2 ^ d
    let r := m % 2 ^ d
    if mode = 0 then (if 2 ^ d < 2 * r ∨ (2 * r = 2 ^ d ∧ odd q) then q + 1 else q)
    else if mode = 1 then q
    else if mode = 2 then (if r ≠ 0 ∧ !neg then q + 1 else q)
    else if mode = 3 then (if r ≠ 0 ∧ neg then q + 1 else q)
    else (m * 2 ^ 16 / 2 ^ d + rb % 2 ^ 16) / 2 ^ 16

/-- Exponent of the grid spacing of a floating-point format at magnitude m * 2^e (R40). -/
def gridExp (f : Nat) (m : Nat) (e : Int) : Int :=
  max (log2Mag m e - fmtT f) (1 - fmtBias f - fmtT f)

/-- Rounds a magnitude on the grid of a floating-point format: the units and the exponent of one unit (R40). With a
trailing significand (t > 0) the even code is the even number of units. With none (P = 1) consecutive codes are
consecutive powers of two, and the tie goes to the even code (DEDUCED, unsafe: log entry 6). -/
def roundFloat (f mode rb : Nat) (neg : Bool) (m : Nat) (e : Int) : Nat × Int :=
  if m = 0 then (0, 0)
  else
    let u := gridExp f m e
    let odd := fun q : Nat =>
      if fmtT f = 0 ∧ 1 - fmtBias f ≤ log2Mag m e then (log2Mag m e + fmtBias f) % 2 = 1 else q % 2 = 1
    (roundUnits mode rb neg (fun q => odd q) m e u, u)

/-- The code of q * 2^u, which lies on the grid of `f` inside its finite range (R33, R37, R40). -/
def encodeFloat (f : Nat) (neg : Bool) (q : Nat) (u : Int) : Nat :=
  let sign := if neg ∧ (q ≠ 0 ∨ fmtNegZero f) then 2 ^ (fmtWidth f - 1) else 0
  if q = 0 then sign
  else
    let l := log2Mag q u
    let lo := max l (1 - fmtBias f) - fmtT f
    let sig := if lo ≤ u then q * 2 ^ (u - lo).toNat else q / 2 ^ (lo - u).toNat
    if l < 1 - fmtBias f then sign + sig
    else sign + (l + fmtBias f).toNat * 2 ^ fmtT f + (sig - 2 ^ fmtT f)

/-- q * 2^u exceeds the largest finite value of a floating-point format. -/
def overLargest (f : Nat) (q : Nat) (u : Int) : Bool :=
  match decodeNum 0 f (fmtLargest f) with
  | .fin _ m e => magLt m e q u
  | _ => false

/-- The code of the finite limit of the sign given (R44, finite_limit). -/
def finiteLimit (f : Nat) (neg : Bool) : Nat :=
  if f = 0x08 then (if neg then 0x80 else 0x7F)
  else if f = 0x09 then (if neg then 0 else 0xFF)
  else if fmtInteger f then (if neg then 0x80000000 else 0x7FFFFFFF)
  else if neg then (if fmtUnsigned f then 0 else fmtLargest f + 2 ^ (fmtWidth f - 1))
  else fmtLargest f

/-- The infinity code of the sign given, for a format that has one (R33, R37). -/
def infCode (f : Nat) (neg : Bool) : Nat :=
  if fmtP3109 f then (if fmtUnsigned f then 0xFE else if neg then 0xFF else 0x7F)
  else (2 ^ (fmtWidth f - 1 - fmtT f) - 1) * 2 ^ fmtT f + (if neg then 2 ^ (fmtWidth f - 1) else 0)

/-- The NaN code of a format for a NaN of the sign and fp32 fraction given (R46). -/
def nanCode (f : Nat) (neg : Bool) (frac : Nat) : Nat :=
  let s := if neg then 2 ^ (fmtWidth f - 1) else 0
  if f = 0x00 then s + 0x7F800000 + frac
  else if f = 0x01 then s + 0x7F80 + (if frac / 2 ^ 16 = 0 then 0x40 else frac / 2 ^ 16)
  else if f = 0x02 then s + 0x7C00 + (if frac / 2 ^ 13 = 0 then 0x200 else frac / 2 ^ 13)
  else if f = 0x04 then s + 0x7C + (if frac / 2 ^ 21 = 0 then 2 else frac / 2 ^ 21)
  else if f = 0x03 then s + 0x7F
  else if f = 0x06 ∨ fmtUnsigned f then 0xFF
  else 0x80

/-- The exact magnitude lies beyond every infinity's rounding: used for an infinite source. -/
structure Conv where
  /-- The code of the target format. -/
  code : Nat
  /-- A finite limit was returned because of saturation, or a NaN was replaced by a zero code (R61). -/
  sat : Bool
  deriving DecidableEq, Repr, Inhabited

/-- Conversion to e8m0 (R45). -/
def convertE8m0 (x : Num) : Nat :=
  match x with
  | .nan .. => 0xFF
  | .inf _ => 0xFE
  | .fin _ 0 _ => 0
  | .fin _ m e => (max (-127) (min 127 (log2Mag m e)) + 127).toNat

/-- The limits of an integer format in units of its spacing: least and largest (R36). -/
def intLeast (f : Nat) : Int := if f = 0x08 then -128 else if f = 0x09 then 0 else -(2 ^ 31)
def intLargest (f : Nat) : Int := if f = 0x08 then 127 else if f = 0x09 then 255 else 2 ^ 31 - 1

/-- convert(x, f, m, sat) of R44, with RQF and the random bits of mode sr. -/
def convert (rqf : Nat) (x : Num) (f mode : Nat) (sat : Bool) (rb : Nat) : Conv :=
  if f = 0x06 then ⟨convertE8m0 x, false⟩
  else
  match x with
  | .nan n fr => if fmtHasNan f then ⟨nanCode f n fr, false⟩ else ⟨0, true⟩
  | .inf n =>
    if fmtUnsigned f ∧ n then (if sat ∨ !fmtHasNan f then ⟨0, true⟩ else ⟨nanCode f n 0x400000, false⟩)
    else if sat ∨ !fmtHasNan f then ⟨finiteLimit f n, true⟩
    else if fmtHasInf f then ⟨infCode f n, false⟩ else ⟨nanCode f n 0x400000, false⟩
  | .fin n m e =>
    if fmtInteger f then
      let u : Int := if f = 0x0B then -(rqf : Int) else 0
      let q := roundUnits mode rb n (fun q => q % 2 = 1) m e u
      let v : Int := if n then -(q : Int) else q
      if v < intLeast f ∨ intLargest f < v then ⟨finiteLimit f n, true⟩
      else ⟨(v % (2 ^ fmtWidth f : Nat)).toNat, false⟩
    else
      let (q, u) := roundFloat f mode rb n m e
      if fmtUnsigned f ∧ n ∧ m ≠ 0 then
        if q = 0 then ⟨0, false⟩ else if sat then ⟨0, true⟩ else ⟨nanCode f n 0x400000, false⟩
      else if overLargest f q u then
        if sat ∨ !fmtHasNan f then ⟨finiteLimit f n, true⟩
        else if fmtHasInf f then ⟨infCode f n, false⟩ else ⟨nanCode f n 0x400000, false⟩
      else ⟨encodeFloat f n q u, false⟩

/-- emax(f) of R53: floor(log2 (largest finite of f)). -/
def fmtEmax (f : Nat) : Int :=
  match decodeNum 0 f (fmtLargest f) with
  | .fin _ m e => log2Mag m e
  | _ => 0

/-- Multiplies an exact value by 2^k (R51, R53, R239). -/
def Num.scale : Num → Int → Num
  | .fin n m e, k => .fin n m (e + k)
  | x, _ => x

/-! ### Arithmetic in fp32, bf16 and fp16 (R50, R142) -/

/-- The NaN that arithmetic produces in a format: 0x7FC0_0000, 0x7FC0, 0x7E00 (R50, R142). -/
def arithNan (f : Nat) : Nat := nanCode f false 0x400000

/-- Rounds an exact result to fp32, bf16 or fp16, with the overflow rule of R50. -/
def roundArith (f mode rb : Nat) (x : Num) : Nat :=
  match x with
  | .nan .. => arithNan f
  | .inf n => infCode f n
  | .fin n m e =>
    let (q, u) := roundFloat f mode rb n m e
    if overLargest f q u then
      if mode = 1 ∨ (mode = 2 ∧ n) ∨ (mode = 3 ∧ !n) then finiteLimit f n else infCode f n
    else encodeFloat f n q u

/-- The exact sum; a zero sum of nonzero or opposite terms is +0, and −0 in rdn, as IEEE 754-2019 has it (R50). -/
def addNum (mode : Nat) (x y : Num) : Num :=
  match x, y with
  | .nan .., _ => .qnan
  | _, .nan .. => .qnan
  | .inf a, .inf b => if a = b then .inf a else .qnan
  | .inf a, _ => .inf a
  | _, .inf b => .inf b
  | .fin a m e, .fin b n g =>
    let lo := min e g
    let p : Int := m * 2 ^ (e - lo).toNat
    let q : Int := n * 2 ^ (g - lo).toNat
    let s := (if a then -p else p) + (if b then -q else q)
    if s = 0 then (if m = 0 ∧ n = 0 ∧ a = b then .fin a 0 0 else .fin (mode == 3) 0 0)
    else .ofInt s lo

/-- The exact product. -/
def mulNum (x y : Num) : Num :=
  match x, y with
  | .nan .., _ => .qnan
  | _, .nan .. => .qnan
  | .inf a, .inf b => .inf (a != b)
  | .inf a, .fin b n _ => if n = 0 then .qnan else .inf (a != b)
  | .fin a m _, .inf b => if m = 0 then .qnan else .inf (a != b)
  | .fin a m e, .fin b n g => .fin (a != b) (m * n) (e + g)

def fpAdd (f mode rb x y : Nat) : Nat := roundArith f mode rb (addNum mode (decodeNum 0 f x) (decodeNum 0 f y))
def fpSub (f mode rb x y : Nat) : Nat :=
  roundArith f mode rb (addNum mode (decodeNum 0 f x) (decodeNum 0 f y).negate)
def fpMul (f mode rb x y : Nat) : Nat := roundArith f mode rb (mulNum (decodeNum 0 f x) (decodeNum 0 f y))
def fpFma (f mode rb x y z : Nat) : Nat :=
  roundArith f mode rb (addNum mode (mulNum (decodeNum 0 f x) (decodeNum 0 f y)) (decodeNum 0 f z))

/-- x < y, both not NaN, with −0 equal to +0. -/
def numLt (x y : Num) : Bool :=
  match x, y with
  | .nan .., _ => false
  | _, .nan .. => false
  | .inf a, .inf b => a && !b
  | .inf a, .fin .. => a
  | .fin .., .inf b => !b
  | .fin a m e, .fin b n g =>
    if m = 0 ∧ n = 0 then false
    else if a && !b then true
    else if !a && b then false
    else if a then magLt n g m e else magLt m e n g

/-- Neither is NaN and x = y, with −0 equal to +0 (R117). -/
def numEq (x y : Num) : Bool := !x.isNan && !y.isNan && !numLt x y && !numLt y x

/-- x is ordered before y by R116: numeric order, with −0 below +0. -/
def numBefore (x y : Num) : Bool := numLt x y || (numEq x y && x.neg && !y.neg)

/-- fmin and fmax on codes of a format (R116). -/
def fpMin (f x y : Nat) : Nat :=
  match (decodeNum 0 f x).isNan, (decodeNum 0 f y).isNan with
  | true, true => arithNan f
  | true, false => y
  | false, true => x
  | false, false => if numBefore (decodeNum 0 f y) (decodeNum 0 f x) then y else x
def fpMax (f x y : Nat) : Nat :=
  match (decodeNum 0 f x).isNan, (decodeNum 0 f y).isNan with
  | true, true => arithNan f
  | true, false => y
  | false, true => x
  | false, false => if numBefore (decodeNum 0 f x) (decodeNum 0 f y) then y else x

/-- The conditions of R117. -/
def fpCond (cond : Nat) (x y : Num) : Bool :=
  let un := x.isNan || y.isNan
  if cond = 0 then numEq x y
  else if cond = 1 then un || !numEq x y
  else if cond = 2 then numLt x y
  else if cond = 3 then !un && !numLt y x
  else if cond = 4 then numLt y x
  else if cond = 5 then !un && !numLt x y
  else if cond = 6 then un
  else !un

/-! ### Correctly rounded functions (R115, R143). A result that is not dyadic is carried as its floor to many bits with
a sticky last bit, which no rounding mode of R39 tells from the exact value. -/

/-- Newton's iteration for the integer square root, from a start at or above it. -/
def isqrtIter (n : Nat) : Nat → Nat → Nat
  | 0, x => x
  | k + 1, x => if (x + n / x) / 2 < x then isqrtIter n k ((x + n / x) / 2) else x

/-- floor(sqrt n). -/
def isqrt (n : Nat) : Nat := if n = 0 then 0 else isqrtIter n (Nat.log2 n + 2) (2 ^ (Nat.log2 n / 2 + 1))

/-- floor magnitude `q` at exponent `e`, with a sticky bit below it. -/
def sticky (neg : Bool) (q : Nat) (e : Int) (inexact : Bool) : Num :=
  .fin neg (2 * q + (if inexact then 1 else 0)) (e - 1)

/-- 1/x (R115, R143). -/
def rcpNum (x : Num) : Num :=
  match x with
  | .nan .. => .qnan
  | .inf n => .fin n 0 0
  | .fin n m e =>
    if m = 0 then .inf n
    else
      let k := Nat.log2 m + 100
      sticky n (2 ^ k / m) (-(k : Int) - e) (2 ^ k % m ≠ 0)

/-- 1/sqrt(x) (R143). -/
def rsqNum (x : Num) : Num :=
  match x with
  | .nan .. => .qnan
  | .inf n => if n then .qnan else .fin false 0 0
  | .fin n m e =>
    if m = 0 then .inf n
    else if n then .qnan
    else
      let odd := (e % 2).toNat
      let m' := m * 2 ^ odd
      let k := Nat.log2 m' + 100
      let q := isqrt (2 ^ (2 * k) / m')
      sticky false q (-(k : Int) - (e - odd) / 2) (q * q * m' ≠ 2 ^ (2 * k))

/-- Working precision of exp2, in bits. -/
def exp2Bits : Nat := 320

/-- Product of 2^(2^-i) over the set bits of a fraction of `n` bits, taken from the highest: `r` is 2^(2^-(i-1)). -/
def exp2Frac (n frac : Nat) : Nat → Nat → Nat → Nat
  | 0, _, acc => acc
  | k + 1, r, acc =>
    let r' := isqrt (r * 2 ^ exp2Bits)
    let acc' := if frac / 2 ^ k % 2 = 1 then acc * r' / 2 ^ exp2Bits else acc
    exp2Frac n frac k r' acc'

/-- 2^x (R143). -/
def exp2Num (x : Num) : Num :=
  match x with
  | .nan .. => .qnan
  | .inf n => if n then .fin false 0 0 else .inf false
  | .fin n m e =>
    if m = 0 then .fin false 1 0
    else if 10 ≤ log2Mag m e then .fin false 1 (if n then -2000 else 2000)
    else
      let d := (-e).toNat
      let v : Int := (if n then -(m : Int) else m) * 2 ^ e.toNat
      let whole := v / (2 ^ d : Nat)
      let frac := (v % (2 ^ d : Nat)).toNat
      if frac = 0 then .fin false 1 whole
      else sticky false (exp2Frac d frac d (2 * 2 ^ exp2Bits) (2 ^ exp2Bits)) (whole - exp2Bits) true

/-- Working precision of log2, in bits, and the fraction bits it forms. -/
def log2Work : Nat := 400
def log2Out : Nat := 140

/-- The fraction bits of log2 of y / 2^log2Work, which lies in [1, 2). -/
def log2Frac : Nat → Nat → Nat → Nat
  | 0, _, acc => acc
  | k + 1, y, acc =>
    let z := y * y / 2 ^ log2Work
    if 2 ^ (log2Work + 1) ≤ z then log2Frac k (z / 2) (2 * acc + 1) else log2Frac k z (2 * acc)

/-- log2 x (R143). -/
def log2Num (x : Num) : Num :=
  match x with
  | .nan .. => .qnan
  | .inf n => if n then .qnan else .inf false
  | .fin n m e =>
    if m = 0 then .inf true
    else if n then .qnan
    else
      let l := Nat.log2 m
      let E : Int := l + e
      if m = 2 ^ l then .ofInt E 0
      else
        let F := log2Frac log2Out (m * 2 ^ (log2Work - l)) 0
        if 0 ≤ E then sticky false (E.toNat * 2 ^ log2Out + F) (-(log2Out : Int)) true
        else sticky true ((-E).toNat * 2 ^ log2Out - F - 1) (-(log2Out : Int)) true

/-! ### Random bits and checksums -/

/-- Philox4x32-10: ten rounds on counter (c0, c1, c2, c3) and key (k0, k1) (R42). -/
def philoxRounds : Nat → Nat → Nat → Nat → Nat → Nat → Nat → Nat × Nat × Nat × Nat
  | 0, c0, c1, c2, c3, _, _ => (c0, c1, c2, c3)
  | n + 1, c0, c1, c2, c3, k0, k1 =>
    let p0 := 0xD2511F53 * c0
    let p1 := 0xCD9E8D57 * c2
    philoxRounds n (Nat.xor (Nat.xor (p1 / 2 ^ 32) c1) k0) (p1 % 2 ^ 32) (Nat.xor (Nat.xor (p0 / 2 ^ 32) c3) k1)
      (p0 % 2 ^ 32) ((k0 + 0x9E3779B9) % 2 ^ 32) ((k1 + 0xBB67AE85) % 2 ^ 32)

/-- The first output word of Philox4x32-10 (R42, R43, R163). -/
def philox (c0 c1 c2 c3 k0 k1 : Nat) : Nat :=
  (philoxRounds 10 (c0 % 2 ^ 32) (c1 % 2 ^ 32) (c2 % 2 ^ 32) (c3 % 2 ^ 32) (k0 % 2 ^ 32) (k1 % 2 ^ 32)).1

/-- The random bits of the vector path (R42): seed SRSEED, counter SRCTR, element index, stream code. -/
def rbStream (seed ctr e sc : Nat) : Nat := philox ctr (ctr / 2 ^ 32) e sc seed (seed / 2 ^ 32) % 2 ^ 16

/-- The random bits of a tensor store (R43): the block's seed and the element's bit offset divided by 4. -/
def rbStore (seed p : Nat) : Nat := philox p (p / 2 ^ 32) 0 0 seed (seed / 2 ^ 32) % 2 ^ 16

/-- Eight steps of the reflected CRC-32C register (R59). -/
def crcBits : Nat → Nat → Nat
  | 0, c => c
  | k + 1, c => crcBits k (if c % 2 = 1 then Nat.xor (c / 2) 0x82F63B78 else c / 2)

/-- CRC-32C of a byte sequence (R59). -/
def crc32c (bs : List Byte) : W32 :=
  BitVec.ofNat 32 (Nat.xor (bs.foldl (fun c b => crcBits 8 (Nat.xor c b.toNat)) 0xFFFFFFFF) 0xFFFFFFFF)

/-! ### MX quantisation (R53) -/

/-- The largest magnitude of a list of exact values, or none when one is a NaN (R53 amax). -/
def amaxNum : List Num → Option Num
  | [] => some (.fin false 0 0)
  | x :: xs =>
    match amaxNum xs with
    | none => none
    | some a =>
      match x with
      | .nan .. => none
      | .inf _ => some (.inf false)
      | .fin _ m e => if numLt a (.fin false m e) then some (.fin false m e) else some a

/-- One block quantised by R53: the scale code, the element codes, and the saturation count of R61. -/
structure QuantBlock where
  scale : Nat
  codes : List Nat
  sat : Nat
  amax : Option Num
  deriving DecidableEq, Repr

def quantBlock (f : Nat) (xs : List Num) : QuantBlock :=
  let a := amaxNum xs
  let S : Nat :=
    match a with
    | none => 0xFF
    | some (.fin _ 0 _) => 0
    | some (.fin _ m e) => (max (-127) (min 127 (log2Mag m e - fmtEmax f)) + 127).toNat
    | some _ => 254
  let cs := xs.map fun x => if S = 0xFF then ⟨0, false⟩ else convert 0 (x.scale (127 - (S : Int))) f 0 true 0
  { scale := S, codes := cs.map Conv.code, sat := (cs.filter Conv.sat).length, amax := a }

/-- An amax value as fp32 in rne, 0x7FC0_0000 for a NaN (R58). -/
def amaxCode (a : Option Num) : Nat :=
  match a with
  | none => 0x7FC00000
  | some x => roundArith 0 0 0 x

end Sys2Proof.Machine
end

