-- ==== Sys2Proof/Machine/Maps.lean ====
section
/-! DEFINITION. Sparse maps and memories as plain lists. A map lists keys in rising order; an unlisted key holds the
value its reader names. A memory is such a list of bytes in ONE canonical form: rising addresses, and no entry equal to
the byte an unlisted address reads as. -/
namespace Sys2Proof.Machine

/-- What a map holds at a key; `d` where the key is unlisted. -/
def look {α : Type} (d : α) : List (Nat × α) → Nat → α
  | [], _ => d
  | (k, v) :: m, a => if k = a then v else look d m a

/-- Whether a map lists a key, and what it holds there. -/
def find {α : Type} : List (Nat × α) → Nat → Option α
  | [], _ => none
  | (k, v) :: m, a => if k = a then some v else find m a

/-- Sets a key, in its place in the rising order. -/
def set {α : Type} : List (Nat × α) → Nat → α → List (Nat × α)
  | [], a, v => [(a, v)]
  | (k, w) :: m, a, v =>
    if a < k then (a, v) :: (k, w) :: m else if a = k then (a, v) :: m else (k, w) :: set m a v

/-- Removes a key. -/
def erase {α : Type} : List (Nat × α) → Nat → List (Nat × α)
  | [], _ => []
  | (k, w) :: m, a => if k = a then m else (k, w) :: erase m a

/-- Keys rise strictly. -/
def rising {α : Type} : List (Nat × α) → Bool
  | [] => true
  | [_] => true
  | (a, _) :: (b, w) :: m => decide (a < b) && rising ((b, w) :: m)

/-- A memory: cells in canonical form (Host.Cell). -/
abbrev Memory := List Host.Cell

/-- The byte that an unlisted address reads as. The manual calls memory contents after reset undefined (R4, R187); this
byte is the model's choice (DESIGN CHOICE, unsafe: log entry 1). -/
def emptyByte : Byte := 0

/-- Reads one byte. -/
def Memory.byte (m : Memory) (a : Nat) : Byte := look emptyByte m a

/-- The cells of a byte list that stands at `a`: bytes equal to the empty byte are not listed. -/
def cellsAt (a : Nat) : List Byte → Memory
  | [] => []
  | b :: bs => if b = emptyByte then cellsAt (a + 1) bs else (a, b) :: cellsAt (a + 1) bs

/-- Writes a byte list from `a` upward, keeping the canonical form. -/
def Memory.setBytes (m : Memory) (a : Nat) (bs : List Byte) : Memory :=
  m.filter (fun c => c.1 < a) ++ (cellsAt a bs ++ m.filter fun c => a + bs.length ≤ c.1)

/-- Writes one byte. -/
def Memory.setByte (m : Memory) (a : Nat) (v : Byte) : Memory := m.setBytes a [v]

/-- The canonical form: rising addresses, no entry equal to what an unlisted address reads as. -/
def Memory.wf (m : Memory) : Bool := rising m && m.all fun c => c.2 != emptyByte

/-- Reads `n` bytes from `a` upward. -/
def Memory.bytes (m : Memory) (a n : Nat) : List Byte := (List.range n).map fun i => m.byte (a + i)

/-- A little-endian number from bytes (R7). -/
def leNat : List Byte → Nat
  | [] => 0
  | b :: bs => b.toNat + 256 * leNat bs

/-- The `n` little-endian bytes of a number (R7). -/
def leBytes : Nat → Nat → List Byte
  | 0, _ => []
  | n + 1, v => BitVec.ofNat 8 v :: leBytes n (v / 256)

/-- Reads a little-endian number of `n` bytes. -/
def Memory.num (m : Memory) (a n : Nat) : Nat := leNat (m.bytes a n)

/-- Writes a little-endian number of `n` bytes. -/
def Memory.setNum (m : Memory) (a n v : Nat) : Memory := m.setBytes a (leBytes n v)

/-- The cells of a memory in [lo, lo + n). -/
def Memory.window (m : Memory) (lo n : Nat) : Memory := m.filter fun c => lo ≤ c.1 && c.1 < lo + n

/-- The memory with every byte of [lo, lo + n) set to the empty byte. -/
def Memory.clear (m : Memory) (lo n : Nat) : Memory := m.filter fun c => c.1 < lo || lo + n ≤ c.1

/-- The cells of [lo, lo + n), numbered from `lo`. -/
def Memory.slice (m : Memory) (lo n : Nat) : Memory := (m.window lo n).map fun c => (c.1 - lo, c.2)

/-- The bytes of [dst, dst + n) become the first `n` of another memory. -/
def Memory.splice (m : Memory) (dst n : Nat) (v : Memory) : Memory :=
  m.filter (fun c => c.1 < dst) ++ (((v.window 0 n).map fun c => (c.1 + dst, c.2)) ++ m.filter fun c => dst + n ≤ c.1)

/-- The bytes of [dst, dst + n) become those of [src, src + n). -/
def Memory.copyRange (m : Memory) (src dst n : Nat) : Memory := m.splice dst n (m.slice src n)

/-- Writes listed cells, each moved by `base`. -/
def Memory.overlay (m : Memory) (base : Nat) : Memory → Memory
  | [] => m
  | (a, v) :: r => Memory.overlay (m.setByte (base + a) v) base r

end Sys2Proof.Machine
end

