-- ==== Sys2Proof/Machine/CoreState.lean ====
section
/-! DEFINITION. The state of one core and of the job it runs, as plain data (R90 to R101, R167, R187, R244, R266, R291,
R368 to R383, R384). Every field carries its reset value. -/
namespace Sys2Proof.Machine

/-- A program counter: line index and slot (R64). -/
structure Pc where
  line : BitVec 24 := 0
  slot : BitVec 4 := 0
  deriving DecidableEq, Repr, Inhabited

/-- Why a stream waits. `dog` waits count for the watchdog, with the code and number of R269 and R270; the others do
not. -/
inductive Wait where
  | dog (code num : Nat)
  /-- Power throttling withholds a chunk's start (R340). -/
  | power
  | event | lease | fence | stackQueue | bulkQueue | crossbar | cullet | pop | engine | boundary | others
  /-- push_cullet waits for room for an entry of `n` bytes (R294). -/
  | push (n : Nat)
  deriving DecidableEq, Repr, Inhabited

/-- What a stack-scope packet does (R248, R255). -/
inductive PacketOp where
  | write | amo (fn : Nat) (rd : Nat) | cas (new : Nat) (rd : Nat)
  deriving DecidableEq, Repr, Inhabited

/-- A stack-scope packet (R248). -/
structure Packet where
  op : PacketOp
  ea : Nat := 0
  n : Nat := 0
  v : Nat := 0
  /-- The ac of issue (R248). -/
  issued : Nat := 0
  core : Nat := 0
  strm : Strm := .L
  region : Nat := 0
  /-- Commands of the core's bulk queue numbered below this must have been carried first (R258). -/
  after : Nat := 0
  deriving DecidableEq, Repr, Inhabited

/-- A transfer fault record (R207), with the command number as the engine knows it. -/
structure TransferRec where
  seq : Nat := 0
  cause : Nat := 0
  strm : Strm := .L
  engine : Nat := 0
  handle : Nat := 0
  block : Nat := 0
  coords : List Nat := []
  remaining : Nat := 0
  delivered : Nat := 0
  detail : Nat := 0
  /-- FINFO where R241 gives a destination mask instead of the record's first bytes. -/
  mask : Option Nat := none
  deriving DecidableEq, Repr, Inhabited

/-- Why an access is refused: a cause and the detail of R207. -/
structure Denial where
  cause : Nat
  detail : Nat := 0
  deriving DecidableEq, Repr, Inhabited

/-- What the checks of a coll's group have settled for every member of it: a refusal, with the mask of R241, and whether
one is stale. -/
structure Verdict where
  /-- The commands differ in op, rop or bytes: each is VIEW_BAD (R414). -/
  differ : Bool := false
  refusal : Option (Nat × Nat × Denial) := none
  mask : Option Nat := none
  stale : Bool := false
  deriving DecidableEq, Repr, Inhabited

/-- What an accepted command is doing. -/
inductive Stage where
  /-- Issued and not accepted. -/
  | queued
  /-- The next unit's block is to be walked and checked (R200). -/
  | walk
  /-- A read of the unit has left with the reader's vector (R229). -/
  | read (vec : List Nat)
  /-- Bytes wait for room in a data queue (R285). -/
  | push
  /-- Every byte is on its way; the command completes when its writes are applied and R230 holds. -/
  | drain
  /-- Waits in place, at a block, for a rebuild that a handler's transfer asked for (R356). -/
  | rebuild (handle block : Nat)
  /-- A check has failed: the record is to be raised (R208). -/
  | failed (rec : TransferRec)
  /-- Stopped by a fault at its record (R208), or suspended (R105, R356). -/
  | stopped (rec : TransferRec)
  deriving DecidableEq, Repr, Inhabited

/-- An engine command with its descriptor snapshot (R278, R280). -/
structure Cmd where
  instr : Instr
  tok : Nat := 0
  strm : Strm := .L
  /-- Values of s[sa] and s[sb] at issue. -/
  a : W64 := 0
  b : W64 := 0
  desc : List Byte := []
  /-- Command number in its stream since job start; R207 shows its low 16 bits. -/
  seq : Nat := 0
  /-- Order of entry into the core's command queues, and the ac of entry (R281). -/
  entered : Nat := 0
  at_ : Nat := 0
  buf : Byte := 0
  /-- Read and write ranges of R281, as first byte and end. -/
  rdLo : Nat := 0
  rdHi : Nat := 0
  wrLo : Nat := 0
  wrHi : Nat := 0
  stage : Stage := .queued
  /-- Low 24 bits of the time base at acceptance (R104). -/
  acc : Nat := 0
  /-- Units moved: elements of the image, bytes in byte mode. -/
  pos : Nat := 0
  /-- Units of the run whose block has been checked. -/
  run : Nat := 0
  /-- Bytes of granules committed (R220). -/
  moved : Nat := 0
  /-- Codes on their way to a data queue, oldest first. -/
  buffer : List Nat := []
  /-- The descriptor under which the run's access has started, and the engine code of its serving unit where that is the
  stride-gather unit (R205, R217). -/
  under : BitVec 256 := 0
  unit : Option Nat := none
  /-- Its one access to guard granules has been recorded (R190). -/
  touched : Bool := false
  /-- RQF of its stream at issue (R36, R240; DEDUCED, unsafe: log entry 72). -/
  rqf : Nat := 0
  /-- Join of the returned vectors of its reads (R230); empty before the first. -/
  vec : List Nat := []
  /-- Writes that have left and are not applied (R223). -/
  flying : Nat := 0
  /-- Target versions admitted, by handle (R209, R238). -/
  targets : List (Nat × Nat) := []
  /-- By handle, the triples of each cache tensor that the command names, as mapped at its acceptance, private copies
  followed (R221, R367). -/
  kv : List (Nat × List (Nat × Nat)) := []
  /-- Triples, by handle, whose block had a share count above 1 at the acceptance and has not been copied since (R367). -/
  shared : List (Nat × Nat) := []
  /-- Tensors that the acceptance has pinned (R412). -/
  pinned : List Nat := []
  /-- A check of the acceptance has failed: it is made again before a byte moves (R279). -/
  refused : Bool := false
  /-- Row indices of a gather, as its first walk has read them (R287). -/
  index : List Nat := []
  /-- Landings of the present run that have left, where a later one of it was refused (R208). -/
  sent : Nat := 0
  /-- A version mismatch was met: nothing lands (R238). -/
  stale : Bool := false
  /-- Every destination has been checked (R241). -/
  checked : Bool := false
  /-- The rebuild for which its job was suspended has failed: handle, block, cause (R356). -/
  doomed : Option (Nat × Nat × Nat) := none
  /-- The group of colls that have matched (0 before), the place of this one in member order, and which members
  are in this package (R413, R414). -/
  group : Nat := 0
  place : Nat := 0
  peers : List Bool := []
  /-- What the checks of the group have settled, until the command is accepted (R241, R412). -/
  verdict : Verdict := {}
  /-- By block of the destination, how many contributions of a reduction have landed there (R413). -/
  landed : List (Nat × Nat) := []
  /-- Granule outcomes of an nmc so far: 0 done, 1 skipped, 2 gap, 3 error (R219). -/
  outcomes : List Nat := []
  deriving DecidableEq, Repr, Inhabited

/-- An accepted sbcast with beats left to send (R244, R257). -/
structure Bulk where
  tok : Nat := 0
  off : Nat := 0
  len : Nat := 0
  dests : List Nat := []
  beat : Nat := 0
  region : Nat := 0
  buf : Byte := 0
  /-- Command number in its stream; number in the core's bulk queue; ac of acceptance. -/
  seq : Nat := 0
  nth : Nat := 0
  at_ : Nat := 0
  /-- Order of entry among the core's commands (R395). -/
  entered : Nat := 0
  /-- The next beat's bytes as they stood at the end of the ac before (R257). -/
  data : List Byte := []
  deriving DecidableEq, Repr, Inhabited

/-- The registers and queues of one stream (R90, R244, R266). -/
structure StreamSt where
  /-- s1 to s31 by number; s0 is never listed. -/
  regs : List (Nat × W64) := []
  /-- Pending registers (R102). -/
  pend : BitVec 32 := 0
  /-- lc0 to lc3. -/
  lc : List (Nat × W32) := []
  pc : Pc := {}
  /-- The stream has passed slot count of a line whose end is 1 (R66); its program counter is that of the last slot. -/
  past : Bool := false
  evflag : Bool := false
  /-- A wfe of the stream has completed in this ac: what sets EVFLAG in the ac has been taken with it (R131). -/
  heard : Bool := false
  srctr : W64 := 0
  buftag : Byte := 0
  rmode : BitVec 3 := 0
  rqf : BitVec 5 := 0
  watchStart : BitVec 18 := 0
  watchLen : BitVec 19 := 0
  /-- ac of the swatch that armed the range (R259). -/
  watchFrom : Nat := 0
  stackq : List Packet := []
  /-- Dray, coach, near-memory and decode command queues, oldest first. -/
  dray : List Cmd := []
  coach : List Cmd := []
  near : List Cmd := []
  decode : List Cmd := []
  /-- Outstanding markers: class 0 to 3, and the command number that every command before has (R276). -/
  marks : List (Nat × Nat) := []
  /-- Commands issued since job start. -/
  seq : Nat := 0
  /-- Watchdog count (R270). -/
  dog : Nat := 0
  wait : Option Wait := none
  /-- The stream has executed rdv and its tokens are written (R127). -/
  arrived : Bool := false
  /-- The stream issues nothing more: a transfer of it has faulted, or it has raised a cause (R208, R369). -/
  stopped : Bool := false
  /-- Instructions issued since job start (R382). -/
  issued : Nat := 0
  /-- The instruction that it has issued in this ac (R404). -/
  ran : Option Pc := none
  /-- Ignore a breakpoint at the first instruction after resume (R374). -/
  skip : Bool := false
  /-- The line that the stream is in, as it was fetched: its index and its 16 words (R67). -/
  fetched : Option (Nat × List Nat) := none
  deriving DecidableEq, Repr, Inhabited

/-- A queue: its head pointer, modulo twice the capacity, and its entries, oldest first (R266). -/
structure Queue (α : Type) where
  head : Nat := 0
  items : List α := []
  /-- Entries pushed and entries popped in this ac: the pointers move at its end (R267). -/
  pushed : Nat := 0
  popped : Nat := 0
  deriving DecidableEq, Repr, Inhabited

/-- Where a job comes from (R333, R357, R377). -/
inductive JobKind where
  | operator (col idx : Nat) (seq : Nat)
  | recipe (handle : Nat)
  | handler
  deriving DecidableEq, Repr, Inhabited

/-- A role of the kernel as the group binding table binds it: its kind and its members' unit identities (R70, R326). -/
structure Role where
  kind : Nat := 0
  members : List Nat := []
  deriving DecidableEq, Repr, Inhabited

/-- One job (R30, R72, R377). -/
structure Job where
  kind : JobKind := .handler
  region : Nat := 0
  /-- Effective virtual function of the region at job start (R396). -/
  vf : Nat := 0
  code : Nat := 0
  hline : Nat := 0
  /-- Kernel length in lines (R65). -/
  len : Nat := 0
  roles : List Role := []
  handles : List Nat := []
  indices : List Nat := []
  ordinal : Nat := 0
  /-- TIMER and the time base at the start (R382, R336). -/
  timer : W64 := 0
  start : Nat := 0
  /-- Instruction limit of a recipe job, 0 for none (R357). -/
  rlimit : Nat := 0
  /-- Bytes moved by completed engine commands (R382). -/
  bytes : Nat := 0
  /-- A matrix command of the job is held or suspended at a chunk (R178, R184). -/
  held : Bool := false
  deriving DecidableEq, Repr, Inhabited

/-- One cause of a stop (R368, R370). -/
structure Raised where
  cause : Nat
  strm : Option Strm := none
  finfo : W64 := 0
  deriving DecidableEq, Repr, Inhabited

/-- Why a core stops, besides a fault or trap (R369, R397). -/
inductive StopKind where
  | fault | preempt | suspend
  deriving DecidableEq, Repr, Inhabited

/-- What a core does. -/
inductive Phase where
  | idle
  | running
  /-- A transfer has faulted: the other streams run on until each waits (R208). -/
  | draining
  /-- R369 is in progress. -/
  | stopping (kind : StopKind)
  /-- Stopped with its context area; a debug stop holds it before the handler of a region is entered at a depth (R400). -/
  | entering (region depth : Nat)
  /-- Stopped with its context area, waiting for the management plane (R377). -/
  | escalated
  /-- A resume from area `area` of a context pool is to restore the core (R379). -/
  | restoring (pool area : Nat)
  /-- The job has been killed; its cullet tensor is being detached (R380). -/
  | killing
  deriving DecidableEq, Repr, Inhabited

/-- A resume is due. -/
def Phase.isRestoring : Phase → Bool
  | .restoring .. => true
  | _ => false

/-- The counters and debug comparators of one core (R383, R384). -/
structure Counters where
  lwc : Nat := 0
  loopExits : BitVec 48 := 0
  pmcsel : List (Nat × W64) := []
  pmc : List (Nat × BitVec 48) := []
  /-- Bank-conflict matrix, entry 32 q + b. -/
  matrix : List (Nat × BitVec 48) := []
  /-- Snapshot slots, each a copy of the matrix, and their tags. -/
  snaps : List (Nat × List (Nat × BitVec 48)) := []
  tags : List (Nat × W64) := []
  snapptr : BitVec 48 := 0
  /-- Core energy less what the core has drawn since reset (`Config.energy`). -/
  energy : BitVec 48 := 0
  /-- Core energy when it was last added to the region's (R384). -/
  energyMark : BitVec 48 := 0
  bkpt : List (Nat × W32) := []
  watch : List (Nat × W64) := []
  /-- Comparators written and not yet in effect: the ac from which on they are, comparator (0 to 3 BKPT, 4 and 5 WATCH),
  value (R401). -/
  late : List (Nat × Nat × W64) := []
  /-- What the cntclr of this ac name: events of the ac are discarded (R389). -/
  cleared : List Nat := []
  deriving DecidableEq, Repr, Inhabited

/-- One core. -/
structure CoreSt where
  l : StreamSt := {}
  c : StreamSt := {}
  s : StreamSt := {}
  /-- m0 to m7. -/
  masks : List (Nat × W64) := []
  /-- a0 to a7, 16 KiB each: byte 16384 n + 256 row + 4 lane + k (R91). -/
  acc : Memory := []
  /-- t0 to t7, 16 KiB each (R168). -/
  tiles : Memory := []
  /-- The scratchpad, 1 MiB (R187). -/
  scratch : Memory := []
  /-- The cullet ring, 256 KiB (R291). -/
  ring : Memory := []
  vwin : BitVec 3 := 0
  fmtbase : BitVec 6 := 0
  fmtlc : BitVec 2 := 0
  tshape : List (Nat × W64) := []
  /-- LEASECNT (R97). -/
  held : Bool := false
  left : BitVec 7 := 0
  /-- A lease request waiting for its grant, and the count it asks (R182). -/
  leaseReq : Option (BitVec 7) := none
  /-- The ac of the request (R183). -/
  leaseAt : Nat := 0
  /-- The request has been granted and its lease instruction has not gone on. -/
  leaseGot : Bool := false
  /-- LEASECNT as saved, while a resumed job waits for its lease; C issues nothing until the grant (R184, R379). -/
  regain : Option Byte := none
  /-- Held-command record and held scales (R167). -/
  heldRec : W64 := 0
  heldScales : List Byte := []
  culBase : BitVec 18 := 0
  culTop : BitVec 18 := 0
  culSeq : BitVec 20 := 0
  culhw : BitVec 18 := 0x30000
  cullw : BitVec 18 := 0x10000
  culHandle : BitVec 32 := 0
  culChunks : BitVec 32 := 0
  /-- Chunk move state: 0 idle, 1 spill, 2 refill (R291). -/
  culMove : BitVec 2 := 0
  /-- The bytes of the spill in progress have left the core's column (R312). -/
  culSent : Bool := false
  /-- The vector that a refill's read carries (R229, R313). -/
  culVec : List Nat := [0, 0, 0, 0]
  /-- C's BUFTAG when the chunk move began (R394). -/
  culBuf : Byte := 0
  /-- A detachment's writes have left with this vector and are awaited (R310). -/
  culLeave : Option (List Nat) := none
  /-- The handle whose attachment at job start has not ended (R309). -/
  culPend : Option Nat := none
  /-- The length of the highest chunk when it is shorter (R308), else 0. -/
  culLast : Nat := 0
  /-- The faulted chunk move's record (R314, R315). -/
  culRec : Option TransferRec := none
  srseed : W64 := 0
  fframe : W32 := 0
  flineL : W64 := 0
  flineC : W64 := 0
  flineS : W64 := 0
  finfo : W64 := 0
  /-- TIMER less the package time base, modulo 2^64; TIMER itself while a debug stop holds the core (R94, R397). -/
  timer : W64 := 0
  timercmp : W64 := 0
  /-- The TIMERCMP value of a timer event that has not been raised: it waits for the end of handler mode, or for the
  next ac (R99, R371). -/
  timerDue : Option W64 := none
  /-- The handler wrote TIMERCMP (R99). -/
  timercmpSet : Bool := false
  region : W32 := 0
  hscratch : W64 := 0
  /-- STATUS.hm, STATUS.code, STATUS.fstream (R95). -/
  hm : Bool := false
  code : Byte := 0
  fstream : BitVec 2 := 0
  /-- Granule states other than free, by granule (R187). -/
  alloc : List (Nat × Nat) := []
  /-- Dynamic allocation table: first granule, length. -/
  dyn : List (Nat × Nat) := []
  guard : W64 := 0
  /-- Block translation cache: key, descriptor copy (R205), oldest first. -/
  btc : List (Nat × BitVec 256) := []
  dq : List (Nat × Queue (List Byte)) := []
  oq : List (Nat × Queue (List Byte)) := []
  sq : Queue Byte := {}
  bq : Queue Bool := {}
  /-- Token FIFOs tkLC, tkCL, tkCS, tkSC, tkLS, tkSL. -/
  tk : List (Nat × Queue (BitVec 16)) := []
  /-- Format table rows (R71). -/
  fmtRows : List (Nat × W64) := []
  bulk : List Bulk := []
  /-- Broadcasts whose last beat is on the bus: they have not completed (R257). -/
  casts : List Bulk := []
  /-- sbcast commands accepted so far (R258). -/
  bulkCount : Nat := 0
  /-- A slotset of L waits for the next ordinary boundary (R261). -/
  posted : Bool := false
  /-- Accepted and incomplete engine commands. -/
  cmds : List Cmd := []
  entered : Nat := 0
  pins : List Nat := []
  phase : Phase := .idle
  job : Option Job := none
  /-- The escalation level while a handler runs or management decides (R374, R377). -/
  depth : Nat := 0
  raised : List Raised := []
  recs : List TransferRec := []
  /-- Handles of a failed rebuild chain (R356). -/
  chain : List Nat := []
  /-- The dropped tensor for which the job is to be suspended, and a rebuild that has failed: handle, cause (R356). -/
  susp : Option Nat := none
  failed : Option (Nat × Nat) := none
  ctr : Counters := {}
  /-- The counters at the end of the ac before, which rdcnt and a snapshot read (R386, R393). -/
  ctrWas : Counters := {}
  /-- A debug stop holds the core (R397). -/
  debug : Bool := false
  /-- A debug stop waits for a stop in progress (R400). -/
  debugReq : Bool := false
  /-- What this ac's trace entry shows of chunks, acceptances and stops (R404). -/
  traceBits : Nat := 0
  /-- The core has run a job since reset; the region and virtual function of its previous job (R93, R191, R392). -/
  ran : Bool := false
  lastRegion : Nat := 0
  lastVf : Nat := 0
  /-- Registers of the core written in this ac: the streams that wrote, and the value before (R100). -/
  written : List (Nat × (List Nat × W64)) := []
  /-- A stop of a precise cause began in this ac: streams that have not issued in it still do (R370). -/
  begun : Bool := false
  /-- The stream whose eret waits for the handler's work: the other streams have stopped (R135). -/
  leaving : Option Strm := none
  /-- The ac from which on the core is reported free (R129). -/
  freeAt : Nat := 0
  /-- The latest stream, in the order L, C, S, whose spal or spfree has taken effect in this ac (R195). -/
  allocRan : Option Nat := none
  /-- The latest stream, in the order L, C, S, that has taken a snapshot in this ac (R393). -/
  snapRan : Option Nat := none
  /-- Granule accesses that wait for their banks, by 256 port + 32 requester class + bank: how many, and the ac in a row in
  which the first of them has lost; the engine class that a bank has served last (R188). -/
  banks : List (Nat × (Nat × Nat)) := []
  bankTurn : Nat := 0
  /-- The pool tensor whose area holds the stopped job, and with it the frame (R135, R372). -/
  pool : Nat := 0
  /-- Pool and area of a stop after which a debug stop holds the core (R400). -/
  shown : Option (Nat × Nat) := none
  deriving DecidableEq, Repr, Inhabited

end Sys2Proof.Machine
end

