-- ==== Sys2Proof/Machine/Records.lean ====
section
/-! DEFINITION. The state of tensor space, columns, layers, links and the management plane, as plain data (R196 to
R221, R227 to R241, R244, R317 to R347, R384, R402, R406 to R410, R422). Every field carries its reset value. -/
namespace Sys2Proof.Machine

/-- A residency record (R341). -/
structure TensorRec where
  region : Nat := 0
  ver : W32 := 0
  /-- State of R342. -/
  state : Nat := 0
  shadow : Bool := false
  recipe : Bool := false
  curl : BitVec 8 := 0
  shl : BitVec 8 := 0
  fmt : BitVec 6 := 0
  pin : BitVec 16 := 0
  ratio : BitVec 16 := 0
  size : W64 := 0
  dims : W32 := 0
  rlimit : W32 := 0
  rline : BitVec 24 := 0
  inputs : Nat := 0
  rcode : W32 := 0
  rlist : W32 := 0
  rcost : W32 := 0
  cursor : W64 := 0
  nextuse : W64 := 0xFFFFFFFFFFFFFFFF
  deriving DecidableEq, Repr, Inhabited

/-- A tensor: its record, dims record, block map, recipe input list, and for a cache tensor the map from triples to
blocks with share counts (R196, R198, R221, R343). -/
structure Tensor where
  info : TensorRec := {}
  dimCount : Nat := 0
  extents : List Nat := []
  strides : List Nat := []
  /-- Byte offset of the block map, as the dims record gives it (R343). -/
  mapOff : W64 := 0
  /-- Block descriptors by block number (R198). -/
  blocks : List (Nat × BitVec 256) := []
  /-- The recipe input list: handle, version; its first `info.inputs` entries count (R343). -/
  inputs : List (Nat × Nat) := []
  /-- Cache tensors: triple to block number. -/
  kv : List (Nat × Nat) := []
  /-- Cache tensors: share count of a block. -/
  shares : List (Nat × Nat) := []
  /-- Who waits to publish: 4 core + stream of a pubv, or 4096 + 1024 column + stream index of an operator. No command is
  admitted into the shadow meanwhile (R323, R364). -/
  closing : Option Nat := none
  /-- The ac and COREID of the latest attachment or cache instruction that has come to the home engine (R308, R367). -/
  came : Nat × Nat := (0, 0)
  deriving DecidableEq, Repr, Inhabited

/-- What a write does where it lands (R239, R285, R413). -/
inductive LandOp where
  | plain | add | max | min
  deriving DecidableEq, Repr, Inhabited

/-- A write on its way to one block of one tensor (R227, R239). -/
structure Landing where
  handle : Nat
  /-- Target version of a write into an ordinary tensor that carries one (R209). -/
  target : Option Nat := none
  block : Nat
  /-- Cache tensors: the triple that the write named (R221). -/
  key : Nat := 0
  /-- The triple's block had a share count above 1 when the write was accepted (R367). -/
  shared : Bool := false
  /-- Element writes: bit offset in the block, code in the block's format. -/
  elems : List (Nat × Nat) := []
  /-- Raw bytes: offset in the block, value. -/
  bytes : List (Nat × Byte) := []
  /-- Raw bytes from the block's first byte on: their number and the memory that holds them (R307). -/
  fill : Option (Nat × Memory) := none
  op : LandOp := .plain
  /-- A contribution of a reduction: group and place of the command in whose destination it lands (R413). -/
  contrib : Option (Nat × Nat) := none
  /-- Exponent Lw of R239. -/
  lw : Int := 0
  /-- A converting write's trailer: slot, 32 bytes, and the bytes of the tile's span (R203). -/
  trailer : Option (Nat × List Byte) := none
  span : Nat := 0
  /-- The trailer is that of a trailered store: it stands unless other bytes than the image's are stored (R285, R434). -/
  carried : Bool := false
  /-- RQF of the writing stream (R36; DEDUCED, unsafe: log entry 72). -/
  rqf : Nat := 0
  /-- The side-table granule and step that commit with the write (R219). -/
  step : Option (Nat × Nat) := none
  deriving DecidableEq, Repr, Inhabited

/-- What a write to another package has given to the links: the slice rank, its payloads from one number up to another, and,
in its command, the unit and the landing from which on it is sent again where it is lost, and their run (R409). -/
structure FarWrite where
  rank : Nat
  first : Nat := 0
  stop : Nat := 0
  pos : Nat := 0
  sent : Nat := 0
  run : Nat := 0
  deriving DecidableEq, Repr, Inhabited

/-- A package-scope write or a stamp that has left its column (R227), or a write on its way to another package, which
waits at `dest` 4 for its acknowledgement (R236). -/
structure Flight where
  frm : Nat
  dest : Nat
  vec : List Nat
  write : Option Landing := none
  /-- The tensor into whose shadow the write goes (R232, pubv). -/
  into : Option Nat := none
  /-- The command that waits for it: core, stream, command number. -/
  core : Nat := 0
  strm : Strm := .L
  seq : Nat := 0
  /-- The command whose destination it lands in, where that is another rank's: core and number (R413). -/
  owner : Option (Nat × Nat) := none
  far : Option FarWrite := none
  deriving DecidableEq, Repr, Inhabited

/-- An operator stream descriptor (R321). -/
structure OpStream where
  ring : Nat := 0
  cap : Nat := 0
  region : Nat := 0
  status : Nat := 0
  head : W64 := 0
  done : W64 := 0
  pos : W64 := 0
  errseq : W64 := 0
  tail : W64 := 0
  deriving DecidableEq, Repr, Inhabited

/-- Bytes of a tensor, as a walker keeps them: handle, offset, contents (R317). -/
structure Span where
  handle : Nat
  off : Nat
  bytes : List Byte
  deriving DecidableEq, Repr, Inhabited

/-- A started operator (R323 to R328, R333). -/
structure Oper where
  idx : Nat
  seq : Nat
  region : Nat
  handles : List Nat := []
  imask : Nat := 0
  omask : Nat := 0
  flags : Nat := 0
  code : Nat := 0
  hline : Nat := 0
  bounds : List Nat := []
  order : Nat := 0
  roles : List Role := []
  /-- Bound layers, as 8 column + pair, in increasing order (R327). -/
  layers : List Nat := []
  /-- Next ordinal of each bound layer's walker (R328). -/
  next : List Nat := []
  /-- Ordinals of tiles that have come back unstarted (R338). -/
  back : List Nat := []
  /-- Jobs handed out, saved or running, that have not ended. -/
  open_ : Nat := 0
  /-- Order of starting (R335). -/
  age : Nat := 0
  /-- Handles pinned at the start (R345). -/
  pinned : List Nat := []
  /-- Inputs whose rebuild or move is still awaited (R333). -/
  await : List Nat := []
  /-- Shadows have been opened and the walkers hold the nest (R333 steps 3, 4). -/
  ready : Bool := false
  /-- Granules of the kernel's header allocations and their guards (R320). -/
  granules : Nat := 0
  /-- The loop-nest record and the parts of the group binding table, as they were read (R317). -/
  spans : List Span := []
  deriving DecidableEq, Repr, Inhabited

/-- A tile that has reached a core in this ac, and the core as it stood before (R338). -/
structure Reached where
  before : CoreSt
  layer : Nat
  /-- Area of a saved tile; none for a new one. -/
  area : Option Nat := none
  deriving DecidableEq, Repr, Inhabited

/-- What a residency engine does to a tensor over several steps (R350, R353, R362). -/
inductive Action where
  /-- To a tier, in the partition of column `col`. -/
  | move (tier role col : Nat)
  | compress
  deriving DecidableEq, Repr, Inhabited

structure Moving where
  handle : Nat
  action : Action
  from_ : Nat
  deriving DecidableEq, Repr, Inhabited

/-- A rebuild in progress (R356, R357). -/
structure Rebuild where
  handle : Nat
  depth : Nat
  /-- Handles from the referenced tensor inward to this one. -/
  chain : List Nat
  /-- Inputs not yet looked at. -/
  todo : List Nat
  /-- Storage is allocated and inputs are pinned; the recipe job waits for a core or runs. -/
  job : Bool := false
  since : Nat := 0
  core : Option Nat := none
  /-- The recipe job has ended: by retirement, or by a kill. -/
  ended : Option Bool := none
  deriving DecidableEq, Repr, Inhabited

/-- One beat of an sbcast (R257). -/
structure Beat where
  core : Nat
  bulk : Bulk
  last : Bool
  off : Nat
  data : List Byte
  dests : List Nat
  deriving DecidableEq, Repr, Inhabited

/-- What a stack-bus slot carries (R248). -/
structure SlotLoad where
  /-- The ac of the slot; it applies four ac later (R250). -/
  at_ : Nat
  packets : List Packet := []
  beat : Option Beat := none
  deriving DecidableEq, Repr, Inhabited

/-- A slot-table entry that waits for the next ordinary boundary, with the core that posted it and the ac of its receipt
(R261). -/
structure PendingSlot where
  value : W64
  core : Nat
  at_ : Nat
  deriving DecidableEq, Repr, Inhabited

/-- A line of a column cache: bytes 128 n to 128 n + 127 of storage, as line number n, the SRAM layer that holds it (the
location directory's entry), and how often the compute layers of each pair have used it (R214). -/
structure CacheLine where
  line : Nat
  layer : Nat := 0
  uses : List (Nat × Nat) := []
  deriving DecidableEq, Repr, Inhabited

/-- One column: vector clock, stack bus, sequencer, residency engine, engines (R227, R244, R317, R339, R344, R436). -/
structure Column where
  vc : List Nat := [0, 0, 0, 0]
  /-- The vector clock at the end of the ac before, which rdcnt reads (R386). -/
  vcWas : List Nat := [0, 0, 0, 0]
  /-- The base die's replica. -/
  seg : Memory := []
  /-- Stale replicas of layers 1 to 16; a fresh one holds the base die's bytes. Unlisted is fresh, as the start-up resync
  leaves it (DEDUCED, unsafe: log entry 5). -/
  stale : List (Nat × Bool) := []
  /-- Layer pair power: 0 awake, 1 retention, 2 gated (R244); a pair's power state the arbiter has decided, which takes
  effect at the next round boundary (R262); pairs that have woken and wait for a resync. -/
  power : List (Nat × Nat) := []
  powerNext : List (Nat × Nat) := []
  woken : List Nat := []
  /-- Pairs that the arbiter has decided to wake, with the ac by which each has left its state (R428). -/
  wakeAsked : List (Nat × Nat) := []
  slots : List (Nat × W64) := []
  slotsPending : List (Nat × PendingSlot) := []
  /-- Layer that last used a slot of an entry that holds 31 (R247). -/
  slotUser : List (Nat × Nat) := []
  round : BitVec 48 := 0
  /-- Slot to come in this round; 64 when the next boundary is due. -/
  slot : Nat := 64
  /-- ac at which the next slot falls. -/
  slotAt : Nat := 0
  /-- Pairs taking part in a resync, and its rounds still to begin (R264). -/
  resync : Option (List Nat) := none
  resyncLeft : Nat := 0
  resyncAt : Option Nat := none
  flying : List SlotLoad := []
  streams : List (Nat × OpStream) := []
  opers : List Oper := []
  /-- Operators started so far; their order over the package goes by the four columns' sum (R335). -/
  ages : Nat := 0
  poolHandle : Nat := 0
  poolAreas : Nat := 0
  crSpillFar : W32 := 2
  crSpillNeigh : W32 := 28
  crComp : W32 := 1
  crCompMin : BitVec 16 := 0x0180
  crDrop : Byte := 0x10
  /-- WM_HI and WM_LO of SRAM, HBM, far, neighbour. -/
  wmHi : List Nat := [0xF333, 0xF333, 0xF333, 0xF333]
  wmLo : List Nat := [0xE666, 0xE666, 0xE666, 0xE666]
  depthMax : BitVec 4 := 4
  /-- Column-cache partition, in 128 MiB units per layer (R213), and a size waiting for its frames. -/
  cacheUnits : Nat := 2
  cacheNext : Option Nat := none
  /-- Lines of the column cache, least recently used first (R187, R214). -/
  cache : List CacheLine := []
  lent : Nat := 0
  moving : List Moving := []
  /-- Partitions whose evaluation is due: after an allocation, and every 1,024 ac (R348). -/
  evalDue : List Nat := []
  rebuilds : List Rebuild := []
  /-- Rotation pointers: dray k at k, coach m at 8 + m, near 10, decode 11 (R436). -/
  rotation : List (Nat × Nat) := []
  /-- Engines, by the places of their pointers, that have accepted a command in this ac (R436). -/
  took : List Nat := []
  /-- Hotness by 256 vf + buffer: bytes, stall ac (R395). -/
  hotness : List (Nat × (BitVec 48 × BitVec 48)) := []
  /-- Stride pattern tables of the two stacks: view handle, and the view record with the pattern filled from it, least
  recently used first (R330). -/
  stride : List (Nat × List (Nat × List Nat)) := []
  /-- Handle of the view-table tensor; 0 while the runtime alone holds the records (R317, R329, DESIGN CHOICE, unsafe: log
  entry 45). -/
  viewTable : Nat := 0
  /-- Grants in 0.1 A by 6 class + rail (R422): class 0 the cores, 1 drays, 2 coaches, 3 near-memory, 4 decode. Unlisted is
  the start-up grant. -/
  grant : List (Nat × Nat) := []
  thermal : Bool := false
  /-- The grant of the present window is below the column's demand (R340). -/
  limited : Bool := false
  deriving DecidableEq, Repr, Inhabited

/-- The tile walker and trace unit of a compute layer (R317, R328, R335, R402). -/
structure Layer where
  start : Nat := 0
  /-- Weighted round robin by priority: the region whose turn it is and the hand-outs it has had, 256 once its ready tiles
  have run out (R335). -/
  turn : List (Nat × (Nat × Nat)) := []
  /-- Record cache: the loop-nest record and group binding table of each cached operator, least recently used first (R317).
  -/
  cache : List (List Span) := []
  /-- Context areas of the tiles that it holds saved, in the order in which they came (R381). -/
  tiles : List Nat := []
  trctl : W64 := 0
  /-- Trace SRAM. An entry not listed reads as 0, which the spec leaves undefined at reset (DESIGN CHOICE, unsafe: log
  entry 79). -/
  trace : List (Nat × BitVec 128) := []
  traceAt : Nat := 0
  tracePost : Nat := 0
  deriving DecidableEq, Repr, Inhabited

/-- A bench (R167): holder 0 free, 1 even core, 2 odd core; the last holder. -/
structure Bench where
  holder : BitVec 2 := 0
  last : BitVec 1 := 0
  deriving DecidableEq, Repr, Inhabited

/-- Error counters and training of a receive lane (R384, R408). -/
structure Lane where
  corrected : BitVec 48 := 0
  drops : BitVec 48 := 0
  handbacks : BitVec 48 := 0
  /-- Byte errors of the last 4,096 flits of its link, as flit index and count. -/
  recent : List (Nat × Nat) := []
  deriving DecidableEq, Repr, Inhabited

/-- A flit on its way out: its index on its link, its kind, the region in whose frame flits it goes, the lane request that it
carries, the ac in which it was last sent, and the free values that are its payload's 224 bytes (R406, R407, R411). -/
structure TxFlit where
  idx : Nat := 0
  kind : Nat := 1
  region : Option Nat := none
  lreq : BitVec 16 := 0
  sentAt : Nat := 0
  payload : Nat := 0
  deriving DecidableEq, Repr, Inhabited

/-- One link, both ways (R405 to R411). -/
structure Link where
  /-- Index of the next flit to accept, and flits received in all. -/
  expect : Nat := 0
  received : Nat := 0
  corrected : BitVec 48 := 0
  uncorrectable : BitVec 48 := 0
  /-- Flit numbers of recent uncorrectable flits. -/
  bad : List Nat := []
  /-- Lane out; a lane that has crossed LTHR and is not asked for yet; and a drop (true) or hand back that waits for the
  flit index it names (R408). -/
  out : Option Nat := none
  crossed : Option Nat := none
  pending : Option (Nat × Bool × Nat) := none
  /-- Lane of the transmit side that is out, and what the peer has asked for: a lane, a drop (true) or hand back, and the
  index of the flit from which it stands (R406, R408). -/
  txOut : Option Nat := none
  txPending : Option (Nat × Bool × Nat) := none
  /-- Lane request that the next flit of the reverse link carries. -/
  lreq : BitVec 16 := 0
  /-- Index of the next flit to send for the first time, and the payloads that wait for it. -/
  txNext : Nat := 0
  waiting : List TxFlit := []
  /-- Replay buffer of the transmit side: unacknowledged flits, and those of them that are being sent again (R407). -/
  replay : List TxFlit := []
  again : List TxFlit := []
  /-- Flits of the frame so far, and how many of them by owner: region + 1, or 0 for no region (R411). -/
  frameAt : Nat := 0
  frameUse : List (Nat × Nat) := []
  /-- The flit sent last (R406). -/
  sent : List Byte := []
  txCorrected : BitVec 48 := 0
  txUncorrectable : BitVec 48 := 0
  down : Bool := false
  trained : Bool := false
  /-- Payload bytes delivered in order (R407). -/
  delivered : List Byte := []
  deriving DecidableEq, Repr, Inhabited

/-- How far start-up has come (R423, R425). -/
inductive BootMode where
  | off | firmware (at_ : Nat) | handed | minimal
  deriving DecidableEq, Repr, Inhabited

/-- What the SPDM responder has agreed with its requester (R426). -/
structure SpdmState where
  versioned : Bool := false
  capable : Bool := false
  negotiated : Bool := false
  keyed : Bool := false
  session : Bool := false
  deriving DecidableEq, Repr, Inhabited

/-- A line of the management plane's log (R27, R322, R345, R377, R417, R429). -/
inductive LogLine where
  | badRecord (col idx : Nat) (seq : Nat)
  | escalated (core : Nat)
  | pinLimit (handle : Nat)
  | hostWriteDropped (loc : Nat)
  | thermal (col pair sensor : Nat)
  | rail (rail : Nat)
  | linkDown (link : Nat)
  deriving DecidableEq, Repr, Inhabited

/-- An answer to an outside requester: a debug or host read, or an SPDM response (R265, R401, R417, R426). -/
structure Reply where
  status : Nat := 0
  data : List Byte := []
  /-- The algorithms of an ALGORITHMS response (R426). -/
  algs : List SpdmAlg := []
  deriving DecidableEq, Repr, Inhabited

/-- The management plane (R384, R422, R426). -/
structure Mgmt where
  /-- R4: reset values are those at the hand-over to firmware. -/
  boot : BootMode := .firmware 0
  bootfail : BitVec 2 := 0
  bootreason : Byte := 0
  /-- ac left of the management cycle in which a start has failed: a BOOTOK of that cycle is applied after it (R425). -/
  failedNow : Nat := 0
  /-- SVN fuses burnt since manufacture (`Config.svnAtManufacture`). -/
  svn : W64 := 0
  /-- The image in boot flash; none is the one of manufacture (`Config.bootImage`). -/
  flash : Option (List Byte) := none
  /-- The image that the ROM read at the last start, as `flash` holds one (R426). -/
  loaded : Option (List Byte) := none
  limit : BitVec 16 := 0
  lthr : BitVec 16 := 32
  sliceRank : Nat := 0
  /-- Packages of the slice (R410). DESIGN CHOICE, unsafe: log entry 90. -/
  packages : Nat := 512
  /-- The image in boot flash has been verified, and no fuse burnt since (R422, R423). -/
  verified : Bool := true
  spdm : SpdmState := {}
  /-- The ac whose window boundary has had its power grants (R27, R427). -/
  granted : Option Nat := none
  log : List LogLine := []
  reply : Reply := {}
  deriving DecidableEq, Repr, Inhabited

end Sys2Proof.Machine
end

