-- ==== Sys2Proof/Machine/State.lean ====
section
/-! DEFINITION. The state of the package, the reasons a step can stop, and the state after reset. -/
namespace Sys2Proof.Machine

/-- What one step does next. -/
inductive Move where
  /-- A stream of a core fetches and runs its next instruction. -/
  | stream (core : Nat) (strm : Strm)
  /-- An event of the table of operations. -/
  | event (e : Instr)
  /-- The arithmetic clock advances by one ac (R9). -/
  | tick
  deriving DecidableEq, Repr, Inhabited

/-- The package. -/
structure State where
  /-- The core and stream that issue the instruction in hand. -/
  who : Nat := 0
  strm : Strm := .L
  /-- Moves the outside world and the units make next, in order (DESIGN CHOICE, unsafe: log entry 2). -/
  agenda : List Move := []
  /-- First place of the round that the default schedule has not served when the agenda is empty (DESIGN CHOICE, unsafe:
  log entry 2). -/
  turn : Nat := 0
  /-- Cores by COREID; one not listed is as after reset. -/
  cores : List (Nat × CoreSt) := []
  /-- Stopped jobs by 4096 column + context area: what a stop keeps besides the bytes of the area (DESIGN CHOICE, unsafe:
  log entry 40). -/
  saves : List (Nat × CoreSt) := []
  /-- The registers of a core whose stopped job is being killed, as they stood before: a kill changes none of them (DESIGN
  CHOICE, unsafe: log entry 40). -/
  asides : List (Nat × CoreSt) := []
  /-- Cores that a tile has reached in this ac, as they stood before, with the tile: none of its streams issues in it
  (R338). -/
  reached : List (Nat × Reached) := []
  /-- Benches by 128 column + 16 pair + bench. -/
  benches : List (Nat × Bench) := []
  columns : List (Nat × Column) := []
  /-- Compute layers by 8 column + pair. -/
  layers : List (Nat × Layer) := []
  /-- Base of the region table; its blocks by region index, at byte 64 index from the base (R318); and those written in this
  ac, which are read from the next ac on (R28). -/
  regionBase : W64 := 0
  regions : List (Nat × BitVec 512) := []
  regionsNext : List (Nat × BitVec 512) := []
  /-- Tensors by handle, every class but view. -/
  tensors : List (Nat × Tensor) := []
  /-- View records by handle (R329). -/
  views : List (Nat × BitVec 512) := []
  /-- Every tier's storage: byte `65,536 loc + offset` of the frame that a location word names (R199). -/
  store : Memory := []
  /-- The step side table by granule: `16 loc + granule` (R219). A granule not listed reads as step 0, which the spec leaves
  undefined at reset (DESIGN CHOICE, unsafe: log entry 73). -/
  steps : List (Nat × W32) := []
  /-- Bytes of a tile's elements where these are not consecutive, as runs of first byte in the tile and length: by
  64 loc + slot (R201, DEDUCED, unsafe: log entry 68). -/
  tileRuns : List (Nat × List (Nat × Nat)) := []
  /-- Package time base (R390). -/
  time : W64 := 0
  transit : List Flight := []
  regionEnergy : List (Nat × W64) := []
  /-- Core-ac that the jobs of a region with a floor have had, and that the cores of its groups have offered, in the
  current window of 1 ms (R336). -/
  floorUse : List (Nat × (Nat × Nat)) := []
  lanes : List (Nat × Lane) := []
  links : List (Nat × Link) := []
  mgmt : Mgmt := {}
  /-- The model's own: how many free values have been drawn (DESIGN CHOICE, safe: log entry 3). -/
  freeCtr : Nat := 0
  deriving DecidableEq, Repr, Inhabited

/-- Reasons the machine stops with a fault. -/
inductive Fault where
  /-- The move names a core that no fuse map enables: COREID [4:0] above 17 or [15:10] nonzero (R15, R94). Raised by the
  dispatch of a stream instruction; safe: such a core answers no command. -/
  | noSuchCore
  /-- The stream has no instruction to run: its core runs no job, or is stopped, or the stream has arrived or is stopped.
  Raised by a stream instruction asked of such a stream; safe: the manual lets nothing issue there. -/
  | notRunning
  deriving DecidableEq, Repr, Inhabited

/-- Reasons the model gives no next state. -/
inductive Refusal where
  /-- No meaning has been written for the instruction yet; raised by the dispatch; safe. -/
  | notModelled (mnemonic : String)
  /-- The event cannot happen in this state: what the manual makes its condition does not hold. Raised by the meaning of
  the event; safe: the manual gives such an event no effect. -/
  | notEnabled (mnemonic : String)
  deriving DecidableEq, Repr, Inhabited

/-- The package right after reset: every register and table at the reset value its inventory gives (R4, R423).
DESIGN CHOICE, unsafe: log entry 66. DESIGN CHOICE, unsafe: log entry 67. -/
def State.reset : State := {}

end Sys2Proof.Machine
end

