-- ==== Sys2Proof/Machine/Ops.lean ====
section
/-! DEFINITION. Named operations over the state: cores and streams, registers, the region tree, tensor bytes, the code
image, program counters, taking an exception, and the issue of one instruction. -/
namespace Sys2Proof.Machine

/-! ### Numbers -/

/-- Bits [lo + n - 1 : lo] of a number. -/
def bitsOf (w lo n : Nat) : Nat := w / 2 ^ lo % 2 ^ n

/-- A number with bits [lo + n - 1 : lo] replaced. -/
def setBits (w lo n v : Nat) : Nat := w - 2 ^ lo * bitsOf w lo n + 2 ^ lo * (v % 2 ^ n)

/-- Two's complement value of the low `n` bits. -/
def sint (n w : Nat) : Int := signedOf n w

/-- The low `n` bits of an integer. -/
def wrap (n : Nat) (v : Int) : Nat := (v % (2 ^ n : Nat)).toNat

/-! ### Cores and streams -/

/-- The unit identity names an enabled core (R15, R94). DEDUCED, safe: log entry 61. -/
def coreValid (k : Nat) : Bool := k < 1024 && k % 32 < 18

def colOf (k : Nat) : Nat := k / 256
def pairOf (k : Nat) : Nat := k / 32 % 8
/-- 8 column + pair. -/
def layerOf (k : Nat) : Nat := k / 32
/-- The layer identifier of R14. -/
def layerId (k : Nat) : Nat := 2 * pairOf k + 1
/-- 128 column + 16 pair + bench (R15). -/
def benchOf (k : Nat) : Nat := 16 * layerOf k + k % 32 / 2

/-- Every core of a column, in COREID order. -/
def coresOfColumn (c : Nat) : List Nat :=
  (List.range 8).flatMap fun p => (List.range 18).map fun i => 256 * c + 32 * p + i

/-- Every core of the package, in COREID order. -/
def allCores : List Nat := (List.range 4).flatMap coresOfColumn

def State.core (s : State) (k : Nat) : CoreSt := look {} s.cores k
def State.setCore (s : State) (k : Nat) (c : CoreSt) : State := { s with cores := set s.cores k c }
def State.modCore (s : State) (k : Nat) (f : CoreSt → CoreSt) : State := s.setCore k (f (s.core k))

def CoreSt.strm (c : CoreSt) : Strm → StreamSt
  | .L => c.l | .C => c.c | .S => c.s

def CoreSt.setStrm (c : CoreSt) (x : Strm) (t : StreamSt) : CoreSt :=
  match x with
  | .L => { c with l := t } | .C => { c with c := t } | .S => { c with s := t }

def CoreSt.modStrm (c : CoreSt) (x : Strm) (f : StreamSt → StreamSt) : CoreSt := c.setStrm x (f (c.strm x))

def State.modStrm (s : State) (k : Nat) (x : Strm) (f : StreamSt → StreamSt) : State :=
  s.modCore k fun c => c.modStrm x f

def strmCode : Strm → Nat
  | .L => 0 | .C => 1 | .S => 2

def allStrms : List Strm := [.L, .C, .S]

def State.column (s : State) (c : Nat) : Column := look {} s.columns c
def State.modColumn (s : State) (c : Nat) (f : Column → Column) : State :=
  { s with columns := set s.columns c (f (s.column c)) }
def State.layer (s : State) (l : Nat) : Layer := look {} s.layers l
def State.modLayer (s : State) (l : Nat) (f : Layer → Layer) : State :=
  { s with layers := set s.layers l (f (s.layer l)) }
def State.bench (s : State) (b : Nat) : Bench := look {} s.benches b
def State.setBench (s : State) (b : Nat) (v : Bench) : State := { s with benches := set s.benches b v }

def State.log (s : State) (l : LogLine) : State := { s with mgmt := { s.mgmt with log := s.mgmt.log ++ [l] } }

/-! ### Scalar and loop registers (R90) -/

/-- s[n]; s0 reads as zero. -/
def StreamSt.reg (t : StreamSt) (n : Nat) : W64 := if n = 0 then 0 else look 0 t.regs n

/-- Writes s[n]; a write to s0 is discarded. -/
def StreamSt.setReg (t : StreamSt) (n : Nat) (v : W64) : StreamSt :=
  if n = 0 then t else { t with regs := set t.regs n v }

def StreamSt.isPending (t : StreamSt) (n : Nat) : Bool := n != 0 && t.pend.getLsbD n

/-- Makes a token register pending (R102); s0 carries no token. -/
def StreamSt.setPending (t : StreamSt) (n : Nat) : StreamSt :=
  if n = 0 then t else { t with pend := t.pend ||| (1#32 <<< n) }

def StreamSt.clearPending (t : StreamSt) (n : Nat) : StreamSt := { t with pend := t.pend &&& ~~~(1#32 <<< n) }

/-- Completion: the register takes its value and pending clears (R102, R255). -/
def StreamSt.completeReg (t : StreamSt) (n : Nat) (v : W64) : StreamSt :=
  if t.isPending n then (t.setReg n v).clearPending n else t

def StreamSt.loopCtr (t : StreamSt) (k : Nat) : W32 := look 0 t.lc k

/-! ### The region tree (R318, R319) -/

/-- A field of a region control block, by first byte and width. -/
def rcbField (b : BitVec 512) (byte n : Nat) : Nat := bitsOf b.toNat (8 * byte) (8 * n)

/-- Region control blocks of a package (R317). -/
def maxRegions : Nat := 4096

def State.rcb (s : State) (r : Nat) : BitVec 512 := if r < maxRegions then look 0 s.regions r else 0

/-- Regions whose blocks have been written. -/
def State.regionIds (s : State) : List Nat := (s.regions.map (·.1)).filter (· < maxRegions)

/-- Index that names no region (R318). -/
def noRegion : Nat := 0xFFFFFFFF

def State.parent (s : State) (r : Nat) : Nat := rcbField (s.rcb r) 4 4

/-- A region and its ancestors, at most `n` of them. -/
def State.chainOf (s : State) : Nat → Nat → List Nat
  | 0, _ => []
  | n + 1, r => if r = noRegion then [] else r :: s.chainOf n (s.parent r)

/-- A region with its ancestors (at most 7 of them). -/
def State.lineage (s : State) (r : Nat) : List Nat := s.chainOf 8 r

/-- Effective value of a field whose inherit bit is `bit` (R319). -/
def State.effective (s : State) (bit byte n : Nat) : Nat → Nat → Nat
  | 0, r => rcbField (s.rcb r) byte n
  | k + 1, r =>
    if bitsOf (rcbField (s.rcb r) 22 2) bit 1 = 1 ∧ s.parent r ≠ noRegion then s.effective bit byte n k (s.parent r)
    else rcbField (s.rcb r) byte n

def State.prio (s : State) (r : Nat) : Nat := s.effective 0 10 1 7 r % 8
def State.floorShare (s : State) (r : Nat) : Nat := s.effective 1 11 1 7 r
def State.weight (s : State) (r : Nat) : Nat := s.effective 2 12 1 7 r
def State.watchdog (s : State) (r : Nat) : Nat := s.effective 3 14 2 7 r
def State.coresBudget (s : State) (r : Nat) : Nat := s.effective 4 16 2 7 r
def State.slotsBudget (s : State) (r : Nat) : Nat := s.effective 5 18 1 7 r
def State.coachShare (s : State) (r : Nat) : Nat := s.effective 6 19 1 7 r
def State.powerShare (s : State) (r : Nat) : Nat := s.effective 7 20 1 7 r
def State.spBudget (s : State) (r : Nat) : Nat := s.effective 8 24 4 7 r
/-- Budget in blocks of tier partition 0 SRAM, 1 HBM, 2 far, 3 neighbour. -/
def State.tierBudget (s : State) (p r : Nat) : Nat := s.effective (9 + p) (28 + 4 * p) 4 7 r
def State.hcode (s : State) (r : Nat) : Nat := s.effective 13 44 4 7 r
def State.hline (s : State) (r : Nat) : Nat := s.effective 13 48 4 7 r % 2 ^ 24
def State.escalates (s : State) (r : Nat) : Bool := bitsOf (s.effective 13 13 1 7 r) 1 1 == 1
def State.preempts (s : State) (r : Nat) : Bool := bitsOf (rcbField (s.rcb r) 13 1) 2 1 == 1
def State.suspended (s : State) (r : Nat) : Bool := bitsOf (rcbField (s.rcb r) 13 1) 3 1 == 1
/-- Virtual function of a region; no inherit bit names it (R318). -/
def State.vf (s : State) (r : Nat) : Nat := rcbField (s.rcb r) 21 1 % 8

/-- `a` is `r` or an ancestor of it. -/
def State.isWithin (s : State) (r a : Nat) : Bool := (s.lineage r).contains a

/-- Reserved bits of one block are zero, it is valid and its weight is not 0: the block's own byte, whatever it inherits
(R318, R319; DESIGN CHOICE, unsafe: log entry 104). -/
def State.blockSound (s : State) (r : Nat) : Bool :=
  let b := s.rcb r
  let f := rcbField b
  bitsOf (f 13 1) 0 1 == 1 && bitsOf (f 13 1) 4 4 == 0 && f 12 1 != 0 && f 52 12 == 0 && f 51 1 == 0 &&
    bitsOf (f 22 2) 14 2 == 0 && f 21 1 < 8 && f 10 1 < 8 && f 8 2 == 0 && f 0 4 == 0 &&
    (f 4 4 != noRegion || f 22 2 == 0)

/-- R319: the region, or an ancestor, is malformed, or the chain is too long or returns to itself. -/
def State.malformed (s : State) (r : Nat) : Bool :=
  let l := s.chainOf 9 r
  r == noRegion || l.length > 8 || !l.all s.blockSound

/-! ### Tensors and their bytes (R196 to R199) -/

def State.tensor (s : State) (h : Nat) : Tensor := look {} s.tensors h
def State.modTensor (s : State) (h : Nat) (f : Tensor → Tensor) : State :=
  { s with tensors := set s.tensors h (f (s.tensor h)) }

def handleClass (h : Nat) : Nat := bitsOf h 28 2
def handleHome (h : Nat) : Nat := bitsOf h 30 2

/-- The handle names a tensor with a valid record (R196, R342). -/
def State.tensorValid (s : State) (h : Nat) : Bool :=
  handleClass h != 2 && h % 2 ^ 28 != 0 && (find s.tensors h).any (fun t => t.info.state != 0)

/-- A field of a block descriptor, by low bit and width (R198). -/
def dget (d : BitVec 256) (lo n : Nat) : Nat := bitsOf d.toNat lo n
def dput (d : BitVec 256) (lo n v : Nat) : BitVec 256 := BitVec.ofNat 256 (setBits d.toNat lo n v)
def dLoc (d : BitVec 256) : Nat := dget d 64 64
def dShloc (d : BitVec 256) : Nat := dget d 128 64
def locTier (l : Nat) : Nat := l / 2 ^ 61
def dTier (d : BitVec 256) : Nat := locTier (dLoc d)
def dFmt (d : BitVec 256) : Nat := dget d 6 6
def dTrl (d : BitVec 256) : Bool := dget d 16 1 == 1
def dShst (d : BitVec 256) : Nat := dget d 4 2
def dMoving (d : BitVec 256) : Bool := dget d 23 1 == 1
def dShared (d : BitVec 256) : Bool := dget d 20 1 == 1

def Tensor.block (t : Tensor) (b : Nat) : BitVec 256 := look 0 t.blocks b
def Tensor.setBlock (t : Tensor) (b : Nat) (d : BitVec 256) : Tensor := { t with blocks := set t.blocks b d }

/-- Location word of the zero tier (R199). -/
def zeroLoc : Nat := 6 * 2 ^ 61

/-- A byte of the frame a location word names; tiers 0 and 6 read as zero. -/
def State.frameByte (s : State) (loc off : Nat) : Byte :=
  if locTier loc = 0 ∨ locTier loc = 6 then 0 else s.store.byte (65536 * loc + off)

def State.frameBytes (s : State) (loc off n : Nat) : List Byte := (List.range n).map fun i => s.frameByte loc (off + i)

/-- Writes bytes of a frame; tiers 0 and 6 hold none. -/
def State.setFrame (s : State) (loc off : Nat) (bs : List Byte) : State :=
  if locTier loc = 0 ∨ locTier loc = 6 then s else { s with store := s.store.setBytes (65536 * loc + off) bs }

/-- A byte of the current version of a tensor's image. -/
def State.imageByte (s : State) (h off : Nat) : Byte :=
  s.frameByte (dLoc ((s.tensor h).block (off / 65536))) (off % 65536)

def State.imageBytes (s : State) (h off n : Nat) : List Byte := (List.range n).map fun i => s.imageByte h (off + i)

def State.imageNum (s : State) (h off n : Nat) : Nat := leNat (s.imageBytes h off n)

/-- Writes bytes into the current storage of a tensor, byte by byte of its image. -/
def State.setImage (s : State) (h off : Nat) : List Byte → State
  | [] => s
  | b :: bs => (s.setFrame (dLoc ((s.tensor h).block (off / 65536))) (off % 65536) [b]).setImage h (off + 1) bs

/-! ### The code image (R62 to R66) -/

/-- Word `w` of line `l` of a code image. -/
def State.codeWord (s : State) (h : Nat) (l w : Nat) : Nat := s.imageNum h (64 * (l % 2 ^ 24) + 4 * w) 4

/-- Fields of a link word (R62). -/
def linkStream (w : Nat) : Nat := bitsOf w 30 2
def linkCount (w : Nat) : Nat := bitsOf w 26 4
def linkEnd (w : Nat) : Bool := bitsOf w 24 1 == 1
def linkNext (w : Nat) : Nat := bitsOf w 0 24

/-- A line lies in the kernel's range (R65). -/
def Job.hasLine (j : Job) (l : Nat) : Bool := (l + 2 ^ 24 - j.hline % 2 ^ 24) % 2 ^ 24 < j.len

/-- The job that runs on a core; an absent one reads as an empty job. -/
def CoreSt.theJob (c : CoreSt) : Job := c.job.getD {}

/-- PC form (R64). -/
def Pc.form (p : Pc) : W64 := BitVec.ofNat 64 (16 * p.line.toNat + p.slot.toNat)

def pcOf (w : Nat) : Pc := ⟨BitVec.ofNat 24 (w / 16), BitVec.ofNat 4 w⟩

/-- The 16 words of a line of core `k`'s kernel, as memory holds them. -/
def State.lineWords (s : State) (k l : Nat) : List Nat := (List.range 16).map (s.codeWord (s.core k).theJob.code l)

/-- Word `w` of a line as stream `x` of core `k` sees it: as it was fetched, where the stream is in that line (R67). -/
def State.lineWord (s : State) (k : Nat) (x : Strm) (l w : Nat) : Nat :=
  match ((s.core k).strm x).fetched with
  | some (n, ws) => if n = l then ws.getD w 0 else s.codeWord (s.core k).theJob.code l w
  | none => s.codeWord (s.core k).theJob.code l w

/-- The (line, slot) that R63 would fetch next, or none at the end of the chain. -/
def State.successor (s : State) (k : Nat) (x : Strm) (p : Pc) : Option Pc :=
  let w := s.lineWord k x p.line.toNat 0
  if p.slot.toNat < linkCount w then some { p with slot := p.slot + 1 }
  else if linkEnd w then none
  else some ⟨BitVec.ofNat 24 (linkNext w), 1⟩

/-! ### Performance counters (R387, R388) -/

/-- A pmc with this selection counts an event of the core: its event code, its virtual function, its region and its
handler-mode bit. -/
def State.pmcCounts (s : State) (c : CoreSt) (sel : Nat) (ev : Nat) (x : Option Strm) : Bool :=
  bitsOf sel 0 8 == ev && bitsOf sel 29 3 == s.vf c.theJob.region &&
    (sel / 2 ^ 32 == noRegion || s.isWithin c.theJob.region (sel / 2 ^ 32)) &&
    (!c.hm || bitsOf sel 20 1 == 1) &&
    (match x with | none => true | some y => bitsOf sel (16 + strmCode y) 1 == 1)

/-- Counts `n` occurrences of an event on a core; `x` for the events of a stream. -/
def State.count (s : State) (k : Nat) (ev n : Nat) (x : Option Strm) : State :=
  let c := s.core k
  if c.ctr.pmcsel = [] then s else
  let hit := c.ctr.pmcsel.filter fun p => s.pmcCounts c p.2.toNat ev x
  s.setCore k { c with ctr := { c.ctr with
    pmc := hit.foldl (fun m p => set m p.1 (look 0 m p.1 + BitVec.ofNat 48 n)) c.ctr.pmc } }

/-- The job of a core may clear a pmc: it is of the job's virtual function (R389). -/
def State.clearsPmc (s : State) (k n : Nat) : Bool :=
  let c := s.core k
  bitsOf (look 0 c.ctr.pmcsel n).toNat 29 3 == s.vf c.theJob.region

/-- What a cntclr immediate names is 0 (R389). -/
def Counters.clear (r : Counters) (n : Nat) : Counters :=
  if n < 16 then { r with pmc := set r.pmc n 0 }
  else if n = 16 then { r with matrix := [] }
  else if n = 17 then { r with snaps := [], tags := [], snapptr := 0 }
  else { r with loopExits := 0 }

/-- The counters at the end of an ac: what was cleared in it has counted nothing (R389). -/
def Counters.settled (r : Counters) : Counters := { r.cleared.foldl Counters.clear r with cleared := [] }

/-- Clears a pmc that a job of its virtual function owns (R387, R389). -/
def State.clearPmc (s : State) (k n : Nat) : State :=
  if s.clearsPmc k n then s.modCore k fun c => { c with ctr := c.ctr.clear n } else s

/-! ### Energy (R384) -/

/-- The core energy counter. -/
def State.energyOf (s : State) (k : Nat) : BitVec 48 :=
  (s.core k).ctr.energy + (if s.time = 0 then 0 else Config.energy k s.time.toNat)

/-- The core energy counter at the end of the ac before (R386). -/
def State.energyWas (s : State) (k : Nat) : BitVec 48 :=
  (s.core k).ctrWas.energy + (if s.time = 0 then 0 else Config.energy k s.time.toNat)

/-- What core `k` draws from now on belongs to the job that it takes up (R384). -/
def State.markEnergy (s : State) (k : Nat) : State :=
  let e := s.energyOf k
  s.modCore k fun c => { c with ctr := { c.ctr with energyMark := e } }

/-- A management write of the core energy counter; what the region has not yet been charged stays so. -/
def State.writeEnergy (s : State) (k : Nat) (v : BitVec 48) : State :=
  let d := v - s.energyOf k
  s.modCore k fun c => { c with ctr := { c.ctr with energy := c.ctr.energy + d, energyMark := c.ctr.energyMark + d } }

/-! ### Token status and hotness (R104, R395) -/

/-- The status word of a token: bytes (saturating), low 24 bits of the time base at acceptance, code. -/
def statusWord (bytes acc code : Nat) : W64 :=
  BitVec.ofNat 64 (2 ^ 32 * min bytes (2 ^ 32 - 1) + 2 ^ 8 * (acc % 2 ^ 24) + code)

/-- Adds bytes and stall ac to the hotness entry of a virtual function and buffer. -/
def State.heat (s : State) (col vf : Nat) (buf : Byte) (bytes stall : Nat) : State :=
  let k := 256 * vf + buf.toNat
  s.modColumn col fun c =>
    let h := look (0, 0) c.hotness k
    { c with hotness := set c.hotness k (h.1 + BitVec.ofNat 48 bytes, h.2 + BitVec.ofNat 48 stall) }

/-! ### Free values -/

/-- Draws the number of the next free value. -/
def State.draw (s : State) : Nat × State := (s.freeCtr, { s with freeCtr := s.freeCtr + 1 })

/-! ### Taking an exception (R208, R368 to R370) -/

/-- Priority of a cause code (R368); 1 is the highest. -/
def causePriority (c : Nat) : Nat :=
  match c with
  | 0x13 => 1 | 0x02 => 2 | 0x01 => 3 | 0x03 => 4 | 0x04 => 5 | 0x09 => 6 | 0x0A => 7 | 0x1B => 8 | 0x1A => 9
  | 0x23 => 10 | 0x21 => 11 | 0x20 => 12 | 0x22 => 13 | 0x10 => 14 | 0x11 => 15 | 0x14 => 16 | 0x12 => 17 | 0x28 => 18
  | 0x29 => 19 | 0x2A => 20 | 0x30 => 21 | 0x19 => 22 | 0x08 => 23 | 0x18 => 24 | 0x3A => 25 | 0x3B => 26 | 0x39 => 27
  | 0x38 => 28 | _ => 29

/-- This ac's trace entry shows that a fault, trap or stop began (R404). -/
def CoreSt.marked (c : CoreSt) : CoreSt := { c with traceBits := c.traceBits ||| 2 ^ 16 }

/-- The core begins a fault stop, or the cause joins the stop in progress (R369, R370). -/
def CoreSt.beginStop (c : CoreSt) : CoreSt :=
  match c.phase with
  | .running | .draining => { c.marked with phase := .stopping .fault, begun := true }
  | .stopping _ => { c.marked with phase := .stopping .fault }
  | .idle | .entering .. | .escalated | .restoring .. | .killing => c

/-- Takes a cause that stops the core at once: precise faults, traps, timer traps and rdv checks. -/
def CoreSt.raise (c : CoreSt) (x : Option Strm) (cause : Nat) (finfo : W64) : CoreSt :=
  let c := { c with raised := c.raised ++ [Raised.mk cause x finfo] }
  let c := match x with | some y => c.modStrm y fun t => { t with stopped := true } | none => c
  c.beginStop

def State.raise (s : State) (k : Nat) (x : Option Strm) (cause : Nat) (finfo : W64) : State :=
  s.modCore k fun c => c.raise x cause finfo

/-- Takes a transfer fault: its record joins the others, its stream issues nothing more, and the other streams run on
until each waits; a second fault stops the core at once (R208). -/
def CoreSt.raiseTransfer (c : CoreSt) (r : TransferRec) : CoreSt :=
  let c := { c with recs := c.recs ++ [r] }
  let c := c.modStrm r.strm fun t => { t with stopped := true }
  match c.phase with
  | .running => { c.marked with phase := .draining }
  | .draining | .stopping _ => { c.marked with phase := .stopping .fault }
  | .idle | .entering .. | .escalated | .restoring .. | .killing => c

/-! ### Queues (R266, R268) -/

/-- Appends an entry. -/
def Queue.push {α : Type} (q : Queue α) (v : α) : Queue α := { q with items := q.items ++ [v], pushed := q.pushed + 1 }

/-- Removes the oldest entry; pointers count modulo twice the capacity. -/
def Queue.drop1 {α : Type} (q : Queue α) (cap : Nat) : Queue α :=
  { q with head := (q.head + 1) % (2 * cap), items := q.items.tail, popped := q.popped + 1 }

/-- Entries that a pop of this ac may take: none pushed in it (R267). -/
def Queue.ready {α : Type} (q : Queue α) : List α := q.items.take (q.items.length - q.pushed)

/-- The queue had room for `n` entries at the start of the ac, beside those pushed in it (R267). -/
def Queue.hasRoom {α : Type} (q : Queue α) (cap n : Nat) : Bool := q.items.length + q.popped + n ≤ cap

/-- A new ac: the queue's pointers have moved. -/
def Queue.settled {α : Type} (q : Queue α) : Queue α := { q with pushed := 0, popped := 0 }

/-- The tail pointer. -/
def Queue.tail {α : Type} (q : Queue α) (cap : Nat) : Nat := (q.head + q.items.length) % (2 * cap)

/-! ### Issue of one instruction -/

/-- What a meaning answers. -/
inductive Res (α : Type) where
  /-- Complete; the stream goes on in sequence. -/
  | ok (a : α)
  /-- Complete; the stream goes on at the target. -/
  | goto (a : α) (p : Pc)
  /-- Complete; the program counter stays (rdv, eret). -/
  | stay (a : α)
  /-- Complete; a cause of the instruction's own is then raised (TRAP, WATCH). -/
  | trap (a : α) (cause : Nat) (finfo : W64)
  /-- Not executed yet: the stream waits at the instruction. -/
  | wait (w : Wait) (a : α)
  /-- A precise fault: no effect but the cause. -/
  | fault (cause : Nat) (finfo : W64)
  /-- A precise fault that reports a record and clears it (R190, R256). -/
  | report (a : α) (cause : Nat) (finfo : W64)

/-- Result of a meaning over one core, as one over the package. -/
def Res.onCore (s : State) (k : Nat) : Res CoreSt → Res State
  | .ok c => .ok (s.setCore k c)
  | .goto c p => .goto (s.setCore k c) p
  | .stay c => .stay (s.setCore k c)
  | .trap c e i => .trap (s.setCore k c) e i
  | .wait w c => .wait w (s.setCore k c)
  | .fault e i => .fault e i
  | .report c e i => .report (s.setCore k c) e i

/-- The stream goes on at a program counter, or past the end of its chain. A line that it enters, in sequence or by a
transfer, is fetched as one unit, with the content that the transfer's checks have seen (R66, R67). -/
def State.setPc (s : State) (k : Nat) (x : Strm) : Option Pc → State
  | some p => s.modStrm k x fun t =>
    { t with pc := p, fetched := if p.line = t.pc.line ∧ p.slot = t.pc.slot + 1 then t.fetched
                                 else some (p.line.toNat, s.lineWords k p.line.toNat) }
  | none => s.modStrm k x fun t => { t with past := true }

/-- The program counter moves to the successor of the instruction (R63). -/
def State.advance (s : State) (k : Nat) (x : Strm) : State :=
  s.setPc k x (s.successor k x ((s.core k).strm x).pc)

/-- EVFLAG of the stream is set, unless a wfe of this ac has taken the event (R130, R131). -/
def StreamSt.signal (t : StreamSt) : StreamSt := if t.heard then t else { t with evflag := true }

/-- Two waits are of one kind: a watchdog wait goes on while its code stays (R270). -/
def Wait.sameKind : Wait → Wait → Bool
  | .dog c _, .dog d _ => c == d
  | a, b => a == b

/-- The stream waits at its instruction; a wait of another kind starts a new count (R270). -/
def StreamSt.waits (t : StreamSt) (w : Wait) : StreamSt :=
  { t with wait := some w, dog := if t.wait.any w.sameKind then t.dog else 0 }

/-- The stream has still to issue in the ac in which a stop began: the streams of a core issue together (R369, R370).
DEDUCED, unsafe: log entry 37. -/
def CoreSt.lastIssue (c : CoreSt) (x : Strm) : Bool :=
  c.begun && c.phase == .stopping .fault && (c.strm x).ran.isNone && (c.strm x).wait.isNone

/-- A stream may issue: its core runs a job, nothing holds the core, no eret of another stream waits (R135), and the
stream has neither arrived nor stopped. -/
def CoreSt.canIssue (c : CoreSt) (x : Strm) : Bool :=
  c.job.isSome && !c.debug && c.culPend.isNone && c.leaving.all (· == x) &&
    (c.phase == .running || c.phase == .draining || c.lastIssue x) && !(c.strm x).arrived && !(c.strm x).stopped

/-- What stream `x` reads of register `n` of the core, which holds `v`: the value from before another stream's setc of
this ac (R100). DEDUCED, unsafe: log entry 50. -/
def CoreSt.seen (c : CoreSt) (n : Nat) (x : Strm) (v : W64) : W64 :=
  match find c.written n with
  | some (ws, old) => if ws.contains (strmCode x) then v else old
  | none => v

/-- A setc of register `n` of the core, which held `old`: of two streams' writes in one ac the later stream's remains
(R100). -/
def CoreSt.writeShared (c : CoreSt) (n : Nat) (x : Strm) (old : W64) (f : CoreSt → CoreSt) : CoreSt :=
  let (ws, was) := (find c.written n).getD ([], old)
  let d := if ws.any (strmCode x < ·) then c else f c
  { d with written := set c.written n (strmCode x :: ws, was) }

/-- The instruction's word, for FINFO (R375). -/
def instrFinfo (i : Instr) : W64 :=
  match i with
  | .illegalOp w => w.zeroExtend 64
  | _ => ((encode i).getD 0).zeroExtend 64

end Sys2Proof.Machine
end

