-- ==== Sys2Proof/Machine/Operands.lean ====
section
/-! DEFINITION. The operands of an instruction: the scalar registers it names, the streams that may run it, the modes,
and the issue of one instruction over them (R78 to R82, R103). -/
namespace Sys2Proof.Machine

/-- Scalar registers that the instruction reads, writes or takes as its token, sources first. -/
def scalars (i : Instr) : List Nat :=
  match i with
  | .add rd ra rb | .sub rd ra rb | .and rd ra rb | .or rd ra rb | .xor rd ra rb | .sll rd ra rb
  | .srl rd ra rb | .sra rd ra rb | .min rd ra rb | .max rd ra rb | .minu rd ra rb | .maxu rd ra rb
  | .slt rd ra rb | .sltu rd ra rb | .seq rd ra rb | .mul rd ra rb | .mulh rd ra rb | .mulhu rd ra rb
  | .div rd ra rb | .divu rd ra rb | .rem rd ra rb | .remu rd ra rb | .fadd rd ra rb _ | .fsub rd ra rb _
  | .fmul rd ra rb _ | .fmin rd ra rb | .fmax rd ra rb | .fcmp rd ra rb _ | .amoAdd rd ra rb _
  | .amoMin rd ra rb _ | .amoMax rd ra rb _ | .amoAnd rd ra rb _ | .amoOr rd ra rb _ | .amoXor rd ra rb _
  | .amoSwap rd ra rb _ | .amosAdd rd ra rb _ | .amosMin rd ra rb _ | .amosMax rd ra rb _ | .amosAnd rd ra rb _
  | .amosOr rd ra rb _ | .amosXor rd ra rb _ | .amosSwap rd ra rb _ | .tnewv rd ra rb | .tnewvZero rd ra rb
  | .tinfo rd ra rb | .kvalloc rd ra rb | .kvmap rd ra rb | .kvfree rd ra rb | .launch rd ra rb => [ra.toNat, rb.toNat, rd.toNat]
  | .mov rd ra | .clz rd ra | .ctz rd ra | .popc rd ra | .addi rd ra _ | .andi rd ra _ | .ori rd ra _
  | .xori rd ra _ | .slti rd ra _ | .slli rd ra _ | .srli rd ra _ | .srai rd ra _ | .bfx rd ra _ _
  | .bfi rd ra _ _ | .frcp rd ra _ | .fcvt rd ra _ _ _ _ | .ld rd ra _ _ _ | .spal rd ra | .lds rd ra _ _
  | .slotq rd ra | .tref rd ra | .pubv rd ra | .useadv rd ra | .rdcnt rd ra _ => [ra.toNat, rd.toNat]
  | .mad rd ra rb rc | .sel rd ra rb rc | .clamp rd ra rb rc | .ffma rd ra rb rc _ | .cas rd ra rb rc _
  | .cass rd ra rb rc _ | .sbcast rd ra rb rc | .kvshare rd ra rb rc => [ra.toNat, rb.toNat, rc.toNat, rd.toNat]
  | .li rd _ | .lui rd _ _ | .vext rd _ _ | .qstat _ rd | .tkrecv _ rd | .cdepth rd | .rdtime rd | .psnap rd => [rd.toNat]
  | .br _ ra rb _ _ | .swatch ra rb | .thint ra rb | .binv ra rb | .slotset ra rb => [ra.toNat, rb.toNat]
  | .call _ _ | .ret => [31]
  | .jmpr ra | .loop _ ra _ _ | .spfree ra | .vbcast _ ra _ | .vld _ ra _ | .vst _ ra _ | .vgth _ ra _ _
  | .vsct _ ra _ _ | .vins _ ra _ | .tshape _ ra | .tld _ ra _ | .tst _ ra _ | .ald _ ra _ | .ast _ ra _
  | .qpushDq _ ra | .qpopOq _ ra | .bqpush ra | .tksend _ ra | .sqpush ra _ | .tunpin ra | .catt ra
  | .cntsel ra _ => [ra.toNat]
  | .st rs ra _ _ _ | .sts rs ra _ _ => [ra.toNat, rs.toNat]
  | .mpop _ rs => [rs.toNat]
  | .cpy tok ra rb _ _ _ _ _ | .cpyq tok ra rb _ | .gth tok ra rb _ _ | .coll tok ra rb _ _ | .nmc tok ra rb _
  | .dec tok ra rb _ _ => [ra.toNat, rb.toNat, tok.toNat]
  | .getc reg _ | .setc reg _ => [reg.toNat]
  | _ => []

/-- The instruction is permitted in the stream (R78, R79, R94). -/
def permitted (i : Instr) (x : Strm) : Bool :=
  match i with
  | .brq .. | .vadd .. | .vsub .. | .vmul .. | .vmin .. | .vmax .. | .vabs .. | .vneg .. | .vfma ..
  | .vaddPacked .. | .vsubPacked .. | .vmulPacked .. | .vminPacked .. | .vmaxPacked .. | .vabsPacked ..
  | .vnegPacked .. | .vexp2 .. | .vlog2 .. | .vrcp .. | .vrsq .. | .vtanh .. | .vsigm .. | .vcmp .. | .vsel ..
  | .vand .. | .vor .. | .vxor .. | .vshl .. | .vshr .. | .vsra .. | .viadd .. | .visub .. | .vimul ..
  | .vcvt .. | .vquant .. | .vdeq .. | .vhad .. | .vperm .. | .vrot .. | .vbcast .. | .vreds .. | .vredx ..
  | .vscan .. | .vld .. | .vst .. | .vgth .. | .vsct .. | .vins .. | .vext .. | .vwin .. | .vpack ..
  | .vunpk .. | .mand .. | .mor .. | .mnot .. | .mpop .. | .vsortk .. | .vrng .. | .tshape .. | .tzero ..
  | .tpop .. | .tld .. | .tst .. | .mma .. | .mmas .. | .mmat .. | .azero .. | .ald .. | .ast .. | .atr ..
  | .lease .. | .unlease | .fmtsel .. | .qpushOq .. | .qpopDq .. | .radd .. | .rsub .. | .rmul ..
  | .rmulUndo .. | .rshr .. | .rshrUndo .. | .rlrelu .. | .rlreluUndo .. | .rnrw .. | .rnrwUndo .. | .cmark ..
  | .cchk .. | .catt .. | .cdepth .. | .waitc .. => x == .C
  | .fadd .. | .fsub .. | .fmul .. | .ffma .. | .fmin .. | .fmax .. | .frcp .. | .fcmp .. | .fcvt .. => x != .L
  | .sbcast .. | .qpushDq .. | .bqpush .. | .sqpush .. | .gth .. | .coll .. | .dec .. | .tref .. | .tunpin ..
  | .thint .. | .tnewv .. | .tnewvZero .. | .useadv .. | .kvalloc .. | .kvmap .. | .kvshare .. | .kvfree ..
  | .launch .. | .slotset .. => x == .L
  | .qpopOq .. | .nmc .. => x == .S
  | .mark .. | .joinm | .cpyq .. | .pubv .. => x != .C
  | .cpy _ _ _ dir _ _ _ _ => x == .L || (x == .S && dir.toNat < 2)
  | .tksend f _ => (f.toNat == 0 || f.toNat == 4) && x == .L || (f.toNat == 1 || f.toNat == 2) && x == .C ||
      (f.toNat == 3 || f.toNat == 5) && x == .S
  | .tkrecv f _ => (f.toNat == 1 || f.toNat == 5) && x == .L || (f.toNat == 0 || f.toNat == 3) && x == .C ||
      (f.toNat == 2 || f.toNat == 4) && x == .S
  | .getc _ c | .setc _ c => (!cregCOnly c.toNat || x == .C) && (!cregCS c.toNat || x != .L)
  | _ => true

/-- The instruction needs handler mode (R80). -/
def privileged (i : Instr) : Bool :=
  match i with
  | .eret | .binv .. | .slotset .. => true
  | .setc _ c => cregSetPriv c.toNat
  | _ => false

/-- Power throttling has come to a level of limits on the core in this ac: 1 bench chunks, 2 vector issue, 3 scalar issue
(R340; DESIGN CHOICE, safe: log entry 81). -/
def State.limits (s : State) (k n : Nat) : Bool :=
  (s.column (colOf k)).limited && decide (n ≤ Config.withholds k s.time.toNat)

/-- An instruction of the vector port (R139, R298). -/
def vectorPort (i : Instr) : Bool :=
  match i with
  | .vadd .. | .vsub .. | .vmul .. | .vmin .. | .vmax .. | .vabs .. | .vneg .. | .vfma .. | .vaddPacked ..
  | .vsubPacked .. | .vmulPacked .. | .vminPacked .. | .vmaxPacked .. | .vabsPacked .. | .vnegPacked ..
  | .vexp2 .. | .vlog2 .. | .vrcp .. | .vrsq .. | .vtanh .. | .vsigm .. | .vcmp .. | .vsel .. | .vand ..
  | .vor .. | .vxor .. | .vshl .. | .vshr .. | .vsra .. | .viadd .. | .visub .. | .vimul .. | .vcvt ..
  | .vquant .. | .vdeq .. | .vhad .. | .vperm .. | .vrot .. | .vbcast .. | .vreds .. | .vredx .. | .vscan ..
  | .vld .. | .vst .. | .vgth .. | .vsct .. | .vins .. | .vext .. | .vwin .. | .vpack .. | .vunpk .. | .mand ..
  | .mor .. | .mnot .. | .mpop .. | .vsortk .. | .vrng .. | .radd .. | .rsub .. | .rmul .. | .rmulUndo ..
  | .rshr .. | .rshrUndo .. | .rlrelu .. | .rlreluUndo .. | .rnrw .. | .rnrwUndo .. => true
  | _ => false

/-- The level at which power throttling limits an instruction's issue: 2 for the vector port, 3 for what the scalar units
issue; a bench command's chunks are limited where they start (R340). -/
def issueLevel (i : Instr) : Option Nat :=
  if vectorPort i then some 2
  else match i with
    | .mma .. | .mmas .. | .mmat .. => none
    | _ => some 3

/-- The instruction draws rb: its rounding mode is sr (R42, R115, R118, R138, R147). -/
def draws (i : Instr) (c : CoreSt) : Bool :=
  match i with
  | .fadd _ _ _ rm | .fsub _ _ _ rm | .fmul _ _ _ rm | .ffma _ _ _ _ rm | .frcp _ _ rm | .fcvt _ _ _ _ rm _
  | .vcvt _ _ _ _ rm _ _ => rm.toNat == 4
  | .vadd .. | .vsub .. | .vmul .. | .vfma .. | .vaddPacked .. | .vsubPacked .. | .vmulPacked .. => c.c.rmode.toNat == 4
  | .ast .. => bitsOf (look 0 c.fmtRows ((c.fmtbase.toNat + (c.c.loopCtr c.fmtlc.toNat).toNat) % 64)).toNat 32 3 == 4
  | .vrng .. => true
  | _ => false

/-- The instruction of stream `x` has issued: its wait ends and it is counted, but for the counter that it clears
(R107, R388, R389). -/
def State.issued (s : State) (i : Instr) (k : Nat) (x : Strm) : State :=
  let s := s.modStrm k x fun t =>
    { t with wait := none, dog := 0, issued := t.issued + 1, ran := some t.pc, skip := false }
  let s := s.count k 2 1 (some x)
  let s := if vectorPort i then (s.modCore k fun c => { c with traceBits := c.traceBits ||| 2 ^ 2 }).count k 4 1 none else s
  let s := if draws i (s.core k) then s.count k 15 1 (some x) else s
  match i with
  | .cntsel _ n | .cntclr n => if n.toNat < 16 then s.clearPmc k n.toNat else s
  | _ => s

/-- Ends the issue of instruction `i` of stream `x` of core `k` from state `s`. -/
def finish (i : Instr) (s : State) (k : Nat) (x : Strm) : Res State → State
  | .ok t => (t.issued i k x).advance k x
  | .goto t p => (t.issued i k x).setPc k x (some p)
  | .stay t => t.issued i k x
  | .trap t e f => ((t.issued i k x).advance k x).raise k (some x) e f
  | .wait w t => t.modStrm k x fun y => y.waits w
  | .fault e f => s.raise k (some x) e f
  | .report t e f => t.raise k (some x) e f

/-- The first scalar register of the instruction that is pending (R103). -/
def firstPending (i : Instr) (t : StreamSt) : Option Nat := (scalars i).find? t.isPending

/-- Decode checks in the order of R82, the stall of R103, and then the instruction's own effect. -/
def attempt (i : Instr) (s : State) (body : State → Res State) : Res State :=
  let c := s.core s.who
  let t := c.strm s.strm
  if !i.wf then .fault 0x01 (instrFinfo i)
  else if !permitted i s.strm then .fault 0x03 (instrFinfo i)
  else if privileged i && !c.hm then .fault 0x04 (instrFinfo i)
  else if c.regain.isSome && s.strm == .C then .wait .lease s
  else match firstPending i t with
    | some n => .wait (.dog 11 n) s
    | none => body s

/-- One instruction of stream `s.strm` of core `s.who` issues. -/
def issue (i : Instr) (s : State) (body : State → Res State) : Host.Outcome State Fault Refusal :=
  if !coreValid s.who then .fault .noSuchCore
  else if !(s.core s.who).canIssue s.strm then .fault .notRunning
  else .next (finish i s s.who s.strm (attempt i s body))

/-- An instruction whose effect lies in its own core. -/
def issueCore (i : Instr) (s : State) (body : CoreSt → Strm → Res CoreSt) : Host.Outcome State Fault Refusal :=
  issue i s fun s => (body (s.core s.who) s.strm).onCore s s.who

/-- An instruction that writes one scalar register from its stream's registers. -/
def issueScalar (i : Instr) (s : State) (rd : BitVec 5) (f : StreamSt → W64) : Host.Outcome State Fault Refusal :=
  issueCore i s fun c x => .ok (c.modStrm x fun t => t.setReg rd.toNat (f t))

/-- s[r] of a 5-bit register field. -/
def StreamSt.val (t : StreamSt) (r : BitVec 5) : W64 := t.reg r.toNat

end Sys2Proof.Machine
end

