-- ==== Sys2Proof/Machine/Scalar.lean ====
section
/-! DEFINITION. Scalar integer, immediate, fp32 and conversion instructions (R106 to R118). -/
namespace Sys2Proof.Machine

/-! ### Values -/

/-- Number of leading zero bits, 0 to 64 (R108). -/
def clz64 (a : W64) : Nat := if a = 0 then 64 else 63 - Nat.log2 a.toNat

/-- Number of trailing zero bits of a number below 2^n, `n` when it is zero. -/
def ctzNat : Nat → Nat → Nat
  | 0, _ => 0
  | n + 1, a => if a % 2 = 1 then 0 else ctzNat n (a / 2) + 1

/-- Number of one bits among the low `n` bits. -/
def popNat : Nat → Nat → Nat
  | 0, _ => 0
  | n + 1, a => a % 2 + popNat n (a / 2)

/-- Signed quotient with the corners of R110. -/
def div64 (a b : W64) : W64 := if b = 0 then -1 else BitVec.ofInt 64 (Int.tdiv a.toInt b.toInt)

def divu64 (a b : W64) : W64 := if b = 0 then -1 else a / b

/-- Signed remainder with the corners of R110. -/
def rem64 (a b : W64) : W64 := if b = 0 then a else BitVec.ofInt 64 (Int.tmod a.toInt b.toInt)

def remu64 (a b : W64) : W64 := if b = 0 then a else a % b

def smin (a b : W64) : W64 := if a.toInt < b.toInt then a else b
def smax (a b : W64) : W64 := if a.toInt < b.toInt then b else a
def umin (a b : W64) : W64 := if a.toNat < b.toNat then a else b
def umax (a b : W64) : W64 := if a.toNat < b.toNat then b else a
def flag (p : Bool) : W64 := if p then 1 else 0

/-- Sign extension of a 16-bit immediate (R112). -/
def sx16 (i : BitVec 16) : W64 := i.signExtend 64
def zx16 (i : BitVec 16) : W64 := i.zeroExtend 64

/-- Bits [pos + w - 1 : pos], zero-extended (R113). -/
def bfx64 (a : W64) (pos w : Nat) : W64 := BitVec.ofNat 64 (bitsOf a.toNat pos w)

/-- `d` with bits [pos + w - 1 : pos] replaced by the low bits of `a` (R113). -/
def bfi64 (d a : W64) (pos w : Nat) : W64 := BitVec.ofNat 64 (setBits d.toNat pos w a.toNat)

/-- The low 32 bits of a register, an fp32 operand (R115). -/
def fp (v : W64) : Nat := v.toNat % 2 ^ 32

/-- rb of an element of a stream's instruction (R42). -/
def drawRb (c : CoreSt) (x : Strm) (e : Nat) : Nat :=
  rbStream (c.seen 0x00A x c.srseed).toNat (c.strm x).srctr.toNat e (strmCode x)

/-- A scalar instruction that rounds: in mode sr it draws rb with element index 0 and SRCTR advances (R42, R115). -/
def issueRound (i : Instr) (s : State) (rd : BitVec 5) (rm : BitVec 3) (f : Nat → StreamSt → Nat) :
    Host.Outcome State Fault Refusal :=
  issueCore i s fun c x =>
    let t := c.strm x
    let v := BitVec.ofNat 64 (f (if rm = 4 then drawRb c x 0 else 0) t)
    let t := t.setReg rd.toNat v
    .ok (c.setStrm x (if rm = 4 then { t with srctr := t.srctr + 1 } else t))

/-! ### Register forms (R108 to R111) -/

/-- add (R108): Writes the sum of two scalar registers modulo 2^64. -/
def execAdd (rd ra rb : BitVec 5) (s : State) : Host.Outcome State Fault Refusal :=
  issueScalar (.add rd ra rb) s rd fun t => t.val ra + t.val rb

/-- sub (R108): Writes the difference of two scalar registers modulo 2^64. -/
def execSub (rd ra rb : BitVec 5) (s : State) : Host.Outcome State Fault Refusal :=
  issueScalar (.sub rd ra rb) s rd fun t => t.val ra - t.val rb

/-- and (R108): Writes the bitwise AND of two scalar registers. -/
def execAnd (rd ra rb : BitVec 5) (s : State) : Host.Outcome State Fault Refusal :=
  issueScalar (.and rd ra rb) s rd fun t => t.val ra &&& t.val rb

/-- or (R108): Writes the bitwise OR of two scalar registers. -/
def execOr (rd ra rb : BitVec 5) (s : State) : Host.Outcome State Fault Refusal :=
  issueScalar (.or rd ra rb) s rd fun t => t.val ra ||| t.val rb

/-- xor (R108): Writes the bitwise XOR of two scalar registers. -/
def execXor (rd ra rb : BitVec 5) (s : State) : Host.Outcome State Fault Refusal :=
  issueScalar (.xor rd ra rb) s rd fun t => t.val ra ^^^ t.val rb

/-- sll (R108): Shifts a scalar register left by the low six bits of another. -/
def execSll (rd ra rb : BitVec 5) (s : State) : Host.Outcome State Fault Refusal :=
  issueScalar (.sll rd ra rb) s rd fun t => t.val ra <<< ((t.val rb).toNat % 64)

/-- srl (R108): Shifts a scalar register right logically by the low six bits of another. -/
def execSrl (rd ra rb : BitVec 5) (s : State) : Host.Outcome State Fault Refusal :=
  issueScalar (.srl rd ra rb) s rd fun t => t.val ra >>> ((t.val rb).toNat % 64)

/-- sra (R108): Shifts a scalar register right arithmetically by the low six bits of another. -/
def execSra (rd ra rb : BitVec 5) (s : State) : Host.Outcome State Fault Refusal :=
  issueScalar (.sra rd ra rb) s rd fun t => (t.val ra).sshiftRight ((t.val rb).toNat % 64)

/-- min (R108): Writes the signed lesser of two scalar registers. -/
def execMin (rd ra rb : BitVec 5) (s : State) : Host.Outcome State Fault Refusal :=
  issueScalar (.min rd ra rb) s rd fun t => smin (t.val ra) (t.val rb)

/-- max (R108): Writes the signed greater of two scalar registers. -/
def execMax (rd ra rb : BitVec 5) (s : State) : Host.Outcome State Fault Refusal :=
  issueScalar (.max rd ra rb) s rd fun t => smax (t.val ra) (t.val rb)

/-- minu (R108): Writes the unsigned lesser of two scalar registers. -/
def execMinu (rd ra rb : BitVec 5) (s : State) : Host.Outcome State Fault Refusal :=
  issueScalar (.minu rd ra rb) s rd fun t => umin (t.val ra) (t.val rb)

/-- maxu (R108): Writes the unsigned greater of two scalar registers. -/
def execMaxu (rd ra rb : BitVec 5) (s : State) : Host.Outcome State Fault Refusal :=
  issueScalar (.maxu rd ra rb) s rd fun t => umax (t.val ra) (t.val rb)

/-- slt (R108): Writes 1 when the first register is signed-less than the second, else 0. -/
def execSlt (rd ra rb : BitVec 5) (s : State) : Host.Outcome State Fault Refusal :=
  issueScalar (.slt rd ra rb) s rd fun t => flag ((t.val ra).toInt < (t.val rb).toInt)

/-- sltu (R108): Writes 1 when the first register is unsigned-less than the second, else 0. -/
def execSltu (rd ra rb : BitVec 5) (s : State) : Host.Outcome State Fault Refusal :=
  issueScalar (.sltu rd ra rb) s rd fun t => flag ((t.val ra).toNat < (t.val rb).toNat)

/-- seq (R108): Writes 1 when two scalar registers are equal, else 0. -/
def execSeq (rd ra rb : BitVec 5) (s : State) : Host.Outcome State Fault Refusal :=
  issueScalar (.seq rd ra rb) s rd fun t => flag (t.val ra = t.val rb)

/-- mov (R108): Copies a scalar register. -/
def execMov (rd ra : BitVec 5) (s : State) : Host.Outcome State Fault Refusal :=
  issueScalar (.mov rd ra) s rd fun t => t.val ra

/-- clz (R108): Writes the count of leading zero bits of a scalar register. -/
def execClz (rd ra : BitVec 5) (s : State) : Host.Outcome State Fault Refusal :=
  issueScalar (.clz rd ra) s rd fun t => BitVec.ofNat 64 (clz64 (t.val ra))

/-- ctz (R108): Writes the count of trailing zero bits of a scalar register. -/
def execCtz (rd ra : BitVec 5) (s : State) : Host.Outcome State Fault Refusal :=
  issueScalar (.ctz rd ra) s rd fun t => BitVec.ofNat 64 (ctzNat 64 (t.val ra).toNat)

/-- popc (R108): Writes the count of one bits of a scalar register. -/
def execPopc (rd ra : BitVec 5) (s : State) : Host.Outcome State Fault Refusal :=
  issueScalar (.popc rd ra) s rd fun t => BitVec.ofNat 64 (popNat 64 (t.val ra).toNat)

/-- mul (R109): Writes the low 64 bits of the product of two scalar registers. -/
def execMul (rd ra rb : BitVec 5) (s : State) : Host.Outcome State Fault Refusal :=
  issueScalar (.mul rd ra rb) s rd fun t => t.val ra * t.val rb

/-- mulh (R109): Writes the high 64 bits of the signed 128-bit product. -/
def execMulh (rd ra rb : BitVec 5) (s : State) : Host.Outcome State Fault Refusal :=
  issueScalar (.mulh rd ra rb) s rd fun t => BitVec.ofInt 64 ((t.val ra).toInt * (t.val rb).toInt / 2 ^ 64)

/-- mulhu (R109): Writes the high 64 bits of the unsigned 128-bit product. -/
def execMulhu (rd ra rb : BitVec 5) (s : State) : Host.Outcome State Fault Refusal :=
  issueScalar (.mulhu rd ra rb) s rd fun t => BitVec.ofNat 64 ((t.val ra).toNat * (t.val rb).toNat / 2 ^ 64)

/-- div (R110): Writes the signed quotient truncated toward zero, with defined results for zero and overflow. -/
def execDiv (rd ra rb : BitVec 5) (s : State) : Host.Outcome State Fault Refusal :=
  issueScalar (.div rd ra rb) s rd fun t => div64 (t.val ra) (t.val rb)

/-- divu (R110): Writes the unsigned quotient, all ones for a zero divisor. -/
def execDivu (rd ra rb : BitVec 5) (s : State) : Host.Outcome State Fault Refusal :=
  issueScalar (.divu rd ra rb) s rd fun t => divu64 (t.val ra) (t.val rb)

/-- rem (R110): Writes the signed remainder, the dividend for a zero divisor. -/
def execRem (rd ra rb : BitVec 5) (s : State) : Host.Outcome State Fault Refusal :=
  issueScalar (.rem rd ra rb) s rd fun t => rem64 (t.val ra) (t.val rb)

/-- remu (R110): Writes the unsigned remainder, the dividend for a zero divisor. -/
def execRemu (rd ra rb : BitVec 5) (s : State) : Host.Outcome State Fault Refusal :=
  issueScalar (.remu rd ra rb) s rd fun t => remu64 (t.val ra) (t.val rb)

/-- mad (R111): Writes a times b plus c modulo 2^64. -/
def execMad (rd ra rb rc : BitVec 5) (s : State) : Host.Outcome State Fault Refusal :=
  issueScalar (.mad rd ra rb rc) s rd fun t => t.val ra * t.val rb + t.val rc

/-- sel (R111): Writes a when c is nonzero, else b. -/
def execSel (rd ra rb rc : BitVec 5) (s : State) : Host.Outcome State Fault Refusal :=
  issueScalar (.sel rd ra rb rc) s rd fun t => if t.val rc ≠ 0 then t.val ra else t.val rb

/-- clamp (R111): Writes signed min(max(a, b), c). -/
def execClamp (rd ra rb rc : BitVec 5) (s : State) : Host.Outcome State Fault Refusal :=
  issueScalar (.clamp rd ra rb rc) s rd fun t => smin (smax (t.val ra) (t.val rb)) (t.val rc)

/-! ### Immediate forms (R112 to R114) -/

/-- addi (R112): Adds a sign-extended 16-bit immediate to a scalar register. -/
def execAddi (rd ra : BitVec 5) (imm : BitVec 16) (s : State) : Host.Outcome State Fault Refusal :=
  issueScalar (.addi rd ra imm) s rd fun t => t.val ra + sx16 imm

/-- andi (R112): ANDs a zero-extended 16-bit immediate into a scalar register. -/
def execAndi (rd ra : BitVec 5) (imm : BitVec 16) (s : State) : Host.Outcome State Fault Refusal :=
  issueScalar (.andi rd ra imm) s rd fun t => t.val ra &&& zx16 imm

/-- ori (R112): ORs a zero-extended 16-bit immediate into a scalar register. -/
def execOri (rd ra : BitVec 5) (imm : BitVec 16) (s : State) : Host.Outcome State Fault Refusal :=
  issueScalar (.ori rd ra imm) s rd fun t => t.val ra ||| zx16 imm

/-- xori (R112): XORs a zero-extended 16-bit immediate into a scalar register. -/
def execXori (rd ra : BitVec 5) (imm : BitVec 16) (s : State) : Host.Outcome State Fault Refusal :=
  issueScalar (.xori rd ra imm) s rd fun t => t.val ra ^^^ zx16 imm

/-- slti (R112): Writes 1 when the register is signed-less than the sign-extended immediate. -/
def execSlti (rd ra : BitVec 5) (imm : BitVec 16) (s : State) : Host.Outcome State Fault Refusal :=
  issueScalar (.slti rd ra imm) s rd fun t => flag ((t.val ra).toInt < (sx16 imm).toInt)

/-- slli (R113): Shifts a scalar register left by an immediate. -/
def execSlli (rd ra : BitVec 5) (pos : BitVec 6) (s : State) : Host.Outcome State Fault Refusal :=
  issueScalar (.slli rd ra pos) s rd fun t => t.val ra <<< pos.toNat

/-- srli (R113): Shifts a scalar register right logically by an immediate. -/
def execSrli (rd ra : BitVec 5) (pos : BitVec 6) (s : State) : Host.Outcome State Fault Refusal :=
  issueScalar (.srli rd ra pos) s rd fun t => t.val ra >>> pos.toNat

/-- srai (R113): Shifts a scalar register right arithmetically by an immediate. -/
def execSrai (rd ra : BitVec 5) (pos : BitVec 6) (s : State) : Host.Outcome State Fault Refusal :=
  issueScalar (.srai rd ra pos) s rd fun t => (t.val ra).sshiftRight pos.toNat

/-- bfx (R113): Extracts a zero-extended bit field. -/
def execBfx (rd ra : BitVec 5) (pos wm1 : BitVec 6) (s : State) : Host.Outcome State Fault Refusal :=
  issueScalar (.bfx rd ra pos wm1) s rd fun t => bfx64 (t.val ra) pos.toNat (wm1.toNat + 1)

/-- bfi (R113): Inserts the low bits of a register into a bit field of the destination, keeping other bits. -/
def execBfi (rd ra : BitVec 5) (pos wm1 : BitVec 6) (s : State) : Host.Outcome State Fault Refusal :=
  issueScalar (.bfi rd ra pos wm1) s rd fun t => bfi64 (t.val rd) (t.val ra) pos.toNat (wm1.toNat + 1)

/-- li (R114): Loads a sign-extended 21-bit immediate. -/
def execLi (rd : BitVec 5) (imm : BitVec 21) (s : State) : Host.Outcome State Fault Refusal :=
  issueScalar (.li rd imm) s rd fun _ => imm.signExtend 64

/-- lui (R114): Writes a 16-bit immediate into one 16-bit quarter of a register, keeping the rest. -/
def execLui (rd : BitVec 5) (h : BitVec 2) (imm : BitVec 16) (s : State) : Host.Outcome State Fault Refusal :=
  issueScalar (.lui rd h imm) s rd fun t => bfi64 (t.val rd) (zx16 imm) (16 * h.toNat) 16

/-! ### fp32 arithmetic and conversion (R115 to R118) -/

/-- fadd (R115): Adds two fp32 values rounded in the named mode. -/
def execFadd (rd ra rb : BitVec 5) (rm : BitVec 3) (s : State) : Host.Outcome State Fault Refusal :=
  issueRound (.fadd rd ra rb rm) s rd rm fun r t => fpAdd 0 rm.toNat r (fp (t.val ra)) (fp (t.val rb))

/-- fsub (R115): Subtracts two fp32 values rounded in the named mode. -/
def execFsub (rd ra rb : BitVec 5) (rm : BitVec 3) (s : State) : Host.Outcome State Fault Refusal :=
  issueRound (.fsub rd ra rb rm) s rd rm fun r t => fpSub 0 rm.toNat r (fp (t.val ra)) (fp (t.val rb))

/-- fmul (R115): Multiplies two fp32 values rounded in the named mode. -/
def execFmul (rd ra rb : BitVec 5) (rm : BitVec 3) (s : State) : Host.Outcome State Fault Refusal :=
  issueRound (.fmul rd ra rb rm) s rd rm fun r t => fpMul 0 rm.toNat r (fp (t.val ra)) (fp (t.val rb))

/-- ffma (R115): Computes x times y plus z in fp32 with one rounding. -/
def execFfma (rd ra rb rc : BitVec 5) (rm : BitVec 3) (s : State) : Host.Outcome State Fault Refusal :=
  issueRound (.ffma rd ra rb rc rm) s rd rm fun r t =>
    fpFma 0 rm.toNat r (fp (t.val ra)) (fp (t.val rb)) (fp (t.val rc))

/-- fmin (R116): Writes the lesser of two fp32 values with NaN and signed-zero rules. -/
def execFmin (rd ra rb : BitVec 5) (s : State) : Host.Outcome State Fault Refusal :=
  issueScalar (.fmin rd ra rb) s rd fun t => BitVec.ofNat 64 (fpMin 0 (fp (t.val ra)) (fp (t.val rb)))

/-- fmax (R116): Writes the greater of two fp32 values with NaN and signed-zero rules. -/
def execFmax (rd ra rb : BitVec 5) (s : State) : Host.Outcome State Fault Refusal :=
  issueScalar (.fmax rd ra rb) s rd fun t => BitVec.ofNat 64 (fpMax 0 (fp (t.val ra)) (fp (t.val rb)))

/-- frcp: the exact reciprocal, rounded once (R115, R50). -/
def execFrcp (rd ra : BitVec 5) (rm : BitVec 3) (s : State) : Host.Outcome State Fault Refusal :=
  issueRound (.frcp rd ra rm) s rd rm fun r t => roundArith 0 rm.toNat r (rcpNum (decodeNum 0 0 (fp (t.val ra))))

/-- fcmp (R117): Writes 1 when the fp32 comparison condition holds, else 0. -/
def execFcmp (rd ra rb : BitVec 5) (cond : BitVec 3) (s : State) : Host.Outcome State Fault Refusal :=
  issueScalar (.fcmp rd ra rb cond) s rd fun t =>
    flag (fpCond cond.toNat (decodeNum 0 0 (fp (t.val ra))) (decodeNum 0 0 (fp (t.val rb))))

/-- A converted code as a register value: int8, int32 and rq32 extend the sign, every other format zeros (R118). -/
def fcvtValue (dst code : Nat) : W64 :=
  if dst = 0x08 ∨ dst = 0x0A ∨ dst = 0x0B then BitVec.ofInt 64 (sint (fmtWidth dst) code) else BitVec.ofNat 64 code

/-- fcvt (R118): RANGE, with RQF as FINFO, when rq32 is named and RQF exceeds 24 (R36, R375). -/
def execFcvt (rd ra : BitVec 5) (dst src : BitVec 6) (rm : BitVec 3) (sat : BitVec 1) (s : State) :
    Host.Outcome State Fault Refusal :=
  issueCore (.fcvt rd ra dst src rm sat) s fun c x =>
    let t := c.strm x
    if (dst = 0x0B ∨ src = 0x0B) ∧ 24 < t.rqf.toNat then .fault 0x23 (t.rqf.zeroExtend 64)
    else
      let v := decodeNum t.rqf.toNat src.toNat ((t.val ra).toNat % 2 ^ fmtWidth src.toNat)
      let r := convert t.rqf.toNat v dst.toNat rm.toNat (sat == 1) (if rm = 4 then drawRb c x 0 else 0)
      let t := t.setReg rd.toNat (fcvtValue dst.toNat r.code)
      .ok (c.setStrm x (if rm = 4 then { t with srctr := t.srctr + 1 } else t))

end Sys2Proof.Machine
end

