-- ==== Sys2Proof/Machine/Control.lean ====
section
/-! DEFINITION. Branches, jumps, calls, loops, rendezvous, events and traps (R119 to R134). -/
namespace Sys2Proof.Machine

/-- Line `current + off` and a slot (R77). -/
def target (p : Pc) (off : Int) (slot : BitVec 4) : Pc := ⟨BitVec.ofInt 24 (p.line.toNat + off), slot⟩

/-- A line with this link word is not one that stream `x` executes: its stream field differs, its count is 0, or bit 25
is 1 (the first two rows of R66). -/
def foreignLine (w : Nat) (x : Strm) : Bool := linkStream w != strmCode x || linkCount w == 0 || bitsOf w 25 1 == 1

/-- The link word of the line that a transfer enters, as the stream then has it: the line as it was fetched where the
transfer goes to the next slot of the line that the stream is in, else as memory holds it (R67). -/
def State.enteredWord (s : State) (k : Nat) (x : Strm) (p : Pc) : Nat :=
  let t := (s.core k).strm x
  if p.line = t.pc.line ∧ p.slot = t.pc.slot + 1 then s.lineWord k x p.line.toNat 0
  else s.codeWord (s.core k).theJob.code p.line.toNat 0

/-- The checks of R66 made at a control transfer of stream `x`: the line lies in the kernel, the slot is from 1 to its
count. A line that the stream may not execute at all, in the kernel or not, is found at its fetch, by the first rows of R66,
and so passes here. DEDUCED, unsafe: log entry 70. -/
def State.targetOk (s : State) (k : Nat) (x : Strm) (p : Pc) : Bool :=
  let j := (s.core k).theJob
  let w := s.enteredWord k x p
  foreignLine w x || (j.hasLine p.line.toNat && p.slot != 0 && p.slot.toNat ≤ linkCount w)

/-- A transfer to `p` after `s'` has taken its other effects; ILLEGAL_LINE with the target where a check fails. -/
def transfer (s : State) (p : Pc) (s' : State) : Res State :=
  if s.targetOk s.who s.strm p then .goto s' p else .fault 0x02 p.form

/-- A transfer through a register (R64, R122): the checks of the target come first, then that of the PC form (R66); a
target that is found at its fetch to be foreign is left to that fetch. -/
def transferReg (s : State) (v : W64) : Res State :=
  let p := pcOf v.toNat
  if s.targetOk s.who s.strm p && 2 ^ 28 ≤ v.toNat && !foreignLine (s.enteredWord s.who s.strm p) s.strm then .fault 0x02 v
  else transfer s p s

/-- Whether a branch condition holds (R119). -/
def brTaken (cond : Nat) (a b : W64) : Bool :=
  match cond with
  | 0 => a == b
  | 1 => a != b
  | 2 => a.toInt < b.toInt
  | 3 => b.toInt ≤ a.toInt
  | 4 => a.toNat < b.toNat
  | _ => b.toNat ≤ a.toNat

/-- The issuing stream. -/
def State.cur (s : State) : StreamSt := (s.core s.who).strm s.strm

def State.modCur (s : State) (f : StreamSt → StreamSt) : State := s.modStrm s.who s.strm f

/-- br (R119): Compares two scalar registers and transfers to the target when the condition holds. -/
def execBr (cond : BitVec 3) (ra rb : BitVec 5) (off : BitVec 9) (slot : BitVec 4) (s : State) :
    Host.Outcome State Fault Refusal :=
  issue (.br cond ra rb off slot) s fun s =>
    if brTaken cond.toNat (s.cur.val ra) (s.cur.val rb) then transfer s (target s.cur.pc off.toInt slot) s else .ok s

/-- jmp (R120): Transfers unconditionally to a relative line and slot. -/
def execJmp (off : BitVec 22) (slot : BitVec 4) (s : State) : Host.Outcome State Fault Refusal :=
  issue (.jmp off slot) s fun s => transfer s (target s.cur.pc off.toInt slot) s

/-- call (R121): s31 takes the return PC, 0 when there is no successor. -/
def execCall (off : BitVec 22) (slot : BitVec 4) (s : State) : Host.Outcome State Fault Refusal :=
  issue (.call off slot) s fun s =>
    let link : W64 := match s.successor s.who s.strm s.cur.pc with | some p => p.form | none => 0
    transfer s (target s.cur.pc off.toInt slot) (s.modCur fun t => t.setReg 31 link)

/-- jmpr (R122): Transfers to the PC held in a scalar register. -/
def execJmpr (ra : BitVec 5) (s : State) : Host.Outcome State Fault Refusal :=
  issue (.jmpr ra) s fun s => transferReg s (s.cur.val ra)

/-- ret (R122): Transfers to the PC held in s31. -/
def execRet (s : State) : Host.Outcome State Fault Refusal :=
  issue .ret s fun s => transferReg s (s.cur.reg 31)

/-! ### Hardware loops and snapshots (R124, R393) -/

/-- A snapshot of the bank-conflict matrix, as it stood at the end of the ac before (R393). -/
def CoreSt.snapshot (c : CoreSt) (x : Strm) (time : Nat) : CoreSt :=
  let d := c.ctr.snapptr.toNat % 16
  let tag := BitVec.ofNat 64 (2 ^ 32 * (time % 2 ^ 32) + 2 ^ 28 * strmCode x + (c.strm x).pc.form.toNat)
  { c with
    snapRan := some (strmCode x)
    ctr := { c.ctr with
      snaps := set c.ctr.snaps d c.ctrWas.matrix, tags := set c.ctr.tags d tag, snapptr := c.ctr.snapptr + 1 } }

/-- A later stream has taken a snapshot in this ac: stream `x` has its turn in the next one, so that those of one ac take
their slots in the order L, C, S (R393). -/
def CoreSt.snapLate (c : CoreSt) (x : Strm) : Bool := c.snapRan.any (strmCode x < ·)

/-- The exit of a hardware loop: counted, with a snapshot (R124, R384, R388). -/
def State.loopExit (s : State) (k : Nat) (x : Strm) : State :=
  (s.modCore k fun c =>
    ({ c with ctr := { c.ctr with loopExits := c.ctr.loopExits + 1 } } : CoreSt).snapshot x s.time.toNat).count k 12 1 (some x)

def StreamSt.setLoop (t : StreamSt) (k : Nat) (v : W32) : StreamSt := { t with lc := set t.lc k v }

/-- loop (R124): Increments a loop counter and branches back while below the bound, else resets it and counts an exit.
-/
def execLoop (lc : BitVec 2) (ra : BitVec 5) (off : BitVec 9) (slot : BitVec 4) (s : State) :
    Host.Outcome State Fault Refusal :=
  issue (.loop lc ra off slot) s fun s =>
    let n := s.cur.loopCtr lc.toNat + 1
    if n.toNat < (s.cur.val ra).toNat % 2 ^ 32 then
      transfer s (target s.cur.pc off.toInt slot) (s.modCur fun t => t.setLoop lc.toNat n)
    else if (s.core s.who).snapLate s.strm then .wait .others s
    else .ok ((s.modCur fun t => t.setLoop lc.toNat 0).loopExit s.who s.strm)

/-- brq (R126): the bit stays at the head when the transfer faults; a bit pushed in this ac is not seen yet (R267). -/
def execBrq (p : BitVec 1) (off : BitVec 9) (slot : BitVec 4) (s : State) : Host.Outcome State Fault Refusal :=
  issue (.brq p off slot) s fun s =>
    match (s.core s.who).bq.ready with
    | [] => .wait (.dog 8 0) s
    | bit :: _ =>
      let s' := s.modCore s.who fun c => { c with bq := c.bq.drop1 64 }
      if bit = (p == 1) then transfer s (target s.cur.pc off.toInt slot) s' else .ok s'

/-! ### Rendezvous and events (R127 to R133) -/

/-- Incomplete asynchronous commands of a stream, queued, accepted, in the bulk queue or with their last beat on the bus,
that carry no token. -/
def CoreSt.untokened (c : CoreSt) (x : Strm) : Bool :=
  let t := c.strm x
  (t.dray ++ t.coach ++ t.near ++ t.decode ++ c.cmds.filter fun m => m.strm = x).any (fun m => m.tok == 0) ||
    (x == .L && (c.bulk ++ c.casts).any fun b => b.tok == 0)

/-- The lowest pending register of a stream, if any. -/
def StreamSt.anyPending (t : StreamSt) : Option Nat := (List.range 32).find? t.isPending

/-- rdv (R127): the stream waits for its tokens and has then arrived. The watchdog's number of this wait is the lowest
pending register, or 0 where only commands without a token are awaited (R270 says only: register number; DEDUCED, unsafe:
log entry 19). -/
def execRdv (s : State) : Host.Outcome State Fault Refusal :=
  issueCore .rdv s fun c x =>
    match (c.strm x).anyPending with
    | some n => .wait (.dog 11 n) c
    | none =>
      if c.untokened x then .wait (.dog 11 0) c else .stay (c.modStrm x fun t => { t with arrived := true })

/-- nop (R123): Advances the PC with no other effect. -/
def execNop (s : State) : Host.Outcome State Fault Refusal := issueCore .nop s fun c _ => .ok c

/-- wfe (R130): a wait that no watchdog counts. -/
def execWfe (s : State) : Host.Outcome State Fault Refusal :=
  issueCore .wfe s fun c x =>
    if (c.strm x).evflag then .ok (c.modStrm x fun t => { t with evflag := false, heard := true }) else .wait .event c

/-- trap (R134): the instruction completes, and the cause TRAP is taken at its successor. -/
def execTrap (code : BitVec 16) (s : State) : Host.Outcome State Fault Refusal :=
  issueCore (.trap code) s fun c _ => .trap c 0x39 (code.zeroExtend 64)

end Sys2Proof.Machine
end

