-- ==== Sys2Proof/Machine/Scratch.lean ====
section
/-! DEFINITION. The scratchpad: checks, guard record, watches, loads, stores, atomics, fence and dynamic allocation
(R188 to R195, R383). -/
namespace Sys2Proof.Machine

/-! ### One access to the scratchpad -/

/-- Granule state: 0 free, 1 header allocation, 2 dynamic allocation, 3 guard (R187). -/
def CoreSt.granule (c : CoreSt) (g : Nat) : Nat := look 0 c.alloc g

/-- The lowest guard granule that a list of byte ranges (first byte, length) touches, with the lowest byte touched in
it. -/
def CoreSt.guardTouched (c : CoreSt) (ps : List (Nat × Nat)) : Option (Nat × Nat) :=
  (c.alloc.filter (fun g => g.2 == 3)).findSome? fun g =>
    let hits := ps.filter fun p => p.1 < 64 * g.1 + 64 && 64 * g.1 < p.1 + p.2 && 0 < p.2
    if hits = [] then none
    else some (g.1, (hits.map fun p => max p.1 (64 * g.1)).foldl min (64 * g.1 + 63))

/-- Granules that an access asks for: each run of neighbouring bytes once. -/
def askedGranules (ps : List (Nat × Nat)) : List Nat :=
  (ps.foldl (fun l p =>
    if p.2 = 0 then l
    else (List.range ((p.1 + p.2 - 1) / 64 + 1 - p.1 / 64)).foldl
      (fun l i => if l.head? = some (p.1 / 64 + i) then l else (p.1 / 64 + i) :: l) l) []).reverse

/-- An access asks some banks for a granule each, in the ac of its move: `port` is 0 L, 1 S, 2 C's scratchpad port, 3 the
engines, 4 the crossbar and 5 an arriving beat, and `req` the requester class (R188, R257, R392; DEDUCED, unsafe: log
entry 7). -/
def CoreSt.askBanks (c : CoreSt) (bs : List Nat) (req port : Nat) : CoreSt :=
  { c with banks := bs.foldl (fun b g =>
      let key := 256 * port + 32 * req + g % 32
      let r := look (0, 0) b key
      set b key (r.1 + 1, r.2)) c.banks }

/-- An access asks the banks for its granules (R188). -/
def CoreSt.ask (c : CoreSt) (ps : List (Nat × Nat)) (req port : Nat) : CoreSt := c.askBanks (askedGranules ps) req port

/-- Port of a stream's scalar accesses (R188). -/
def strmPort : Strm → Nat
  | .L => 0 | .S => 1 | .C => 2

/-- Of two requests for a bank, the first goes before: a beat's ahead of every class (R257), then one that has lost 8 ac
in a row, then by port; engines in round robin by requester class, after the class that a bank of the core served last,
one pointer for its 32 banks, as R188 does not say whose turn it is (DESIGN CHOICE, unsafe: log entry 7). -/
def bankBefore (turn : Nat) (a b : Nat × (Nat × Nat)) : Bool :=
  let rank := fun (e : Nat × (Nat × Nat)) =>
    let port := e.1 / 256
    let cls := e.1 / 32 % 8
    if port = 5 then 0
    else (if 8 ≤ e.2.2 then 1 else 1000) + 10 * port + (if port = 3 then (cls + 7 - turn) % 8 else 0)
  rank a < rank b

/-- One bank in one ac: it serves one granule, and every other class that asks loses the ac (R188, R392). Answers the core
and the classes that lost. -/
def CoreSt.bankServe (c : CoreSt) (bank : Nat) : CoreSt × List Nat :=
  match c.banks.filter fun e => e.1 % 32 == bank with
  | [] => (c, [])
  | e :: es =>
    let won := es.foldl (fun w e => if bankBefore c.bankTurn e w then e else w) e
    let lost := (e :: es).filter (· != won)
    let banks := if won.2.1 ≤ 1 then erase c.banks won.1 else set c.banks won.1 (won.2.1 - 1, 0)
    let classes := (lost.map fun e => e.1 / 32 % 8).eraseDups
    ({ c with
      banks := lost.foldl (fun b e => set b e.1 (e.2.1, e.2.2 + 1)) banks
      bankTurn := if won.1 / 256 = 3 then won.1 / 32 % 8 else c.bankTurn
      traceBits := classes.foldl (fun t q => t ||| 2 ^ (4 + q)) c.traceBits
      ctr := { c.ctr with
        matrix := classes.foldl (fun m q => set m (32 * q + bank) (look 0 m (32 * q + bank) + 1)) c.ctr.matrix } }, classes)

/-- The banks of a core in one ac: the ac that its requester classes lose (R188, R388, R392). -/
def CoreSt.bankTick (c : CoreSt) : CoreSt × Nat :=
  if c.banks = [] then (c, 0)
  else (List.range 32).foldl (fun r b => let (d, l) := r.1.bankServe b; (d, r.2 + l.length)) (c, 0)

/-- The guard record after an access that touches the guard granule and offset `x`, or none (R190): `st` the stream charged,
`req` the requester class. -/
def CoreSt.recorded (c : CoreSt) (x : Option (Nat × Nat)) (st req : Nat) (wr : Bool) : CoreSt :=
  match x with
  | none => c
  | some (g, off) =>
    if c.guard = 0 then
      let r := 2 ^ 48 + 2 ^ 40 * st + 2 ^ 36 * req + 2 ^ 35 * wr.toNat + 2 ^ 20 * (g % 32) + off
      { c with guard := BitVec.ofNat 64 r }
    else if c.guard.toNat / 2 ^ 48 = 0xFFFF then c
    else { c with guard := c.guard + BitVec.ofNat 64 (2 ^ 48) }

/-- One access to the bytes `ps`: it asks the banks at `port` (R188), and a guard granule it touches is recorded (R190).
DEDUCED, unsafe: log entry 32. -/
def CoreSt.touch (c : CoreSt) (ps : List (Nat × Nat)) (st req port : Nat) (wr : Bool) : CoreSt :=
  (c.ask ps req port).recorded (c.guardTouched ps) st req wr

/-- FINFO of the first enabled watch that an access of a stream touches (R383, R375). -/
def CoreSt.watchHit (c : CoreSt) (stack store : Bool) (ps : List (Nat × Nat)) : Option W64 :=
  [0, 1].findSome? fun i =>
    let w := (look 0 c.ctr.watch i).toNat
    let lo := bitsOf w 0 20
    let n := bitsOf w 40 20 + 1
    if bitsOf w 63 1 = 1 ∧ bitsOf w 62 1 = stack.toNat ∧ bitsOf w (60 + store.toNat) 1 = 1 then
      match (ps.filter fun p => p.1 < lo + n && lo < p.1 + p.2 && 0 < p.2).map fun p => max p.1 lo with
      | [] => none
      | h :: r => some (BitVec.ofNat 64 (2 ^ 8 * r.foldl min h + i))
    else none

/-- An access of a stream is complete: the guard record and the watches see it. -/
def CoreSt.accessed (c : CoreSt) (ps : List (Nat × Nat)) (st req port : Nat) (wr watchWr : Bool) : Res CoreSt :=
  match c.watchHit false watchWr ps with
  | some f => .trap (c.touch ps st req port wr) 0x3B f
  | none => .ok (c.touch ps st req port wr)

/-- FINFO of a SCRATCH_RANGE or MISALIGN (R375). -/
def eaInfo (ea : Nat) : W64 := BitVec.ofNat 64 (ea % 2 ^ 63)

/-- Range and alignment checks on `n` bytes at `ea` (R192): the cause, or none. -/
def scratchFault (ea n align : Nat) : Option Nat :=
  if 2 ^ 20 < ea + n then some 0x09 else if ea % align ≠ 0 then some 0x0A else none

/-- `s[ra] + sext64(imm12)` (R192). -/
def ea12 (t : StreamSt) (ra : BitVec 5) (imm : BitVec 12) : Nat := (t.val ra + imm.signExtend 64).toNat

/-! ### fence (R194, R223) -/

/-- A command of the classes a fence covers: S-stream cpy into tensors, and nmc. -/
def fencedCmd (m : Cmd) : Bool :=
  match m.instr with
  | .cpy _ _ _ dir _ _ _ _ => m.strm == .S && dir == 1
  | .cpyq .. => m.strm == .S
  | .nmc .. => true
  | _ => false

/-- A stack-scope packet of a stream that is queued or on the bus. -/
def State.scopePending (s : State) (k : Nat) (x : Strm) : Bool :=
  ((s.core k).strm x).stackq != [] ||
    (s.column (colOf k)).flying.any fun f => f.packets.any fun p => p.core == k && p.strm == x

/-- Every earlier access of the stream that a fence covers is performed. -/
def State.fencePassed (s : State) (k : Nat) (x : Strm) : Bool :=
  let c := s.core k
  let t := c.strm x
  !s.scopePending k x && !((t.dray ++ t.near ++ c.cmds.filter fun m => m.strm = x).any fencedCmd) &&
    !(x == .S && s.transit.any fun f => f.core == k && f.strm == x)

/-- A command that may write to tensors of some package. -/
def writingCmd (m : Cmd) : Bool :=
  match m.instr with
  | .cpy _ _ _ dir _ _ _ _ => dir == 1
  | .cpyq .. | .coll .. | .dec .. | .nmc .. => true
  | _ => false

/-- Every earlier write of the stream, to any package, has been acknowledged (R236). -/
def State.writesDone (s : State) (k : Nat) (x : Strm) : Bool :=
  let c := s.core k
  let t := c.strm x
  !((t.dray ++ t.coach ++ t.near ++ t.decode ++ c.cmds.filter fun m => m.strm = x).any writingCmd) &&
    !(s.transit.any fun f => f.core == k && f.strm == x)

/-- A fence at a scope (0 .core to 4 .slice) may complete (R194, R236). -/
def State.fenceOver (s : State) (k : Nat) (x : Strm) (scope : BitVec 3) : Bool :=
  s.fencePassed k x && (scope != 4 || s.writesDone k x)

/-- fence (R194): Waits until the stream's earlier accesses are performed at the named scope. -/
def execFence (scope : BitVec 3) (s : State) : Host.Outcome State Fault Refusal :=
  issue (.fence scope) s fun s => if s.fenceOver s.who s.strm scope then .ok s else .wait .fence s

/-- sev (R130, R132): the two other streams' flags, set once every earlier access of the stream is performed at .core. -/
def execSev (s : State) : Host.Outcome State Fault Refusal :=
  issue .sev s fun s =>
    if !s.fencePassed s.who s.strm then .wait .fence s
    else .ok (s.modCore s.who fun c =>
      (allStrms.filter (· != s.strm)).foldl (fun c y => c.modStrm y StreamSt.signal) c)

/-! ### ld and st (R192) -/

/-- ld (R192): Loads 1 to 8 bytes from the scratchpad, optionally as an acquire. -/
def execLd (rd ra : BitVec 5) (size : BitVec 2) (order : BitVec 1) (imm : BitVec 12) (s : State) :
    Host.Outcome State Fault Refusal :=
  issueCore (.ld rd ra size order imm) s fun c x =>
    let ea := ea12 (c.strm x) ra imm
    let n := 2 ^ size.toNat
    match scratchFault ea n n with
    | some e => .fault e (eaInfo ea)
    | none =>
      (c.modStrm x fun t => t.setReg rd.toNat (BitVec.ofNat 64 (c.scratch.num ea n))).accessed [(ea, n)] (strmCode x)
        (strmCode x) (strmPort x) false false

/-- st (R192): Stores 1 to 8 bytes to the scratchpad. A release waits, at its instruction, until every earlier access of
the stream in the classes of R194 is performed (R232), and stores then; so no release is pending beside a later store, and
the merging that R233 permits never occurs (DESIGN CHOICE, unsafe: log entry 71). -/
def execSt (rs ra : BitVec 5) (size : BitVec 2) (order : BitVec 1) (imm : BitVec 12) (s : State) :
    Host.Outcome State Fault Refusal :=
  issue (.st rs ra size order imm) s fun s =>
    let c := s.core s.who
    let x := s.strm
    let t := c.strm x
    let ea := ea12 t ra imm
    let n := 2 ^ size.toNat
    match scratchFault ea n n with
    | some e => .fault e (eaInfo ea)
    | none =>
      if order = 1 ∧ !s.fencePassed s.who x then .wait .fence s
      else
        (({ c with scratch := c.scratch.setNum ea n (t.val rs).toNat } : CoreSt).accessed [(ea, n)] (strmCode x)
          (strmCode x) (strmPort x) true true).onCore s s.who

/-! ### Atomics (R193) -/

/-- The value an atomic writes, on `n` bytes: 0 add, 1 min, 2 max, 3 and, 4 or, 5 xor, 6 swap. -/
def amoNew (fn n old b : Nat) : Nat :=
  match fn with
  | 0 => (old + b) % 2 ^ (8 * n)
  | 1 => if sint (8 * n) old < sint (8 * n) b then old else b
  | 2 => if sint (8 * n) old < sint (8 * n) b then b else old
  | 3 => old &&& b
  | 4 => old ||| b
  | 5 => old ^^^ b
  | _ => b

/-- Operand width of an atomic. -/
def amoBytes (w : BitVec 1) : Nat := if w = 1 then 8 else 4

/-- An atomic on the scratchpad: `f` gives the new value from the old one and the stream. An atomic is a load and a
store for the watches (R383). -/
def issueAtomic (i : Instr) (s : State) (rd ra : BitVec 5) (w : BitVec 1) (f : StreamSt → Nat → Nat) :
    Host.Outcome State Fault Refusal :=
  issueCore i s fun c x =>
    let t := c.strm x
    let ea := (t.val ra).toNat
    let n := amoBytes w
    match scratchFault ea n n with
    | some e => .fault e (eaInfo ea)
    | none =>
      let old := c.scratch.num ea n
      let c' := { c with scratch := c.scratch.setNum ea n (f t old) }
      let c' := (c'.modStrm x fun t => t.setReg rd.toNat (BitVec.ofNat 64 old)).touch [(ea, n)] (strmCode x) (strmCode x) (strmPort x) true
      match c.watchHit false true [(ea, n)], c.watchHit false false [(ea, n)] with
      | some i, _ | none, some i => .trap c' 0x3B i
      | none, none => .ok c'

/-- amo.add (R193): Atomically adds to a scratchpad word and returns the old value. -/
def execAmoAdd (rd ra rb : BitVec 5) (w : BitVec 1) (s : State) : Host.Outcome State Fault Refusal :=
  issueAtomic (.amoAdd rd ra rb w) s rd ra w fun t old => amoNew 0 (amoBytes w) old ((t.val rb).toNat % 2 ^ (8 * amoBytes w))

/-- amo.min (R193): Atomically takes the signed minimum in a scratchpad word. -/
def execAmoMin (rd ra rb : BitVec 5) (w : BitVec 1) (s : State) : Host.Outcome State Fault Refusal :=
  issueAtomic (.amoMin rd ra rb w) s rd ra w fun t old => amoNew 1 (amoBytes w) old ((t.val rb).toNat % 2 ^ (8 * amoBytes w))

/-- amo.max (R193): Atomically takes the signed maximum in a scratchpad word. -/
def execAmoMax (rd ra rb : BitVec 5) (w : BitVec 1) (s : State) : Host.Outcome State Fault Refusal :=
  issueAtomic (.amoMax rd ra rb w) s rd ra w fun t old => amoNew 2 (amoBytes w) old ((t.val rb).toNat % 2 ^ (8 * amoBytes w))

/-- amo.and (R193): Atomically ANDs into a scratchpad word. -/
def execAmoAnd (rd ra rb : BitVec 5) (w : BitVec 1) (s : State) : Host.Outcome State Fault Refusal :=
  issueAtomic (.amoAnd rd ra rb w) s rd ra w fun t old => amoNew 3 (amoBytes w) old ((t.val rb).toNat % 2 ^ (8 * amoBytes w))

/-- amo.or (R193): Atomically ORs into a scratchpad word. -/
def execAmoOr (rd ra rb : BitVec 5) (w : BitVec 1) (s : State) : Host.Outcome State Fault Refusal :=
  issueAtomic (.amoOr rd ra rb w) s rd ra w fun t old => amoNew 4 (amoBytes w) old ((t.val rb).toNat % 2 ^ (8 * amoBytes w))

/-- amo.xor (R193): Atomically XORs into a scratchpad word. -/
def execAmoXor (rd ra rb : BitVec 5) (w : BitVec 1) (s : State) : Host.Outcome State Fault Refusal :=
  issueAtomic (.amoXor rd ra rb w) s rd ra w fun t old => amoNew 5 (amoBytes w) old ((t.val rb).toNat % 2 ^ (8 * amoBytes w))

/-- amo.swap (R193): Atomically swaps a scratchpad word. -/
def execAmoSwap (rd ra rb : BitVec 5) (w : BitVec 1) (s : State) : Host.Outcome State Fault Refusal :=
  issueAtomic (.amoSwap rd ra rb w) s rd ra w fun t old => amoNew 6 (amoBytes w) old ((t.val rb).toNat % 2 ^ (8 * amoBytes w))

/-- cas (R193). -/
def execCas (rd ra rb rc : BitVec 5) (w : BitVec 1) (s : State) : Host.Outcome State Fault Refusal :=
  issueAtomic (.cas rd ra rb rc w) s rd ra w fun t old =>
    if old = (t.val rb).toNat % 2 ^ (8 * amoBytes w) then (t.val rc).toNat % 2 ^ (8 * amoBytes w) else old

/-! ### Dynamic allocation (R195) -/

def CoreSt.setGranule (c : CoreSt) (g v : Nat) : CoreSt :=
  { c with alloc := if v = 0 then erase c.alloc g else set c.alloc g v }

def CoreSt.setGranules (c : CoreSt) (lo n v : Nat) : CoreSt :=
  (List.range n).foldl (fun c i => c.setGranule (lo + i) v) c

/-- Granules f to f + len - 1 are free, and both neighbours are free or guard. -/
def CoreSt.fits (c : CoreSt) (len f : Nat) : Bool :=
  c.alloc.all fun g => (g.1 + 1 < f || f + len < g.1) || ((g.1 + 1 == f || g.1 == f + len) && g.2 == 3)

/-- The granule is in a header or dynamic allocation. -/
def CoreSt.inUse (c : CoreSt) (g : Nat) : Bool := c.granule g == 1 || c.granule g == 2

/-- A later stream's spal or spfree has taken effect in this ac: stream `x` has its turn in the next one, so that those of
one ac take effect in the order L, C, S (R195). -/
def CoreSt.allocLate (c : CoreSt) (x : Strm) : Bool := c.allocRan.any (strmCode x < ·)

/-- spal (R195): Allocates a dynamic scratchpad range with guard granules. -/
def execSpal (rd ra : BitVec 5) (s : State) : Host.Outcome State Fault Refusal :=
  issueCore (.spal rd ra) s fun c x =>
    if c.allocLate x then .wait .others c else
    let c := { c with allocRan := some (strmCode x) }
    let len := ((c.strm x).val ra).toNat
    if len = 0 ∨ 16382 < len then .fault 0x23 ((c.strm x).val ra)
    else
      let full := fun c : CoreSt => c.modStrm x fun t => t.setReg rd.toNat (-1)
      if c.dyn.length = 64 then .ok (full c)
      else match ((List.range (16382 - len)).map (· + 1)).find? (c.fits len) with
        | none => .ok (full c)
        | some f =>
          let c := ((c.setGranules f len 2).setGranule (f - 1) 3).setGranule (f + len) 3
          .ok (({ c with dyn := c.dyn ++ [(f, len)] } : CoreSt).modStrm x fun t => t.setReg rd.toNat (BitVec.ofNat 64 (64 * f)))

/-- A guard granule without an allocation beside it becomes free. -/
def CoreSt.dropGuard (c : CoreSt) (g : Nat) : CoreSt :=
  if c.inUse (g - 1) || c.inUse (g + 1) then c else c.setGranule g 0

/-- Frees the dynamic allocation of granules f to f + len - 1, with the guards that no allocation then needs (R195). -/
def CoreSt.freeRange (c : CoreSt) (f len : Nat) : CoreSt :=
  ((({ c with dyn := c.dyn.filter fun e => e.1 != f } : CoreSt).setGranules f len 0).dropGuard (f - 1)).dropGuard (f + len)

/-- Every dynamic allocation is freed (R380). -/
def CoreSt.freeDynamic (c : CoreSt) : CoreSt := c.dyn.foldl (fun c e => c.freeRange e.1 e.2) c

/-- spfree (R195): Frees a dynamic scratchpad allocation. -/
def execSpfree (ra : BitVec 5) (s : State) : Host.Outcome State Fault Refusal :=
  issueCore (.spfree ra) s fun c x =>
    if c.allocLate x then .wait .others c else
    let c := { c with allocRan := some (strmCode x) }
    let off := ((c.strm x).val ra).toNat
    match c.dyn.find? fun e => 64 * e.1 == off with
    | none => .fault 0x23 ((c.strm x).val ra)
    | some (f, len) => .ok (c.freeRange f len)

end Sys2Proof.Machine
end

