-- ==== Sys2Proof/Machine/Vector.lean ====
section
/-! DEFINITION. Vector instructions: windows on accumulator rows, lane arithmetic, conversion, permutes, row transfers,
reductions and masks (R91, R136 to R166). -/
namespace Sys2Proof.Machine

/-! ### Rows, lanes and masks (R91, R136) -/

/-- First byte of row `v` of the accumulator that VWIN names. -/
def CoreSt.rowBase (c : CoreSt) (v : BitVec 6) : Nat := 16384 * c.vwin.toNat + 256 * v.toNat

/-- Lane `i` of v. -/
def CoreSt.lane (c : CoreSt) (v : BitVec 6) (i : Nat) : Nat := c.acc.num (c.rowBase v + 4 * i) 4

/-- The 64 lanes of v. -/
def CoreSt.row (c : CoreSt) (v : BitVec 6) : List Nat := (List.range 64).map (c.lane v)

/-- Writes the 64 lanes of v. -/
def CoreSt.setRow (c : CoreSt) (v : BitVec 6) (lanes : List Nat) : CoreSt :=
  { c with acc := c.acc.setBytes (c.rowBase v) (lanes.flatMap (leBytes 4)) }

def CoreSt.mask (c : CoreSt) (m : BitVec 3) : W64 := look 0 c.masks m.toNat

/-- Lane `i` is written under predicate mk: 0 names every lane (R76). -/
def CoreSt.on (c : CoreSt) (mk : BitVec 3) (i : Nat) : Bool := mk == 0 || (c.mask mk).getLsbD i

/-- Rounding mode and rb of element `e` under RMODE (R138). -/
def CoreSt.rmode (c : CoreSt) : Nat := c.c.rmode.toNat
def CoreSt.laneRb (c : CoreSt) (e : Nat) : Nat := if c.rmode = 4 then drawRb c .C e else 0

/-- SRCTR advances once when the instruction draws (R138). DEDUCED, unsafe: log entry 20. -/
def CoreSt.drawn (c : CoreSt) (p : Bool) : CoreSt :=
  if p then c.modStrm .C fun t => { t with srctr := t.srctr + 1 } else c

/-- A predicated instruction that gives each lane of vd a value from the old state. -/
def lanewise (i : Instr) (s : State) (vd : BitVec 6) (mk : BitVec 3) (f : CoreSt → Nat → Nat) :
    Host.Outcome State Fault Refusal :=
  issueCore i s fun c _ =>
    .ok (c.setRow vd ((List.range 64).map fun j => if c.on mk j then f c j else c.lane vd j))

/-- As `lanewise`, for an instruction that rounds by RMODE. -/
def lanewiseRound (i : Instr) (s : State) (vd : BitVec 6) (mk : BitVec 3) (f : CoreSt → Nat → Nat) :
    Host.Outcome State Fault Refusal :=
  issueCore i s fun c _ =>
    .ok ((c.setRow vd ((List.range 64).map fun j => if c.on mk j then f c j else c.lane vd j)).drawn (c.rmode == 4))

/-- Half `h` of a lane (R91). -/
def half (w h : Nat) : Nat := bitsOf w (16 * h) 16

/-- Both halves of lane `j`, each from an operation on the element index and the halves of two lanes. -/
def onHalves (f : Nat → Nat → Nat → Nat) (j a b : Nat) : Nat :=
  f (2 * j) (half a 0) (half b 0) % 2 ^ 16 + 2 ^ 16 * (f (2 * j + 1) (half a 1) (half b 1) % 2 ^ 16)

/-- Packed element format: 0 bf16, 1 fp16 (R142). -/
def packedFmt (ty : BitVec 1) : Nat := if ty = 1 then 2 else 1

/-! ### fp32 and packed arithmetic (R140 to R142) -/

/-- vadd (R140): Adds fp32 lanes under an optional predicate. -/
def execVadd (vd va vb : BitVec 6) (mk : BitVec 3) (s : State) : Host.Outcome State Fault Refusal :=
  lanewiseRound (.vadd vd va vb mk) s vd mk fun c j => fpAdd 0 c.rmode (c.laneRb j) (c.lane va j) (c.lane vb j)

/-- vsub (R140): Subtracts fp32 lanes. -/
def execVsub (vd va vb : BitVec 6) (mk : BitVec 3) (s : State) : Host.Outcome State Fault Refusal :=
  lanewiseRound (.vsub vd va vb mk) s vd mk fun c j => fpSub 0 c.rmode (c.laneRb j) (c.lane va j) (c.lane vb j)

/-- vmul (R140): Multiplies fp32 lanes. -/
def execVmul (vd va vb : BitVec 6) (mk : BitVec 3) (s : State) : Host.Outcome State Fault Refusal :=
  lanewiseRound (.vmul vd va vb mk) s vd mk fun c j => fpMul 0 c.rmode (c.laneRb j) (c.lane va j) (c.lane vb j)

/-- vmin (R140): Takes the lesser fp32 lane by the rule of fmin. -/
def execVmin (vd va vb : BitVec 6) (mk : BitVec 3) (s : State) : Host.Outcome State Fault Refusal :=
  lanewise (.vmin vd va vb mk) s vd mk fun c j => fpMin 0 (c.lane va j) (c.lane vb j)

/-- vmax (R140): Takes the greater fp32 lane by the rule of fmax. -/
def execVmax (vd va vb : BitVec 6) (mk : BitVec 3) (s : State) : Host.Outcome State Fault Refusal :=
  lanewise (.vmax vd va vb mk) s vd mk fun c j => fpMax 0 (c.lane va j) (c.lane vb j)

/-- vabs (R140): Clears bit 31 of each lane. -/
def execVabs (vd va : BitVec 6) (mk : BitVec 3) (s : State) : Host.Outcome State Fault Refusal :=
  lanewise (.vabs vd va mk) s vd mk fun c j => c.lane va j % 2 ^ 31

/-- vneg (R140): Inverts bit 31 of each lane. -/
def execVneg (vd va : BitVec 6) (mk : BitVec 3) (s : State) : Host.Outcome State Fault Refusal :=
  lanewise (.vneg vd va mk) s vd mk fun c j => c.lane va j ^^^ 2 ^ 31

/-- vfma (R141): lanes, or the 128 halves. -/
def execVfma (vd va vb vc : BitVec 6) (ty : BitVec 2) (s : State) : Host.Outcome State Fault Refusal :=
  lanewiseRound (.vfma vd va vb vc ty) s vd 0 fun c j =>
    if ty = 0 then fpFma 0 c.rmode (c.laneRb j) (c.lane va j) (c.lane vb j) (c.lane vc j)
    else
      let f := fun h => fpFma ty.toNat c.rmode (c.laneRb (2 * j + h)) (half (c.lane va j) h) (half (c.lane vb j) h)
        (half (c.lane vc j) h)
      f 0 % 2 ^ 16 + 2 ^ 16 * (f 1 % 2 ^ 16)

/-- vadd.bf16 (R142): Adds packed bf16 or fp16 halves. -/
def execVaddPacked (vd va vb : BitVec 6) (mk : BitVec 3) (ty : BitVec 1) (s : State) : Host.Outcome State Fault Refusal :=
  lanewiseRound (.vaddPacked vd va vb mk ty) s vd mk fun c j =>
    onHalves (fun e x y => fpAdd (packedFmt ty) c.rmode (c.laneRb e) x y) j (c.lane va j) (c.lane vb j)

/-- vsub.bf16 (R142): Subtracts packed 16-bit halves. -/
def execVsubPacked (vd va vb : BitVec 6) (mk : BitVec 3) (ty : BitVec 1) (s : State) : Host.Outcome State Fault Refusal :=
  lanewiseRound (.vsubPacked vd va vb mk ty) s vd mk fun c j =>
    onHalves (fun e x y => fpSub (packedFmt ty) c.rmode (c.laneRb e) x y) j (c.lane va j) (c.lane vb j)

/-- vmul.bf16 (R142): Multiplies packed 16-bit halves. -/
def execVmulPacked (vd va vb : BitVec 6) (mk : BitVec 3) (ty : BitVec 1) (s : State) : Host.Outcome State Fault Refusal :=
  lanewiseRound (.vmulPacked vd va vb mk ty) s vd mk fun c j =>
    onHalves (fun e x y => fpMul (packedFmt ty) c.rmode (c.laneRb e) x y) j (c.lane va j) (c.lane vb j)

/-- vmin.bf16 (R142): Takes the lesser of packed 16-bit halves. -/
def execVminPacked (vd va vb : BitVec 6) (mk : BitVec 3) (ty : BitVec 1) (s : State) : Host.Outcome State Fault Refusal :=
  lanewise (.vminPacked vd va vb mk ty) s vd mk fun c j =>
    onHalves (fun _ x y => fpMin (packedFmt ty) x y) j (c.lane va j) (c.lane vb j)

/-- vmax.bf16 (R142): Takes the greater of packed 16-bit halves. -/
def execVmaxPacked (vd va vb : BitVec 6) (mk : BitVec 3) (ty : BitVec 1) (s : State) : Host.Outcome State Fault Refusal :=
  lanewise (.vmaxPacked vd va vb mk ty) s vd mk fun c j =>
    onHalves (fun _ x y => fpMax (packedFmt ty) x y) j (c.lane va j) (c.lane vb j)

/-- vabs.bf16 (R142): Takes the magnitude of packed 16-bit halves. -/
def execVabsPacked (vd va : BitVec 6) (mk : BitVec 3) (ty : BitVec 1) (s : State) : Host.Outcome State Fault Refusal :=
  lanewise (.vabsPacked vd va mk ty) s vd mk fun c j => onHalves (fun _ x _ => x % 2 ^ 15) j (c.lane va j) 0

/-- vneg.bf16 (R142): Negates packed 16-bit halves. -/
def execVnegPacked (vd va : BitVec 6) (mk : BitVec 3) (ty : BitVec 1) (s : State) : Host.Outcome State Fault Refusal :=
  lanewise (.vnegPacked vd va mk ty) s vd mk fun c j => onHalves (fun _ x _ => x ^^^ 2 ^ 15) j (c.lane va j) 0

/-! ### Special functions (R143, R144) -/

/-- Mode of the special functions: sr rounds as rne (R143). -/
def CoreSt.specialMode (c : CoreSt) : Nat := if c.rmode = 4 then 0 else c.rmode

def special (f : Num → Num) (mode x : Nat) : Nat := roundArith 0 mode 0 (f (decodeNum 0 0 x))

/-- vexp2 (R143): Computes 2^x per fp32 lane, correctly rounded. -/
def execVexp2 (vd va : BitVec 6) (mk : BitVec 3) (s : State) : Host.Outcome State Fault Refusal :=
  lanewise (.vexp2 vd va mk) s vd mk fun c j => special exp2Num c.specialMode (c.lane va j)

/-- vlog2 (R143): Computes log2 per fp32 lane. -/
def execVlog2 (vd va : BitVec 6) (mk : BitVec 3) (s : State) : Host.Outcome State Fault Refusal :=
  lanewise (.vlog2 vd va mk) s vd mk fun c j => special log2Num c.specialMode (c.lane va j)

/-- vrcp (R143): Computes the reciprocal per fp32 lane. -/
def execVrcp (vd va : BitVec 6) (mk : BitVec 3) (s : State) : Host.Outcome State Fault Refusal :=
  lanewise (.vrcp vd va mk) s vd mk fun c j => special rcpNum c.specialMode (c.lane va j)

/-- vrsq (R143): Computes the reciprocal square root per fp32 lane. -/
def execVrsq (vd va : BitVec 6) (mk : BitVec 3) (s : State) : Host.Outcome State Fault Refusal :=
  lanewise (.vrsq vd va mk) s vd mk fun c j => special rsqNum c.specialMode (c.lane va j)

/-- The composition of vsigm. -/
def sigm (x : Nat) : Nat :=
  let u := fpMul 0 0 0 (x ^^^ 2 ^ 31) 0x3FB8AA3B
  special rcpNum 0 (fpAdd 0 0 0 0x3F800000 (special exp2Num 0 u))

/-- The composition of vtanh; 0x3980_0000 is 2^-12. -/
def tanh32 (x : Nat) : Nat :=
  if (decodeNum 0 0 x).isNan then 0x7FC00000
  else if x % 2 ^ 31 < 0x39800000 then x
  else
    let r := special rcpNum 0 (fpAdd 0 0 0 0x3F800000 (special exp2Num 0 (fpMul 0 0 0 x 0x4038AA3B)))
    fpFma 0 0 0 0xC0000000 r 0x3F800000

/-- vtanh (R144): Computes tanh per lane by a fixed rne composition. -/
def execVtanh (vd va : BitVec 6) (mk : BitVec 3) (s : State) : Host.Outcome State Fault Refusal :=
  lanewise (.vtanh vd va mk) s vd mk fun c j => tanh32 (c.lane va j)

/-- vsigm (R144): Computes the sigmoid per lane by a fixed rne composition. -/
def execVsigm (vd va : BitVec 6) (mk : BitVec 3) (s : State) : Host.Outcome State Fault Refusal :=
  lanewise (.vsigm vd va mk) s vd mk fun c j => sigm (c.lane va j)

/-! ### Compare, select, integer and logic (R145 to R147) -/

/-- A lane comparison: type 0 fp32, 1 signed, 2 unsigned. -/
def laneCond (cond ty a b : Nat) : Bool :=
  if ty = 0 then fpCond cond (decodeNum 0 0 a) (decodeNum 0 0 b)
  else
    let lt := if ty = 1 then sint 32 a < sint 32 b else a < b
    match cond with
    | 0 => a == b
    | 1 => a != b
    | 2 => lt
    | 3 => lt || a == b
    | 4 => !lt && a != b
    | _ => !lt

/-- The mask whose bit `i` is `f i`. -/
def maskOf (f : Nat → Bool) : W64 := BitVec.ofNat 64 ((List.range 64).foldl (fun m i => if f i then m + 2 ^ i else m) 0)

def CoreSt.setMask (c : CoreSt) (m : BitVec 3) (v : W64) : CoreSt := { c with masks := set c.masks m.toNat v }

/-- vcmp (R145): Compares lanes and writes a whole mask register. -/
def execVcmp (md : BitVec 3) (va vb : BitVec 6) (mk cond : BitVec 3) (ty : BitVec 2) (s : State) :
    Host.Outcome State Fault Refusal :=
  issueCore (.vcmp md va vb mk cond ty) s fun c _ =>
    .ok (c.setMask md (maskOf fun j => c.on mk j && laneCond cond.toNat ty.toNat (c.lane va j) (c.lane vb j)))

/-- vsel (R146): Selects each lane from one of two registers by a mask. -/
def execVsel (vd va vb : BitVec 6) (sel : BitVec 3) (s : State) : Host.Outcome State Fault Refusal :=
  lanewise (.vsel vd va vb sel) s vd 0 fun c j => if (c.mask sel).getLsbD j then c.lane va j else c.lane vb j

/-- vand (R147): ANDs 32-bit lanes. -/
def execVand (vd va vb : BitVec 6) (mk : BitVec 3) (s : State) : Host.Outcome State Fault Refusal :=
  lanewise (.vand vd va vb mk) s vd mk fun c j => c.lane va j &&& c.lane vb j

/-- vor (R147): ORs 32-bit lanes. -/
def execVor (vd va vb : BitVec 6) (mk : BitVec 3) (s : State) : Host.Outcome State Fault Refusal :=
  lanewise (.vor vd va vb mk) s vd mk fun c j => c.lane va j ||| c.lane vb j

/-- vxor (R147): XORs 32-bit lanes. -/
def execVxor (vd va vb : BitVec 6) (mk : BitVec 3) (s : State) : Host.Outcome State Fault Refusal :=
  lanewise (.vxor vd va vb mk) s vd mk fun c j => c.lane va j ^^^ c.lane vb j

/-- vshl (R147): Shifts lanes left. -/
def execVshl (vd va vb : BitVec 6) (mk : BitVec 3) (s : State) : Host.Outcome State Fault Refusal :=
  lanewise (.vshl vd va vb mk) s vd mk fun c j => c.lane va j * 2 ^ (c.lane vb j % 32) % 2 ^ 32

/-- vshr (R147): Shifts lanes right logically. -/
def execVshr (vd va vb : BitVec 6) (mk : BitVec 3) (s : State) : Host.Outcome State Fault Refusal :=
  lanewise (.vshr vd va vb mk) s vd mk fun c j => c.lane va j / 2 ^ (c.lane vb j % 32)

/-- vsra (R147): Shifts lanes right arithmetically. -/
def execVsra (vd va vb : BitVec 6) (mk : BitVec 3) (s : State) : Host.Outcome State Fault Refusal :=
  lanewise (.vsra vd va vb mk) s vd mk fun c j => wrap 32 (sint 32 (c.lane va j) / 2 ^ (c.lane vb j % 32))

/-- viadd (R147): Adds lanes modulo 2^32. -/
def execViadd (vd va vb : BitVec 6) (mk : BitVec 3) (s : State) : Host.Outcome State Fault Refusal :=
  lanewise (.viadd vd va vb mk) s vd mk fun c j => (c.lane va j + c.lane vb j) % 2 ^ 32

/-- visub (R147): Subtracts lanes modulo 2^32. -/
def execVisub (vd va vb : BitVec 6) (mk : BitVec 3) (s : State) : Host.Outcome State Fault Refusal :=
  lanewise (.visub vd va vb mk) s vd mk fun c j => (c.lane va j + 2 ^ 32 - c.lane vb j) % 2 ^ 32

/-- vimul (R147): Multiplies lanes modulo 2^32. -/
def execVimul (vd va vb : BitVec 6) (mk : BitVec 3) (s : State) : Host.Outcome State Fault Refusal :=
  lanewise (.vimul vd va vb mk) s vd mk fun c j => c.lane va j * c.lane vb j % 2 ^ 32

/-! ### Conversion and MX blocks (R148 to R151) -/

/-- One lane of vcvt: dir 0 fp32 to fmt, into a sub-element; dir 1 a sub-element to fp32. -/
def cvtLane (rqf fmt dir rm : Nat) (sat : Bool) (part rb old src : Nat) : Nat :=
  let w := fmtWidth fmt
  if dir = 0 then setBits old (w * part) w (convert rqf (decodeNum 0 0 src) fmt rm sat rb).code
  else (convert 0 (decodeNum rqf fmt (bitsOf src (w * part) w)) 0 rm sat rb).code

/-- vcvt (R148): Converts lanes between fp32 and a sub-element of another format. -/
def execVcvt (vd va fmt : BitVec 6) (dir : BitVec 1) (rm : BitVec 3) (sat : BitVec 1) (part : BitVec 3) (s : State) :
    Host.Outcome State Fault Refusal :=
  issueCore (.vcvt vd va fmt dir rm sat part) s fun c _ =>
    let rqf := c.c.rqf
    if fmt = 0x0B ∧ 24 < rqf.toNat then .fault 0x23 (rqf.zeroExtend 64)
    else
      let f := fun j => cvtLane rqf.toNat fmt.toNat dir.toNat rm.toNat (sat == 1) part.toNat
        (if rm = 4 then drawRb c .C j else 0) (c.lane vd j) (c.lane va j)
      .ok ((c.setRow vd ((List.range 64).map f)).drawn (rm == 4))

/-- Codes of `w` bits in element order, as the 64 lanes that hold them (R137). -/
def packLanes (w : Nat) (codes : List Nat) : List Nat :=
  (List.range 64).map fun l => (List.range (32 / w)).foldl (fun a p => a + 2 ^ (w * p) * codes.getD (32 / w * l + p) 0) 0

/-- Code `e` of `w` bits in element order. -/
def codeAt (w : Nat) (lanes : List Nat) (e : Nat) : Nat := bitsOf (lanes.getD (e / (32 / w)) 0) (w * (e % (32 / w))) w

/-- vquant (R150): Quantises two 32-value blocks to an MX format and writes codes, scales, amax and saturation count.
-/
def execVquant (vd va vs fmt : BitVec 6) (s : State) : Host.Outcome State Fault Refusal :=
  issueCore (.vquant vd va vs fmt) s fun c _ =>
    let x := (c.row va).map (decodeNum 0 0)
    let p := quantBlock fmt.toNat (x.take 32)
    let q := quantBlock fmt.toNat (x.drop 32)
    let old := c.row vs
    let c := c.setRow vd (packLanes (fmtWidth fmt.toNat) (p.codes ++ q.codes))
    let rest := if vs = vd then c.row vs else old
    .ok (c.setRow vs ([p.scale + 2 ^ 8 * q.scale, amaxCode p.amax, amaxCode q.amax, p.sat + q.sat] ++ rest.drop 4))

/-- vdeq (R151): Dequantises MX codes with their scales to fp32. -/
def execVdeq (vd va vs fmt : BitVec 6) (s : State) : Host.Outcome State Fault Refusal :=
  lanewise (.vdeq vd va vs fmt) s vd 0 fun c j =>
    let sc := bitsOf (c.lane vs 0) (8 * (j / 32)) 8
    if sc = 0xFF then 0x7FC00000
    else (convert 0 ((decodeNum 0 fmt.toNat (codeAt (fmtWidth fmt.toNat) (c.row va) j)).scale ((sc : Int) - 127)) 0 0 false 0).code

/-! ### vhad (R152) -/

/-- One butterfly stage of distance `h`, within blocks of 32. -/
def hadStage (x : List Nat) (h : Nat) : List Nat :=
  (List.range 64).map fun i =>
    if i / h % 2 = 0 then fpAdd 0 0 0 (x.getD i 0) (x.getD (i + h) 0) else fpSub 0 0 0 (x.getD (i - h) 0) (x.getD i 0)

/-- vhad (R152): Applies an optionally signed and scaled Hadamard transform to each 32-lane block. -/
def execVhad (vd va : BitVec 6) (mn : BitVec 3) (norm sign : BitVec 1) (s : State) : Host.Outcome State Fault Refusal :=
  issueCore (.vhad vd va mn norm sign) s fun c _ =>
    let x := (List.range 64).map fun j =>
      if sign = 1 ∧ (c.mask mn).getLsbD j then c.lane va j ^^^ 2 ^ 31 else c.lane va j
    let x := [1, 2, 4, 8, 16].foldl hadStage x
    .ok (c.setRow vd (if norm = 1 then x.map fun v => fpMul 0 0 0 v 0x3E3504F3 else x))

/-! ### The crossbar: permutes, row transfers, gathers and scatters (R153 to R158) -/

/-- Issue of a crossbar instruction: LWC rises, or the stream waits while it is 32 (R154). -/
def viaCrossbar (c : CoreSt) (r : CoreSt → Res CoreSt) : Res CoreSt :=
  if 32 ≤ c.ctr.lwc then .wait .crossbar c else r { c with ctr := { c.ctr with lwc := c.ctr.lwc + 1 } }

/-- A permute takes the crossbar without touching storage, and gives way in the banks that its lanes' sources lead it by;
which those are is free (R154; DESIGN CHOICE, safe: log entry 96). -/
def CoreSt.askCrossbar (c : CoreSt) (lanes : List Nat) : CoreSt := c.askBanks (Config.permuteBanks lanes) 6 4

/-- vperm (R153): Permutes lanes by an index register through the crossbar. -/
def execVperm (vd va vb : BitVec 6) (mk : BitVec 3) (s : State) : Host.Outcome State Fault Refusal :=
  issueCore (.vperm vd va vb mk) s fun c _ => viaCrossbar c fun c =>
    let from_ := (List.range 64).map fun j => c.lane vb j % 64
    .ok ((c.setRow vd ((List.range 64).map fun j => if c.on mk j then c.lane va (from_.getD j 0) else c.lane vd j)).askCrossbar from_)

/-- vrot (R153): Rotates lanes by an immediate through the crossbar. -/
def execVrot (vd va imm : BitVec 6) (mk : BitVec 3) (s : State) : Host.Outcome State Fault Refusal :=
  issueCore (.vrot vd va imm mk) s fun c _ => viaCrossbar c fun c =>
    let from_ := (List.range 64).map fun j => (j + imm.toNat) % 64
    .ok ((c.setRow vd ((List.range 64).map fun j => if c.on mk j then c.lane va (from_.getD j 0) else c.lane vd j)).askCrossbar from_)

/-- vbcast (R153): Broadcasts the low 32 bits of a scalar register to lanes. -/
def execVbcast (vd : BitVec 6) (ra : BitVec 5) (mk : BitVec 3) (s : State) : Host.Outcome State Fault Refusal :=
  lanewise (.vbcast vd ra mk) s vd mk fun c _ => (c.c.val ra).toNat % 2 ^ 32

/-- `s[sa] + sext(imm7) × 256`, in 64 bits (R155). -/
def eaRow (c : CoreSt) (ra : BitVec 5) (imm : BitVec 7) : Nat := (c.c.val ra + (imm.signExtend 64) * 256).toNat

/-- Word offsets that a gather or a scatter addresses, in lane order. -/
def eaLanes (c : CoreSt) (ra : BitVec 5) (vi : BitVec 6) (imm : BitVec 7) : List Nat :=
  (List.range 64).map fun j => (eaRow c ra imm + c.lane vi j) % 2 ^ 64

/-- The checks of R156 on every lane: the range first, then the alignment, each with its lowest failing lane. -/
def lanesFault (es : List Nat) : Option (Nat × Nat) :=
  match es.find? fun e => 2 ^ 20 < e + 4, es.find? fun e => e % 4 ≠ 0 with
  | some e, _ => some (0x09, e)
  | none, some e => some (0x0A, e)
  | none, none => none

/-- The checks of R156 on the 256 bytes of a row: the cause, and the offset of the lowest lane that fails. -/
def rowFault (ea : Nat) : Option (Nat × Nat) :=
  (scratchFault ea 256 4).map fun e => (e, if e = 0x09 ∧ ea + 4 ≤ 2 ^ 20 then ea + 4 * ((2 ^ 20 - ea) / 4) else ea)

/-- vld (R155): Loads 256 scratchpad bytes into a vector register through the crossbar. -/
def execVld (vd : BitVec 6) (ra : BitVec 5) (imm : BitVec 7) (s : State) : Host.Outcome State Fault Refusal :=
  issueCore (.vld vd ra imm) s fun c _ =>
    let ea := eaRow c ra imm
    match rowFault ea with
    | some (e, a) => .fault e (eaInfo a)
    | none => viaCrossbar c fun c =>
      ({ c with acc := c.acc.setBytes (c.rowBase vd) (c.scratch.bytes ea 256) } : CoreSt).accessed [(ea, 256)] 1 1 4 false false

/-- vst (R155): Stores a vector register as 256 scratchpad bytes. Its 8-byte pieces become visible together, in the one
move (R158 promises no order among them; DESIGN CHOICE, unsafe: log entry 2). -/
def execVst (vd : BitVec 6) (ra : BitVec 5) (imm : BitVec 7) (s : State) : Host.Outcome State Fault Refusal :=
  issueCore (.vst vd ra imm) s fun c _ =>
    let ea := eaRow c ra imm
    match rowFault ea with
    | some (e, a) => .fault e (eaInfo a)
    | none =>
      ({ c with scratch := c.scratch.setBytes ea (c.acc.bytes (c.rowBase vd) 256) } : CoreSt).accessed [(ea, 256)] 1 1 2 true true

/-- vgth (R155): Gathers one scratchpad word per lane by offsets in a vector register. -/
def execVgth (vd : BitVec 6) (ra : BitVec 5) (vi : BitVec 6) (imm : BitVec 7) (s : State) :
    Host.Outcome State Fault Refusal :=
  issueCore (.vgth vd ra vi imm) s fun c _ =>
    let es := eaLanes c ra vi imm
    match lanesFault es with
    | some (e, a) => .fault e (eaInfo a)
    | none => viaCrossbar c fun c =>
      (c.setRow vd (es.map fun e => c.scratch.num e 4)).accessed (es.map fun e => (e, 4)) 1 1 4 false false

/-- vsct (R157): Scatters one word per lane in increasing lane order; other streams and engines see all of its pieces
together (R158; DESIGN CHOICE, unsafe: log entry 2). -/
def execVsct (vd : BitVec 6) (ra : BitVec 5) (vi : BitVec 6) (imm : BitVec 7) (s : State) :
    Host.Outcome State Fault Refusal :=
  issueCore (.vsct vd ra vi imm) s fun c _ =>
    let es := eaLanes c ra vi imm
    match lanesFault es with
    | some (e, a) => .fault e (eaInfo a)
    | none => viaCrossbar c fun c =>
      ({ c with scratch := (es.zip (c.row vd)).foldl (fun m p => m.setNum p.1 4 p.2) c.scratch } : CoreSt).accessed
        (es.map fun e => (e, 4)) 1 6 4 true true

/-- A crossbar instruction completes (R154), once the banks have served what the crossbar asked for (R188): LWC falls. -/
def execCrossbarInstructionCompletion (core : Nat) (s : State) : Host.Outcome State Fault Refusal :=
  if (s.core core).ctr.lwc = 0 ∨ (s.core core).banks.any (fun e => e.1 / 256 == 4) then .refused (.notEnabled "CROSSBAR_INSTRUCTION_COMPLETION")
  else .next (s.modCore core fun c => { c with ctr := { c.ctr with lwc := c.ctr.lwc - 1 } })

/-! ### Reductions, scan, sort and random rows (R159 to R163) -/

/-- The sum of a type: fp32 in rne, or modulo 2^32. -/
def sumOp (ty a b : Nat) : Nat := if ty = 0 then fpAdd 0 0 0 a b else (a + b) % 2 ^ 32

def sumIdentity (ty : Nat) : Nat := if ty = 0 then 2 ^ 31 else 0

/-- The greater of a type (R116, signed, unsigned). -/
def maxOp (ty a b : Nat) : Nat :=
  if ty = 0 then fpMax 0 a b else if ty = 1 then (if sint 32 a < sint 32 b then b else a) else max a b

/-- One level of the tree of R160: element i with element i + h. -/
def treeLevel {α : Type} (op : α → α → α) (d : α) (x : List α) (h : Nat) : List α :=
  (List.range h).map fun i => op (x.getD i d) (x.getD (i + h) d)

def treeReduce {α : Type} (op : α → α → α) (d : α) (x : List α) : α :=
  ([32, 16, 8, 4, 2, 1].foldl (treeLevel op d) x).getD 0 d

/-- A maximum to which a lane that is off contributes nothing. -/
def maxSome (ty : Nat) : Option Nat → Option Nat → Option Nat
  | some a, some b => some (maxOp ty a b)
  | some a, none => some a
  | none, b => b

def maxEmpty (ty : Nat) : Nat := if ty = 0 then 0xFF800000 else if ty = 1 then 0x80000000 else 0

/-- vreds (R160): Sums contributing lanes by a fixed tree and writes the sum to every lane. -/
def execVreds (vd va : BitVec 6) (mk : BitVec 3) (ty : BitVec 2) (s : State) : Host.Outcome State Fault Refusal :=
  issueCore (.vreds vd va mk ty) s fun c _ =>
    let x := (List.range 64).map fun j => if c.on mk j then c.lane va j else sumIdentity ty.toNat
    .ok (c.setRow vd (List.replicate 64 (treeReduce (sumOp ty.toNat) 0 x)))

/-- vredx (R160): Takes the maximum of contributing lanes and writes it to every lane. -/
def execVredx (vd va : BitVec 6) (mk : BitVec 3) (ty : BitVec 2) (s : State) : Host.Outcome State Fault Refusal :=
  issueCore (.vredx vd va mk ty) s fun c _ =>
    let x := (List.range 64).map fun j => if c.on mk j then some (c.lane va j) else none
    .ok (c.setRow vd (List.replicate 64 ((treeReduce (maxSome ty.toNat) none x).getD (maxEmpty ty.toNat))))

/-- Running sums in lane order (R161); a lane that is off repeats the sum. -/
def scanFrom (ty acc : Nat) : List (Option Nat) → List Nat
  | [] => []
  | none :: r => acc :: scanFrom ty acc r
  | some v :: r => sumOp ty acc v :: scanFrom ty (sumOp ty acc v) r

/-- vscan (R161): Writes inclusive running sums in lane order. -/
def execVscan (vd va : BitVec 6) (mk : BitVec 3) (ty : BitVec 2) (s : State) : Host.Outcome State Fault Refusal :=
  issueCore (.vscan vd va mk ty) s fun c _ =>
    .ok (c.setRow vd (scanFrom ty.toNat (sumIdentity ty.toNat)
      ((List.range 64).map fun j => if c.on mk j then some (c.lane va j) else none)))

/-- Key order of vsortk: descending, NaNs last and equal. -/
def keyBefore (a b : Num) : Bool := !a.isNan && (b.isNan || numBefore b a)

/-- Stable insertion: an entry goes after every entry not behind it. -/
def sortInsert (e : Num × Nat) : List (Num × Nat) → List (Num × Nat)
  | [] => [e]
  | f :: r => if keyBefore e.1 f.1 then e :: f :: r else f :: sortInsert e r

/-- vsortk (R162): Sorts lanes by fp32 key descending and writes the payloads in that order. -/
def execVsortk (vd va vb : BitVec 6) (mk : BitVec 3) (s : State) : Host.Outcome State Fault Refusal :=
  issueCore (.vsortk vd va vb mk) s fun c _ =>
    let all := (List.range 64).map fun j => (c.on mk j, decodeNum 0 0 (c.lane va j), c.lane vb j)
    let on := ((all.filter (·.1)).map (·.2)).foldl (fun l e => sortInsert e l) []
    .ok (c.setRow vd (on.map (·.2) ++ (all.filter (!·.1)).map (·.2.2)))

/-- vrng (R163): Writes Philox random words per lane and advances SRCTR. -/
def execVrng (vd : BitVec 6) (mk : BitVec 3) (s : State) : Host.Outcome State Fault Refusal :=
  issueCore (.vrng vd mk) s fun c _ =>
    let sd := (c.seen 0x00A .C c.srseed).toNat
    let ct := c.c.srctr.toNat
    .ok ((c.setRow vd ((List.range 64).map fun j =>
      if c.on mk j then philox ct (ct / 2 ^ 32) j 1 sd (sd / 2 ^ 32) else c.lane vd j)).drawn true)

/-! ### Lane moves, packing and masks (R164, R165) -/

/-- vins (R164): Inserts a scalar into one lane. -/
def execVins (vd : BitVec 6) (ra : BitVec 5) (lane : BitVec 6) (s : State) : Host.Outcome State Fault Refusal :=
  lanewise (.vins vd ra lane) s vd 0 fun c j => if j = lane.toNat then (c.c.val ra).toNat % 2 ^ 32 else c.lane vd j

/-- vext (R164): Extracts one lane into a scalar register. -/
def execVext (rd : BitVec 5) (va lane : BitVec 6) (s : State) : Host.Outcome State Fault Refusal :=
  issueCore (.vext rd va lane) s fun c x =>
    .ok (c.modStrm x fun t => t.setReg rd.toNat (BitVec.ofNat 64 (c.lane va lane.toNat)))

/-- vwin (R164): Selects the accumulator that the vector registers window. -/
def execVwin (acc : BitVec 3) (s : State) : Host.Outcome State Fault Refusal :=
  issueCore (.vwin acc) s fun c _ => .ok { c with vwin := acc }

/-- vpack (R164): Packs the low halves of lane pairs of two registers. -/
def execVpack (vd va vb : BitVec 6) (mk : BitVec 3) (s : State) : Host.Outcome State Fault Refusal :=
  lanewise (.vpack vd va vb mk) s vd mk fun c j =>
    let v := if j < 32 then va else vb
    half (c.lane v (2 * (j % 32))) 0 + 2 ^ 16 * half (c.lane v (2 * (j % 32) + 1)) 0

/-- vunpk (R164): Unpacks 16-bit halves into zero-extended lanes. -/
def execVunpk (vd va : BitVec 6) (mk : BitVec 3) (s : State) : Host.Outcome State Fault Refusal :=
  lanewise (.vunpk vd va mk) s vd mk fun c j => half (c.lane va (j / 2)) (j % 2)

/-- mand (R165): ANDs two mask registers. -/
def execMand (md ma mb : BitVec 3) (s : State) : Host.Outcome State Fault Refusal :=
  issueCore (.mand md ma mb) s fun c _ => .ok (c.setMask md (c.mask ma &&& c.mask mb))

/-- mor (R165): ORs two mask registers. -/
def execMor (md ma mb : BitVec 3) (s : State) : Host.Outcome State Fault Refusal :=
  issueCore (.mor md ma mb) s fun c _ => .ok (c.setMask md (c.mask ma ||| c.mask mb))

/-- mnot (R165): Inverts a mask register. -/
def execMnot (md ma : BitVec 3) (s : State) : Host.Outcome State Fault Refusal :=
  issueCore (.mnot md ma) s fun c _ => .ok (c.setMask md (~~~c.mask ma))

/-- mpop (R165): Counts the set bits of a mask into a scalar register. -/
def execMpop (ma : BitVec 3) (rs : BitVec 5) (s : State) : Host.Outcome State Fault Refusal :=
  issueCore (.mpop ma rs) s fun c x =>
    .ok (c.modStrm x fun t => t.setReg rs.toNat (BitVec.ofNat 64 (popNat 64 (c.mask ma).toNat)))

end Sys2Proof.Machine
end

