-- ==== Sys2Proof/Machine/Matrix.lean ====
section
/-! DEFINITION. Tiles, format rows, the bench and its lease, and the accumulator instructions (R54 to R57, R167 to
R185). -/
namespace Sys2Proof.Machine

/-! ### Shapes (R96, R168, R169) -/

/-- A tile shape: format, rows, columns. -/
structure Shape where
  fmt : Nat
  rows : Nat
  cols : Nat
  deriving DecidableEq, Repr, Inhabited

def CoreSt.shape (c : CoreSt) (t : BitVec 3) : Shape :=
  let w := (look 0 c.tshape t.toNat).toNat
  { fmt := bitsOf w 0 6, rows := bitsOf w 8 7 + 1, cols := bitsOf w 16 16 }

/-- Bytes of a tile of a shape. -/
def Shape.bytes (s : Shape) : Nat := s.rows * s.cols * fmtWidth s.fmt / 8

/-- A shape that tld, tst and tpop take (R169). -/
def Shape.legal (s : Shape) : Bool :=
  fmtValid s.fmt && 1 ≤ s.cols && s.cols * fmtWidth s.fmt % 8 == 0 && s.bytes ≤ 16384

/-- FINFO of TILE_SHAPE (R375): the row selected, whether it failed, and the tile whose shape failed. -/
def shapeInfo (row : Nat) (rowBad : Bool) (tile : Option (BitVec 3)) : W64 :=
  BitVec.ofNat 64 (row + (if rowBad then 2 ^ 6 else 0) + (match tile with | some t => 2 ^ 7 + 2 ^ 8 * t.toNat | none => 0))

/-- Element (r, c) of a tile (R168). -/
def CoreSt.tileCode (c : CoreSt) (t : BitVec 3) (sh : Shape) (r k : Nat) : Nat :=
  let w := fmtWidth sh.fmt
  let b := (r * sh.cols + k) * w
  if w = 4 then bitsOf (c.tiles.byte (16384 * t.toNat + b / 8)).toNat (b % 8) 4
  else c.tiles.num (16384 * t.toNat + b / 8) (w / 8)

/-! ### tshape, tzero, tpop, tld, tst, fmtsel (R170 to R172) -/

/-- The fields of TSHAPE (R96). -/
def tshapeMask : W64 := 0xFFFF7F3F

/-- tshape (R170): Writes the shape register of an operand tile. -/
def execTshape (tile : BitVec 3) (ra : BitVec 5) (s : State) : Host.Outcome State Fault Refusal :=
  issueCore (.tshape tile ra) s fun c x =>
    .ok { c with tshape := set c.tshape tile.toNat ((c.strm x).val ra &&& tshapeMask) }

/-- tzero (R170): Zeroes every byte of an operand tile. -/
def execTzero (tile : BitVec 3) (s : State) : Host.Outcome State Fault Refusal :=
  issueCore (.tzero tile) s fun c _ => .ok { c with tiles := c.tiles.clear (16384 * tile.toNat) 16384 }

def CoreSt.dqueue (c : CoreSt) (q : Nat) : Queue (List Byte) := look {} c.dq q
def CoreSt.oqueue (c : CoreSt) (q : Nat) : Queue (List Byte) := look {} c.oq q
def CoreSt.tokens (c : CoreSt) (f : Nat) : Queue (BitVec 16) := look {} c.tk f
def CoreSt.popDq (c : CoreSt) (q : Nat) : CoreSt := { c with dq := set c.dq q ((c.dqueue q).drop1 16) }

/-- Entries `e` onward of a tpop that needs `n` of them and `bytes` bytes, while the queue holds some: the core, and
the entries taken. -/
def CoreSt.popTile (c : CoreSt) (tile q bytes : Nat) : Nat → Nat → CoreSt × Nat
  | 0, e => (c, e)
  | n + 1, e =>
    match (c.dqueue q).ready with
    | [] => (c, e)
    | x :: _ =>
      let c := { c.popDq q with
        tiles := c.tiles.setBytes (16384 * tile + 256 * e) (x.take (min 256 (bytes - 256 * e))) }
      c.popTile tile q bytes n (e + 1)

/-- tpop (R170); entries taken before a wait are counted in the held-command record. -/
def execTpop (tile : BitVec 3) (q : BitVec 2) (s : State) : Host.Outcome State Fault Refusal :=
  issueCore (.tpop tile q) s fun c x =>
    let sh := c.shape tile
    if !sh.legal then .fault 0x1B (shapeInfo 0 false (some tile))
    else
      let n := (sh.bytes + 255) / 256
      let e0 := c.heldRec.toNat % 256
      let (c', e) := c.popTile tile.toNat q.toNat sh.bytes (n - e0) e0
      if n ≤ e then .ok { c' with heldRec := 0 }
      else
        let c' := { c' with heldRec := BitVec.ofNat 64 e }
        .wait (.dog 2 q.toNat) (if e = e0 then c' else c'.modStrm x fun t => { t with wait := none })

/-- Scratchpad offset of tld, tst, ald and ast (R171). -/
def eaTile (t : StreamSt) (ra : BitVec 5) (imm : BitVec 14) : Nat :=
  (t.val ra + (imm.zeroExtend 64) * 64).toNat

/-- tld (R171): Loads an operand tile from the scratchpad. -/
def execTld (tile : BitVec 3) (ra : BitVec 5) (imm : BitVec 14) (s : State) : Host.Outcome State Fault Refusal :=
  issueCore (.tld tile ra imm) s fun c x =>
    let sh := c.shape tile
    let ea := eaTile (c.strm x) ra imm
    if !sh.legal then .fault 0x1B (shapeInfo 0 false (some tile))
    else match scratchFault ea sh.bytes 64 with
      | some e => .fault e (eaInfo ea)
      | none =>
        ({ c with tiles := c.tiles.setBytes (16384 * tile.toNat) (c.scratch.bytes ea sh.bytes) } : CoreSt).accessed
          [(ea, sh.bytes)] 1 1 2 false false

/-- tst (R171): Stores an operand tile to the scratchpad. -/
def execTst (tile : BitVec 3) (ra : BitVec 5) (imm : BitVec 14) (s : State) : Host.Outcome State Fault Refusal :=
  issueCore (.tst tile ra imm) s fun c x =>
    let sh := c.shape tile
    let ea := eaTile (c.strm x) ra imm
    if !sh.legal then .fault 0x1B (shapeInfo 0 false (some tile))
    else match scratchFault ea sh.bytes 64 with
      | some e => .fault e (eaInfo ea)
      | none =>
        ({ c with scratch := c.scratch.setBytes ea (c.tiles.bytes (16384 * tile.toNat) sh.bytes) } : CoreSt).accessed
          [(ea, sh.bytes)] 1 1 2 true true

/-- fmtsel (R172): Chooses the loop counter that selects the format row. -/
def execFmtsel (k : BitVec 2) (s : State) : Host.Outcome State Fault Refusal :=
  issueCore (.fmtsel k) s fun c _ => .ok { c with fmtlc := k }

/-! ### Format rows (R54, R70, R172, R173) -/

/-- The selected row's number (R172). -/
def CoreSt.rowIndex (c : CoreSt) : Nat := (c.fmtbase.toNat + (c.c.loopCtr c.fmtlc.toNat).toNat) % 64

/-- A format-table row. -/
structure FmtRow where
  a : Nat
  b : Nat
  mode : Nat
  acc : Nat
  out : Nat
  rm : Nat
  sat : Bool
  geom : Nat
  deriving DecidableEq, Repr, Inhabited

def fmtRowOf (w : Nat) : FmtRow :=
  { a := bitsOf w 0 6, b := bitsOf w 8 6, mode := bitsOf w 16 2, acc := bitsOf w 18 2, out := bitsOf w 24 6,
    rm := bitsOf w 32 3, sat := bitsOf w 35 1 == 1, geom := bitsOf w 40 3 }

/-- Bits of a row that R70 reserves. -/
def fmtRowReserved (w : Nat) : Bool :=
  bitsOf w 6 2 != 0 || bitsOf w 14 2 != 0 || bitsOf w 20 4 != 0 || bitsOf w 30 2 != 0 || bitsOf w 36 4 != 0 ||
    bitsOf w 43 21 != 0

/-- A nonzero scale mode scales this operand (0 A, 1 B). -/
def FmtRow.scaled (r : FmtRow) (x : Nat) : Bool := bitsOf r.mode x 1 == 1

/-- The checks of R173. -/
def fmtRowOk (w : Nat) : Bool :=
  let r := fmtRowOf w
  !fmtRowReserved w && fmtValid r.a && fmtValid r.b && fmtValid r.out && rmValid r.rm && r.out != 0x06 &&
    ((fmtInt8 r.a && fmtInt8 r.b && r.acc == 1 && r.mode == 0) ||
      (fmtFloatBench r.a && fmtFloatBench r.b && r.acc == 0)) &&
    (r.mode == 0 || (r.geom ≤ 5 && (!r.scaled 0 || fmtWidth r.a ≤ 8) && (!r.scaled 1 || fmtWidth r.b ≤ 8)))

def CoreSt.fmtWord (c : CoreSt) : Nat := (look 0 c.fmtRows c.rowIndex).toNat

/-! ### Matrix commands (R55, R56, R174 to R178) -/

/-- K per chunk by element width (R18). -/
def stepOf (w : Nat) : Nat := if w = 16 then 8 else if w = 8 then 16 else 32

/-- A matrix command whose checks have passed. -/
structure Mat where
  row : FmtRow
  ta : BitVec 3
  tb : BitVec 3
  /-- mmat: B holds K rows of N elements. -/
  trans : Bool
  sa : Shape
  sb : Shape
  deriving DecidableEq, Repr, Inhabited

def Mat.m (x : Mat) : Nat := x.sa.rows
def Mat.k (x : Mat) : Nat := x.sa.cols
def Mat.n (x : Mat) : Nat := if x.trans then x.sb.cols else x.sb.rows
def Mat.kc (x : Mat) : Nat := min (stepOf (fmtWidth x.row.a)) (stepOf (fmtWidth x.row.b))
def Mat.chunks (x : Mat) : Nat := (x.k + x.kc - 1) / x.kc
def Mat.bk (x : Mat) : Nat := geomBk x.row.geom
def Mat.bj (x : Mat) : Nat := geomBj x.row.geom

/-- The limits of R175 on tile A, then on tile B. -/
def Mat.okA (x : Mat) : Bool :=
  x.sa.fmt == x.row.a && x.sa.legal && x.m ≤ 64 && 1 ≤ x.k && x.k ≤ 16 * x.kc &&
    (!x.row.scaled 0 || (x.k % x.bk == 0 && x.m % x.bj == 0))

def Mat.okB (x : Mat) : Bool :=
  x.sb.fmt == x.row.b && x.sb.legal && 1 ≤ x.n && x.n ≤ 64 && (if x.trans then x.sb.rows else x.sb.cols) == x.k &&
    (!x.row.scaled 1 || (x.k % x.bk == 0 && x.n % x.bj == 0))

/-- A matrix command by R173 and R175, or FINFO of TILE_SHAPE. R375 names one tile and R175 gives no order: a bad row is
reported alone, tile A before tile B, and B where only the two K differ (DEDUCED, unsafe: log entry 18). -/
def CoreSt.matrix (c : CoreSt) (ta tb : BitVec 3) (trans scaled : Bool) : Mat ⊕ W64 :=
  let w := c.fmtWord
  let x : Mat := { row := fmtRowOf w, ta := ta, tb := tb, trans := trans, sa := c.shape ta, sb := c.shape tb }
  if !fmtRowOk w || (x.row.mode != 0) != scaled then .inr (shapeInfo c.rowIndex true none)
  else if !x.okA then .inr (shapeInfo c.rowIndex false (some ta))
  else if !x.okB then .inr (shapeInfo c.rowIndex false (some tb))
  else .inl x

/-- Scales of one K block: of A, of B. -/
def Mat.scalesA (x : Mat) : Nat := if x.row.scaled 0 then x.m / x.bj else 0
def Mat.scalesB (x : Mat) : Nat := if x.row.scaled 1 then x.n / x.bj else 0

/-- Scales taken in the ac of chunk `j`: those of the K blocks that begin in it (R176). -/
def Mat.need (x : Mat) (j : Nat) : Nat :=
  if x.row.mode = 0 then 0
  else ((List.range (x.k / x.bk)).filter fun kb => kb * x.bk / x.kc == j).length * (x.scalesA + x.scalesB)

/-- The scale code of element (r, k) of an operand, `sc` being the scales of the K blocks of its chunk. -/
def Mat.scaleOf (x : Mat) (sc : List Nat) (b : Bool) (r k : Nat) : Nat :=
  let kb := k / x.bk - k / x.kc * x.kc / x.bk
  sc.getD (kb * (x.scalesA + x.scalesB) + (if b then x.scalesA else 0) + r / x.bj) 0

/-- A value under its scale (R51). -/
def scaleBy (x : Num) (sc : Nat) : Num := if sc = 0xFF then .qnan else x.scale ((sc : Int) - 127)

/-- Row `r` of operand A (`b` false) or column `r` of operand B over the chunk's K range. -/
def CoreSt.operand (c : CoreSt) (x : Mat) (sc : List Nat) (b : Bool) (ks : List Nat) (r : Nat) : List Num :=
  ks.map fun k =>
    let v := if b then decodeNum 0 x.row.b (if x.trans then c.tileCode x.tb x.sb k r else c.tileCode x.tb x.sb r k)
             else decodeNum 0 x.row.a (c.tileCode x.ta x.sa r k)
    if x.row.scaled b.toNat then scaleBy v (x.scaleOf sc b r k) else v

/-- The exponent of the largest nonzero product, if any. -/
def topExp (ps : List Num) : Option Int :=
  ps.foldl (fun o p => match p with
    | .fin _ m e => if m = 0 then o else match o with
      | none => some (log2Mag m e)
      | some a => some (max a (log2Mag m e))
    | _ => o) none

/-- A product as a whole number of units 2^u, its magnitude truncated. -/
def inUnits (u : Int) (p : Num) : Int :=
  match p with
  | .fin n m e =>
    let q : Nat := if u ≤ e then m * 2 ^ (e - u).toNat else m / 2 ^ (u - e).toNat
    if n then -(q : Int) else q
  | _ => 0

/-- One chunk added into an fp32 element (R55). -/
def chunkSum (acc : Nat) (ps : List Num) : Nat :=
  let a := decodeNum 0 0 acc
  let up := ps.contains (.inf false)
  let down := ps.contains (.inf true)
  if ps.any Num.isNan || (up && down) || a.isNan || (a == .inf false && down) || (a == .inf true && up) then 0x7FC00000
  else if up || a == .inf false then 0x7F800000
  else if down || a == .inf true then 0xFF800000
  else match topExp ps with
    | none => acc
    | some e =>
      let sum := (ps.map (inUnits (e - 40))).foldl (· + ·) 0
      if sum = 0 then acc else roundArith 0 0 0 (addNum 0 a (.ofInt sum (e - 40)))

/-- An exact integer value. -/
def Num.toInt : Num → Int := inUnits 0

/-- One chunk added into an element of the row's accumulate type (R55, R56). -/
def accChunk (ints : Bool) (acc : Nat) (a b : List Num) : Nat :=
  if ints then wrap 32 (acc + ((a.zip b).map fun p => p.1.toInt * p.2.toInt).foldl (· + ·) 0)
  else chunkSum acc ((a.zip b).map fun p => mulNum p.1 p.2)

/-- Chunk `j` of a command, with the scales of its K blocks. -/
def CoreSt.chunk (c : CoreSt) (x : Mat) (d : BitVec 3) (j : Nat) (sc : List Nat) : CoreSt :=
  let ks := (List.range (min x.kc (x.k - j * x.kc))).map (j * x.kc + ·)
  let as := (List.range x.m).map (c.operand x sc false ks)
  let bs := (List.range x.n).map (c.operand x sc true ks)
  let base := 16384 * d.toNat
  { c with acc := ((List.range x.m).zip as).foldl (fun m p =>
      m.setBytes (base + 256 * p.1) (((List.range x.n).zip bs).flatMap fun q =>
        leBytes 4 (accChunk (x.row.acc == 1) (m.num (base + 256 * p.1 + 4 * q.1) 4) p.2 q.2))) c.acc }

/-- Takes up to `n` scales from sq. -/
def CoreSt.takeScales (c : CoreSt) : Nat → List Nat → CoreSt × List Nat
  | 0, l => (c, l)
  | n + 1, l =>
    match c.sq.ready with
    | [] => (c, l)
    | v :: _ => ({ c with sq := c.sq.drop1 256 } : CoreSt).takeScales n (l ++ [v.toNat])

/-- Chunks `j` onward, `n` of them left; `sc` are the scales in force, `tk` those already taken for chunk `j`. Answers
the core and, where a chunk is held, its number and the scales taken for it (R178). -/
def CoreSt.runChunks (c : CoreSt) (x : Mat) (d : BitVec 3) : Nat → Nat → List Nat → List Nat →
    CoreSt × Option (Nat × List Nat)
  | 0, _, _, _ => (c, none)
  | n + 1, j, sc, tk =>
    let (c, got) := c.takeScales (x.need j - tk.length) tk
    if got.length < x.need j then (c, some (j, got))
    else
      let sc := if x.need j = 0 then sc else got
      (c.chunk x d j sc).runChunks x d n (j + 1) sc []

/-! ### The bench lease (R182 to R185) -/

/-- LEASECNT (R97). -/
def CoreSt.leaseCnt (c : CoreSt) : Nat := (if c.held then 128 else 0) + c.left.toNat

/-- LEASECNT as a stop saves it: while a resume waits for its lease, as it stood (R184). -/
def CoreSt.leaseSaved (c : CoreSt) : Nat := match c.regain with | some b => b.toNat | none => c.leaseCnt

/-- A core that goes on after a stop which took its bench asks for it again: it held a lease, or a command of it is held at a
chunk (R178, R184). -/
def CoreSt.askAgain (c : CoreSt) (time : Nat) : CoreSt :=
  if !c.held && (c.regain.isSome || c.theJob.held) then
    { c with regain := some (BitVec.ofNat 8 c.leaseSaved), leaseReq := some (BitVec.ofNat 7 c.leaseSaved), leaseAt := time }
  else c

/-- Releases a core's lease (R184). -/
def State.releaseLease (s : State) (k : Nat) : State :=
  if (s.core k).held then
    let s := s.modCore k fun c => { c with held := false, left := 0 }
    s.setBench (benchOf k) { s.bench (benchOf k) with holder := 0 }
  else s

/-- A core that has stopped gives up its lease, or its request for one: LEASECNT is kept as it stood, for the save (R184). -/
def State.parkLease (s : State) (k : Nat) : State :=
  let c := s.core k
  let s := if c.leaseReq.isSome then s.setCore k { c with leaseReq := none } else s
  if c.held then (s.modCore k fun d => { d with regain := some (BitVec.ofNat 8 c.leaseCnt) }).releaseLease k else s

/-- A matrix command counts against the lease, which ends with its last count (R184).
DEDUCED, unsafe: log entry 17. -/
def State.useLease (s : State) (k : Nat) : State :=
  let s := s.modCore k fun c => { c with left := c.left - 1 }
  if (s.core k).left = 0 then s.releaseLease k else s

/-- Queues that hold an entry, as the bits of FINFO (R375). -/
def CoreSt.leftover (c : CoreSt) : Nat :=
  let bit := fun (n : Nat) (b : Bool) => if b then 2 ^ n else 0
  (List.range 4).foldl (fun a q => a + bit q (c.dqueue q).items.isEmpty.not) 0 +
    bit 4 (c.oqueue 0).items.isEmpty.not + bit 5 (c.oqueue 1).items.isEmpty.not + bit 6 c.sq.items.isEmpty.not +
    bit 7 c.bq.items.isEmpty.not + (List.range 6).foldl (fun a f => a + bit (8 + f) (c.tokens f).items.isEmpty.not) 0

/-- The other core of a bench (R15). -/
def benchPartner (k : Nat) : Nat := if k % 2 = 0 then k + 1 else k - 1

/-- The bench still runs a command of the core's partner that used the last count of its lease, held at a chunk: no other
command starts before that command's last chunk (R179, R184). -/
def State.benchBusy (s : State) (k : Nat) : Bool :=
  let c := s.core (benchPartner k)
  c.theJob.held && !c.held && c.regain.isNone && !c.debug && (c.phase == .running || c.phase == .draining)

/-- Power throttling withholds a chunk's start on the core in this ac (R340). -/
def State.throttled (s : State) (k : Nat) : Bool := s.limits k 1

/-- Runs the chunks of a matrix command. A lease that a resume took again for a command whose count was the last ends with
that command's last chunk (R184; DEDUCED, unsafe: log entry 17). -/
def runMatrix (s : State) (x : Mat) (d : BitVec 3) : Res State :=
  let c := s.core s.who
  let going := c.theJob.held
  let j0 := if going then bitsOf c.heldRec.toNat 48 8 else 0
  let s := if going then s else s.useLease s.who
  let c := s.core s.who
  let (c, stop) := ({ c with heldRec := 0, heldScales := [] } : CoreSt).runChunks x d (x.chunks - j0) j0 []
    (if going then c.heldScales.map BitVec.toNat else [])
  let done := (match stop with | some (j, _) => j | none => x.chunks) - j0
  let mark := fun (h : Bool) (c : CoreSt) =>
    { c with job := c.job.map fun b => { b with held := h }
             traceBits := if 0 < done then c.traceBits ||| 1 else c.traceBits }
  match stop with
  | none =>
    let s := (s.setCore s.who (mark false c)).count s.who 3 done none
    .ok (if going ∧ c.left = 0 then s.releaseLease s.who else s)
  | some (j, got) =>
    let c := { mark true c with
      heldRec := BitVec.ofNat 64 (2 ^ 48 * j + 2 ^ 40 * got.length), heldScales := got.map (BitVec.ofNat 8) }
    let c := if 0 < done then c.modStrm .C fun t => { t with wait := none } else c
    let s := (s.setCore s.who c).count s.who 3 done none
    if c.l.arrived then .report s 0x18 (BitVec.ofNat 64 (2 ^ 16 + c.leftover)) else .wait (.dog 6 0) s

/-- Issue of mma, mmas or mmat: the checks of R173 and R175, then the lease, then the chunks.
DEDUCED, unsafe: log entry 18. -/
def issueMatrix (i : Instr) (s : State) (d ta tb : BitVec 3) (trans scaled : Bool) : Host.Outcome State Fault Refusal :=
  issue i s fun s =>
    let c := s.core s.who
    match c.matrix ta tb trans scaled with
    | .inr f => .fault 0x1B f
    | .inl x =>
      if !c.held && !c.theJob.held then .fault 0x1A (BitVec.ofNat 64 c.leaseCnt)
      else if s.benchBusy s.who then .wait .lease s
      else if s.throttled s.who && !c.theJob.held then .wait .power s
      else runMatrix s x d

/-- mma (R174): Accumulates A times B-transposed into an accumulator on the leased bench. -/
def execMma (acc ta tb : BitVec 3) (s : State) : Host.Outcome State Fault Refusal :=
  issueMatrix (.mma acc ta tb) s acc ta tb false false

/-- mmas (R176): Accumulates a scaled product, popping e8m0 scales from sq. -/
def execMmas (acc ta tb : BitVec 3) (s : State) : Host.Outcome State Fault Refusal :=
  issueMatrix (.mmas acc ta tb) s acc ta tb false true

/-- mmat (R174): Accumulates A times B into an accumulator. -/
def execMmat (acc ta tb : BitVec 3) (s : State) : Host.Outcome State Fault Refusal :=
  issueMatrix (.mmat acc ta tb) s acc ta tb true false

/-- lease (R182): a held lease is released, the bench is requested, and the stream goes on when it is granted. -/
def execLease (n : BitVec 7) (s : State) : Host.Outcome State Fault Refusal :=
  issue (.lease n) s fun s =>
    let c := s.core s.who
    if c.leaseGot then .ok (s.setCore s.who { c with leaseGot := false })
    else if c.leaseReq.isSome then .wait .lease s
    else .wait .lease ((s.releaseLease s.who).modCore s.who fun c =>
      { c with leaseReq := some n, leaseAt := s.time.toNat })

/-- unlease (R182): Releases the bench lease if held. -/
def execUnlease (s : State) : Host.Outcome State Fault Refusal :=
  issue .unlease s fun s => .ok (s.releaseLease s.who)

/-- The two cores of a bench. -/
def benchCores (b : Nat) : Nat × Nat := (32 * (b / 16) + 2 * (b % 16), 32 * (b / 16) + 2 * (b % 16) + 1)

/-- The core that a free bench is granted to: the one that is not the last holder where both ask (R183). -/
def State.benchWinner (s : State) (b : Nat) : Option Nat :=
  let (e, o) := benchCores b
  match (s.core e).leaseReq.isSome, (s.core o).leaseReq.isSome with
  | true, true => some (if (s.bench b).last = 0 then o else e)
  | true, false => some e
  | false, true => some o
  | false, false => none

/-- The bench is granted to core `k` (R183). -/
def State.grantBench (s : State) (bench k : Nat) : State :=
  let odd := k % 2 == 1
  (s.setBench bench { holder := if odd then 2 else 1, last := if odd then 1 else 0 }).modCore k fun c =>
    { c with
      held := true, left := c.leaseReq.getD 0, leaseReq := none, regain := none
      leaseGot := c.regain.isNone || c.leaseGot }

/-- BENCH_LEASE_GRANT (R183): A free bench is granted to a requesting core. Requests of the present ac are decided at its
end, with the ac's tick; an earlier one has been waiting for the last holder, whose request of this ac would give way to
it. -/
def execBenchLeaseGrant (bench : Nat) (s : State) : Host.Outcome State Fault Refusal :=
  match (if (s.bench bench).holder = 0 then s.benchWinner bench else none) with
  | none => .refused (.notEnabled "BENCH_LEASE_GRANT")
  | some k =>
    if s.time.toNat ≤ (s.core k).leaseAt then .refused (.notEnabled "BENCH_LEASE_GRANT") else .next (s.grantBench bench k)

/-- A free bench is granted as the ac ends (R183). -/
def State.leaseTick (s : State) (bench : Nat) : State :=
  match (if (s.bench bench).holder = 0 then s.benchWinner bench else none) with
  | none => s
  | some k => s.grantBench bench k

/-- Scales arrive for a held chunk: they are taken as the mmas goes on (R178). -/
def execHeldChunkScaleArrival (core : Nat) (s : State) : Host.Outcome State Fault Refusal :=
  let c := s.core core
  if c.theJob.held ∧ c.canIssue .C ∧ c.c.wait = some (.dog 6 0) ∧ c.sq.ready ≠ [] then
    match decode (BitVec.ofNat 32 (s.lineWord core .C c.c.pc.line.toNat c.c.pc.slot.toNat)) with
    | .instr (.mmas acc ta tb) => execMmas acc ta tb { s with who := core, strm := .C }
    | _ => .refused (.notEnabled "HELD_CHUNK_SCALE_ARRIVAL")
  else .refused (.notEnabled "HELD_CHUNK_SCALE_ARRIVAL")

/-! ### Accumulator instructions (R180, R181) -/

/-- azero (R180): Zeroes an accumulator tile. -/
def execAzero (acc : BitVec 3) (s : State) : Host.Outcome State Fault Refusal :=
  issueCore (.azero acc) s fun c _ => .ok { c with acc := c.acc.clear (16384 * acc.toNat) 16384 }

/-- ald (R180): Loads an accumulator tile unconverted from the scratchpad. -/
def execAld (acc : BitVec 3) (ra : BitVec 5) (imm : BitVec 14) (s : State) : Host.Outcome State Fault Refusal :=
  issueCore (.ald acc ra imm) s fun c x =>
    let ea := eaTile (c.strm x) ra imm
    match scratchFault ea 16384 64 with
    | some e => .fault e (eaInfo ea)
    | none =>
      ({ c with acc := c.acc.setBytes (16384 * acc.toNat) (c.scratch.bytes ea 16384) } : CoreSt).accessed
        [(ea, 16384)] 1 1 2 false false

/-- Codes of `w` bits in storage order as bytes (R34, R168). -/
def packCodes (w : Nat) : List Nat → List Byte
  | [] => []
  | a :: r =>
    if w = 4 then
      match r with
      | [] => [BitVec.ofNat 8 (a % 16)]
      | b :: r => BitVec.ofNat 8 (a % 16 + 16 * (b % 16)) :: packCodes w r
    else leBytes (w / 8) a ++ packCodes w r

/-- Elements, as position and code, in rising order of position. -/
def sortElems (es : List (Nat × Nat)) : List (Nat × Nat) :=
  if (es.zip es.tail).all fun p => p.1.1 < p.2.1 then es
  else es.foldr (fun e l => l.takeWhile (fun q => q.1 < e.1) ++ e :: l.dropWhile fun q => q.1 < e.1) []

/-- A trailer of R58. -/
def trailerBytes (amax sat fmt geom rm scales count : Nat) (crc : W32) : List Byte :=
  leBytes 4 amax ++ leBytes 4 (min sat (2 ^ 32 - 1)) ++ leBytes 1 fmt ++ leBytes 1 (geom + 8 * rm) ++ leBytes 2 0 ++
    leBytes 4 scales ++ leBytes 4 crc.toNat ++ leBytes 4 count ++ leBytes 8 0

/-- The bytes ast stores: the converted elements, and the trailer image of an 8-bit or 4-bit format. -/
def CoreSt.astBytes (c : CoreSt) (acc : BitVec 3) (r : FmtRow) : List Byte :=
  let xs := (List.range 4096).map fun e =>
    decodeNum 0 (if r.acc = 1 then 0x0A else 0) (c.acc.num (16384 * acc.toNat + 4 * e) 4)
  let cs := (List.range 4096).zip xs |>.map fun p =>
    convert c.c.rqf.toNat p.2 r.out r.rm r.sat (if r.rm = 4 then drawRb c .C p.1 else 0)
  let img := packCodes (fmtWidth r.out) (cs.map Conv.code)
  if fmtWidth r.out ≤ 8 then
    img ++ trailerBytes (amaxCode (amaxNum xs)) (cs.filter Conv.sat).length r.out 0 r.rm 0 4096 (crc32c img)
  else img

/-- ast (R181): Converts an accumulator by the selected row and stores it, with a trailer for narrow outputs. -/
def execAst (acc : BitVec 3) (ra : BitVec 5) (imm : BitVec 14) (s : State) : Host.Outcome State Fault Refusal :=
  issueCore (.ast acc ra imm) s fun c x =>
    let w := c.fmtWord
    let r := fmtRowOf w
    let ea := eaTile (c.strm x) ra imm
    let n := 512 * fmtWidth r.out + (if fmtWidth r.out ≤ 8 then 32 else 0)
    if !fmtRowOk w then .fault 0x1B (shapeInfo c.rowIndex true none)
    else if r.out = 0x0B ∧ 24 < c.c.rqf.toNat then .fault 0x23 (c.c.rqf.zeroExtend 64)
    else match scratchFault ea n 64 with
      | some e => .fault e (eaInfo ea)
      | none =>
        (({ c with scratch := c.scratch.setBytes ea (c.astBytes acc r) } : CoreSt).drawn (r.rm == 4)).accessed
          [(ea, n)] 1 1 2 true true

/-- atr (R180): Transposes one accumulator into another. -/
def execAtr (ad asrc : BitVec 3) (s : State) : Host.Outcome State Fault Refusal :=
  issueCore (.atr ad asrc) s fun c _ =>
    .ok { c with acc := c.acc.setBytes (16384 * ad.toNat) ((List.range 4096).flatMap fun e =>
      c.acc.bytes (16384 * asrc.toNat + 256 * (e % 64) + 4 * (e / 64)) 4) }

end Sys2Proof.Machine
end

