-- ==== Sys2Proof/Machine/Queues.lean ====
section
/-! DEFINITION. Data queues, scale and branch queues, token FIFOs, markers and the watchdog (R266 to R277). -/
namespace Sys2Proof.Machine

/-! ### Queues of a core -/

def CoreSt.setDq (c : CoreSt) (q : Nat) (v : Queue (List Byte)) : CoreSt := { c with dq := set c.dq q v }
def CoreSt.setOq (c : CoreSt) (q : Nat) (v : Queue (List Byte)) : CoreSt := { c with oq := set c.oq q v }

/-- Queue that a command feeds: 0 to 3 for dq0 to dq3, 4 for sq (R283). -/
def Cmd.feeds (m : Cmd) : Option Nat :=
  match m.instr with
  | .cpy _ _ _ dir dq _ _ _ => if dir = 2 then some dq.toNat else if dir = 3 then some 4 else none
  | .gth _ _ _ dqdir dq => if dqdir = 1 then some dq.toNat else none
  | _ => none

/-- Class of a command: 0 dray, 1 coach, 2 near-memory, 3 decode (R266). -/
def Cmd.cls (m : Cmd) : Nat :=
  match m.instr with
  | .coll .. => 1
  | .nmc .. => 2
  | .dec .. => 3
  | _ => 0

/-- Commands of a class that a stream has issued and that have not been accepted. -/
def StreamSt.queueOf (t : StreamSt) (cls : Nat) : List Cmd :=
  match cls with
  | 0 => t.dray
  | 1 => t.coach
  | 2 => t.near
  | _ => t.decode

def StreamSt.setQueue (t : StreamSt) (cls : Nat) (l : List Cmd) : StreamSt :=
  match cls with
  | 0 => { t with dray := l }
  | 1 => { t with coach := l }
  | 2 => { t with near := l }
  | _ => { t with decode := l }

def StreamSt.queued (t : StreamSt) : List Cmd := t.dray ++ t.coach ++ t.near ++ t.decode

/-- Every incomplete engine command of a stream. -/
def CoreSt.incomplete (c : CoreSt) (x : Strm) : List Cmd := (c.strm x).queued ++ c.cmds.filter fun m => m.strm = x

/-- The command has entries still to push into the queue: it is not complete but for R230. -/
def Cmd.stillFeeds (m : Cmd) (q : Nat) : Bool := m.feeds == some q && m.stage != .drain

/-- A transfer of a stream has entries of the queue still to push (R268). -/
def CoreSt.feeding (c : CoreSt) (x : Strm) (q : Nat) : Bool := (c.incomplete x).any fun m => m.stillFeeds q

/-! ### qpush, qpop, qstat, bqpush (R271 to R273) -/

/-- qpush (R272): Pushes 256 scratchpad bytes into a data queue from L. No watch matches it (R383). -/
def execQpushDq (n : BitVec 2) (ra : BitVec 5) (s : State) : Host.Outcome State Fault Refusal :=
  issueCore (.qpushDq n ra) s fun c x =>
    let off := ((c.strm x).val ra).toNat
    match scratchFault off 256 64 with
    | some e => .fault e (eaInfo off)
    | none =>
      let q := c.dqueue n.toNat
      if c.feeding x n.toNat || !q.hasRoom 16 1 then .wait (.dog 1 n.toNat) c
      else .ok ((c.setDq n.toNat (q.push (c.scratch.bytes off 256))).touch [(off, 256)] 0 0 0 false)

/-- qpush (R272): Pushes a vector register into an output queue from C. -/
def execQpushOq (n : BitVec 1) (vs : BitVec 6) (s : State) : Host.Outcome State Fault Refusal :=
  issueCore (.qpushOq n vs) s fun c _ =>
    let q := c.oqueue n.toNat
    if !q.hasRoom 16 1 then .wait (.dog 3 (4 + n.toNat)) c
    else .ok (c.setOq n.toNat (q.push (c.acc.bytes (c.rowBase vs) 256)))

/-- qpop (R272): Pops a data-queue entry into a vector register in C. -/
def execQpopDq (n : BitVec 2) (vd : BitVec 6) (s : State) : Host.Outcome State Fault Refusal :=
  issueCore (.qpopDq n vd) s fun c _ =>
    match (c.dqueue n.toNat).ready with
    | [] => .wait (.dog 2 n.toNat) c
    | e :: _ => .ok { c.popDq n.toNat with acc := c.acc.setBytes (c.rowBase vd) e }

/-- qpop (R272): Pops an output-queue entry into the scratchpad in S. No watch matches it (R383). -/
def execQpopOq (n : BitVec 1) (ra : BitVec 5) (s : State) : Host.Outcome State Fault Refusal :=
  issueCore (.qpopOq n ra) s fun c x =>
    let off := ((c.strm x).val ra).toNat
    match scratchFault off 256 64 with
    | some e => .fault e (eaInfo off)
    | none =>
      let q := c.oqueue n.toNat
      match q.ready with
      | [] => .wait (.dog 4 (4 + n.toNat)) c
      | e :: _ =>
        .ok (({ c.setOq n.toNat (q.drop1 16) with scratch := c.scratch.setBytes off e } : CoreSt).touch [(off, 256)] 2 2 1
          true)

/-- Head, tail and occupancy of a queue as they stood at the start of the ac (R267, R273). -/
def queueWord {α : Type} (q : Queue α) (cap : Nat) : W64 :=
  let head := (q.head + 2 * cap - q.popped % (2 * cap)) % (2 * cap)
  let n := q.items.length + q.popped - q.pushed
  BitVec.ofNat 64 (head + 2 ^ 8 * ((head + n) % (2 * cap)) + 2 ^ 16 * n)

/-- qstat (R273): Returns head, tail and occupancy of a queue. -/
def execQstat (q : BitVec 3) (rd : BitVec 5) (s : State) : Host.Outcome State Fault Refusal :=
  issueCore (.qstat q rd) s fun c x =>
    .ok (c.modStrm x fun t => t.setReg rd.toNat
      (queueWord (if q.toNat < 4 then c.dqueue q.toNat else c.oqueue (q.toNat - 4)) 16))

/-- bqpush (R272): Pushes one branch-outcome bit into bq. -/
def execBqpush (ra : BitVec 5) (s : State) : Host.Outcome State Fault Refusal :=
  issueCore (.bqpush ra) s fun c x =>
    if !c.bq.hasRoom 64 1 then .wait (.dog 7 0) c
    else .ok { c with bq := c.bq.push (((c.strm x).val ra).getLsbD 0) }

/-! ### Tokens and scales (R274) -/

/-- tksend (R274): Pushes a 16-bit token into a token FIFO. -/
def execTksend (fifo : BitVec 3) (ra : BitVec 5) (s : State) : Host.Outcome State Fault Refusal :=
  issueCore (.tksend fifo ra) s fun c x =>
    let q := c.tokens fifo.toNat
    if !q.hasRoom 32 1 then .wait (.dog 9 fifo.toNat) c
    else .ok { c with tk := set c.tk fifo.toNat (q.push (((c.strm x).val ra).truncate 16)) }

/-- tkrecv (R274): Pops a token from a token FIFO. -/
def execTkrecv (fifo : BitVec 3) (rd : BitVec 5) (s : State) : Host.Outcome State Fault Refusal :=
  issueCore (.tkrecv fifo rd) s fun c x =>
    let q := c.tokens fifo.toNat
    match q.ready with
    | [] => .wait (.dog 10 fifo.toNat) c
    | v :: _ =>
      .ok (({ c with tk := set c.tk fifo.toNat (q.drop1 32) } : CoreSt).modStrm x fun t => t.setReg rd.toNat (v.zeroExtend 64))

/-- sqpush (R274): Pushes 1 to 8 scale bytes into sq in one ac. -/
def execSqpush (ra : BitVec 5) (n : BitVec 3) (s : State) : Host.Outcome State Fault Refusal :=
  issueCore (.sqpush ra n) s fun c x =>
    if c.feeding x 4 || !c.sq.hasRoom 256 (n.toNat + 1) then .wait (.dog 5 0) c
    else
      .ok { c with sq := (leBytes (n.toNat + 1) ((c.strm x).val ra).toNat).foldl Queue.push c.sq }

/-! ### Markers (R275 to R277) -/

/-- Markers of a stream that have not reached the head of their queue: a command entered before is incomplete. -/
def CoreSt.liveMarks (c : CoreSt) (x : Strm) : List (Nat × Nat) :=
  (c.strm x).marks.filter fun k => (c.incomplete x).any fun m => m.cls == k.1 && m.seq < k.2

/-- Classes of a marker mask. -/
def markClasses (mask : BitVec 4) : List Nat := (List.range 4).filter mask.getLsbD

/-- mark (R276): a marker that would be the sixteenth of a queue waits as a busy wait. -/
def execMark (mask : BitVec 4) (s : State) : Host.Outcome State Fault Refusal :=
  issueCore (.mark mask) s fun c x =>
    let live := c.liveMarks x
    match (markClasses mask).find? fun k => 15 ≤ (live.filter fun m => m.1 == k).length with
    | some k => .wait (.dog 13 k) c
    | none =>
      let c := c.modStrm x fun t => { t with marks := live ++ (markClasses mask).map fun k => (k, t.seq) }
      .ok (c.modStrm x fun t => { t with marks := c.liveMarks x })

/-- joinm (R277): Waits until every marker of the stream has reached its queue head. -/
def execJoinm (s : State) : Host.Outcome State Fault Refusal :=
  issueCore .joinm s fun c x => if c.liveMarks x = [] then .ok c else .wait (.dog 12 0) c

/-! ### A new ac (R267) -/

/-- Every queue's pointers have moved. -/
def CoreSt.settleQueues (c : CoreSt) : CoreSt :=
  { c with
    dq := c.dq.map fun e => (e.1, e.2.settled), oq := c.oq.map fun e => (e.1, e.2.settled), sq := c.sq.settled
    bq := c.bq.settled, tk := c.tk.map fun e => (e.1, e.2.settled) }

/-! ### The watchdog (R269, R270) -/

/-- The wait code and number of a stream whose watchdog count has reached the limit of its region. -/
def State.dogLimit (s : State) (k : Nat) (x : Strm) : Option Nat :=
  let c := s.core k
  let w := s.watchdog c.theJob.region
  match (c.strm x).wait with
  | some (.dog code num) => if c.canIssue x ∧ w ≠ 0 ∧ 1024 * w ≤ (c.strm x).dog then some (code + 2 ^ 8 * num) else none
  | _ => none

/-- A stream's watchdog count reaches its limit. DEDUCED, unsafe: log entry 49. -/
def execQueueDeadlock (core : Nat) (strm : Strm) (s : State) : Host.Outcome State Fault Refusal :=
  if (s.dogLimit core strm).isNone then .refused (.notEnabled "QUEUE_DEADLOCK")
  else .next (allStrms.foldl (fun t x => match s.dogLimit core x with
    | some v => t.raise core (some x) 0x19 (BitVec.ofNat 64 v)
    | none => t) s)

end Sys2Proof.Machine
end

