-- ==== Sys2Proof/Machine/Flags.lean ====
section
/-! DEFINITION. The status word, the control registers, getc and setc (R94 to R101). -/
namespace Sys2Proof.Machine

/-- STATUS as a stream reads it (R95). -/
def CoreSt.status (c : CoreSt) (x : Strm) : W64 :=
  BitVec.ofNat 64 ((if c.hm then 2 ^ 8 * c.code.toNat + 2 ^ 6 * c.fstream.toNat + 2 ^ 5 else 0) +
    (if x = .C ∧ c.held then 2 ^ 4 else 0) + strmCode x)

/-- CULPTR (R98). -/
def CoreSt.culptr (c : CoreSt) : W64 :=
  BitVec.ofNat 64 (2 ^ 36 * c.culSeq.toNat + 2 ^ 18 * c.culBase.toNat + c.culTop.toNat)

/-- CULTEN (R92). -/
def CoreSt.culten (c : CoreSt) : W64 := BitVec.ofNat 64 (2 ^ 32 * c.culChunks.toNat + c.culHandle.toNat)

/-- TIMER of a core at a time of the package time base. DESIGN CHOICE, safe: log entry 9. -/
def CoreSt.timerAt (c : CoreSt) (time : W64) : W64 := if c.debug then c.timer else c.timer + time

/-- The value of a control register (R94). -/
def CoreSt.creg (c : CoreSt) (k : Nat) (x : Strm) (time : W64) (n : Nat) : W64 :=
  let t := c.strm x
  match n with
  | 0x000 => c.status x
  | 0x001 => if t.evflag then 1 else 0
  | 0x002 => t.srctr
  | 0x003 => t.buftag.zeroExtend 64
  | 0x004 => (t.loopCtr 0).zeroExtend 64
  | 0x005 => (t.loopCtr 1).zeroExtend 64
  | 0x006 => (t.loopCtr 2).zeroExtend 64
  | 0x007 => (t.loopCtr 3).zeroExtend 64
  | 0x008 => t.rmode.zeroExtend 64
  | 0x009 => t.rqf.zeroExtend 64
  | 0x00A => c.srseed
  | 0x010 => c.vwin.zeroExtend 64
  | 0x011 => c.fmtbase.zeroExtend 64
  | 0x012 => BitVec.ofNat 64 c.leaseCnt
  | 0x013 => c.culptr
  | 0x014 => c.culhw.zeroExtend 64
  | 0x015 => c.cullw.zeroExtend 64
  | 0x016 => c.culten
  | 0x100 => c.fframe.zeroExtend 64
  | 0x101 => c.flineL
  | 0x102 => c.flineC
  | 0x103 => c.flineS
  | 0x104 => c.finfo
  | 0x105 => c.timerAt time
  | 0x106 => c.timercmp
  | 0x107 => BitVec.ofNat 64 k
  | 0x108 => c.region.zeroExtend 64
  | 0x109 => c.hscratch
  | n => look 0 c.tshape (n - 0x20)

/-- getc (R101). -/
def execGetc (reg : BitVec 5) (creg : BitVec 12) (s : State) : Host.Outcome State Fault Refusal :=
  issue (.getc reg creg) s fun s =>
    let c := s.core s.who
    let v := if cregHandlerRead creg.toNat && !c.hm then 0
      else c.seen creg.toNat s.strm (c.creg s.who s.strm s.time creg.toNat)
    .ok (s.modCur fun t => t.setReg reg.toNat v)

/-- The value breaks a limit that setc checks (R101). -/
def CoreSt.setcBad (c : CoreSt) (n : Nat) (v : W64) : Bool :=
  let w := bitsOf v.toNat 0 18
  (n == 0x008 && 4 < bitsOf v.toNat 0 3) || (n == 0x014 && w ≤ c.cullw.toNat) || (n == 0x015 && c.culhw.toNat ≤ w)

/-- Writes the fields of a control register (R94, R96, R99); TIMER and TIMERCMP see the package time base. -/
def CoreSt.setCreg (c : CoreSt) (x : Strm) (time : W64) (n : Nat) (v : W64) : CoreSt :=
  let onT := fun f => c.modStrm x f
  match n with
  | 0x001 => onT fun t => { t with evflag := v.getLsbD 0 }
  | 0x002 => onT fun t => { t with srctr := v }
  | 0x003 => onT fun t => { t with buftag := v.truncate 8 }
  | 0x004 => onT fun t => t.setLoop 0 (v.truncate 32)
  | 0x005 => onT fun t => t.setLoop 1 (v.truncate 32)
  | 0x006 => onT fun t => t.setLoop 2 (v.truncate 32)
  | 0x007 => onT fun t => t.setLoop 3 (v.truncate 32)
  | 0x008 => onT fun t => { t with rmode := v.truncate 3 }
  | 0x009 => onT fun t => { t with rqf := v.truncate 5 }
  | 0x00A => { c with srseed := v }
  | 0x010 => { c with vwin := v.truncate 3 }
  | 0x011 => { c with fmtbase := v.truncate 6 }
  | 0x014 => { c with culhw := v.truncate 18 }
  | 0x015 => { c with cullw := v.truncate 18 }
  | 0x105 =>
    { c with timer := v - time, timerDue := if c.timercmp ≠ 0 ∧ v = c.timercmp then some v else c.timerDue }
  | 0x106 =>
    { c with timercmp := v, timercmpSet := true
             timerDue := if v ≠ 0 ∧ v.toNat ≤ (c.timerAt time).toNat then some v else c.timerDue }
  | 0x109 => { c with hscratch := v }
  | n => if 0x20 ≤ n ∧ n ≤ 0x27 then { c with tshape := set c.tshape (n - 0x20) (v &&& tshapeMask) } else c

/-- setc (R101). -/
def execSetc (reg : BitVec 5) (creg : BitVec 12) (s : State) : Host.Outcome State Fault Refusal :=
  issue (.setc reg creg) s fun s =>
    let v := s.cur.val reg
    if (s.core s.who).setcBad creg.toNat v then .fault 0x23 v
    else .ok (s.modCore s.who fun c =>
      if cregShared creg.toNat then
        c.writeShared creg.toNat s.strm (c.creg s.who s.strm s.time creg.toNat) fun c => c.setCreg s.strm s.time creg.toNat v
      else c.setCreg s.strm s.time creg.toNat v)

end Sys2Proof.Machine
end

