-- ==== Sys2Proof/Machine/Transmit.lean ====
section
/-! DEFINITION. The transmit side of the optical links: what waits for its flits, frames, replay, and the flits themselves
(R405 to R411). -/
namespace Sys2Proof.Machine

def State.link (s : State) (k : Nat) : Link := look {} s.links k
def State.modLink (s : State) (k : Nat) (f : Link → Link) : State := { s with links := set s.links k (f (s.link k)) }

/-- The link reaches another package of the slice: it is neither a spare nor dark (R410). -/
def State.lit (s : State) (k : Nat) : Bool := k < 1022 && k < 2 * (s.mgmt.packages - 1)

/-- Peer index of a slice rank: the other packages in ascending rank (R410). -/
def State.peerIndex (s : State) (rank : Nat) : Nat := if rank < s.mgmt.sliceRank then rank else rank - 1

/-- Both links to the package of a slice rank are down (R409, R410). -/
def State.peerLost (s : State) (rank : Nat) : Bool :=
  (s.link (2 * s.peerIndex rank)).down && (s.link (2 * s.peerIndex rank + 1)).down

/-- Slice rank of the spill partner that a neighbour-tier location names to a core's job (R211). -/
def State.partner (s : State) (k loc : Nat) : Option Nat :=
  if locTier loc ≠ 4 then none else ((s.core k).theJob.roles.getD (bitsOf loc 24 8) {}).members.head?

/-- The links to the spill partner that a neighbour-tier location names are all down (R211). -/
def State.partnerLost (s : State) (k loc : Nat) : Bool := (s.partner k loc).any s.peerLost

/-- Payload bytes of a flit (R406). -/
def flitPayload : Nat := 224

/-- Bytes leave for a package of the slice, in flits that alternate between its two links from the lower one on; one that is
down carries none of them (R409, R410). -/
def State.transmit (s : State) (rank : Nat) (region : Option Nat) (bytes : Nat) : State :=
  let lo := 2 * s.peerIndex rank
  let up := [lo, lo + 1].filter fun k => !(s.link k).down
  let n := (bytes + flitPayload - 1) / flitPayload
  let mine := fun j => ((List.range n).filter fun i => i % up.length == j).map fun i =>
    { region := region, payload := s.freeCtr + flitPayload * i : TxFlit }
  (List.range up.length).foldl (fun s j => s.modLink (up.getD j lo) fun l => { l with waiting := l.waiting ++ mine j })
    { s with freeCtr := s.freeCtr + flitPayload * n }

/-- A flit as its link carries it: kind, seq, ack, lreq, payload, fec (R406). -/
def flitBytes (kind seq ack : Nat) (lreq : BitVec 16) (payload : Nat) : List Byte :=
  let b := leBytes 2 kind ++ leBytes 2 (seq % 2 ^ 11) ++ leBytes 2 (ack % 2 ^ 11) ++ leBytes 2 lreq.toNat ++
    (List.range flitPayload).map fun i => Config.freeByte (payload + i)
  b ++ leBytes 24 (Config.rsCheck b).toNat

/-- A lane leaves the transmit side or comes back to it from the named flit on (R408). -/
def Link.settleTx (l : Link) : Link :=
  match l.txPending with
  | some (n, drop, at_) =>
    if l.txNext < at_ then l else { l with txOut := if drop then some n else none, txPending := none }
  | none => l

/-- Place of an owner of frame flits (R411). -/
def ownerKey : Option Nat → Nat
  | some r => r + 1
  | none => 0

/-- The owner has a flit of the frame left (R411). -/
def Link.hasRoom (l : Link) (share : Option Nat → Nat) (r : Option Nat) : Bool := look 0 l.frameUse (ownerKey r) < share r

/-- A flit of the frame has gone, to an owner or to none (R411). -/
def Link.frameTick (l : Link) (r : Option (Option Nat)) : Link :=
  if l.frameAt + 1 = 256 then { l with frameAt := 0, frameUse := [] }
  else { l with frameAt := l.frameAt + 1
                frameUse := match r with
                  | some r => set l.frameUse (ownerKey r) (look 0 l.frameUse (ownerKey r) + 1)
                  | none => l.frameUse }

/-- The link carries a flit in this ac, with the acknowledgement of the last flit received intact (R406). -/
def Link.carry (l : Link) (kind : Nat) (f : TxFlit) : Link :=
  { l with sent := flitBytes kind f.idx (l.expect + 2 ^ 11 - 1) f.lreq f.payload }

/-- A flit goes for the first time: it takes the next index and the lane request that waits (R406, R408). -/
def Link.sendNew (l : Link) (now : Nat) (f : TxFlit) : Link :=
  let f := { f with idx := l.txNext, lreq := l.lreq, sentAt := now }
  { l.carry f.kind f with txNext := l.txNext + 1, lreq := 0, replay := l.replay ++ [f] }

/-- ac after which an unacknowledged flit, and every later one, is sent again. DESIGN CHOICE, unsafe: log entry 95. -/
def replayTime : Nat := 1024

/-- The oldest flit has gone unacknowledged for so long that it and every later one goes again (R407). -/
def Link.overdue (l : Link) (now : Nat) : Link :=
  if l.again = [] ∧ l.replay.any (fun f => f.sentAt + replayTime ≤ now) then { l with again := l.replay } else l

/-- One flit time of a link (R407, R411): flits that go again come first, with the lane request that waits (R408), then
the first payload whose owner has a flit of the frame left, else an idle flit, whose payload is the free value `idle`.
Nothing new goes while 256 flits are unacknowledged. -/
def Link.flitTime (l : Link) (now idle : Nat) (share : Option Nat → Nat) : Link :=
  let l := (l.overdue now).settleTx
  match l.again with
  | f :: rest =>
    if l.hasRoom share none then
      let req := if l.lreq = 0 then f.lreq else l.lreq
      { l.carry 3 { f with lreq := req } with
        again := rest, lreq := 0
        replay := l.replay.map fun (e : TxFlit) =>
          if e.idx = f.idx then { e with sentAt := now, lreq := req } else e }.frameTick (some none)
    else l.frameTick none
  | [] =>
    if 256 ≤ l.replay.length then l.frameTick none
    else match l.waiting.find? fun f => l.hasRoom share f.region with
      | some f => ({ l with waiting := l.waiting.erase f }.sendNew now f).frameTick (some f.region)
      | none => (l.sendNew now { kind := 0, payload := idle }).frameTick none

end Sys2Proof.Machine
end

