-- ==== Sys2Proof/Machine/Tensors.lean ====
section
/-! DEFINITION. Tensor space: positions, the block checks of R200, views, storage and its allocation, tiles and
trailers, and the landing of a write (R196 to R221, R239, R240, R348, R355, R433, R434). -/
namespace Sys2Proof.Machine

/-! ### Positions (R197, R221) -/

/-- A place in a tensor: block, bit offset in the block, and for a cache tensor the triple named. -/
structure Place where
  block : Nat
  bit : Nat
  key : Nat := 0
  deriving DecidableEq, Repr, Inhabited

/-- Element offset of coordinates, where every coordinate is below its extent (R197). -/
def Tensor.elemOffset (t : Tensor) (cs : List Nat) : Option Nat :=
  if (List.range 6).all fun i => cs.getD i 0 < (if i < t.dimCount then t.extents.getD i 0 else 1) then
    some ((List.range t.dimCount).foldl (fun a i => a + cs.getD i 0 * t.strides.getD i 0) 0)
  else none

/-- A triple of R367 as one number. -/
def tripleKey (seq layer blk : Nat) : Nat := seq + 2 ^ 20 * layer + 2 ^ 28 * blk

/-- Byte `b` of the block that a triple maps to. DEDUCED, unsafe: log entry 21. -/
def cachePlace (kv : List (Nat × Nat)) (key bit : Nat) : Place ⊕ Denial :=
  match find kv key with
  | some blk => .inl { block := blk, bit := bit, key := key }
  | none => .inr { cause := 0x10 }

/-- A place in an ordinary or cullet tensor; it has no block beyond 2^24 of them (R197; DEDUCED, safe: log entry 74). -/
def blockPlace (block bit : Nat) : Place ⊕ Denial :=
  if block < 2 ^ 24 then .inl { block := block, bit := bit } else .inr { cause := 0x10 }

/-- Place of an element of `w` bits by coordinates; `kv` is the map of a cache tensor's triples. -/
def State.place (s : State) (kv : List (Nat × Nat)) (h : Nat) (cs : List Nat) : Place ⊕ Denial :=
  let t := s.tensor h
  let w := fmtWidth t.info.fmt.toNat
  if handleClass h = 1 then
    let seq := cs.getD 0 0
    let layer := cs.getD 1 0
    let blk := cs.getD 2 0
    let bit := cs.getD 3 0 * w
    if seq < 2 ^ 20 ∧ layer < 2 ^ 8 ∧ blk < 2 ^ 12 ∧ bit + w ≤ 8 * 65536 ∧ cs.getD 4 0 = 0 ∧ cs.getD 5 0 = 0 then
      cachePlace kv (tripleKey seq layer blk) bit
    else .inr { cause := 0x11, detail := 5 }
  else match t.elemOffset cs with
    | none => .inr { cause := 0x11, detail := 5 }
    | some e => blockPlace (e * w / (8 * 65536)) (e * w % (8 * 65536))

/-- Place of a byte of the image. -/
def placeByte (kv : List (Nat × Nat)) (h off : Nat) : Place ⊕ Denial :=
  if handleClass h = 1 then cachePlace kv (off / 65536) (8 * (off % 65536))
  else blockPlace (off / 65536) (8 * (off % 65536))

/-! ### Views (R215, R216, R329) -/

/-- A view record's transform. -/
structure View where
  base : Nat
  kind : Nat
  fmt : Nat
  geom : Nat
  origin : List Nat
  extent : List Nat
  deriving DecidableEq, Repr, Inhabited

def viewOf (r : BitVec 512) : View :=
  let f := rcbField r
  { base := f 0 4, kind := f 4 1, fmt := f 5 1, geom := f 6 1, origin := (List.range 6).map fun i => f (8 + 4 * i) 4,
    extent := (List.range 6).map fun i => f (32 + 4 * i) 4 }

/-- View records of a column (R317). -/
def maxViews : Nat := 16384

/-- The record of a view handle: in the view-table tensor of its home column where there is one, and else as the runtime
wrote it (R317, R329); index 0 is the null handle (R196), and an index past the table names none. -/
def State.viewRec (s : State) (h : Nat) : BitVec 512 :=
  let t := (s.column (handleHome h)).viewTable
  if h % 2 ^ 28 = 0 ∨ maxViews ≤ h % 2 ^ 28 then 0
  else if t = 0 then look 0 s.views h else BitVec.ofNat 512 (s.imageNum t (64 * (h % 2 ^ 28)) 64)

/-- Entries of the stride pattern tables stand while the view record that each was filled from does (R317). -/
def State.strideKept (s : State) : State :=
  if s.columns.all fun c => c.2.stride == [] then s
  else
    let live := fun e : Nat × List Nat => e.2.head? == some (s.viewRec e.1).toNat
    { s with columns := s.columns.map fun c => (c.1, { c.2 with stride := c.2.stride.map fun t => (t.1, t.2.filter live) }) }

/-- The rules of R329 and R216 on a view record; a base handle that names no valid tensor, and the transpose of a base of one
dimension, break them too (DESIGN CHOICE, unsafe: log entry 106). -/
def State.viewOk (s : State) (h : Nat) : Bool :=
  let r := s.viewRec h
  let v := viewOf r
  let t := s.tensor v.base
  let plain := v.origin.all (· == 0) && v.extent.all (· == 0)
  rcbField r 7 1 == 0 && rcbField r 56 8 == 0 && s.tensorValid v.base && handleClass v.base < 2 &&
    (match v.kind with
      | 1 => v.fmt == 0 && v.geom == 0 && plain && 2 ≤ t.dimCount
      | 2 => fmtMx v.fmt && v.geom ≤ 5 && plain && fmtWidth v.fmt == fmtWidth t.info.fmt.toNat
      | 3 => (v.fmt == 0 || v.fmt == 1) && v.geom == 0 && plain && fmtMx t.info.fmt.toNat
      | 4 => v.fmt == 0 && v.geom == 0 && (List.range 6).all fun i =>
          v.origin.getD i 0 + v.extent.getD i 0 ≤ (if i < t.dimCount then t.extents.getD i 0 else 1)
      | _ => false)

/-- Coordinates in the base of coordinates in the view; none outside a slice's extents. -/
def View.map (v : View) (cs : List Nat) : Option (List Nat) :=
  match v.kind with
  | 1 => some (cs.getD 1 0 :: cs.getD 0 0 :: cs.drop 2)
  | 4 =>
    if (List.range 6).all fun i => cs.getD i 0 < v.extent.getD i 0 || (cs.getD i 0 == 0 && v.extent.getD i 0 == 0) then
      some ((List.range 6).map fun i => cs.getD i 0 + v.origin.getD i 0)
    else none
  | _ => some cs

/-- The tensor behind a handle, with the view that the handle names, if any; VIEW_BAD by R216.
DEDUCED, safe: log entry 64. -/
def State.baseOf (s : State) (h : Nat) (write : Bool) : (Nat × Option View) ⊕ Denial :=
  if handleClass h ≠ 2 then .inl (h, none)
  else
    let v := viewOf (s.viewRec h)
    if !s.viewOk h || (write && (v.kind == 1 || v.kind == 3)) then .inr { cause := 0x14 } else .inl (v.base, some v)

/-! ### The checks of R200 -/

inductive Check where
  | ok (d : BitVec 256)
  /-- The block is moving: the access waits. -/
  | wait
  /-- The tensor is dropped or is being rebuilt (R356). -/
  | dropped
  | bad (x : Denial)
  deriving DecidableEq, Repr, Inhabited

/-- A descriptor of a block of `h` as an access takes it: a cullet tensor's fmt, srm and sat are ignored, and its bytes have
the record's format (R307). -/
def State.descOf (s : State) (h : Nat) (d : BitVec 256) : BitVec 256 :=
  if handleClass h = 3 then dput (dput d 6 6 (s.tensor h).info.fmt.toNat) 12 4 0 else d

/-- A descriptor is well formed (R199). -/
def descSound (d : BitVec 256) : Bool :=
  dget d 24 40 == 0 && dget d 0 3 == 0 && rmValid (dget d 12 3) && fmtValid (dFmt d) && locTier (dShloc d) != 7 &&
    dTier d != 7

/-- The handle is some column's context pool (R372). -/
def State.isPool (s : State) (h : Nat) : Bool := h != 0 && (List.range 4).any fun c => (s.column c).poolHandle == h

/-- The handle is some column's view-table tensor (R317). -/
def State.isViewTable (s : State) (h : Nat) : Bool := h != 0 && (List.range 4).any fun c => (s.column c).viewTable == h

/-- Who reaches for a block: region of the job, handler mode, and the tensor that a recipe job rebuilds. -/
structure Access where
  region : Nat
  hm : Bool := false
  rebuilds : Option Nat := none
  deriving DecidableEq, Repr, Inhabited

/-- The access of the job on a core. -/
def CoreSt.access (c : CoreSt) : Access :=
  { region := c.theJob.region, hm := c.hm
    rebuilds := match c.theJob.kind with | .recipe h => some h | _ => none }

/-- R200 on a block of a base tensor with descriptor `d`: kind 0 read, 1 write, 2 reducing write. Outside handler mode a
write of a view table is denied as an access to the context pool is (R317, R372; DESIGN CHOICE, unsafe: log entry 45). -/
def State.checkDesc (s : State) (a : Access) (h : Nat) (d : BitVec 256) (kind : Nat) : Check :=
  let t := s.tensor h
  let d := s.descOf h d
  if !s.tensorValid h then .bad { cause := 0x10 }
  else if (t.info.state = 7 ∨ t.info.state = 9) ∧ a.rebuilds ≠ some h then .dropped
  else if dTier d = 0 then .bad { cause := 0x10 }
  else if (s.isPool h && !a.hm) || (kind != 0 && s.isViewTable h && !a.hm) || !(dShared d || s.isWithin t.info.region a.region) then
    .bad { cause := 0x11, detail := 4 }
  else if dget d (17 + kind) 1 = 0 then .bad { cause := 0x11, detail := kind + 1 }
  else if !descSound d || (handleClass h == 3 && dTrl d) then .bad { cause := 0x14 }
  else if dMoving d then .wait
  else .ok d

/-- A block translation cache key (R205). -/
def btcKey (h b : Nat) : Nat := 2 ^ 24 * h + b

/-- A descriptor as a core's transfers see it: the cached copy, or the residency table's. -/
def State.descAt (s : State) (k h b : Nat) : BitVec 256 :=
  match (s.core k).btc.find? fun e => e.1 == btcKey h b with
  | some e => e.2
  | none => (s.tensor h).block b

/-- R200 on a block as the job on core `k` reaches it; a tensor has no block beyond 2^24, and a block of another width than
its record's format has is VIEW_BAD (R197). -/
def State.checkBlock (s : State) (k h b kind : Nat) : Check :=
  if s.tensorValid h && decide (2 ^ 24 ≤ b) then .bad { cause := 0x10 }
  else match s.checkDesc (s.core k).access h (s.descAt k h b) kind with
    | .ok d => if fmtWidth (dFmt d) = fmtWidth (s.tensor h).info.fmt.toNat then .ok d else .bad { cause := 0x14 }
    | r => r

/-- A walk fills the core's translation cache; a miss is counted (R205, R388). DEDUCED, unsafe: log entry 11. -/
def State.walked (s : State) (k h b : Nat) : State :=
  if 2 ^ 24 ≤ b || (s.core k).btc.any fun e => e.1 == btcKey h b then s
  else
    (s.modCore k fun c =>
      { c with btc := (if 64 ≤ c.btc.length then c.btc.tail else c.btc) ++ [(btcKey h b, (s.tensor h).block b)] }).count k 8 1
      none

/-- Every cached copy of the descriptors of a tensor that `p` picks by block is invalidated (R205, R206). -/
def State.invalidate (s : State) (h : Nat) (p : Nat → Bool) : State :=
  { s with cores := s.cores.map fun q =>
      (q.1, { q.2 with btc := q.2.btc.filter fun e => !(e.1 / 2 ^ 24 == h && p (e.1 % 2 ^ 24)) }) }

/-! ### Storage (R199, R203, R210, R348, R355) -/

/-- Frames of a block: a block with trl = 1 owns two (R203). -/
def frames (d : BitVec 256) : Nat := if dTrl d then 2 else 1

/-- Frames of an SRAM layer that the column cache leaves to the SRAM tier (R213). DEDUCED, unsafe: log entry 25. -/
def Column.sramFrames (c : Column) : Nat := 24576 - 2048 * max c.cacheUnits (c.cacheNext.getD 0)

/-- Capacity of a partition in blocks: 0 SRAM, 1 HBM, 2 far, 3 neighbour (R348). -/
def Column.capacity (c : Column) (p : Nat) : Nat :=
  match p with
  | 0 => 8 * c.sramFrames
  | 1 => 2 * 786432
  | 2 => 2 ^ 22
  | _ => c.lent

/-- Partition of a tier, and column whose partition a location lies in (R348). -/
def tierPart (tier : Nat) : Nat := tier - 1
def State.locColumn (_ : State) (home loc : Nat) : Nat :=
  match locTier loc with
  | 1 => bitsOf loc 18 2
  | 2 => bitsOf loc 21 2
  | 3 => loc % 4
  | 4 => bitsOf loc 21 2
  | _ => home

/-- Every location word that holds storage: of current versions and of shadows' own copies. -/
def Tensor.locs (t : Tensor) : List Nat :=
  t.blocks.flatMap fun b =>
    let own := fun l => if locTier l = 0 ∨ locTier l = 6 then [] else if dTrl b.2 then [l, l + 1] else [l]
    own (dLoc b.2) ++ (if dShst b.2 = 3 then own (dShloc b.2) else [])

/-- Frames from which a started read is still to be served: it completes under the descriptor it met (R205). -/
def State.readLocs (s : State) : List Nat :=
  (s.cores ++ s.saves).flatMap fun q => q.2.cmds.flatMap fun m => match m.stage with
    | .read _ => if dTrl m.under then [dLoc m.under, dLoc m.under + 1] else [dLoc m.under]
    | _ => []

def State.usedLocs (s : State) : List Nat := (s.tensors.flatMap fun t => t.2.locs) ++ s.readLocs

/-- Frames that a tensor takes in a partition of a column; a compressed tensor counts by its ratio (R348). -/
def State.framesIn (s : State) (h col p : Nat) : Nat :=
  let t := s.tensor h
  let mine := fun l => locTier l == p + 1 && s.locColumn (handleHome h) l == col
  let cur := t.blocks.filter fun b => mine (dLoc b.2)
  let trl := (cur.filter fun b => dTrl b.2).length
  let shadow := (t.blocks.filter fun b => dShst b.2 == 3 && mine (dShloc b.2)).foldl (fun n b => n + frames b.2) 0
  let comp := (cur.filter fun b => dget b.2 3 1 == 1).length
  let data := if t.info.ratio = 0 then cur.length
    else cur.length - comp + (comp * 256 + t.info.ratio.toNat - 1) / t.info.ratio.toNat
  data + trl + shadow

/-- Occupancy of a partition (R344, R348). DEDUCED, safe: log entry 10. -/
def State.occupancy (s : State) (col p : Nat) : Nat := s.tensors.foldl (fun n t => n + s.framesIn t.1 col p) 0

/-- The partition is below its WM_HI. -/
def State.belowHigh (s : State) (col p : Nat) : Bool :=
  let c := s.column col
  s.occupancy col p * 65536 < c.wmHi.getD p 0 * c.capacity p

/-- Frames that a region's tensors take in a tier, over the package (R318). -/
def State.tierUse (s : State) (r p : Nat) : Nat :=
  (s.tensors.filter fun t => t.2.info.region == r).foldl
    (fun n t => n + (List.range 4).foldl (fun n c => n + s.framesIn t.1 c p) 0) 0

/-- The owner's budget has room for `n` more blocks in a tier. -/
def State.budgetRoom (s : State) (r p n : Nat) : Bool := s.tierUse r p + n ≤ s.tierBudget p r

/-- First location words of the runs of frames of a partition, with the length of each run and its step; `role` is the
spill-partner role of the neighbour tier (R199). -/
def Column.runs (c : Column) (col p role : Nat) : List (Nat × Nat × Nat) :=
  match p with
  | 0 => (List.range 8).map fun k => (2 ^ 61 + 2 ^ 18 * col + 2 ^ 15 * k, c.sramFrames, 1)
  | 1 => [0, 1].map fun k => (2 * 2 ^ 61 + 2 ^ 20 * (2 * col + k), 786432, 1)
  | 2 => [(3 * 2 ^ 61 + col, 2 ^ 22, 4)]
  | _ => [(4 * 2 ^ 61 + 2 ^ 24 * role + 2 ^ 21 * col, c.lent, 1)]

/-- The lowest free frame of a partition, with the next frame of its tier when `two` (R203). It is the first of a run, or
the first of the run after a used one. DEDUCED, unsafe: log entry 26. -/
def State.freeFrame (s : State) (col p role : Nat) (two : Bool) : Option Nat :=
  let used := s.usedLocs
  (s.column col).runs col p role |>.findSome? fun (base, n, step) =>
    let inRun := fun l => base ≤ l && l < base + n * step && (l - base) % step == 0
    let top := if step = 1 then base + n else base - base % step + n * step
    let ok := fun l => inRun l && !used.contains l && (!two || (l + 1 < top && !used.contains (l + 1)))
    let next := fun l => if base ≤ l then some (base + ((l - base) / step + 1) * step) else none
    let cand := (base :: used.filterMap next).filter ok
    cand.foldl (fun (m : Option Nat) l => match m with | some a => some (min a l) | none => some l) none

/-- Storage for one block of a tensor in the first of some partitions of the home column that is below its WM_HI and
within the owner's budget. -/
def State.allocateIn (s : State) (ps : List Nat) (h : Nat) (two : Bool) : Option Nat :=
  let col := handleHome h
  ps.findSome? fun p =>
    if s.belowHigh col p && s.budgetRoom (s.tensor h).info.region p (if two then 2 else 1) then s.freeFrame col p 0 two
    else none

/-- Partitions, of some, that may hold a block: a parameter block's is HBM (R212). -/
def partsFor (d : BitVec 256) (ps : List Nat) : List Nat := if dget d 22 1 = 1 then [1] else ps

/-- Storage for one block by R355: SRAM, HBM, far. -/
def State.allocate (s : State) (h : Nat) (d : BitVec 256) : Option Nat :=
  s.allocateIn (partsFor d [0, 1, 2]) h (dTrl d)

/-- Storage for one block of a cache tensor: SRAM, HBM (R221), each below its WM_HI and in its owner's budget (DESIGN CHOICE,
unsafe: log entry 102). -/
def State.allocateKv (s : State) (h : Nat) (d : BitVec 256) : Option Nat :=
  s.allocateIn (partsFor d [0, 1]) h (dTrl d)

/-- The tiles of a frame become those of another, each with the places of its elements. -/
def State.copyRuns (s : State) (src dst : Nat) : State :=
  let kept := s.tileRuns.filter fun r => r.1 / 64 != dst
  { s with tileRuns := (s.tileRuns.filter fun r => r.1 / 64 == src).foldl (fun m r => set m (64 * dst + r.1 % 64) r.2) kept }

/-- A frame of tensor `h` has been allocated: its home engine and the one that watches the frame's partition are to
evaluate every partition (R348). -/
def State.noteAlloc (s : State) (h loc : Nat) : State :=
  [handleHome h, s.locColumn (handleHome h) loc].foldl
    (fun s col => s.modColumn col fun c => { c with evalDue := [0, 1, 2, 3] }) s

/-- Copies a block's frame, and its trailer page where it has one. -/
def State.copyFrames (s : State) (src dst : Nat) (two : Bool) : State :=
  let n := if two then 65536 + 4096 else 65536
  let s := s.copyRuns src dst
  if locTier src = 0 ∨ locTier src = 6 then
    { s with store := s.store.clear (65536 * dst) n }
  else { s with store := s.store.copyRange (65536 * src) (65536 * dst) n }

/-- The first `n` bytes of a frame become those of a memory. -/
def State.setFrameRange (s : State) (loc n : Nat) (m : Memory) : State :=
  if locTier loc = 0 ∨ locTier loc = 6 then s else { s with store := s.store.splice (65536 * loc) n m }

/-- The first `n` bytes of a frame, as a memory. -/
def State.frameRange (s : State) (loc n : Nat) : Memory :=
  if locTier loc = 0 ∨ locTier loc = 6 then [] else s.store.slice (65536 * loc) n

/-- Gives the storage that a first write needs (R199, R210): the shadow's own copy where the write is into a shadow,
else current storage of a tier-6 block. None where no space qualifies. -/
def State.prepare (s : State) (h b : Nat) (shadow : Bool) : Option State :=
  let d := (s.tensor h).block b
  let put := fun (s : State) d => (s.invalidate h (· == b)).modTensor h fun t => t.setBlock b d
  if shadow then
    if dShst d = 3 then some s
    else (s.allocate h d).map fun l =>
      put ((s.copyFrames (if dShst d = 2 then zeroLoc else dLoc d) l (dTrl d)).noteAlloc h l) (dput (dput d 128 64 l) 4 2 3)
  else if dTier d = 6 then
    (s.allocate h d).map fun l => put ((s.copyFrames zeroLoc l (dTrl d)).noteAlloc h l) (dput d 64 64 l)
  else some s

/-- Gives storage to each of some blocks, by handle, before they are written; or the first that finds no space. -/
def State.prepareAll (s : State) : List (Nat × Nat) → State ⊕ (Nat × Nat)
  | [] => .inl s
  | b :: bs => match s.prepare b.1 b.2 false with
    | some t => t.prepareAll bs
    | none => .inr b

/-! ### Bits of a block -/

/-- The code of `w` bits at a bit offset of a frame (R34). -/
def State.frameCode (s : State) (loc bit w : Nat) : Nat :=
  if w = 4 then bitsOf (s.frameByte loc (bit / 8)).toNat (bit % 8) 4 else leNat (s.frameBytes loc (bit / 8) (w / 8))

def State.setFrameCode (s : State) (loc bit w v : Nat) : State :=
  if w = 4 then
    s.setFrame loc (bit / 8) [BitVec.ofNat 8 (setBits (s.frameByte loc (bit / 8)).toNat (bit % 8) 4 v)]
  else s.setFrame loc (bit / 8) (leBytes (w / 8) v)

/-! ### Tiles and trailers (R58 to R60, R201 to R204) -/

/-- Bit `i` of the head map of a trailer page (R203). -/
def State.headBit (s : State) (loc i : Nat) : Bool := (s.frameByte (loc + 1) (2048 + i / 8)).getLsbD (i % 8)

/-- The slot of the nearest head bit at or below a slot. -/
def State.tileSlot (s : State) (loc : Nat) : Nat → Option Nat
  | 0 => if s.headBit loc 0 then some 0 else none
  | i + 1 => if s.headBit loc (i + 1) then some (i + 1) else s.tileSlot loc i

def State.trailer (s : State) (loc slot : Nat) : List Byte := s.frameBytes (loc + 1) (32 * slot) 32

/-- Fields of a trailer (R58). -/
def trNum (t : List Byte) (byte n : Nat) : Nat := leNat ((t.drop byte).take n)
def trFmt (t : List Byte) : Nat := trNum t 8 1
def trCount (t : List Byte) : Nat := trNum t 20 4
def trScales (t : List Byte) : Nat := trNum t 12 4
def trGeom (t : List Byte) : Nat := trNum t 9 1 % 8

/-- Element bytes of a tile of dense elements (R201). -/
def trElemBytes (t : List Byte) : Nat := (trCount t * fmtWidth (trFmt t) + 7) / 8
def trSpan (t : List Byte) : Nat := trElemBytes t + trScales t

/-- Runs, as first unit and length, in rising order, of pieces that may touch or meet. -/
def joinRuns (ps : List (Nat × Nat)) : List (Nat × Nat) :=
  (ps.foldl (fun rs q =>
    match rs with
    | [] => [q]
    | (p, n) :: r => if q.1 ≤ p + n then (p, max n (q.1 + q.2 - p)) :: r else q :: rs) []).reverse

/-- Runs of elements of `w` bits at rising bit offsets, as first bit after `lo` and number of bits. -/
def elemRuns (w lo : Nat) (bits : List Nat) : List (Nat × Nat) := joinRuns (bits.map fun b => (b - lo, w))

/-- The bytes that hold elements which stand in runs of bits, as runs of bytes (R201). -/
def byteRuns (rs : List (Nat × Nat)) : List (Nat × Nat) :=
  joinRuns (rs.map fun r => (r.1 / 8, (r.1 + r.2 + 7) / 8 - r.1 / 8))

def runsTotal (rs : List (Nat × Nat)) : Nat := rs.foldl (fun n r => n + r.2) 0
def runsEnd (rs : List (Nat × Nat)) : Nat := rs.foldl (fun n r => max n (r.1 + r.2)) 0

/-- Bits of the elements of a tile. -/
def trElemBits (t : List Byte) : Nat := trCount t * fmtWidth (trFmt t)

/-- Elements of a tile, as runs of bits: one run but where others are recorded (R201). -/
def State.runsOf (s : State) (loc slot : Nat) (t : List Byte) : List (Nat × Nat) :=
  let rs := look [] s.tileRuns (64 * loc + slot)
  if runsTotal rs = trElemBits t then rs else [(0, trElemBits t)]

/-- Bytes that a tile spans: to its last element byte, and its scales after that (R201). -/
def State.tileSpan (s : State) (loc slot : Nat) (t : List Byte) : Nat := runsEnd (byteRuns (s.runsOf loc slot t)) + trScales t

/-- The bytes that the crc of a tile covers: of its elements, then its scales (R59, R201). -/
def State.tileBytes (s : State) (loc slot : Nat) (t : List Byte) : List Byte :=
  let rs := byteRuns (s.runsOf loc slot t)
  rs.flatMap (fun r => s.frameBytes loc (1024 * slot + r.1) r.2) ++ s.frameBytes loc (1024 * slot + runsEnd rs) (trScales t)

/-- The checks of R60 on a trailer against the bytes of its tile and the block's format. R60 names no check of the
rounding-mode code in byte 9 [5:3], and R39 and R32 name no fault for a reserved one there: it passes (DESIGN CHOICE,
unsafe: log entry 75). -/
def trailerOk (t : List Byte) (fmt : Nat) (bytes : List Byte) : Bool :=
  let sc := trScales t
  let n := trCount t
  trFmt t == fmt && trNum t 10 2 == 0 && trNum t 24 8 == 0 && trNum t 9 1 < 64 &&
    (if sc = 0 then trGeom t == 0 else sc == n / 32 && n % 32 == 0 && fmtMx fmt && trGeom t ≤ 5) &&
    trNum t 16 4 == (crc32c bytes).toNat

/-- The tile that holds a byte of a trailered block passes R60: the tile's slot, or the detail of TRAILER_BAD. -/
def State.tileCheck (s : State) (d : BitVec 256) (byte : Nat) : Nat ⊕ Nat :=
  let loc := dLoc d
  match s.tileSlot loc (byte / 1024) with
  | none => .inr (byte / 1024 * 1024)
  | some i =>
    let t := s.trailer loc i
    if 1024 * i + s.tileSpan loc i t ≤ 65536 ∧ trailerOk t (dFmt d) (s.tileBytes loc i t) then .inl i
    else .inr (1024 * i)

/-- A byte range of a block whose descriptor names trailers is fit to be delivered (R204). -/
def State.byteCheck (s : State) (d : BitVec 256) (byte : Nat) : Option Nat :=
  if !dTrl d || dTier d == 6 then none
  else match s.tileCheck d byte with | .inl _ => none | .inr x => some x

/-- Sets a tile's trailer and its head bit, and clears the head bits of the further slots it covers (R203, R433). `rs`
are the runs of its elements, in bits. -/
def State.setTrailer (s : State) (loc slot span : Nat) (t : List Byte) (rs : List (Nat × Nat)) : State :=
  let key := 64 * loc + slot
  let s : State := { s with tileRuns := if rs = [(0, trElemBits t)] then erase s.tileRuns key else set s.tileRuns key rs }
  let s := s.setFrame (loc + 1) (32 * slot) t
  let m := leNat (s.frameBytes (loc + 1) 2048 8)
  let m := (List.range 64).foldl (fun m i =>
    if i = slot then setBits m i 1 1
    else if slot < i ∧ 1024 * i < 1024 * slot + span then setBits m i 1 0 else m) m
  s.setFrame (loc + 1) 2048 (leBytes 8 m)

/-- Elements of `w` bits of a tile's runs that stand before a bit of the tile. -/
def elemsBefore (w : Nat) (rs : List (Nat × Nat)) (bit : Nat) : Nat :=
  rs.foldl (fun n r => n + min r.2 (bit - r.1)) 0 / w

/-- Value that a scaled tile's element has (R51), for a dequantise view: K is the tensor's innermost extent, or the run
where the tile's elements are not consecutive. -/
def State.scaledValue (s : State) (d : BitVec 256) (k0 bit : Nat) : Num :=
  let loc := dLoc d
  let w := fmtWidth (dFmt d)
  let x := decodeNum 0 (dFmt d) (s.frameCode loc bit w)
  match s.tileSlot loc (bit / 8192) with
  | none => x
  | some i =>
    let t := s.trailer loc i
    if trScales t = 0 then x
    else
      let rs := s.runsOf loc i t
      let k := match rs with
        | (_, n) :: _ :: _ => max 1 (n / w)
        | _ => min (max k0 1) (trCount t)
      let e := elemsBefore w rs (bit - 8192 * i)
      let rows := trCount t / k
      let bj := geomBj (trGeom t)
      let n := e % k / geomBk (trGeom t) * (rows / bj) + e / k / bj
      scaleBy x (s.frameByte loc (1024 * i + runsEnd (byteRuns rs) + n)).toNat

/-! ### Landing (R239, R240, R434) -/

/-- Least magnitude of a normal value of a format, or the least positive value of an integer format (R240). -/
def fmtSmallest (rqf f : Nat) : Num :=
  if f = 0x06 then .fin false 1 (-127) else if f = 0x0B then .fin false 1 (-(rqf : Int))
  else if fmtInteger f then .fin false 1 0 else .fin false 1 (1 - fmtBias f)

/-- The largest finite magnitude of a format on one side of zero. -/
def fmtEdge (rqf f : Nat) (neg : Bool) : Num :=
  if f = 0x06 then .fin neg 1 127 else decodeNum rqf f (finiteLimit f neg)

/-- R240 counts an element whose exact value is `x`; `mode` and `rb` are those of its store. -/
def landCounts (rqf f mode rb : Nat) (x : Num) : Bool :=
  match x with
  | .nan .. => false
  | .inf _ => true
  | .fin n m e =>
    let limit := fmtEdge rqf f n
    let outside :=
      if n ∧ fmtUnsigned f then (convert rqf x f mode true rb).sat else if n then numLt x limit else numLt limit x
    outside || (m != 0 && numLt (.fin false m e) (fmtSmallest rqf f))

/-- One element landing in a frame: its bit offset, the code it stores, the exact value, whether the code is that of the
source, and whether R240 counts it. -/
structure Landed where
  bit : Nat
  code : Nat
  exact : Num
  same : Bool
  counts : Bool
  deriving DecidableEq, Repr, Inhabited

/-- What one element of a write stores (R239). A reducing max or min converts y and compares the codes, and its exact value
is y (DEDUCED, unsafe: log entry 83). An rq32 element takes the writing stream's RQF, whatever it holds (DEDUCED, unsafe:
log entry 72). `p0` is the tensor bit offset of the block, `shift` is L − Lw, and
`raw` says that no exponent applies (cache and cullet tensors, R209). -/
def State.landed (s : State) (d : BitVec 256) (loc p0 : Nat) (op : LandOp) (shift : Int) (raw : Bool) (rqf bit code : Nat) :
    Landed :=
  let f := dFmt d
  let old := s.frameCode loc bit (fmtWidth f)
  let y := (decodeNum rqf f code).scale shift
  let mode := dget d 12 3
  let rb := rbStore (dget d 192 64) ((p0 + bit) / 4)
  let cv := fun x => (convert rqf x f mode (dget d 15 1 == 1) rb).code
  let mk := fun c x => { bit := bit, code := c, exact := x, same := c == code, counts := landCounts rqf f mode rb x : Landed }
  match op with
  | .plain => if raw then mk code y else mk (cv y) y
  | .add => let x := addNum 0 (decodeNum rqf f old) y; mk (cv x) x
  | .max => mk (fpMax f old (cv y)) y
  | .min => mk (fpMin f old (cv y)) y

/-- Greater of a trailer's amax and new magnitudes (R434). -/
def amaxJoin (old : Nat) (xs : List Num) : Nat :=
  if (decodeNum 0 0 old).isNan then 0x7FC00000
  else match amaxNum xs with
    | none => 0x7FC00000
    | some a => if numLt (decodeNum 0 0 old) (decodeNum 0 0 (amaxCode (some a))) then amaxCode (some a) else old

/-- Saturation count of a trailer after elements have landed in its tile (R61, R240). -/
def satAfter (t : List Byte) (ls : List Landed) : List Byte :=
  leBytes 4 (min (trNum t 4 4 + (ls.filter (·.counts)).length) (2 ^ 32 - 1))

/-- A trailer kept true to the bytes of its tile after elements have landed in it (R434). -/
def State.amendTile (s : State) (loc slot : Nat) (ls : List Landed) : State :=
  let t := s.trailer loc slot
  let bytes := s.tileBytes loc slot t
  s.setFrame (loc + 1) (32 * slot) (leBytes 4 (amaxJoin (trNum t 0 4) (ls.map (·.exact))) ++
    satAfter t ls ++ (t.drop 8).take 8 ++ leBytes 4 (crc32c bytes).toNat ++ t.drop 20)

/-- A converter's own trailer counts what R240 counts too, though its landing stores the codes that it formed (R61); its crc
is over the bytes that hold the elements, a foreign nibble among them (R59, R201). -/
def State.sealTile (s : State) (loc slot : Nat) (ls : List Landed) : State :=
  let t := s.trailer loc slot
  s.setFrame (loc + 1) (32 * slot + 4)
    (satAfter t ls ++ (t.drop 8).take 8 ++ leBytes 4 (crc32c (s.tileBytes loc slot t)).toNat)

/-- Tiles that hold any of the elements or of the bytes, by their offsets in the block, each with the elements that landed
in it. -/
def State.tilesOf (s : State) (loc : Nat) (ls : List Landed) (bytes : List Nat) : List (Nat × List Landed) :=
  let m := ls.foldl (fun m l => match s.tileSlot loc (l.bit / 8192) with
    | some i => set m i (look [] m i ++ [l])
    | none => m) []
  bytes.foldl (fun m b => match s.tileSlot loc (b / 1024) with
    | some i => set m i (look [] m i)
    | none => m) m

/-- The trailer of a write whose elements have landed in a frame of codes of `w` bits, or the trailers of the tiles that
it meets. A `raw` landing, which R239 does not govern, counts nothing (R240); a trailered store's trailer stands as it
came, its satcnt too, unless other bytes than its image's are stored (R285, R434). -/
def State.landTrailer (s : State) (loc w : Nat) (raw : Bool) (ls : List Landed) (l : Landing) : State :=
  match l.trailer with
  | some (slot, t) =>
    let s := s.setTrailer loc slot l.span t (elemRuns w (8192 * slot) (l.elems.map (·.1)))
    if !ls.all (·.same) then s.amendTile loc slot ls
    else if l.carried then
      (if trNum t 16 4 = (crc32c (s.tileBytes loc slot t)).toNat then s else s.amendTile loc slot (if raw then [] else ls))
    else s.sealTile loc slot (if raw then [] else ls)
  | none =>
    if raw then s
    else (s.tilesOf loc ls (l.bytes.map (·.1))).foldl (fun s t => s.amendTile loc t.1 t.2) s

/-- Stores a write's elements and bytes in a frame, with its trailer or with the trailers of the tiles it meets. -/
def State.landIn (s : State) (d : BitVec 256) (loc : Nat) (shift : Int) (raw : Bool) (l : Landing) : State :=
  let w := fmtWidth (dFmt d)
  let ls := l.elems.map fun e => s.landed d loc (8 * 65536 * l.block) l.op shift raw l.rqf e.1 e.2
  let s := ls.foldl (fun s e => s.setFrameCode loc e.bit w e.code) s
  let s := l.bytes.foldl (fun s b => s.setFrame loc b.1 [b.2]) s
  let s := match l.fill with | some (n, m) => s.setFrameRange loc n m | none => s
  if !dTrl d then s else s.landTrailer loc w raw ls l

/-- Accepted writes to a triple follow its private copy: in the commands' maps and in the writes on their way (R221). -/
def State.remap (s : State) (h key blk nb : Nat) : State :=
  let hit := fun (e : Nat × List (Nat × Nat)) => e.1 == h && find e.2 key == some blk
  let kv := fun (m : Cmd) =>
    if m.kv.any hit then
      { m with kv := m.kv.map fun e => if hit e then (h, set e.2 key nb) else e
               shared := m.shared.filter (· != (h, key)) }
    else m
  let all := fun (q : Nat × CoreSt) => (q.1, { q.2 with cmds := q.2.cmds.map kv })
  let move := fun (l : Landing) =>
    if l.handle = h ∧ l.key = key ∧ l.block = blk then { l with block := nb, shared := false } else l
  { s with
    cores := s.cores.map all, saves := s.saves.map all
    transit := s.transit.map fun f => { f with write := f.write.map move } }

/-- The private copy that a write to a shared cache block makes: one whose share count is above 1, or was when the write
was accepted (`early`) and that some triple still maps to. The triple that the write named is remapped, where it still maps
to the block (R221, R367). None where no space is found. -/
def State.unshare (s : State) (h key blk : Nat) (early : Bool) : Option (State × Nat) :=
  let t := s.tensor h
  let n := look 1 t.shares blk
  if n = 0 ∨ (n = 1 ∧ early = false) then some (s, blk)
  else
    let d := t.block blk
    (s.allocateKv h d).map fun loc =>
      let nb := t.blocks.foldl (fun n b => max n (b.1 + 1)) 0
      let mapped := find t.kv key == some blk
      let s := ((s.copyFrames (dLoc d) loc (dTrl d)).noteAlloc h loc).modTensor h fun t =>
        { t.setBlock nb (dput d 64 64 loc) with
          kv := if mapped then set t.kv key nb else t.kv
          shares := if mapped then set (set t.shares blk (look 1 t.shares blk - 1)) nb 1 else set t.shares nb 0 }
      (s.remap h key blk nb, nb)

/-- A core of a higher COREID has come to the home engine of `h` in this ac: of one ac's requests the lower COREID is taken
first, so core `k`'s comes in the next (R308, R367). -/
def State.comesLate (s : State) (k h : Nat) : Bool :=
  let c := (s.tensor h).came
  c.1 == s.time.toNat && k < c.2

/-- Core `k` has come to the home engine of `h`. -/
def State.comes (s : State) (k h : Nat) : State := s.modTensor h fun t => { t with came := (s.time.toNat, k) }

/-- A write lands at the column that serves its block; none where its private copy finds no space. -/
def State.land (s : State) (l : Landing) : Option State :=
  let t := s.tensor l.handle
  let i := t.info
  match handleClass l.handle with
  | 0 =>
    let d := t.block l.block
    match l.target with
    | some v =>
      if i.shadow ∧ i.ver.toNat + 1 = v then
        some (s.landIn d (dShloc d) (i.shl.toInt - l.lw) false l)
      else some s
    | none =>
      let s := s.landIn d (dLoc d) (i.curl.toInt - l.lw) false l
      let s := if s.isViewTable l.handle then s.strideKept else s
      some (match l.step with
        | some (q, n) => { s with steps := set s.steps (16 * dLoc d + q) (BitVec.ofNat 32 n) }
        | none => s)
  | 1 =>
    (s.unshare l.handle l.key l.block l.shared).map fun (s, b) =>
      let d := (s.tensor l.handle).block b
      s.landIn d (dLoc d) 0 true { l with block := b }
  | _ =>
    let d := s.descOf l.handle (t.block l.block)
    some (s.landIn d (dLoc d) 0 true l)

/-! ### Pins (R345) -/

/-- A pin from any source but tref: it stops at 0xFFFF, with a log line. -/
def State.pinUp (s : State) (h : Nat) : State :=
  if (s.tensor h).info.pin = 0xFFFF then s.log (.pinLimit h)
  else s.modTensor h fun t => { t with info := { t.info with pin := t.info.pin + 1 } }

/-- A pin falls: it stops at 0, with a log line. -/
def State.pinDown (s : State) (h : Nat) : State :=
  if (s.tensor h).info.pin = 0 then s.log (.pinLimit h)
  else s.modTensor h fun t => { t with info := { t.info with pin := t.info.pin - 1 } }

/-! ### Vector clocks (R227 to R230) -/

/-- a ≤ b in serial arithmetic modulo 2^48 (R228). -/
def vcLe (a b : Nat) : Bool := (b + 2 ^ 48 - a % 2 ^ 48) % 2 ^ 48 < 2 ^ 47

/-- Every entry of `v` is covered by `w`; an empty `v` asks nothing. -/
def vcCovers (w v : List Nat) : Bool := v.isEmpty || (List.range 4).all fun k => vcLe (v.getD k 0) (w.getD k 0)

/-- The later of two vectors, entry by entry. -/
def vcJoin (a b : List Nat) : List Nat :=
  if a.isEmpty then b
  else (List.range 4).map fun k => if vcLe (a.getD k 0) (b.getD k 0) then b.getD k 0 else a.getD k 0

def vcBump (v : List Nat) (j : Nat) : List Nat := v.set j ((v.getD j 0 + 1) % 2 ^ 48)

/-- Place of a write on its way to another package, among the columns that flights go to (R236). -/
def otherPackage : Nat := 4

/-- The issuer of a write that no core of the package has issued (R237). -/
def noCore : Nat := 2 ^ 16

/-- The command of a group of colls at a place, on a core or in a stopped job. -/
def State.inGroup (s : State) (g j : Nat) : Option Cmd :=
  (s.cores ++ s.saves).findSome? fun q => q.2.cmds.find? fun m => m.group == g && m.place == j

/-- One more contribution has landed in block `b` of the destination of a member of a group (R413). -/
def State.contributed (s : State) (g j b : Nat) : State :=
  let all := fun (q : Nat × CoreSt) => (q.1, { q.2 with cmds := q.2.cmds.map fun m =>
    if m.group = g ∧ m.place = j then { m with landed := set m.landed b (look 0 m.landed b + 1) } else m })
  { s with cores := s.cores.map all, saves := s.saves.map all }

/-- A contribution of a reduction lands: the first in its block overwrites, the others reduce (R413, R415). -/
def State.landContrib (s : State) (w : Landing) : Option State :=
  match w.contrib with
  | some (g, j) =>
    let n := ((s.inGroup g j).map fun m => look 0 m.landed w.key).getD 0
    ((s.contributed g j w.key).land (if n = 0 then { w with op := .plain } else w))
  | none => s.land w

/-- A write of core `k` lands: at a cache tensor, it comes to the home engine (R367). -/
def State.arrives (s : State) (k : Nat) (w : Landing) : Option State :=
  (if handleClass w.handle = 1 then s.comes k w.handle else s).landContrib w

/-- Bytes that a write carries, in blocks of `width`-bit elements. -/
def Landing.size (w : Landing) (width : Nat) : Nat :=
  (w.elems.length * width + 7) / 8 + w.bytes.length + (w.fill.map (·.1)).getD 0

/-- A write to the neighbour tier goes out over the links to the spill partner (R410, R411): the state, and what the links
have taken. -/
def State.toPartner (s : State) (k : Nat) (w : Landing) : State × Option FarWrite :=
  let d := (s.tensor w.handle).block w.block
  match s.partner k (if w.target.isSome then dShloc d else dLoc d) with
  | some rank =>
    let t := s.transmit rank none (w.size (fmtWidth (dFmt d)))
    (t, some { rank := rank, first := s.freeCtr, stop := t.freeCtr })
  | none => (s, none)

/-- Flits of a write to another package have not gone yet (R411). -/
def State.onLink (s : State) (f : FarWrite) : Bool :=
  let lo := 2 * s.peerIndex f.rank
  [lo, lo + 1].any fun k => ((s.link k).waiting ++ (s.link k).again).any fun x => f.first ≤ x.payload && x.payload < f.stop

/-- A package-scope write leaves column `j` for the column that serves it: it is applied there at once when that is
column `j`, and travels otherwise; stamps leave for the other columns (R227). A write to another package takes no stamp,
since clocks do not extend beyond a package: it waits for the acknowledgement (R236, R237). Answers the state, whether the
write is still on its way, and none where a local landing finds no space. `owner` is the command whose destination it lands
in, where that is not the one that sends it; `again` says from where on that command sends what is lost. -/
def State.leave (s : State) (j dest : Nat) (w : Landing) (k : Nat) (x : Strm) (seq : Nat)
    (owner : Option (Nat × Nat) := none) (again : Nat × Nat × Nat := (0, 0, 0)) : Option (State × Bool) :=
  let into := w.target.map fun _ => w.handle
  if dest = otherPackage then
    let p := s.toPartner k w
    let far := p.2.map fun f => { f with pos := again.1, sent := again.2.1, run := again.2.2 }
    some ({ p.1 with transit := p.1.transit ++
      [{ frm := j, dest := dest, vec := [], write := some w, into := into, core := k, strm := x, seq := seq, owner := owner
         far := far }] }, true)
  else
    let v := vcBump (s.column j).vc j
    let s' := s.modColumn j fun c => { c with vc := v }
    let send := fun (s : State) => { s with transit := s.transit ++ ((List.range 4).filter (· != j)).map fun d =>
      { frm := j, dest := d, vec := v, write := if d = dest then some w else none, into := into
        core := k, strm := x, seq := seq, owner := owner : Flight } }
    if dest = j then (s'.arrives k w).map fun s => (send s, false) else some (send s', true)

end Sys2Proof.Machine
end

