-- ==== Sys2Proof/Machine/Cache.lean ====
section
/-! DEFINITION. The column caches: line forms, which lines a column's cache holds and in which SRAM layer, fills, migration and
capacity (R187, R213, R214). A cached line never differs from its storage, so its bytes are those of the storage. -/
namespace Sys2Proof.Machine

/-! ### Line forms (R214) -/

/-- The deltas of a line's words from its first all fit in `n` signed bytes. -/
def deltasFit (n : Nat) (ws : List Nat) : Bool :=
  ws.all fun w =>
    let d := sint 64 ((w + 2 ^ 64 - ws.headD 0) % 2 ^ 64)
    decide (-(2 ^ (8 * n - 1) : Int) ≤ d) && decide (d < 2 ^ (8 * n - 1))

/-- Bytes that a line of sixteen words takes in the smallest form that holds it (R214). -/
def lineTakes (ws : List Nat) : Nat :=
  if ws.all (· == ws.headD 0) then 32
  else if deltasFit 1 ws then 32
  else if deltasFit 2 ws then 64
  else if deltasFit 4 ws then 96
  else 128

/-- The sixteen words of line `l` of a frame. -/
def State.frameWords (s : State) (loc l : Nat) : List Nat :=
  (List.range 16).map fun i => leNat (s.frameBytes loc (128 * l + 8 * i) 8)

/-- Bytes that the first `n` lines of a frame take. -/
def State.linesTake (s : State) (loc n : Nat) : Nat := (List.range n).foldl (fun a l => a + lineTakes (s.frameWords loc l)) 0

/-! ### Lines (R213, R214) -/

/-- Bytes that a cached line takes. -/
def State.lineTakes (s : State) (l : CacheLine) : Nat := Machine.lineTakes (s.frameWords (l.line / 512) (l.line % 512))

/-- Bytes of a column's cache partition. -/
def Column.cacheBytes (c : Column) : Nat := 8 * c.cacheUnits * 2 ^ 27

/-- The lines that stay within a number of bytes: the least recently used are written back first (DESIGN CHOICE, safe: log
entry 12). -/
def State.keptLines (s : State) (room : Nat) : List CacheLine → List CacheLine
  | [] => []
  | l :: ls => if (l :: ls).foldl (fun n e => n + s.lineTakes e) 0 ≤ room then l :: ls else s.keptLines room ls

/-- A line used once more by the compute layers of a pair: it lies in the SRAM layer of the pair that has used it most. -/
def CacheLine.used (l : CacheLine) (pair : Nat) : CacheLine :=
  let us := set l.uses pair (look 0 l.uses pair + 1)
  { l with uses := us, layer := us.foldl (fun a u => if look 0 us a < u.2 then u.1 else a) (if us.any (·.1 == l.layer) then l.layer else pair) }

/-- Cores of pair `pair` read `n` bytes from byte `lo` of a frame: its lines pass through the cache of the column that
serves the frame, and are filled where they are not there (DESIGN CHOICE, safe: log entry 12). -/
def State.cacheUse (s : State) (pair home loc lo n : Nat) : State :=
  if !(locTier loc == 2 || locTier loc == 3) || (s.column (s.locColumn home loc)).cacheUnits == 0 then s
  else
    let col := s.locColumn home loc
    let lines := (List.range ((lo % 128 + n + 127) / 128)).map fun i => 512 * loc + lo / 128 + i
    let use := fun (ls : List CacheLine) (x : Nat) =>
      (ls.filter fun l => l.line != x) ++ [((ls.find? fun l => l.line == x).getD { line := x, layer := pair }).used pair]
    s.modColumn col fun c => { c with cache := s.keptLines c.cacheBytes (lines.foldl use c.cache) }

/-- Bytes `off` to `off + n` of a tensor's image are read, from the storage `locs` of the blocks that hold them, by handle
and location word. -/
def State.cacheRange (s : State) (pair off n : Nat) (locs : List (Nat × Nat)) : State :=
  ((List.range locs.length).zip locs).foldl (fun s e =>
    let b := off / 65536 + e.1
    let lo := max off (65536 * b)
    s.cacheUse pair (handleHome e.2.1) e.2.2 (lo % 65536) (min (off + n) (65536 * b + 65536) - lo)) s

/-- The bytes of the SRAM of a layer pair that a column's cache partition holds: where it puts its lines is a free value. -/
def State.cacheImage (s : State) (col pair off n : Nat) : List Byte :=
  let ls := ((s.column col).cache.filter fun l => l.layer == pair).map fun l => (l.line, s.frameWords (l.line / 512) (l.line % 512))
  (List.range n).map fun i => Config.cacheByte (off + i) ls

end Sys2Proof.Machine
end

