-- ==== Sys2Proof/Machine/Engines.lean ====
section
/-! DEFINITION. Engine commands: descriptors and their checks, issue, the range checker, acceptance, queue pushes,
completion and transfer faults (R102 to R105, R278 to R290, R339, R376, R436). -/
namespace Sys2Proof.Machine

/-! ### Descriptors (R284, R288 to R290) -/

/-- A field of a descriptor, by first byte and width. -/
def descNum (d : List Byte) (byte n : Nat) : Nat := leNat ((d.drop byte).take n)

def Cmd.num (m : Cmd) (byte n : Nat) : Nat := descNum m.desc byte n
def Cmd.h (m : Cmd) (i : Nat) : Nat := m.num (4 * i) 4
def Cmd.coord (m : Cmd) (i : Nat) : Nat := m.num (16 + 4 * i) 4
def Cmd.ext (m : Cmd) (i : Nat) : Nat := m.num (40 + 2 * i) 2
def Cmd.spoff (m : Cmd) : Nat := m.num 48 4
def Cmd.pitch (m : Cmd) : Nat := m.num 52 4

/-- The exponent lw of a transfer's writes (R239). -/
def Cmd.lw (m : Cmd) : Int :=
  match m.instr with
  | .coll .. => sint 8 (m.num 29 1)
  | .nmc .. | .dec .. => 0
  | _ => sint 8 (m.num 58 1)

/-- Byte mode (R285). DEDUCED, unsafe: log entry 22. -/
def Cmd.byteMode (m : Cmd) : Bool :=
  match m.instr with
  | .cpy _ _ _ _ _ _ byte _ => byte == 1
  | .cpyq _ _ _ byte => byte == 1
  | _ => false

/-- Direction: 0 into the scratchpad, 1 out of it, 2 to a dq, 3 to sq. -/
def Cmd.dir (m : Cmd) : Nat :=
  match m.instr with
  | .cpy _ _ _ dir _ _ _ _ => dir.toNat
  | .gth _ _ _ dqdir _ => if dqdir = 1 then 2 else 0
  | _ => 1

def Cmd.isGather (m : Cmd) : Bool := match m.instr with | .gth .. => true | _ => false
def Cmd.isQuant (m : Cmd) : Bool := match m.instr with | .cpyq .. => true | _ => false
def Cmd.reduces (m : Cmd) : Bool := match m.instr with | .cpy _ _ _ _ _ red _ _ => red == 1 | _ => false

/-- Destinations of a dir 1 transfer. -/
def Cmd.dests (m : Cmd) : List Nat :=
  match m.instr with
  | .cpy _ _ _ _ _ _ _ nd => (List.range (nd.toNat + 1)).map m.h
  | _ => [m.h 0]

/-- Byte count of a byte-mode transfer (R284). -/
def Cmd.byteCount (m : Cmd) : Nat := m.num 40 4

/-- Byte offset of a byte-mode transfer in its image, s[sb] included (R285). -/
def Cmd.byteStart (m : Cmd) : Nat := (m.num 16 8 + m.b.toNat) % 2 ^ 64

/-- Width of an image element where the descriptor or the mode names it; else `w`, the tensor's. -/
def Cmd.imageWidth (m : Cmd) (w : Nat) : Nat :=
  if m.isQuant then fmtWidth (m.num 60 1) else if m.byteMode then 8 else w

/-- Units that a transfer moves: elements, or bytes in byte mode; of a cpyq in byte mode the whole source elements that the
bytes hold (DESIGN CHOICE, unsafe: log entry 92). -/
def Cmd.total (m : Cmd) : Nat :=
  if m.isQuant ∧ m.byteMode then m.byteCount * 8 / max 1 (fmtWidth (m.num 60 1))
  else if m.byteMode then m.byteCount
  else if m.isGather then m.ext 0 * m.ext 1
  else m.ext 0 * m.ext 1 * m.ext 2 * m.ext 3

/-- Bytes between image rows (R285). -/
def Cmd.rowPitch (m : Cmd) (w : Nat) : Nat := if m.pitch = 0 then m.ext 0 * w / 8 else m.pitch

/-- Bit offset of unit `u` in the image, from the image's start. -/
def Cmd.imageBit (m : Cmd) (w u : Nat) : Nat :=
  if m.byteMode then u * w
  else u / m.ext 0 * (8 * m.rowPitch w) + u % m.ext 0 * w

/-- Rows of the image as first byte and length; a gather's rows stand at s[sb]. -/
def Cmd.rows (m : Cmd) (w : Nat) : List (Nat × Nat) :=
  if m.byteMode then [(m.spoff, m.byteCount)]
  else
    let base := if m.isGather then m.b.toNat else m.spoff
    (List.range (m.total / max 1 (m.ext 0))).map fun j => (base + j * m.rowPitch w, m.ext 0 * w / 8)

/-- The hull of byte ranges: first byte, end. -/
def hull (ps : List (Nat × Nat)) : Nat × Nat :=
  match ps with
  | [] => (0, 0)
  | p :: r => r.foldl (fun h q => (min h.1 q.1, max h.2 (q.1 + q.2))) (p.1, p.1 + p.2)

/-- Read and write ranges (R281) at element width `w`; `tail` bytes more are read after a dir 1 image. -/
def Cmd.ranges (m : Cmd) (w tail : Nat) : (Nat × Nat) × (Nat × Nat) :=
  match m.instr with
  | .cpy .. | .cpyq .. =>
    let r := hull (m.rows (m.imageWidth w))
    if m.dir = 0 then ((0, 0), r) else if m.dir = 1 then ((r.1, r.2 + tail), (0, 0)) else ((0, 0), (0, 0))
  | .gth .. => ((m.spoff, m.spoff + 4 * m.ext 1), if m.dir = 0 then hull (m.rows w) else (0, 0))
  | _ => ((0, 0), (0, 0))

/-- Ranges before acceptance: widened, a cpy's read range by the 32 bytes after its image, and clipped at 2^20 (R281). -/
def Cmd.widen (m : Cmd) : Cmd :=
  let ((a, b), (x, y)) := m.ranges 32 (if m.isQuant then 0 else 32)
  { m with rdLo := min a (2 ^ 20), rdHi := min b (2 ^ 20), wrLo := min x (2 ^ 20), wrHi := min y (2 ^ 20) }

/-! ### Checks at issue (R279, R285 to R290) -/

def allZero (d : List Byte) (byte n : Nat) : Bool := descNum d byte n == 0

/-- The limits that the descriptor of a command must keep; `s[sb]` and the job are seen by some. In byte mode the bytes of a
cpyq are one row along K, and a gth into a dq may have a pitch (R286, R287; DEDUCED, unsafe: log entry 92). -/
def Cmd.limits (m : Cmd) (j : Job) (k : Nat) (s : State) : Bool :=
  let z := allZero m.desc
  let exts := (List.range 4).all fun i => m.ext i != 0
  let bytesOk := z 24 16 && z 44 4 && m.byteCount != 0
  match m.instr with
  | .cpy _ _ _ dir _ _ byte nd =>
    z 59 5 && z 56 2 && (if byte = 1 then bytesOk else exts) &&
      ((List.range 4).all fun i =>
        if dir = 1 ∧ i ≤ nd.toNat then m.h i != 0 else if i = 0 then true else m.h i == 0) &&
      (if 2 ≤ dir.toNat then m.spoff == 0 && m.pitch == 0 else true)
  | .cpyq _ _ _ byte =>
    let f := m.num 61 1
    let src := m.num 60 1
    let g := m.num 59 1
    let w := fmtWidth src
    let k := if byte = 1 then m.total else m.ext 0
    let rows := if byte = 1 then 1 else m.ext 1 * m.ext 2 * m.ext 3
    z 62 2 && z 56 2 && fmtMx f && fmtQuantSrc src && g ≤ 5 && (if byte = 1 then bytesOk else exts) && z 4 12 &&
      m.h 0 != 0 && k % geomBk g == 0 && rows % geomBj g == 0 &&
      (byte == 1 || (m.ext 0 * w % 8 == 0 && (m.pitch == 0 || m.ext 0 * w / 8 ≤ m.pitch)))
  | .gth .. => z 59 5 && z 56 2 && z 4 12 && m.ext 0 != 0 && m.ext 1 != 0 && m.ext 2 == 1 && m.ext 3 == 1
  | .coll _ _ _ op _ =>
    let r := j.roles.getD (m.num 28 1) {}
    let rank := if r.kind = 2 then colOf k else s.mgmt.sliceRank
    let p2p := op = 4 ∨ op = 5
    z 32 32 && m.num 24 4 != 0 && m.num 28 1 < j.roles.length && (r.kind == 2 || r.kind == 4) && r.members.contains rank &&
      (if p2p then r.members.contains (m.num 30 2) else z 30 2)
  | .nmc _ _ _ mom => z 40 24 && (if mom = 1 then m.num 8 4 != 0 else m.num 8 4 == 0)
  | .dec _ _ _ _ layout =>
    let f := m.num 24 1
    z 26 38 && m.num 25 1 != 0 && m.num 16 4 != 0 && (f == 1 || (fmtValid f && fmtWidth f == 8)) &&
      (layout == 0 || ((m.num 20 4 + m.b.toNat) % 2 == 0 && m.num 25 1 % 2 == 0))
  | _ => true

/-- Width of the scratchpad side where it is known at issue (R279). -/
def Cmd.knownWidth (m : Cmd) : Option Nat :=
  if m.isQuant then some (fmtWidth (m.num 60 1)) else if m.byteMode then some 8 else none

/-- End of the scratchpad range that the descriptor names, where no tensor width is needed. -/
def Cmd.knownEnd (m : Cmd) : Nat :=
  if m.isGather then m.spoff + 4 * m.ext 1
  else match m.knownWidth with
    | some w => if m.dir < 2 then (hull (m.rows w)).2 else 0
    | none => 0

/-- The checks of R279 after the descriptor has been read. -/
def Cmd.issueFault (m : Cmd) (j : Job) (k : Nat) (s : State) : Option Nat :=
  let transfer : Bool := match m.instr with | .cpy .. | .cpyq .. | .gth .. => true | _ => false
  if !m.limits j k s then some 0x23
  else if transfer ∧ 2 ^ 20 < m.knownEnd then some 0x09
  else if transfer ∧ (m.spoff % 64 ≠ 0 ∨ m.pitch % 64 ≠ 0) then some 0x0A
  else none

/-- Room of a command queue by class (R266). -/
def classRoom (cls : Nat) : Nat := if cls = 0 then 16 else if cls = 3 then 4 else 8

/-- Commands of a core that hold scratchpad ranges (R281). -/
def CoreSt.ranged (c : CoreSt) : Nat :=
  (allStrms.foldl (fun n x => n + (c.strm x).queued.length) 0) + c.cmds.length

/-- Issue of an engine command (R278): checks, the wait for room, then the command enters its queue. -/
def issueCmd (i : Instr) (s : State) (tok ra rb : BitVec 5) : Host.Outcome State Fault Refusal :=
  issueCore i s fun c x =>
    let t := c.strm x
    let off := (t.val ra).toNat
    if 2 ^ 20 < off + 64 then .fault 0x09 (t.val ra)
    else if off % 64 ≠ 0 then .fault 0x0A (t.val ra)
    else
      let m : Cmd := { instr := i, tok := tok.toNat, strm := x, a := t.val ra, b := t.val rb,
                       desc := c.scratch.bytes off 64, seq := t.seq, entered := c.entered
                       at_ := s.time.toNat, buf := t.buftag, rqf := t.rqf.toNat }
      match m.issueFault c.theJob s.who s with
      | some e => .fault e (t.val ra)
      | none =>
        if classRoom m.cls ≤ (t.queueOf m.cls).length ∨ 32 ≤ c.ranged then .wait (.dog 13 m.cls) c
        else
          let c := c.modStrm x fun t =>
            { (t.setQueue m.cls (t.queueOf m.cls ++ [m.widen])).setPending tok.toNat with seq := t.seq + 1 }
          .ok (({ c with entered := c.entered + 1 } : CoreSt).touch [(off, 64)] (strmCode x) (strmCode x) (strmPort x) false)

/-- cpy (R285): Issues a copy between tensor and scratchpad, dq or sq, possibly multicast or reducing. -/
def execCpy (tok ra rb : BitVec 5) (dir dq : BitVec 2) (red byte : BitVec 1) (nd : BitVec 2) (s : State) :
    Host.Outcome State Fault Refusal :=
  issueCmd (.cpy tok ra rb dir dq red byte nd) s tok ra rb

/-- cpyq (R286): Issues a quantising copy into a trailered MX tensor block. -/
def execCpyq (tok ra rb : BitVec 5) (byte : BitVec 1) (s : State) : Host.Outcome State Fault Refusal :=
  issueCmd (.cpyq tok ra rb byte) s tok ra rb

/-- gth (R287): Issues an indexed row gather from a tensor to scratchpad or dq. -/
def execGth (tok ra rb : BitVec 5) (dqdir : BitVec 1) (dq : BitVec 2) (s : State) : Host.Outcome State Fault Refusal :=
  issueCmd (.gth tok ra rb dqdir dq) s tok ra rb

/-- coll (R413): Issues a collective over the members of a rank role. -/
def execColl (tok ra rb : BitVec 5) (op : BitVec 3) (rop : BitVec 2) (s : State) : Host.Outcome State Fault Refusal :=
  issueCmd (.coll tok ra rb op rop) s tok ra rb

/-- nmc (R219): Issues a near-memory parameter update by 4 KiB granules with step numbers. -/
def execNmc (tok ra rb : BitVec 5) (mom : BitVec 1) (s : State) : Host.Outcome State Fault Refusal :=
  issueCmd (.nmc tok ra rb mom) s tok ra rb

/-- dec (R420): Issues a video decode of a bitstream into an output tensor. -/
def execDec (tok ra rb : BitVec 5) (codec : BitVec 2) (layout : BitVec 1) (s : State) : Host.Outcome State Fault Refusal :=
  issueCmd (.dec tok ra rb codec layout) s tok ra rb

/-! ### Accepted commands -/

def CoreSt.cmd (c : CoreSt) (x : Strm) (seq : Nat) : Option Cmd := c.cmds.find? fun m => m.strm == x && m.seq == seq

/-- An accepted command as it has become; its maps and its count of contributions are those that landings have kept up
(R221, R413). -/
def CoreSt.setCmd (c : CoreSt) (m : Cmd) : CoreSt :=
  { c with cmds := c.cmds.map fun q =>
      if q.strm = m.strm ∧ q.seq = m.seq then { m with kv := q.kv, shared := q.shared, landed := q.landed } else q }

def CoreSt.dropCmd (c : CoreSt) (m : Cmd) : CoreSt :=
  { c with cmds := c.cmds.filter fun q => !(q.strm == m.strm && q.seq == m.seq) }

def State.setCmd (s : State) (k : Nat) (m : Cmd) : State := s.modCore k fun c => c.setCmd m

/-- Engine code of a transfer record (R207). -/
def Cmd.engine (m : Cmd) : Nat := m.cls

/-- The accepted command has stopped at its record: its engine serves others (R208, R376). -/
def Cmd.halted (m : Cmd) : Bool := match m.stage with | .stopped _ => true | _ => false

/-- Tensors that a command names: sources and destinations. -/
def Cmd.handles (m : Cmd) : List Nat :=
  match m.instr with
  | .cpy .. | .cpyq .. | .gth .. => m.dests
  | .nmc .. => if m.h 2 = 0 then [m.h 0, m.h 1] else [m.h 0, m.h 1, m.h 2]
  | .coll _ _ _ op _ => if op = 4 then [m.h 0] else if op = 5 then [m.h 1] else [m.h 0, m.h 1]
  | _ => [m.h 0, m.h 1]

/-- Tensors that a command writes into (R209, R238). -/
def Cmd.writesTo (m : Cmd) : List Nat :=
  match m.instr with
  | .cpy .. | .cpyq .. => if m.dir = 1 then m.dests else []
  | .coll _ _ _ op _ => if op = 4 then [] else [m.h 1]
  | .dec .. => [m.h 1]
  | _ => []

/-- The command makes package-scope writes, in its own rank's destination or in another's (R227, R413). -/
def Cmd.writes (m : Cmd) : Bool :=
  match m.instr with
  | .nmc .. | .coll .. => true
  | _ => m.writesTo != []

/-- Image width of a transfer, given the tensor and view behind its first handle. -/
def Cmd.widthFor (m : Cmd) (s : State) : Nat :=
  match s.baseOf (m.h 0) false with
  | .inl (_, some v) =>
    if v.kind = 3 then fmtWidth v.fmt
    else if v.kind = 2 ∧ m.dir = 1 then 32
    else fmtWidth (s.tensor v.base).info.fmt.toNat
  | .inl (h, none) => fmtWidth (s.tensor h).info.fmt.toNat
  | .inr _ => 8

/-- Element width that sizes a command's remaining extent. -/
def Cmd.unitBits (m : Cmd) (s : State) : Nat := m.imageWidth (m.widthFor s)

/-- Byte offsets of a coll with s[sb] added (R288). -/
def Cmd.srcOff (m : Cmd) : Nat := (m.num 8 8 + m.b.toNat) % 2 ^ 64
def Cmd.dstOff (m : Cmd) : Nat := (m.num 16 8 + m.b.toNat) % 2 ^ 64

/-- Blocks that a byte range of an image covers. -/
def blocksOf (off n : Nat) : List Nat :=
  if n = 0 then [] else (List.range ((off % 65536 + n + 65535) / 65536)).map (off / 65536 + ·)

/-- Granules of an nmc. -/
def Cmd.granules (m : Cmd) : Nat := m.num 32 8 / 4096

/-- Coordinates of a sample by layout (R420); `f` is the frame coordinate. -/
def sampleCoords (patch : Bool) (plane x y f : Nat) : List Nat :=
  if patch then [((f % 2 * 16 + y % 16) * 16 + x % 16) * 3 + plane, x / 16, y / 16, f / 2, 0, 0] else [x, y, plane, f, 0, 0]

/-- Members of the rank role of a coll (R413). -/
def Cmd.members (m : Cmd) (j : Job) : Role := j.roles.getD (m.num 28 1) {}

/-- Bytes that a command has to move in all, and those of them that have been: of a coll the bytes it lands, or sends, of a
dec those of its bitstream (R207; DESIGN CHOICE, unsafe: log entry 76). -/
def Cmd.extentBytes (m : Cmd) (s : State) (j : Job) : Nat × Nat :=
  let w := m.unitBits s
  let b := m.num 24 4
  let n := (m.members j).members.length
  match m.instr with
  | .nmc .. => (m.num 32 8, m.moved)
  | .coll _ _ _ op _ =>
    let all := if op = 1 ∨ op = 4 ∨ op = 5 then b else n * b
    let got := if op = 1 ∨ op = 2 then m.pos + 1 - n else m.pos
    (all, min all (b * got))
  | .dec .. => (m.num 16 4, 0)
  | _ => (m.total * w / 8, (m.pos - m.buffer.length) * w / 8)

/-- Coordinates of unit `u` (R285, R287), a gather's row by the index that its first walk has read; in byte mode, the two
halves of its byte offset (R207). -/
def Cmd.coordsAt (m : Cmd) (c : CoreSt) (u : Nat) : List Nat :=
  match m.instr with
  | .cpy .. | .cpyq .. =>
    if m.byteMode then
      let o := (m.byteStart + (if m.isQuant then u * fmtWidth (m.num 61 1) / 8 else u)) % 2 ^ 64
      [o % 2 ^ 32, o / 2 ^ 32, 0, 0, 0, 0]
    else
      let e := fun i => max 1 (m.ext i)
      let is := [u % e 0, u / e 0 % e 1, u / e 0 / e 1 % e 2, u / e 0 / e 1 / e 2]
      (List.range 6).map fun i =>
        if i < 4 then (m.coord i + is.getD i 0 + bitsOf m.b.toNat (16 * i) 16) % 2 ^ 32 else m.coord i
  | .gth .. =>
    let e0 := max 1 (m.ext 0)
    let idx := (m.index[u / e0]?).getD (c.scratch.num (m.spoff + 4 * (u / e0)) 4)
    [(m.coord 0 + u % e0) % 2 ^ 32, idx, m.coord 2, m.coord 3, m.coord 4, m.coord 5]
  | _ => [0, 0, 0, 0, 0, 0]

/-- Coordinates of a record on tensor `h` (R207): those of the first element not delivered; of an nmc the first element of
the next granule, of a coll and of a dec's bitstream the byte offset in the tensor (DESIGN CHOICE, unsafe: log entry 76). -/
def Cmd.whereAt (m : Cmd) (s : State) (k h : Nat) : List Nat :=
  let byte := fun o => [o % 2 ^ 32, o / 2 ^ 32 % 2 ^ 32, 0, 0, 0, 0]
  match m.instr with
  | .nmc .. =>
    [(m.num 24 8 + 4096 * m.outcomes.length) * 8 / max 1 (fmtWidth (s.tensor (m.h 0)).info.fmt.toNat) % 2 ^ 32, 0, 0, 0, 0, 0]
  | .coll .. => byte (if h = m.h 1 then m.dstOff + (m.extentBytes s (s.core k).theJob).2 else m.srcOff)
  | .dec _ _ _ _ layout =>
    if h = m.h 1 then sampleCoords (layout == 1) 0 0 0 ((m.num 20 4 + m.b.toNat) % 2 ^ 32) else byte (m.num 8 8)
  | _ => m.coordsAt (s.core k) (m.pos - m.buffer.length)

/-- A transfer record at the first unit of a command that has not been delivered (R207). Where the fault reaches no block
(an element outside the extents, a bad view, a check at acceptance), `block` is given as 0 (DESIGN CHOICE, unsafe: log
entry 76). -/
def Cmd.record (m : Cmd) (s : State) (k h block : Nat) (x : Denial) : TransferRec :=
  let e := m.extentBytes s (s.core k).theJob
  { seq := m.seq, cause := x.cause, strm := m.strm, engine := m.engine, handle := h, block := block
    coords := m.whereAt s k h, remaining := e.1 - e.2, delivered := e.2, detail := x.detail }

/-- The triples of a cache tensor that the command names, as its acceptance found them. -/
def Cmd.kvOf (m : Cmd) (h : Nat) : List (Nat × Nat) := look [] m.kv h

/-- The base tensors of the handles that a command names. -/
def Cmd.bases (m : Cmd) (s : State) : List Nat :=
  m.handles.map fun h => if handleClass h = 2 then (viewOf (s.viewRec h)).base else h

/-- The maps of the cache tensors that a command names, views through their bases (R215, R221). -/
def Cmd.mapped (m : Cmd) (s : State) : Cmd :=
  let hs := (m.bases s).filter fun h => handleClass h == 1
  { m with
    kv := hs.map fun h => (h, (s.tensor h).kv)
    shared := hs.flatMap fun h =>
      ((s.tensor h).kv.filter fun e => 1 < look 1 (s.tensor h).shares e.2).map fun e => (h, e.1) }

/-- The maps of a command that goes on after a stop: triples mapped since then join those of its acceptance (R208, R221). -/
def Cmd.remapped (m : Cmd) (s : State) : Cmd :=
  { m with kv := m.kv.map fun e => (e.1, e.2.foldl (fun l p => set l p.1 p.2) (s.tensor e.1).kv) }

/-- The place of unit `u` of a transfer on a base tensor and its view. In byte mode a view of another kind than quantise is
VIEW_BAD (DESIGN CHOICE, safe: log entry 93). -/
def State.placeAt (s : State) (k : Nat) (m : Cmd) (h : Nat) (v : Option View) (u : Nat) : Place ⊕ Denial :=
  let c := s.core k
  if m.byteMode then
    match v with
    | some w =>
      if w.kind = 2 then placeByte (m.kvOf h) h ((m.byteStart + u) % 2 ^ 64) else .inr { cause := 0x14 }
    | none =>
      if m.isQuant then
        let bit := 8 * m.byteStart + u * fmtWidth (m.num 61 1)
        match placeByte (m.kvOf h) h (bit / 8) with
        | .inl p => .inl { p with bit := p.bit + bit % 8 }
        | e => e
      else placeByte (m.kvOf h) h ((m.byteStart + u) % 2 ^ 64)
  else
    match (match v with | some w => w.map (m.coordsAt c u) | none => some (m.coordsAt c u)) with
    | some cs => s.place (m.kvOf h) h cs
    | none => .inr { cause := 0x11, detail := 5 }

/-- How a transfer's elements become those of a destination. -/
inductive Store where
  | plain
  /-- A trailered store (R285). -/
  | trailered
  /-- Quantised from a source format to an element format in a geometry (R218, R215). -/
  | quant (src fmt geom : Nat)
  deriving DecidableEq, Repr, Inhabited

def Cmd.store (m : Cmd) (v : Option View) (d : BitVec 256) : Store :=
  if m.isQuant then .quant (m.num 60 1) (m.num 61 1) (m.num 59 1)
  else match v with
    | some w => if w.kind = 2 then .quant 0 w.fmt w.geom else if dTrl d && !m.reduces then .trailered else .plain
    | none => if dTrl d && !m.reduces then .trailered else .plain

/-- An in-flight count: accepted and incomplete commands on a tensor, views through their bases (R344). -/
def State.inFlight (s : State) (h : Nat) : Nat :=
  (s.cores ++ s.saves).foldl (fun n q =>
    n + (q.2.cmds.filter fun m => m.handles.any fun g =>
      g == h || (handleClass g == 2 && (viewOf (s.viewRec g)).base == h)).length) 0

/-! ### The range checker (R281) -/

def crosses (a b x y : Nat) : Bool := a < y && x < b

/-- A entered its queue before B; of one ac, L's commands before S's. -/
def Cmd.before (a b : Cmd) : Bool :=
  if a.at_ = b.at_ ∧ a.strm ≠ b.strm then strmCode a.strm < strmCode b.strm else a.entered < b.entered

/-- B may not move while A is incomplete. -/
def Cmd.blocks (a b : Cmd) : Bool :=
  a.before b && (crosses a.wrLo a.wrHi b.rdLo b.rdHi || crosses a.wrLo a.wrHi b.wrLo b.wrHi ||
    crosses a.rdLo a.rdHi b.wrLo b.wrHi)

/-- Every incomplete command of a core. -/
def CoreSt.allCmds (c : CoreSt) : List Cmd := allStrms.flatMap (fun x => (c.strm x).queued) ++ c.cmds

def CoreSt.heldBack (c : CoreSt) (m : Cmd) : Bool := c.allCmds.any fun a => a.blocks m

/-! ### Acceptance (R238, R279, R339, R376, R436) -/

/-- Cores of a layer, in order. -/
def layerCores (l : Nat) : List Nat := (List.range 18).map fun i => 32 * l + i

/-- Queues that an engine serves, in the order of R436: core, stream, class. A dray's C place stands for the core's
cullet spills and refills. -/
def engineQueues : Engine → List (Nat × Strm × Nat)
  | .dray col p => (layerCores (8 * col + p)).flatMap fun k => [(k, .L, 0), (k, .S, 0), (k, .C, 0)]
  | .coach col m => ((List.range 8).filter fun p => p % 2 == m).flatMap fun p =>
      (layerCores (8 * col + p)).map fun k => (k, .L, 1)
  | .near col => (coresOfColumn col).map fun k => (k, .S, 2)
  | .decode col => (coresOfColumn col).map fun k => (k, .L, 3)

def engineCol : Engine → Nat
  | .dray c _ | .coach c _ | .near c | .decode c => c

/-- The unit exists. -/
def engineValid : Engine → Bool
  | .dray c p => c < 4 && p < 8
  | .coach c m => c < 4 && m < 2
  | .near c | .decode c => c < 4

/-- Place of an engine's rotation pointer in its column. -/
def engineSlot : Engine → Nat
  | .dray _ p => p
  | .coach _ m => 8 + m
  | .near _ => 10
  | .decode _ => 11

/-- Commands that wait for one of some that cannot go on: through the range checker (R281), in the order of the entries of a
queue (R268), or in the order of their stream's writes (R227). -/
def CoreSt.stuckBehind (c : CoreSt) (held : List Cmd) : List Cmd :=
  let earlier := fun (a m : Cmd) => a.strm == m.strm && a.seq < m.seq
  c.cmds.filter fun m => held.any fun a => match m.stage with
    | .queued => a.blocks m
    | .push => earlier a m && m.feeds.isSome && a.feeds == m.feeds
    | .walk => earlier a m && m.pos == 0 && a.writes && !a.halted
    | _ => false

/-- The accepted command keeps its engine busy: it has not stopped at its record, and does not wait for one that has
(R208, R376). -/
def CoreSt.busyCmds (c : CoreSt) : List Cmd :=
  let stuck := (List.range c.cmds.length).foldl (fun h _ => (c.cmds.filter Cmd.halted) ++ c.stuckBehind h) []
  c.cmds.filter fun m => !stuck.contains m

/-- Accepted commands of a class on some cores that keep their engine busy; a cullet move that has not faulted is one of its
dray's. -/
def State.accepted (s : State) (ks : List Nat) (cls : Nat) : Nat :=
  s.cores.foldl (fun n q => if ks.contains q.1 then
      n + (q.2.busyCmds.filter fun m => m.cls == cls).length +
        (if cls = 0 ∧ q.2.culMove ≠ 0 ∧ q.2.culRec = none then 1 else 0)
    else n) 0

/-- The engine has room for one more command, and has accepted none in this ac (R339, R436). -/
def State.engineRoom (s : State) (e : Engine) : Bool :=
  !(s.column (engineCol e)).took.contains (engineSlot e) &&
    (match e with
      | .dray c p => s.accepted (layerCores (8 * c + p)) 0 < 16
      | .decode c => s.accepted (coresOfColumn c) 3 == 0
      | _ => true)

/-- The engine has served place `i` of its rotation, which goes on after it (R436). -/
def State.served (s : State) (e : Engine) (i : Nat) : State :=
  s.modColumn (engineCol e) fun c => { c with
    rotation := set c.rotation (engineSlot e) ((i + 1) % (engineQueues e).length), took := engineSlot e :: c.took }

/-- The head of a queue that its core lets an engine take. -/
def State.headOf (s : State) (q : Nat × Strm × Nat) : Option Cmd :=
  let c := s.core q.1
  let live := c.phase == .running
  if live && !c.debug && c.cmds.length < 64 && !(c.strm q.2.1).stopped then
    ((c.strm q.2.1).queueOf q.2.2).head?
  else none

/-- Op, rop and bytes per rank of a coll. -/
def Cmd.collKey (m : Cmd) : Nat × Nat × Nat :=
  match m.instr with
  | .coll _ _ _ op rop => (op.toNat, rop.toNat, m.num 24 4)
  | _ => (8, 0, 0)

/-- Two colls of one communicator match (R414): a send with the peer's recv, others with each other. -/
def collPair (a b : Cmd) (ra rb : Nat) : Bool :=
  match a.collKey.1, b.collKey.1 with
  | 4, 5 => a.num 30 2 == rb && b.num 30 2 == ra
  | 5, 4 => a.num 30 2 == rb && b.num 30 2 == ra
  | 4, _ | 5, _ | _, 4 | _, 5 => false
  | _, _ => true

/-- The rank at which a core issues a coll (R413). -/
def State.ownRank (s : State) (k : Nat) (m : Cmd) : Nat :=
  if (m.members (s.core k).theJob).kind = 2 then colOf k else s.mgmt.sliceRank

/-- A send or recv that names its own rank (R413). -/
def State.toSelf (s : State) (k : Nat) (m : Cmd) : Bool :=
  (m.collKey.1 == 4 || m.collKey.1 == 5) && m.num 30 2 == s.ownRank k m

/-- The queues of an engine from the one after the last served on (R436). -/
def State.fromPointer (s : State) (e : Engine) : List (Nat × Strm × Nat) :=
  let qs := engineQueues e
  let p := look 0 (s.column (engineCol e)).rotation (engineSlot e)
  qs.drop p ++ qs.take p

/-- The head coll of a column in one communicator with a command of core `k`, not matched yet: of its coaches, each in the
order of its rotation. -/
def State.collHead (s : State) (k : Nat) (m : Cmd) (col : Nat) : Option (Nat × Cmd) :=
  let j := (s.core k).theJob
  ([0, 1].flatMap fun x => s.fromPointer (.coach col x)).findSome? fun q =>
    match s.headOf q with
    | some n =>
      let j' := (s.core q.1).theJob
      if q.1 ≠ k ∧ n.group = 0 ∧ n.members j' = m.members j ∧ s.vf j'.region = s.vf j.region ∧
          collPair m n (s.ownRank k m) (s.ownRank q.1 n) then some (q.1, n) else none
    | none => none

/-- The commands that a coll matches, in member order: itself, the matching heads of the other columns, and
none for a member in another package; no list where a column's match has not arrived. A send and a recv of one rank with
itself stand at its place and after the last member's. DEDUCED, unsafe: log entry 15. -/
def State.collGroup (s : State) (k : Nat) (m : Cmd) : Option (List (Option (Nat × Cmd))) :=
  let r := m.members (s.core k).theJob
  let own := s.ownRank k m
  let p2p := m.collKey.1 = 4 ∨ m.collKey.1 = 5
  if s.toSelf k m then
    (([colOf k] ++ (if r.kind = 2 then [] else (List.range 4).filter (· != colOf k))).findSome? (s.collHead k m)).map fun n =>
      let (send, recv) := if m.collKey.1 = 4 then ((k, m), n) else (n, (k, m))
      (r.members.map fun u => if u = own then some send else none) ++ [some recv]
  else r.members.mapM fun u =>
    if u = own then some (some (k, m))
    else if r.kind ≠ 2 then some none
    else if p2p ∧ u ≠ m.num 30 2 then some none
    else (s.collHead k m u).map some

/-- Member `j` of a group of colls, with the core that holds it; a stopped job's stands at its column.
DEDUCED, safe: log entry 47. -/
def State.collMember (s : State) (g j : Nat) : Option (Nat × Cmd) :=
  (s.cores ++ s.saves.map fun (q : Nat × CoreSt) => (q.1 / 4096 * 256, q.2)).findSome? fun (q : Nat × CoreSt) =>
    (q.2.allCmds.find? fun (m : Cmd) => m.group == g && m.place == j).map fun m => (q.1, m)

/-- Writes of the core into tensor `h` carry a target (R209). -/
def State.versioned (s : State) (k h : Nat) : Bool :=
  handleClass h == 0 && s.tensorValid h && (s.core k).access.rebuilds != some h && !(s.isPool h && (s.core k).hm)

/-- The targets of a command's writes into ordinary tensors (R209, R238), or why it is refused, or that it is stale. Of
several destinations, one without a shadow is met when all are checked (R241). -/
def State.admitWrite (s : State) (k : Nat) (m : Cmd) : (List (Nat × Nat) × Bool) ⊕ (Nat × Denial) :=
  m.writesTo.foldl (fun r g => match r with
    | .inr e => .inr e
    | .inl (l, stale) =>
      match s.baseOf g true with
      | .inr _ => .inl (l, stale)
      | .inl (h, _) =>
        let t := s.tensor h
        if !s.versioned k h then .inl (l, stale)
        else if !t.info.shadow then
          if 1 < m.dests.length then .inl (l, stale) else .inr (g, { cause := 0x11, detail := 6 })
        else .inl (l ++ [(h, t.info.ver.toNat + 1)], stale || t.closing.isSome)) (.inl ([], false))

/-- What a coll reads and writes at the `r`-th of `n` members: handle, block of the image, access kind. A reduction
overwrites with its first contribution and reduces the others; the second step of an all-reduce writes (R413). -/
def Cmd.collBlocks (m : Cmd) (n r : Nat) : List (Nat × Nat × Nat) :=
  let op := m.collKey.1
  let b := m.num 24 4
  let srcN := if op = 5 then 0 else if op = 0 ∨ op = 4 then b else n * b
  let dstN := if op = 4 then 0 else if op = 1 ∨ op = 5 then b else n * b
  let (redAt, redN) := if n ≤ 1 then (0, 0) else if op = 1 then (0, b) else if op = 2 then (r * b, b) else (0, 0)
  ((blocksOf m.srcOff srcN).map fun x => (m.h 0, x, 0)) ++ ((blocksOf m.dstOff dstN).map fun x => (m.h 1, x, 1)) ++
    (blocksOf (m.dstOff + redAt) redN).map fun x => (m.h 1, x, 2)

/-- Block that holds block `x` of a tensor's image, as the command reaches it. -/
def Cmd.blockAt (m : Cmd) (h x : Nat) : Option Nat := if handleClass h = 1 then find (m.kvOf h) x else some x

/-- The checks of a coll on its own rank's blocks (R200, R413). -/
def State.collChecks (s : State) (k : Nat) (m : Cmd) : List ((Nat × Nat × Nat) × Check) :=
  let op := m.collKey.1
  let us := (m.members (s.core k).theJob).members
  (m.collBlocks us.length (us.findIdx (· == s.ownRank k m))).map fun c => match m.blockAt c.1 c.2.1 with
    | none => (c, .bad { cause := 0x10 })
    | some b =>
      (c, match s.checkBlock k c.1 b c.2.2 with
        | .ok d => if 0 < c.2.2 ∧ (op = 1 ∨ op = 2) ∧ 2 < dFmt d then .bad { cause := 0x14 } else .ok d
        | x => x)

/-- A rebuild of `h` that the core awaited has failed with this cause. -/
def CoreSt.rebuildFailed (c : CoreSt) (h : Nat) : Option Nat :=
  match c.failed with
  | some (g, cause) => if g = h then some cause else none
  | none => none

/-- Why a coll's own rank refuses one side of it before a byte moves, its sources or its destinations: handle, block, cause
(R216, R241, R412). A view has no image of bytes (DESIGN CHOICE, safe: log entry 93). A tensor whose rebuild has failed
takes the rebuild's cause (R356). -/
def State.collDenial (s : State) (k : Nat) (m : Cmd) (write : Bool) : Option (Nat × Nat × Denial) :=
  let side := fun h => if write then m.writesTo.contains h else !m.writesTo.contains h || m.h 0 == h
  let hs := m.handles.filter side
  match hs.find? fun h => handleClass h == 2, hs.find? fun h => !s.tensorValid h with
  | some h, _ => some (h, 0, { cause := 0x14 })
  | none, some h => some (h, 0xFFFFFFFF, { cause := 0x10 })
  | none, none =>
    match (if write then s.admitWrite k m else .inl ([], false)) with
    | .inr (h, e) => some (h, m.dstOff / 65536, e)
    | .inl _ => ((s.collChecks k (m.mapped s)).filter fun c => (c.1.2.2 != 0) == write).findSome? fun c => match c.2 with
      | .bad x => some (c.1.1, c.1.2.1, x)
      | _ => ((s.core k).rebuildFailed c.1.1).map fun e => (c.1.1, c.1.2.1, { cause := e })

/-- A dropped tensor that a rank of a coll names, whose rebuild has not failed (R412). -/
def State.collDropped (s : State) (k : Nat) (m : Cmd) : Option Nat :=
  ((s.collChecks k (m.mapped s)).find? fun c => c.2 == .dropped && ((s.core k).rebuildFailed c.1.1).isNone).map (·.1.1)

/-- A transfer of stream `x` reaches a dropped tensor `h`: its job is to be suspended once the core has drained; a handler's
transfer waits (R208, R356). -/
def CoreSt.suspends (c : CoreSt) (x : Strm) (h : Nat) : CoreSt :=
  let c := { c with susp := some (c.susp.getD h) }
  if c.hm then c
  else
    let c := c.modStrm x fun t => { t with stopped := true }
    match c.phase with
    | .running => { c.marked with phase := .draining }
    | _ => c

/-- The checks made at acceptance (R279): those that need the tensor's element width. -/
def Cmd.acceptFault (m : Cmd) (s : State) (tail : Nat) : Option Denial :=
  match m.instr with
  | .cpy .. | .gth .. =>
    let w := m.unitBits s
    if !m.byteMode ∧ (m.ext 0 * w % 8 ≠ 0 ∨ (m.pitch ≠ 0 ∧ m.pitch < m.ext 0 * w / 8)) then some { cause := 0x14 }
    else
      let ((_, b), (_, y)) := m.ranges w tail
      if 2 ^ 20 < b ∨ 2 ^ 20 < y then some { cause := 0x09 } else none
  | _ => none

/-- A view that the transfer names and that R216 refuses for its direction. -/
def Cmd.viewFault (m : Cmd) (s : State) : Option Nat :=
  (if m.dir = 1 then m.dests else [m.h 0]).find? fun g => match s.baseOf g (m.dir == 1) with | .inl _ => false | .inr _ => true

/-- The transfer is a trailered store into one of its destinations, at the block of its first element (R281, R285). -/
def Cmd.trailered (m : Cmd) (s : State) (k : Nat) : Bool :=
  match m.instr with
  | .cpy .. =>
    m.dir == 1 && !m.reduces && m.dests.any fun g => match s.baseOf g true with
      | .inl (h, v) => match s.placeAt k m h v 0 with
        | .inl p => m.store v (s.descAt k h p.block) == .trailered
        | .inr _ => false
      | .inr _ => false
  | _ => false

/-- The checks of an acceptance, and what they settle: the targets of the command's writes, or the record of the first that
fails (R238, R279). `v` is the verdict on a coll's group. -/
def State.settled (s : State) (k : Nat) (m : Cmd) (v : Verdict) : Cmd :=
  let tail := if m.trailered s k then 32 else 0
  let lost := m.handles.find? fun h => handleClass h != 2 && !s.tensorValid h
  let fail := fun h b (e : Denial) =>
    { m with refused := true, stage := .failed { m.record s k h b e with mask := v.mask } }
  if v.differ then fail (m.handles.headD 0) 0 { cause := 0x14 }
  else match v.refusal with
  | some (h, b, e) => fail h b e
  | none => match lost with
    | some h => fail h 0xFFFFFFFF { cause := 0x10 }
    | none =>
      match m.acceptFault s tail with
      | some e => match m.viewFault s with
        -- the checks of R216 come first (R279)
        | some g => fail g 0 { cause := 0x14 }
        | none => fail (m.h 0) 0 e
      | none =>
        match s.admitWrite k m with
        | .inr (h, e) => fail h 0 e
        | .inl (ts, stale) =>
          let stale := stale || v.stale
          { m with refused := false, targets := ts, stale := stale
                   stage := if stale ∧ m.dests.length ≤ 1 then .drain else m.stage }

/-- RANGE_HOLD_RELEASE (R281): A held command begins moving bytes when the commands it is held behind complete. One that
failed at its acceptance passes the checks of R279 first. -/
def execRangeHoldRelease (core : Nat) (strm : Strm) (seq : Nat) (s : State) : Host.Outcome State Fault Refusal :=
  let c := s.core core
  match c.cmd strm seq with
  | some m =>
    if m.stage = .queued ∧ !c.heldBack m then
      let m := if m.refused then s.settled core m {} else m
      .next (s.setCmd core (if m.stage = .queued then { m with stage := .walk } else m))
    else .refused (.notEnabled "RANGE_HOLD_RELEASE")
  | none => .refused (.notEnabled "RANGE_HOLD_RELEASE")

/-- A command is accepted: its ranges narrow, its writes are admitted, and its record's tensor must exist. A coll pins its
source for the transfer (R412; DEDUCED, unsafe: log entry 82). -/
def State.acceptCmd (s : State) (k : Nat) (x : Strm) (m : Cmd) (v : Verdict) : State :=
  let m := m.mapped s
  let tail := if m.trailered s k then 32 else 0
  let ((a, b), (p, q)) := m.ranges (m.unitBits s) tail
  let m := s.settled k { m with acc := s.time.toNat % 2 ^ 24, rdLo := a, rdHi := b, wrLo := p, wrHi := q } v
  let pins := match m.instr with
    | .coll _ _ _ op _ => if op = 5 ∨ m.refused then [] else [m.h 0]
    | _ => []
  let s := pins.foldl State.pinUp s
  let s := s.modCore k fun c =>
    let c := c.modStrm x fun t => t.setQueue m.cls (t.queueOf m.cls).tail
    let m := if m.stage = .queued ∧ !c.heldBack m then { m with stage := .walk } else m
    { c with cmds := c.cmds ++ [{ m with pinned := pins }]
             failed := if m.refused && c.failed.any fun f => m.handles.contains f.1 then none else c.failed }
  (s.count k 9 1 (some x)).modCore k fun c => { c with traceBits := c.traceBits ||| 2 ^ (12 + m.cls) }

/-- A command that leaves a core's accepted ones gives up its pins (R412). -/
def State.unpinCmd (s : State) (m : Cmd) : State := m.pinned.foldl State.pinDown s

/-- Coach share of a region as granted: shares are granted in decreasing priority until their sum reaches 240 (R411).
DEDUCED, unsafe: log entry 31. -/
def State.linkShare (s : State) (r : Nat) : Nat :=
  let before := fun g => s.prio r < s.prio g || s.prio g == s.prio r && g ≤ r
  let sum := (s.regionIds.filter before).foldl (fun n g => n + s.coachShare g) 0
  if sum ≤ 240 then s.coachShare r else 0

/-- The other members, by place, that a coll sends to or receives from (R413): of a send and a recv the peer. -/
def Cmd.partners (m : Cmd) (us : List Nat) (own : Nat) : List Nat :=
  let p2p := m.collKey.1 = 4 ∨ m.collKey.1 = 5
  (List.range us.length).filter fun j => us.getD j 0 != own && (!p2p || us.getD j 0 == m.num 30 2)

/-- Slice ranks in other packages that a coll of core `k` sends to (R413). -/
def State.sendsFar (s : State) (k : Nat) (m : Cmd) : List Nat :=
  let r := m.members (s.core k).theJob
  if r.kind = 2 ∨ m.collKey.1 = 5 then [] else (m.partners r.members (s.ownRank k m)).map fun j => r.members.getD j 0

/-- An accepted coll has flits of its region reserved that have not begun to go (R412). -/
def Cmd.reserves (m : Cmd) : Bool :=
  m.group != 0 && !m.checked && (match m.stage with | .queued | .walk => !m.refused | _ => false)

/-- The region's frames on the links to the ranks that a coll sends to are free for its flits: none of an earlier coll of the
region is reserved or waits there (R412; DEDUCED, unsafe: log entry 31). -/
def State.framesFree (s : State) (k : Nat) (m : Cmd) : Bool :=
  let r := (s.core k).theJob.region
  (s.sendsFar k m).all fun u =>
    (s.cores.all fun q => q.2.theJob.region != r || q.2.cmds.all fun a => !(a.reserves && (s.sendsFar q.1 a).contains u)) &&
      [0, 1].all fun i => (s.link (2 * s.peerIndex u + i)).waiting.all fun f => f.region != some r

/-- A rank of a group of colls may be taken up now: its region has a share and room in its frames, no block of it is moving,
and its core waits for no rebuild (R412). -/
def State.rankReady (s : State) (k : Nat) (m : Cmd) : Bool :=
  s.linkShare (s.core k).theJob.region != 0 && s.framesFree k m && (s.core k).susp.isNone &&
    (s.collChecks k (m.mapped s)).all fun c => c.2 != .wait

def State.groupReady (s : State) (g : List (Option (Nat × Cmd))) : Bool := g.all fun e => e.all fun p => s.rankReady p.1 p.2

/-- A queue's head may be accepted now; a coll once its whole group is ready. DESIGN CHOICE, safe: log entry 13. -/
def State.acceptable (s : State) (q : Nat × Strm × Nat) : Bool :=
  match s.headOf q with
  | none => false
  | some m =>
    match m.instr with
    | .coll .. => if m.group ≠ 0 then s.rankReady q.1 m else (s.collGroup q.1 m).any s.groupReady
    | _ => true

/-- What the answer of a rank in another package refuses: handle, block, cause. -/
def remoteDenial : RemoteAnswer → Option (Nat × Nat × Denial)
  | .denies h b x => some (h, b, { cause := 0x11, detail := x })
  | .refuses h b e x => some (h, b, { cause := if e = 0x11 then 0x10 else e, detail := x })
  | _ => none

/-- What the checks of a whole group settle (R241, R412, R414): commands that differ are all VIEW_BAD; where a rank's
check fails nothing lands anywhere, first a destination that denies, with the mask of those that do where a result lands
in several, then any other destination, then a source; a rank whose shadow is closing makes all stale. `far` holds, by
place, the answers of ranks in other packages. DEDUCED, unsafe: log entry 77. -/
def State.verdict (s : State) (m : Cmd) (g : List (Option (Nat × Cmd))) (far : List (Nat × RemoteAnswer)) : Verdict :=
  let differ := (g.any fun e => e.any fun p =>
    p.2.collKey.2 != m.collKey.2 || (m.collKey.1 < 4 && p.2.collKey.1 != m.collKey.1)) || far.any fun a => a.2 == .differs
  if differ then { differ := true }
  else
    let ds := (List.range g.length).zip g |>.map fun e => match e.2 with
      | some p => s.collDenial p.1 p.2 true
      | none => remoteDenial (look .passes far e.1)
    let src := (g.map fun e => e.bind fun p => s.collDenial p.1 p.2 false).find? (·.isSome)
    let denies := fun (d : Option (Nat × Nat × Denial)) => d.any fun x => x.2.2.cause == 0x11
    match ds.find? denies, ds.find? (·.isSome) with
    | some d, _ =>
      { refusal := d
        mask := if m.collKey.1 < 4 then some ((List.range ds.length).foldl (fun a i =>
          if denies (ds.getD i none) then a ||| 2 ^ min i 63 else a) 0) else none }
    | none, some d => { refusal := d }
    | none, none => match src with
      | some d => { refusal := d }
      | none =>
        { stale := (g.any fun e => e.any fun p => match s.admitWrite p.1 p.2 with | .inl (_, st) => st | .inr _ => false) ||
            far.any fun a => a.2 == .stale }

/-- The answers that the ranks in other packages give to a coll, by place. -/
def State.farAnswers (s : State) (k : Nat) (m : Cmd) : List (Nat × RemoteAnswer) × State :=
  let r := m.members (s.core k).theJob
  if r.kind = 2 then ([], s)
  else
    let js := m.partners r.members (s.ownRank k m)
    ((List.range js.length).map fun i => (js.getD i 0, Config.remoteAnswer (s.freeCtr + i)),
      { s with freeCtr := s.freeCtr + js.length })

/-- The commands of a group of colls have matched: each, at the head of its queue, takes its place and the verdict on the
group, and waits for its own coach (R339, R412, R414). -/
def State.matched (s : State) (k : Nat) (m : Cmd) (g : List (Option (Nat × Cmd))) : State :=
  let (far, s) := s.farAnswers k m
  let v := s.verdict m g far
  let (id, s) := s.draw
  ((List.range g.length).zip g).foldl (fun s e => match e.2 with
    | some p => s.modCore p.1 fun c => c.modStrm .L fun t => { t with
        coach := { p.2 with group := id + 1, place := e.1, peers := g.map Option.isSome, verdict := v } :: t.coach.tail }
    | none => s) s

/-- The head of a queue is accepted in the turn `i` of its engine. A coll matches its group first; a rank of it whose
tensor is dropped waits for its rebuild, and the group with it, so that nothing is accepted (R356, R412). -/
def State.acceptHead (s : State) (e : Engine) (i : Nat) : State :=
  let q := (engineQueues e).getD i default
  let take := fun (s : State) (m : Cmd) => (s.acceptCmd q.1 q.2.1 m m.verdict).served e i
  match s.headOf q with
  | none => s
  | some m =>
    match m.instr with
    | .coll .. =>
      let g := if m.group ≠ 0 then [some (q.1, m)] else (s.collGroup q.1 m).getD []
      let dropped := g.filterMap fun e => e.bind fun p => (s.collDropped p.1 p.2).map fun h => (p.1, h)
      if dropped ≠ [] then dropped.foldl (fun s d => s.modCore d.1 fun c => c.suspends .L d.2) s
      else if m.group ≠ 0 then take s m
      else
        let s := s.matched q.1 m g
        match s.headOf q with
        | some m => take s m
        | none => s
    | _ => take s m

/-- The place of the rotation that an engine serves next: the first, from its pointer on, whose head may be accepted, or
at which a core's cullet move is ready to begin (R339, R436). -/
def State.nextPlace (s : State) (e : Engine) (ready : Nat → Bool) : Option Nat :=
  let qs := engineQueues e
  let p := look 0 (s.column (engineCol e)).rotation (engineSlot e)
  if engineValid e && s.engineRoom e then
    ((List.range qs.length).map fun i => (p + i) % qs.length).find? fun i =>
      let q := qs.getD i default
      if q.2.1 = .C then ready q.1 else s.acceptable q
  else none

/-! ### Pushes into dq and sq (R268, R285) -/

/-- Codes that make one entry of the queue. -/
def Cmd.entryCodes (m : Cmd) (w : Nat) : Nat := if m.feeds = some 4 then max 1 (8 / w) else 2048 / max 1 w

/-- The bytes of the command's next entry. -/
def Cmd.nextEntry (m : Cmd) (s : State) : List Byte :=
  packCodes (m.unitBits s) (m.buffer.take (m.entryCodes (m.unitBits s)))

/-- ENGINE_QUEUE_PUSH (R285): An engine pushes a transfer's next entry into a dq or sq once it has room. -/
def execEngineQueuePush (core : Nat) (strm : Strm) (seq : Nat) (s : State) : Host.Outcome State Fault Refusal :=
  let no : Host.Outcome State Fault Refusal := .refused (.notEnabled "ENGINE_QUEUE_PUSH")
  let c := s.core core
  match c.cmd strm seq with
  | none => no
  | some m =>
    match m.feeds with
    | none => no
    | some q =>
      let n := m.entryCodes (m.unitBits s)
      let first := !(c.incomplete strm).any fun a => a.stillFeeds q && a.seq < m.seq
      let bytes := m.nextEntry s
      let room := if q = 4 then c.sq.hasRoom 256 bytes.length else (c.dqueue q).hasRoom 16 1
      if m.stage ≠ .push ∨ !first ∨ !room then no
      else
        let left := m.buffer.drop n
        let stage : Stage :=
          if n ≤ left.length ∨ (m.total ≤ m.pos ∧ left ≠ []) then .push
          else if m.total ≤ m.pos then .drain else .walk
        let c := if q = 4 then { c with sq := bytes.foldl Queue.push c.sq }
          else c.setDq q ((c.dqueue q).push (bytes ++ List.replicate (256 - bytes.length) 0))
        .next (s.setCore core (c.setCmd { m with buffer := left, stage := stage }))

/-! ### Completion (R102, R104, R220, R278, R282) -/

/-- Status of a command: bytes, code. An nmc that names no granule has skipped none: it answers OK (DESIGN CHOICE, unsafe:
log entry 84). -/
def Cmd.status (m : Cmd) (s : State) : Nat × Nat :=
  match m.instr with
  | .nmc .. =>
    (m.moved,
      if m.outcomes.contains 3 then 0x04 else if m.outcomes.contains 2 then 0x03
      else if m.outcomes.all (· == 1) ∧ m.outcomes ≠ [] then 0x02 else 0x00)
  | .coll _ _ _ op _ =>
    let n := m.peers.length
    let b := m.num 24 4
    (if op = 5 then 0 else if op = 0 ∨ op = 4 then b else n * b, if m.stale then 0x01 else 0x00)
  | .dec .. => (m.num 16 4, if m.stale then 0x01 else 0x00)
  | _ => (m.total * m.unitBits s / 8, if m.stale then 0x01 else 0x00)

/-- The transfer record of an nmc that ends with a granule in error (R432). -/
def Cmd.errorRecord (m : Cmd) (s : State) : TransferRec :=
  let i := m.outcomes.findIdx (· == 3)
  let byte := m.num 24 8 + 4096 * i
  let w := fmtWidth (s.tensor (m.h 0)).info.fmt.toNat
  { seq := m.seq, cause := 0x13, strm := m.strm, engine := 2, handle := m.h 0, block := byte / 65536
    coords := [byte * 8 / max 1 w, 0, 0, 0, 0, 0]
    remaining := 4096 * (m.outcomes.filter fun o => o == 2 || o == 3).length
    delivered := min m.moved (2 ^ 32 - 1), detail := byte % 65536 / 4096 }

/-- An accepted command of core `k` reaches block `b` of cache tensor `h`. -/
def State.reaches (s : State) (k : Nat) (m : Cmd) (h b : Nat) : Bool :=
  match m.instr with
  | .cpy .. | .cpyq .. | .gth .. =>
    m.dests.any fun g => match s.baseOf g false with
      | .inl (x, v) => x == h && (List.range m.total).any fun u => match s.placeAt k m h v u with
        | .inl p => p.block == b
        | .inr _ => false
      | .inr _ => false
  | .coll .. => (m.collBlocks m.peers.length m.place).any fun c => c.1 == h && m.blockAt h c.2.1 == some b
  | _ => m.handles.contains h

/-- Frees each cache block that no triple maps to once no accepted transfer reaches it (R367). -/
def State.reap (s : State) (h : Nat) : State :=
  let t := s.tensor h
  let dead := fun b : Nat => look 1 t.shares b == 0 && (s.cores ++ s.saves).all fun q => q.2.cmds.all fun m =>
    !((m.kv.any fun e => e.1 == h) && s.reaches q.1 m h b)
  if handleClass h ≠ 1 then s
  else if t.blocks.any fun b => dead b.1 then
    (s.invalidate h dead).modTensor h fun t => { t with
      blocks := t.blocks.filter fun b => !dead b.1, shares := t.shares.filter fun p => !dead p.1 }
  else s

/-- ENGINE_COMMAND_COMPLETION (R278): A command finishes and its status word is written into its token. -/
def execEngineCommandCompletion (core : Nat) (strm : Strm) (seq : Nat) (s : State) : Host.Outcome State Fault Refusal :=
  let no : Host.Outcome State Fault Refusal := .refused (.notEnabled "ENGINE_COMMAND_COMPLETION")
  let c := s.core core
  match c.cmd strm seq with
  | none => no
  | some m =>
    let peersDone := (List.range m.peers.length).all fun j =>
      match s.collMember m.group j with | some a => a.2.stage == .drain && a.2.flying == 0 | none => true
    if m.stage ≠ .drain ∨ m.flying ≠ 0 ∨ !vcCovers (s.column (colOf core)).vc m.vec ∨ !peersDone then no
    else
      let (bytes, code) := m.status s
      let c := (c.dropCmd m).modStrm strm fun t => t.completeReg m.tok (statusWord bytes m.acc code)
      let c := { c with job := c.job.map fun j => { j with bytes := j.bytes + bytes } }
      let s := (s.setCore core c).heat (colOf core) (s.vf c.theJob.region) m.buf bytes 0
      let s := s.count core 10 bytes (some strm)
      let s := (m.bases s).foldl State.reap (s.unpinCmd m)
      .next (if m.outcomes.contains 3 then s.modCore core fun c => c.raiseTransfer (m.errorRecord s) else s)

/-! ### Transfer faults (R208) -/

/-- TRANSFER_FAULT (R208): A transfer faults, writes its record and stops the core. -/
def execTransferFault (core : Nat) (strm : Strm) (seq : Nat) (s : State) : Host.Outcome State Fault Refusal :=
  match (s.core core).cmd strm seq with
  | some m =>
    match m.stage with
    | .failed r =>
      .next (s.modCore core fun c => (c.setCmd { m with stage := .stopped r }).raiseTransfer r)
    | _ => .refused (.notEnabled "TRANSFER_FAULT")
  | none => .refused (.notEnabled "TRANSFER_FAULT")

end Sys2Proof.Machine
end

