-- ==== Sys2Proof/Machine/Moves.lean ====
section
/-! DEFINITION. How accepted engine commands move their bytes: walks, reads, writes, near-memory updates, collectives
and video decode (R200 to R208, R218 to R221, R227 to R241, R285 to R290, R413 to R421). -/
namespace Sys2Proof.Machine

/-! ### Common steps -/

/-- Units from `u` onward, at most `n`, that lie in the block `b` (and, in a cache tensor, under the same triple). -/
def State.runFrom (s : State) (k : Nat) (m : Cmd) (h : Nat) (v : Option View) (b key : Nat) : Nat → Nat → Nat
  | 0, _ => 0
  | n + 1, u =>
    match s.placeAt k m h v u with
    | .inl p => if p.block = b ∧ p.key = key then 1 + s.runFrom k m h v b key n (u + 1) else 0
    | .inr _ => 0

/-- A command stops at a failed check; TRANSFER_FAULT raises its record (R208). -/
def State.failCmd (s : State) (k : Nat) (m : Cmd) (h block : Nat) (x : Denial) : State :=
  s.setCmd k { m with stage := .failed (m.record s k h block x) }

/-- FINFO of a failed rebuild of `h`, as an instruction or attachment that named it reports it (R360, R375). -/
def CoreSt.rebuildInfo (c : CoreSt) (h cause : Nat) : W64 :=
  if cause = 0x28 then BitVec.ofNat 64 c.chain.length else BitVec.ofNat 64 h

/-- A transfer meets block `b` of a dropped tensor (R356): where its rebuild has failed it takes the rebuild's cause; in
handler mode it waits in place; else it stops at its record and its job is to be suspended. DEDUCED, unsafe: log entry 27.
-/
def State.meetDropped (s : State) (k : Nat) (m : Cmd) (h b : Nat) : State :=
  match (s.core k).rebuildFailed h with
  | some e => (s.modCore k fun c => { c with failed := none }).failCmd k m h b { cause := e }
  | none =>
    if (s.core k).hm then s.setCmd k { m with stage := .rebuild h b }
    else s.modCore k fun c => (c.setCmd { m with stage := .stopped (m.record s k h b { cause := 0 }) }).suspends m.strm h

/-- A code of `w` bits at a bit offset of the scratchpad. -/
def spCode (m : Memory) (bit w : Nat) : Nat :=
  if w = 4 then bitsOf (m.byte (bit / 8)).toNat (bit % 8) 4 else m.num (bit / 8) (w / 8)

def spPut (m : Memory) (bit w v : Nat) : Memory :=
  if w = 4 then m.setByte (bit / 8) (BitVec.ofNat 8 (setBits (m.byte (bit / 8)).toNat (bit % 8) 4 v))
  else m.setNum (bit / 8) (w / 8) v

/-- First scratchpad byte of a transfer's image. -/
def Cmd.base (m : Cmd) : Nat := if m.isGather then m.b.toNat else m.spoff

/-- An engine command's access to scratchpad bytes: its first that touches a guard granule is recorded, once (R190).
Answers the core and the command. -/
def CoreSt.engineTouch (c : CoreSt) (m : Cmd) (ps : List (Nat × Nat)) (req : Nat) (wr : Bool) : CoreSt × Cmd :=
  if m.touched || (c.guardTouched ps).isNone then (c.ask ps req 3, m)
  else (c.touch ps (strmCode m.strm) req 3 wr, { m with touched := true })

/-- Scratchpad bytes of `n` units of a transfer's image from unit `u` on. -/
def Cmd.unitBytes (m : Cmd) (w u n : Nat) : List (Nat × Nat) :=
  (List.range n).map fun i => ((8 * m.base + m.imageBit w (u + i)) / 8, max 1 (w / 8))

/-- A read of storage meets an error that ECC cannot correct (R211): a free value decides for HBM. -/
def State.eccBad (s : State) (loc : Nat) : Bool × State :=
  if locTier loc = 2 then
    let (n, s) := s.draw
    (Config.eccError n, s)
  else (false, s)

/-- Reads of some storage meet an error that ECC cannot correct (R211). -/
def State.eccAny (s : State) : List Nat → Bool × State
  | [] => (false, s)
  | l :: ls =>
    let (bad, s) := s.eccBad l
    let r := s.eccAny ls
    (bad || r.1, r.2)

/-- The columns that serve some storage of tensors, by handle and location word, have applied what core `k`'s column has,
and serve its reads (R229). -/
def State.servable (s : State) (k : Nat) (ls : List (Nat × Nat)) : Bool :=
  ls.all fun l => vcCovers (s.column (s.locColumn (handleHome l.1) l.2)).vc (s.column (colOf k)).vc

/-- The join of a vector with those that the serving columns return (R229, R230). -/
def State.returned (s : State) (v : List Nat) (ls : List (Nat × Nat)) : List Nat :=
  ls.foldl (fun v l => vcJoin v (s.column (s.locColumn (handleHome l.1) l.2)).vc) v

/-- Every write of a command whose own have left has left: of a coll also those that the other ranks of the package take
from it (R227, R413). -/
def State.allLeft (s : State) (a : Cmd) : Bool :=
  (List.range a.peers.length).all fun j => (s.collMember a.group j).all fun q => q.2.stage == .drain

/-- An earlier writing command of the stream has writes that have not left, and this one has not begun to leave (R226, R227).
-/
def State.writeOrder (s : State) (k : Nat) (m : Cmd) : Bool :=
  m.pos == 0 && ((s.core k).incomplete m.strm).any fun a => a.writes && a.seq < m.seq &&
    (match a.stage with | .drain => !s.allLeft a | .stopped _ | .failed _ => false | _ => true)

/-! ### Reads: cpy of dir 0, 2, 3, and gth -/

/-- A transposed read of an ordinary tensor in HBM uses the stride-gather unit when the view has a pattern there, and
otherwise fills one (R217, R330): the engine code of a fault, and the state. The pairs of an entry are the base's first four
extents and strides, in base order (DESIGN CHOICE, safe: log entry 107). -/
def State.strideUnit (s : State) (viewH h : Nat) (v : Option View) (d : BitVec 256) : Option Nat × State :=
  match v with
  | some w =>
    if w.kind = 1 ∧ handleClass h = 0 ∧ dTier d = 2 then
      let stack := bitsOf (dLoc d) 20 3
      let col := stack / 2
      let live := look [] (s.strideKept.column col).stride (stack % 2)
      let known := live.any fun e => e.1 == viewH
      let t := s.tensor h
      let pattern := (s.viewRec viewH).toNat :: (fmtWidth t.info.fmt.toNat + 7) / 8 :: min t.dimCount 4 ::
        (List.range 4).flatMap fun i => if i < t.dimCount then [t.extents.getD i 0, t.strides.getD i 0 % 2 ^ 32] else [0, 0]
      let rest := live.filter fun e => e.1 != viewH
      let rest := if 16 ≤ rest.length then rest.tail else rest
      (if known then some 4 else none,
        s.modColumn col fun c => { c with stride := set c.stride (stack % 2) (rest ++ [(viewH, pattern)]) })
    else (none, s)
  | none => (none, s)

/-- A gather reads its index list before its first row (R190, R287). -/
def State.readIndex (s : State) (k : Nat) (m : Cmd) : State × Cmd :=
  if m.isGather ∧ m.index = [] then
    let (c, n) := (s.core k).engineTouch m [(m.spoff, 4 * m.ext 1)] 3 false
    (s.setCore k c, { n with index := (List.range (m.ext 1)).map fun i => c.scratch.num (m.spoff + 4 * i) 4 })
  else (s, m)

/-- A walk for the block of the next unit of a read: none while the block moves, or an earlier command's writes have not
left. -/
def State.walkRead (s : State) (k : Nat) (m : Cmd) : Option State :=
  if s.writeOrder k m then none else
  let (s, m) := s.readIndex k m
  match s.baseOf (m.h 0) false with
  | .inr x => some (s.failCmd k m (m.h 0) 0 x)
  | .inl (h, v) =>
    if !s.tensorValid h then some (s.failCmd k m (m.h 0) 0xFFFFFFFF { cause := 0x10 })
    else match s.placeAt k m h v m.pos with
      | .inr x => some (s.failCmd k m (m.h 0) 0 x)
      | .inl p =>
        let s := s.walked k h p.block
        match s.checkBlock k h p.block 0 with
        | .wait => none
        | .dropped => some (s.meetDropped k m h p.block)
        | .bad x => some (s.failCmd k m (m.h 0) p.block x)
        | .ok d =>
          let wantMx : Bool := match v with | some w => w.kind == 3 | none => false
          if wantMx ∧ fmtMx (dFmt d) = false then some (s.failCmd k m (m.h 0) p.block { cause := 0x14 })
          else
            let run := s.runFrom k m h v p.block p.key (m.total - m.pos) m.pos
            let (unit, s) := s.strideUnit (m.h 0) h v d
            some (s.setCmd k { m with run := run, under := d, unit := unit, stage := .read (s.column (colOf k)).vc })

/-- Code that a read delivers for a place of a block. -/
def State.readCode (s : State) (m : Cmd) (h : Nat) (v : Option View) (d : BitVec 256) (p : Place) : Nat :=
  if m.byteMode then (s.frameByte (dLoc d) (p.bit / 8)).toNat
  else match v with
    | some w =>
      if w.kind = 3 then
        (convert 0 (s.scaledValue d ((s.tensor h).extents.getD 0 0) p.bit) w.fmt 0 false 0).code
      else s.frameCode (dLoc d) p.bit (fmtWidth (dFmt d))
    | none => s.frameCode (dLoc d) p.bit (fmtWidth (dFmt d))

/-- The units of a run that a load may deliver, as places, and the detail of the first whose tile fails (R204). -/
def State.goodUnits (s : State) (k : Nat) (m : Cmd) (h : Nat) (v : Option View) (d : BitVec 256) :
    List Nat → List (Nat × Place) × Option Nat
  | [] => ([], none)
  | u :: us =>
    match s.placeAt k m h v u with
    | .inr _ => ([], none)
    | .inl p =>
      match s.byteCheck d (p.bit / 8) with
      | some x => ([], some x)
      | none =>
        let r := s.goodUnits k m h v d us
        ((u, p) :: r.1, r.2)

/-- The serving column reads the run's units (an error that ECC cannot correct is charged to the granule of the first of
them; DESIGN CHOICE, unsafe: log entry 101), under the descriptor that the walk met (R205), and they reach the scratchpad
or the queue's buffer. A fault of a transposed read that the stride-gather unit serves is that unit's (R217). -/
def State.serve (s : State) (k : Nat) (m : Cmd) (vec : List Nat) : Option State :=
  match s.baseOf (m.h 0) false with
  | .inr x => some (s.failCmd k m (m.h 0) 0 x)
  | .inl (h, v) =>
    match s.placeAt k m h v m.pos with
    | .inr x => some (s.failCmd k m (m.h 0) 0 x)
    | .inl p =>
      let d := m.under
      let col := s.locColumn (handleHome h) (dLoc d)
      let unit := m.unit.getD m.engine
      let fail := fun (s : State) (m : Cmd) (x : Denial) =>
        s.setCmd k { m with stage := .failed { m.record s k (m.h 0) p.block x with engine := unit } }
      if !vcCovers (s.column col).vc vec then none
      else if s.partnerLost k (dLoc d) then some (fail s m { cause := 0x13, detail := 0xFF })
      else
        let (bad, s) := s.eccBad (dLoc d)
        if bad then some (fail s m { cause := 0x13, detail := p.bit / 8 / 4096 })
        else
          let (us, trouble) := s.goodUnits k m h v d ((List.range m.run).map (m.pos + ·))
          let w := m.unitBits s
          let codes := us.map fun u => (u.1, s.readCode m h v d u.2)
          let (c, m) := if m.dir = 0 then (s.core k).engineTouch m (m.unitBytes w m.pos us.length) 3 true else (s.core k, m)
          let c := if m.dir = 0 then
              { c with scratch := codes.foldl (fun sp u => spPut sp (8 * m.base + m.imageBit w u.1) w u.2) c.scratch }
            else c
          let (lo, hi) := us.foldl (fun a u => (min a.1 (u.2.bit / 8), max a.2 ((u.2.bit + max 8 (fmtWidth (dFmt d)) + 7) / 8))) (2 ^ 16, 0)
          let m := { m with
            pos := m.pos + us.length, vec := vcJoin m.vec (s.column col).vc
            buffer := if 2 ≤ m.dir then m.buffer ++ codes.map (·.2) else m.buffer }
          let s := (s.setCore k c).cacheUse (pairOf k) (handleHome h) (dLoc d) lo (hi - lo)
          match (if us = [] then trouble else none) with
          | some x => some (fail s m { cause := 0x12, detail := x })
          | none =>
            let stage : Stage :=
              if 2 ≤ m.dir then
                (if m.entryCodes w ≤ m.buffer.length ∨ m.total ≤ m.pos then .push else .walk)
              else if m.total ≤ m.pos then .drain else .walk
            some (s.setCmd k { m with stage := stage })

/-! ### Writes: cpy of dir 1, and cpyq -/

/-- What a destination's format refuses (R215, R218, R285, R307). -/
def State.storeFault (s : State) (m : Cmd) (v : Option View) (d : BitVec 256) : Bool :=
  let f := dFmt d
  (m.reduces && !(f == 0 || f == 1 || f == 2)) ||
    (match m.store v d with
      | .quant src fmt _ => !dTrl d || f != fmt || m.reduces || m.unitBits s != fmtWidth src
      | _ => !m.byteMode && fmtWidth f != m.unitBits s)

/-- The first check that a destination fails over every unit from `u` on, `n` of them, with its block. -/
def State.destCheck (s : State) (k : Nat) (m : Cmd) (h : Nat) (v : Option View) (last : Option Nat) :
    Nat → Nat → Check × Nat
  | 0, _ => (.ok 0, 0)
  | n + 1, u =>
    match s.placeAt k m h v u with
    | .inr x => (.bad x, 0)
    | .inl p =>
      if last = some p.block then s.destCheck k m h v last n (u + 1)
      else match s.checkBlock k h p.block (if m.reduces then 2 else 1) with
        | .ok d =>
          if s.storeFault m v d then (.bad { cause := 0x14 }, p.block) else s.destCheck k m h v (some p.block) n (u + 1)
        | r => (r, p.block)

/-- The block that a command's first unit reaches. -/
def State.firstBlock (s : State) (k : Nat) (m : Cmd) (h : Nat) (v : Option View) : Nat :=
  match s.placeAt k m h v 0 with
  | .inl p => p.block
  | .inr _ => 0

/-- R241 over every destination: each one's check, and the block it met. DEDUCED, unsafe: log entry 46. -/
def State.destChecks (s : State) (k : Nat) (m : Cmd) : List (Nat × Check × Nat) :=
  m.dests.map fun g => (g, match s.baseOf g true with
    | .inr x => (.bad x, 0)
    | .inl (h, v) =>
      if !s.tensorValid h then (.bad { cause := 0x10 }, 0xFFFFFFFF)
      else match s.destCheck k m h v none m.total 0 with
        | (.ok d, _) =>
          if s.versioned k h && !m.targets.any (fun t => t.1 == h) then
            (.bad { cause := 0x11, detail := 6 }, s.firstBlock k m h v)
          else (.ok d, 0)
        | r => r)

/-- The outcome of R241: none while a block moves; else the state, and whether the command may go on. -/
def State.checkAll (s : State) (k : Nat) (m : Cmd) : Option (State ⊕ Cmd) :=
  let r := s.destChecks k m
  if r.any fun c => c.2.1 == .wait then none
  else match r.find? fun c => c.2.1 == .dropped with
    | some (g, _, b) => match s.baseOf g true with
      | .inl (h, _) => some (.inl (s.meetDropped k m h b))
      | .inr x => some (.inl (s.failCmd k m g b x))
    | none =>
      let denies := fun c : Nat × Check × Nat => match c.2.1 with | .bad x => x.cause == 0x11 | _ => false
      let mask := (List.range r.length).foldl (fun a i =>
        if denies (r.getD i (0, .wait, 0)) then a + 2 ^ min i 63 else a) 0
      match r.find? denies, r.find? fun c => match c.2.1 with | .bad _ => true | _ => false with
      | some (g, .bad x, b), _ =>
        some (.inl (s.setCmd k { m with stage := .failed { m.record s k g b x with mask := some mask } }))
      | _, some (g, .bad x, b) => some (.inl (s.failCmd k m g b x))
      | _, _ => some (.inr { m with checked := true })

/-- Codes of some units, read from the scratchpad, with their bit offsets in the block. -/
def State.unitCodes (s : State) (k : Nat) (m : Cmd) (h : Nat) (v : Option View) (w : Nat) (us : List Nat) :
    List (Nat × Nat) :=
  let sp := (s.core k).scratch
  us.map fun u =>
    let bit := match s.placeAt k m h v u with | .inl p => p.bit | .inr _ => 0
    (bit, spCode sp (8 * m.base + m.imageBit w u) w)

/-- Units of a run. -/
def Cmd.runUnits (m : Cmd) (run : Nat) : List Nat := (List.range run).map (m.pos + ·)

/-- Bytes of a byte-mode run as the elements they cover whole, and the bytes left over (R239). -/
def splitBytes (w : Nat) (bs : List (Nat × Nat)) : List (Nat × Nat) × List (Nat × Byte) :=
  if w = 8 then (bs, [])
  else if w = 4 then (bs.flatMap fun b => [(b.1, b.2 % 16), (b.1 + 4, b.2 / 16)], [])
  else
    let n := w / 8
    let val := fun o => (bs.find? fun b => b.1 == o).map (·.2)
    let whole := bs.filter fun b => b.1 % w == 0 && (List.range n).all fun i => (val (b.1 + 8 * i)).isSome
    let covered := fun o => whole.any fun b => b.1 == o / w * w
    (whole.map fun b => (b.1, leNat ((List.range n).map fun i => BitVec.ofNat 8 ((val (b.1 + 8 * i)).getD 0))),
      (bs.filter fun b => !covered b.1).map fun b => (b.1 / 8, BitVec.ofNat 8 b.2))

/-- A landing of units of one block without conversion. -/
def State.plainLanding (s : State) (k : Nat) (m : Cmd) (h : Nat) (v : Option View) (d : BitVec 256) (p : Place)
    (target : Option Nat) (us : List Nat) : Landing :=
  let l : Landing := { handle := h, target := target, block := p.block, key := p.key, shared := m.shared.contains (h, p.key)
                       lw := m.lw, rqf := m.rqf, op := if m.reduces then .add else .plain }
  if m.byteMode then
    let bs := s.unitCodes k m h v 8 us
    if handleClass h ≠ 0 ∧ m.reduces = false then { l with bytes := bs.map fun b => (b.1 / 8, BitVec.ofNat 8 b.2) }
    else
      let (es, rest) := splitBytes (fmtWidth (dFmt d)) bs
      { l with elems := es, bytes := rest }
  else { l with elems := s.unitCodes k m h v (fmtWidth (dFmt d)) us }

/-- A trailered store's landing (R285), or the cause that stops it. -/
def State.trailerLanding (s : State) (k : Nat) (m : Cmd) (h : Nat) (v : Option View) (d : BitVec 256) (p : Place)
    (target : Option Nat) (us : List Nat) : Landing ⊕ Denial :=
  let w := m.unitBits s
  let fw := fmtWidth (dFmt d)
  let stop := (hull (m.rows w)).2
  let t := (s.core k).scratch.bytes stop 32
  let codes := s.unitCodes k m h v w us
  let bytes := packCodes w (codes.map (·.2))
  let n := bytes.length
  if us.length ≠ m.total ∨ p.bit % 8192 ≠ 0 ∨ 65536 < p.bit / 8 + n then .inr { cause := 0x14 }
  else if n < trSpan t ∨ !trailerOk t (dFmt d) (bytes.take (trSpan t)) then
    .inr { cause := 0x12, detail := p.bit / 8 }
  else
    let ne := if m.byteMode then trElemBytes t else trCount t
    let elems := codes.take ne
    let (es, rest) := if m.byteMode then splitBytes fw elems else (elems, [])
    let tail := (codes.drop ne).flatMap fun b =>
      if w = 4 then [] else (List.range (w / 8)).map fun i => (b.1 / 8 + i, BitVec.ofNat 8 (b.2 / 2 ^ (8 * i)))
    let nib := if w = 4 then
        (List.range (n - trElemBytes t)).map fun i => ((codes.getD (ne + 2 * i) (0, 0)).1 / 8, bytes.getD (trElemBytes t + i) 0)
      else []
    let last := fun (l : List (Nat × Nat)) => l.foldl (fun a c => max a ((c.1 + w + 7) / 8)) (p.bit / 8) - p.bit / 8
    .inl { handle := h, target := target, block := p.block, key := p.key, shared := m.shared.contains (h, p.key)
           lw := m.lw, rqf := m.rqf, carried := true
           elems := es, bytes := rest ++ tail ++ nib, trailer := some (p.bit / 8192, t)
           span := max (last codes) (last elems + trScales t) }

/-- The rows of the box, by number, and the extent along K of some of its units, where they are a part of each of those rows
between the same two places along K. -/
def boxPart (kExt : Nat) (us : List Nat) : Option (List Nat × Nat) :=
  let rows := (us.map (· / max 1 kExt)).eraseDups
  let u0 := us.headD 0
  let n := (us.filter fun u => u / max 1 kExt == u0 / max 1 kExt).length
  if us = rows.flatMap fun r => (List.range n).map fun i => r * kExt + u0 % max 1 kExt + i then some (rows, n) else none

/-- A quantising write of the units of one block (R53, R201, R202, R218): one tile, which starts at the first byte of its
block in every block but the `first`, and groups the elements that the block holds. -/
def State.quantLanding (s : State) (k : Nat) (m : Cmd) (h : Nat) (v : Option View) (p : Place) (target : Option Nat)
    (src fmt geom : Nat) (first : Bool) (us : List Nat) : Landing ⊕ Denial :=
  let run := us.length
  let w := fmtWidth fmt
  let part := boxPart (if m.byteMode then m.total else m.ext 0) us
  let kExt := (part.map (·.2)).getD 0
  let rows := (part.map (·.1.length)).getD 0
  let bk := geomBk geom
  let bj := geomBj geom
  let src := s.unitCodes k m h v (fmtWidth src) us |>.map fun c => (c.1, decodeNum 0 src c.2)
  let low := src.foldl (fun a c => min a c.1) p.bit
  let top := src.foldl (fun a c => max a (c.1 + w)) 0
  let scaleAt := (top + 7) / 8
  let n := run / 32
  if part.isNone ∨ kExt % bk ≠ 0 ∨ rows % bj ≠ 0 ∨ run % 32 ≠ 0 ∨ low % 8192 ≠ 0 ∨ (!first ∧ low ≠ 0) ∨
      65536 < scaleAt + n then
    .inr { cause := 0x14 }
  else
    let blocks := (List.range (kExt / bk)).flatMap fun kb => (List.range (rows / bj)).map fun jb =>
      let us := (List.range bj).flatMap fun j => (List.range bk).map fun i => (jb * bj + j) * kExt + kb * bk + i
      (us, quantBlock fmt (us.map fun u => (src.getD u (0, .fin false 0 0)).2))
    let codes := blocks.foldl (fun m b => (b.1.zip b.2.codes).foldl (fun m e => set m e.1 e.2) m) ([] : List (Nat × Nat))
    let elems := sortElems ((List.range run).map fun u => ((src.getD u (0, .fin false 0 0)).1, look 0 codes u))
    let scales := blocks.map fun b => BitVec.ofNat 8 b.2.scale
    let sat := blocks.foldl (fun a b => a + b.2.sat) 0
    let t := trailerBytes (amaxCode (amaxNum (src.map (·.2)))) sat fmt geom 0 n run
      (crc32c (packCodes w (elems.map (·.2)) ++ scales))
    .inl { handle := h, target := target, block := p.block, key := p.key, shared := m.shared.contains (h, p.key)
           lw := m.lw, elems := elems, bytes := (List.range n).map fun i => (scaleAt + i, scales.getD i 0)
           trailer := some (low / 8192, t), span := scaleAt + n - low / 8 }

/-- The landing of units of one block at one destination; `first` for the first block of the transfer. -/
def State.landing (s : State) (k : Nat) (m : Cmd) (h : Nat) (v : Option View) (d : BitVec 256) (p : Place)
    (target : Option Nat) (first : Bool) (us : List Nat) : Landing ⊕ Denial :=
  match m.store v d with
  | .plain => .inl (s.plainLanding k m h v d p target us)
  | .trailered => s.trailerLanding k m h v d p target us
  | .quant a b g => s.quantLanding k m h v p target a b g first us

/-- Sends one landing: storage is given where it is the first write, and the write leaves column `j`, that of the rank
that sends it. A partner out of reach, and want of space, refuse it. `again` says from where the write's command sends
what is lost. -/
def State.send (s : State) (k : Nat) (m : Cmd) (j : Nat) (owner : Option (Nat × Nat)) (again : Nat × Nat × Nat) (l : Landing) :
    (State × Bool) ⊕ Denial :=
  match s.prepare l.handle l.block l.target.isSome with
  | none => .inr { cause := 0x2A }
  | some s =>
    let d := (s.tensor l.handle).block l.block
    let loc := if l.target.isSome then dShloc d else dLoc d
    let dest := if locTier loc = 4 then otherPackage else s.locColumn (handleHome l.handle) loc
    if s.partnerLost k loc then .inr { cause := 0x13, detail := 0xFF }
    else match s.leave (if j = otherPackage ∧ dest < 4 then dest else if j = otherPackage then colOf k else j) dest l k
        m.strm m.seq owner again with
      | some r => .inl r
      | none => .inr { cause := 0x2A }

/-- Sends landings, one after another: the state, how many are on their way, and the place and the denial of the first that
is refused, which those before it have left without (R208, R241). -/
def State.sendAll (s : State) (k : Nat) (m : Cmd) (j : Nat) (owner : Option (Nat × Nat)) (again : Nat × Nat × Nat) :
    List Landing → State × Nat × Option (Nat × Denial)
  | [] => (s, 0, none)
  | l :: ls => match s.send k m j owner again l with
    | .inr x => (s, 0, some (0, x))
    | .inl (s, fly) =>
      let r := s.sendAll k m j owner (again.1, again.2.1 + 1, again.2.2) ls
      (r.1, r.2.1 + (if fly then 1 else 0), r.2.2.map fun x => (x.1 + 1, x.2))

/-- Where a place stands among the addresses of its tensor's image. -/
def Place.addr (h : Nat) (p : Place) : Nat := if handleClass h = 1 then p.key else p.block

/-- Address of a unit at a destination. -/
def State.addrOf (s : State) (k : Nat) (m : Cmd) (h : Nat) (v : Option View) (u : Nat) : Nat :=
  match s.placeAt k m h v u with | .inl p => p.addr h | .inr _ => 0

/-- The units still to move do not come in increasing order of their blocks. -/
def State.descends (s : State) (k : Nat) (m : Cmd) (h : Nat) (v : Option View) : Bool :=
  !m.byteMode && (List.range (m.total - m.pos - 1)).any fun i =>
    s.addrOf k m h v (m.pos + i + 1) < s.addrOf k m h v (m.pos + i)

/-- How many units from `u` on, at most `n`, lie in blocks of a destination that pass every check. -/
def State.passing (s : State) (k : Nat) (m : Cmd) (h : Nat) (v : Option View) : List Nat → Nat → Nat → Nat
  | _, 0, _ => 0
  | seen, n + 1, u =>
    match s.placeAt k m h v u with
    | .inr _ => 0
    | .inl p =>
      if seen.contains p.block then 1 + s.passing k m h v seen n (u + 1)
      else match s.checkBlock k h p.block (if m.reduces then 2 else 1) with
        | .ok d => if s.storeFault m v d then 0 else 1 + s.passing k m h v (p.block :: seen) n (u + 1)
        | _ => 0

/-- A number in its place in a rising list, once. -/
def insertAsc (n : Nat) : List Nat → List Nat
  | [] => [n]
  | a :: r => if n < a then n :: a :: r else if n = a then a :: r else a :: insertAsc n r

/-- The landings of units at a destination, block by block in increasing address order (R227), each with its block; `first`
says that no unit of the transfer has landed in a block before them. -/
def State.landings (s : State) (k : Nat) (m : Cmd) (h : Nat) (v : Option View) (target : Option Nat) (first : Bool)
    (us : List Nat) : List (Nat × (Landing ⊕ Denial)) :=
  let at_ := us.map fun u => (s.addrOf k m h v u, u)
  let as_ := at_.foldl (fun l a => insertAsc a.1 l) []
  as_.filterMap fun a =>
    let mine := (at_.filter fun e => e.1 == a).map (·.2)
    match s.placeAt k m h v (mine.headD 0) with
    | .inl p => some (p.block, s.landing k m h v (s.descAt k h p.block) p target (first && as_.head? == some a) mine)
    | .inr _ => none

/-- Target version of a base tensor's writes. -/
def Cmd.target (m : Cmd) (h : Nat) : Option Nat := (m.targets.find? fun t => t.1 == h).map (·.2)

/-- Units of a transfer land at its destinations `bs` (handle, base, view): all of their landings are formed before the first
leaves. Where one is refused, those before it have left, and the command goes on from it (R208, R241). -/
def State.deliver (s : State) (k : Nat) (m : Cmd) (bs : List (Nat × Nat × Option View)) (us : List Nat) : State :=
  let ls := bs.flatMap fun b => (s.landings k m b.2.1 b.2.2 (m.target b.2.1) (m.pos == 0) us).map fun l => (b.1, l)
  match ls.findSome? fun l => match l.2.2 with | .inr x => some (l.1, l.2.1, x) | _ => none with
  | some (g, b, x) => s.failCmd k m g b x
  | none =>
    let named := ls.filterMap fun l => match l.2.2 with | .inl x => some (l.1, x) | _ => none
    let w := m.unitBits s
    let tail := if named.any fun l => l.2.carried then [((hull (m.rows w)).2, 32)] else []
    let (c, m) := (s.core k).engineTouch m (m.unitBytes w m.pos us.length ++ tail) 3 false
    let named := named.drop m.sent
    let (s, fly, bad) := (s.setCore k c).sendAll k m (colOf k) none (m.pos, m.sent, us.length) (named.map (·.2))
    let m := { m with flying := m.flying + fly }
    match bad with
    | some (i, x) => s.failCmd k { m with sent := m.sent + i, run := us.length } ((named[i]?.map (·.1)).getD (m.h 0))
        ((named[i]?.map (·.2.block)).getD 0) x
    | none =>
      let m := { m with pos := m.pos + us.length, sent := 0 }
      s.setCmd k { m with stage := if m.total ≤ m.pos then .drain else .walk }

/-- A write of another core has come to the home engine of a cache tensor that the command writes (R367): the walk waits for
the next ac. -/
def State.writesLate (s : State) (k : Nat) (m : Cmd) : Bool :=
  (m.bases s).any fun h => handleClass h == 1 && s.comesLate k h

/-- A walk for the next run of a write: none while a block moves or an earlier command's writes have not left. A command of
several destinations lands at each of them once every block of each has passed (R241); one of a single destination goes on
block by block, and where its units do not come in the order of their blocks, all at once in that order (R227). -/
def State.walkWrite (s : State) (k : Nat) (m : Cmd) : Option State :=
  if s.writeOrder k m || s.writesLate k m then none
  else if 1 < m.dests.length then
    (s.checkAll k m).map fun r => match r with
      | .inl t => t
      | .inr m =>
        if m.stale then s.setCmd k { m with stage := .drain }
        else
          let bs := m.dests.filterMap fun g => match s.baseOf g true with | .inl (h, v) => some (g, h, v) | .inr _ => none
          s.deliver k m bs (m.runUnits (m.total - m.pos))
  else
    let g := m.h 0
    match s.baseOf g true with
    | .inr x => some (s.failCmd k m g 0 x)
    | .inl (h, v) =>
      if !s.tensorValid h then some (s.failCmd k m g 0xFFFFFFFF { cause := 0x10 })
      else match s.placeAt k m h v m.pos with
        | .inr x => some (s.failCmd k m g 0 x)
        | .inl p =>
          let s := s.walked k h p.block
          match s.checkBlock k h p.block (if m.reduces then 2 else 1) with
          | .wait => none
          | .dropped => some (s.meetDropped k m h p.block)
          | .bad x => some (s.failCmd k m g p.block x)
          | .ok d =>
            if s.storeFault m v d then some (s.failCmd k m g p.block { cause := 0x14 })
            else
              let left := m.total - m.pos
              let spread := s.descends k m h v
              let n := if m.sent ≠ 0 then m.run
                else if spread then s.passing k m h v [] left m.pos else s.runFrom k m h v p.block p.key left m.pos
              -- a tile is written whole: a later block that does not pass stops the transfer first
              if spread ∧ n < left ∧ m.store v d ≠ .plain then
                let u := m.pos + n
                match s.placeAt k m h v u with
                | .inr x => some (s.failCmd k m g 0 x)
                | .inl q => match s.checkBlock k h q.block (if m.reduces then 2 else 1) with
                  | .wait => none
                  | .dropped => some (s.meetDropped k m h q.block)
                  | .bad x => some (s.failCmd k m g q.block x)
                  | .ok _ => some (s.failCmd k m g q.block { cause := 0x14 })
              else some (s.deliver k m [(g, h, v)] (m.runUnits n))

/-! ### Near-memory update (R219, R220) -/

/-- The destination column can apply column `j`'s next write at once (R228). -/
def State.canApply (s : State) (j d : Nat) : Bool :=
  let vj := (s.column j).vc
  let vd := (s.column d).vc
  (List.range 4).all fun i => if i = j then vj.getD i 0 == vd.getD i 0 else vcLe (vj.getD i 0) (vd.getD i 0)

/-- Landings of one granule leave and are applied in one step: the columns that serve them take every stamp at once, and
stamps leave for the others (R219, R227). -/
def State.commit (s : State) (k : Nat) (m : Cmd) (ls : List Landing) : State :=
  let j := colOf k
  let dest := fun (l : Landing) => s.locColumn (handleHome l.handle) (dLoc ((s.tensor l.handle).block l.block))
  let ds := ls.map dest
  ls.foldl (fun s l =>
    let v := vcBump (s.column j).vc j
    let s := s.modColumn j fun c => { c with vc := v }
    let s := (ds.filter (· != j)).foldl (fun s d => s.modColumn d fun c => { c with vc := c.vc.set j (v.getD j 0) }) s
    let s := (s.land l).getD s
    { s with transit := s.transit ++ ((List.range 4).filter fun x => x != j && !ds.contains x).map fun x =>
        { frm := j, dest := x, vec := v, core := k, strm := m.strm, seq := m.seq : Flight } }) s

/-- Element `i` of a tensor as an exact value, from its current version, in its block's format. -/
def State.elemNum (s : State) (h i : Nat) : Num :=
  let t := s.tensor h
  let w := fmtWidth t.info.fmt.toNat
  let bit := i * w
  let d := t.block (bit / (8 * 65536))
  decodeNum 0 (dFmt d) (s.frameCode (dLoc d) (bit % (8 * 65536)) w)

/-- The new P and V of one element (R219), as exact P, and V's fp32 code. -/
def nmcElem (p g v : Num) (lr fade beta : Nat) (lG : Int) (mom : Bool) : Nat × Nat :=
  let g32 := roundArith 0 0 0 (g.scale (-lG))
  let p32 := roundArith 0 0 0 p
  let t := fpFma 0 0 0 fade p32 g32
  let vv := if mom then fpFma 0 0 0 beta (roundArith 0 0 0 v) t else t
  (fpFma 0 0 0 (lr ^^^ 2 ^ 31) vv p32, vv)

/-- What an nmc needs of a block of its `i`-th tensor: P a parameter block of fp32 or bf16, G fp32 or bf16, V fp32. -/
def nmcBlockOk (i : Nat) (d : BitVec 256) : Bool :=
  match i with
  | 0 => dget d 22 1 == 1 && dFmt d ≤ 1
  | 1 => dFmt d ≤ 1
  | _ => dFmt d == 0

/-- Blocks of G, and of V with momentum, that the next granule reads and writes: tensor's place, block, access kind. -/
def State.nmcOthers (s : State) (m : Cmd) (mom : Bool) : List (Nat × Nat × Nat) :=
  let byte := m.num 24 8 + 4096 * m.outcomes.length
  let wP := max 1 (fmtWidth (s.tensor (m.h 0)).info.fmt.toNat)
  let span := fun i =>
    let w := fmtWidth (s.tensor (m.h i)).info.fmt.toNat
    let lo := byte * 8 / wP * w
    let hi := (byte + 4096) * 8 / wP * w - 1
    [lo / (8 * 65536), hi / (8 * 65536)].eraseDups
  (span 1).map (fun b => (1, b, 0)) ++ (if mom then (span 2).flatMap fun b => [(2, b, 0), (2, b, 1)] else [])

/-- A granule of an nmc has its outcome, and `b` bytes of it have committed. -/
def State.nmcDone (s : State) (k : Nat) (m : Cmd) (o b : Nat) : State :=
  let m := { m with outcomes := m.outcomes ++ [o], moved := m.moved + b, pos := m.pos + 1 }
  s.setCmd k { m with stage := if m.granules ≤ m.outcomes.length then .drain else .walk }

/-- Step of the next granule, from the side table of the storage that P's block lies in. A granule that the table does not
list is at step 0 (DESIGN CHOICE, unsafe: log entry 73). -/
def State.nmcStep (s : State) (m : Cmd) (d : BitVec 256) : Nat :=
  (look 0 s.steps (16 * dLoc d + (m.num 24 8 + 4096 * m.outcomes.length) % 65536 / 4096)).toNat

/-- A granule at step n - 1 is built and committed, when its blocks, of which `bs` are those of G and V, have passed (R219).
DEDUCED, safe: log entry 23. -/
def State.nmcGranule (s : State) (k : Nat) (m : Cmd) (mom : Bool) (bs : List (Nat × Nat × Nat)) : State :=
    let n := m.b.toNat % 2 ^ 32
    let byte := m.num 24 8 + 4096 * m.outcomes.length
    let P := m.h 0
    let d := (s.tensor P).block (byte / 65536)
    let q := byte % 65536 / 4096
    let locs := (P, dLoc d) :: bs.map fun b => (m.h b.1, dLoc ((s.tensor (m.h b.1)).block b.2.1))
    let (bad, s) := s.eccAny (locs.map (·.2)).eraseDups
    let m := { m with vec := s.returned m.vec locs }
    if bad then s.nmcDone k m 3 0
    else
      let f := dFmt d
      let w := fmtWidth f
      let e0 := byte * 8 / w
      let cnt := 4096 * 8 / w
      let lG := (s.tensor (m.h 1)).info.curl.toInt
      let rs := (List.range cnt).map fun i =>
        nmcElem (s.elemNum P (e0 + i)) (s.elemNum (m.h 1) (e0 + i)) (s.elemNum (m.h 2) (e0 + i)) (m.num 12 4) (m.num 16 4)
          (m.num 20 4) lG mom
      let codes := rs.zip (List.range cnt) |>.map fun r =>
        let bit := 8 * (byte % 65536) + r.2 * w
        (bit, (convert 0 (decodeNum 0 0 r.1.1) f (dget d 12 3) (dget d 15 1 == 1)
          (rbStore (dget d 192 64) ((8 * 65536 * (byte / 65536) + bit) / 4))).code)
      let bytesAt := fun (c : Nat × Nat) (n : Nat) => (leBytes n c.2).zip (List.range n) |>.map fun x => (c.1 / 8 + x.2, x.1)
      let lp : Landing := { handle := P, block := byte / 65536, step := some (q, n)
                            bytes := codes.flatMap fun c => bytesAt c (w / 8) }
      let lv := if mom then
          let es := (List.range cnt).map fun i => ((e0 + i) * 32, (rs.getD i (0, 0)).2)
          let blocks := (es.map fun e => e.1 / (8 * 65536)).eraseDups
          blocks.map fun b =>
            let mine := (es.filter fun e => e.1 / (8 * 65536) == b).map fun e => (e.1 % (8 * 65536), e.2)
            ({ handle := m.h 2, block := b, bytes := mine.flatMap fun e => bytesAt e 4 } : Landing)
        else []
      (s.commit k m (lp :: lv)).nmcDone k m 0 4096

/-- What the checks of some blocks that an nmc names come to: none while one moves; the state where one stops the command;
else nothing. -/
def State.nmcChecks (s : State) (k : Nat) (m : Cmd) (bs : List (Nat × Nat × Nat)) : Option (Option State) :=
  let cs := bs.map fun b => (b, s.checkBlock k (m.h b.1) b.2.1 b.2.2)
  if cs.any fun c => c.2 == .wait then none
  else match cs.find? fun c => c.2 == .dropped with
    | some c => some (some (s.meetDropped k m (m.h c.1.1) c.1.2.1))
    | none => some ((cs.findSome? fun c => match c.2 with
      | .bad x => some (c.1, x)
      | .ok d =>
        if s.partnerLost k (dLoc d) then some (c.1, { cause := 0x13, detail := 0xFF })
        else if !nmcBlockOk c.1.1 d then some (c.1, { cause := 0x14 })
        else none
      | _ => none).map fun e => s.failCmd k m (m.h e.1.1) e.1.2.1 e.2)

/-- One granule of an nmc: P's block is checked for the granule's step, and those of G and V where the granule is built
(R219). A handle of another class than an ordinary tensor's raises VIEW_BAD (DESIGN CHOICE, safe: log entry 93). -/
def State.walkNmc (s : State) (k : Nat) (m : Cmd) (mom : Bool) : Option State :=
  let byte := m.num 24 8 + 4096 * m.outcomes.length
  if s.writeOrder k m then none
  else if m.num 24 8 % 4096 ≠ 0 ∨ m.num 32 8 % 4096 ≠ 0 then some (s.failCmd k m (m.h 0) 0 { cause := 0x0A })
  else match m.handles.find? fun h => handleClass h != 0 with
  | some h => some (s.failCmd k m h 0 { cause := 0x14 })
  | none =>
    if m.granules ≤ m.outcomes.length then some (s.setCmd k { m with stage := .drain })
    else
      let s := s.walked k (m.h 0) (byte / 65536)
      match s.nmcChecks k m [(0, byte / 65536, 0), (0, byte / 65536, 1)] with
      | none => none
      | some (some t) => some t
      | some none =>
        let n := m.b.toNat % 2 ^ 32
        let st := s.nmcStep m ((s.tensor (m.h 0)).block (byte / 65536))
        if st = n then some (s.nmcDone k m 1 0)
        else if (st + 1) % 2 ^ 32 ≠ n then some (s.nmcDone k m 2 0)
        else
          let bs := s.nmcOthers m mom
          let s := bs.foldl (fun s b => s.walked k (m.h b.1) b.2.1) s
          match s.nmcChecks k m bs with
          | none => none
          | some (some t) => some t
          | some none =>
            let all := (0, byte / 65536, 1) :: bs
            -- a block of tier 6 that the granule writes takes storage first (R199)
            match s.prepareAll (all.filterMap fun b => if b.2.2 = 0 then none else some (m.h b.1, b.2.1)) with
            | .inr b => some (s.failCmd k m b.1 b.2 { cause := 0x2A })
            | .inl s =>
              let loc := fun (b : Nat × Nat × Nat) => (m.h b.1, dLoc ((s.tensor (m.h b.1)).block b.2.1))
              let ready := all.all fun b => b.2.2 = 0 || s.canApply (colOf k) (s.locColumn (handleHome (m.h b.1)) (loc b).2)
              if ready && s.servable k (all.map loc) then some (s.nmcGranule k m mom bs) else none

/-! ### Collectives (R412 to R415) -/

/-- The parts that a rank takes: source member, first byte in its source, first byte here, and whether the part is
taken from the peer's destination in the second step of an all-reduce. -/
def collParts (op n r b peer : Nat) : List (Nat × Nat × Nat × Bool) :=
  match op with
  | 0 => (List.range n).map fun j => (j, 0, j * b, false)
  | 1 => (List.range n).map fun j => (j, r * b, 0, false)
  | 2 => ((List.range n).map fun j => (j, r * b, r * b, false)) ++
      ((List.range n).filter (· != r)).map fun j => (j, j * b, j * b, true)
  | 3 => (List.range n).map fun j => (j, r * b, j * b, false)
  | 5 => [(peer, 0, 0, false)]
  | _ => []

/-- The operation of a part: a contribution of a reduction, of which the first to land overwrites, or a copy (R413). -/
def collOp (op rop i n : Nat) : LandOp :=
  if (op = 1 ∨ op = 2) ∧ i < n then (if rop = 0 then .add else if rop = 1 then .max else .min) else .plain

/-- Tensor and location word of byte `o` of a range that a rank reads: of its source's current version, or of what it has
written (step 2 of an all-reduce). -/
def State.collLoc (s : State) (kp : Nat) (mp : Cmd) (step2 : Bool) (o : Nat) : Nat × Nat :=
  let h := if step2 then mp.h 1 else mp.h 0
  let b := (mp.blockAt h (o / 65536)).getD 0
  if step2 then
    let d := (s.tensor h).block b
    (h, if (mp.target h).isSome ∧ dShst d = 3 then dShloc d else dLoc d)
  else (h, dLoc (s.descAt kp h b))

/-- Byte offset in its image of a part. -/
def Cmd.collFrom (mp : Cmd) (step2 : Bool) (off : Nat) : Nat := (if step2 then mp.dstOff else mp.srcOff) + off

/-- Bytes that a part takes from a peer. DESIGN CHOICE, unsafe: log entry 16. -/
def State.collBytes (s : State) (kp : Nat) (mp : Cmd) (off n : Nat) (step2 : Bool) : List Byte :=
  (List.range n).map fun i =>
    let o := mp.collFrom step2 off + i
    s.frameByte (s.collLoc kp mp step2 o).2 (o % 65536)

/-- Storage that a part is read from. -/
def State.collLocs (s : State) (kp : Nat) (mp : Cmd) (off n : Nat) (step2 : Bool) : List (Nat × Nat) :=
  (blocksOf (mp.collFrom step2 off) n).map fun b => s.collLoc kp mp step2 (65536 * b)

/-- A landing of bytes into one block of a coll's destination. -/
def Cmd.collLanding (m : Cmd) (s : State) (op : LandOp) (blk : Nat) (bs : List (Nat × Byte)) : Landing :=
  let h := m.h 1
  let b := (m.blockAt h blk).getD 0
  let d := (s.tensor h).block b
  let mine := (bs.filter fun b => b.1 / 65536 == blk).map fun b => (8 * (b.1 % 65536), b.2.toNat)
  let (es, rest) := if handleClass h = 0 ∨ op ≠ .plain then splitBytes (fmtWidth (dFmt d)) mine
    else ([], mine.map fun b => (b.1 / 8, BitVec.ofNat 8 b.2))
  { handle := h, target := m.target h, block := b, key := blk, shared := m.shared.contains (h, blk), elems := es, bytes := rest
    op := op, contrib := if op = .plain then none else some (m.group, m.place), lw := m.lw, rqf := m.rqf }

/-- Writes that a rank sends to members in other packages, by their places: one for each step (R413, R236). -/
def Cmd.collRemote (m : Cmd) (op : Nat) (peer : Nat) : List Nat :=
  let far := (List.range m.peers.length).filter fun j => !m.peers.getD j false
  match op with
  | 0 | 1 | 3 => far
  | 2 => far ++ far
  | 4 => far.filter (· == peer)
  | _ => []

/-- The bytes of a coll for one rank in another package leave over the links, to be acknowledged there (R236, R412). -/
def State.sendRank (s : State) (k : Nat) (m : Cmd) (rank : Nat) : State :=
  let t := s.transmit rank (some (s.core k).theJob.region) (m.num 24 4)
  { t with transit := t.transit ++
      [{ frm := colOf k, dest := otherPackage, vec := [], core := k, strm := m.strm, seq := m.seq
         far := some { rank := rank, first := s.freeCtr, stop := t.freeCtr } }] }

/-- A coll begins: its own rank's blocks are checked again, and what it sends to other packages leaves, to be acknowledged
there (R236). -/
def State.startColl (s : State) (k : Nat) (m : Cmd) (op : Nat) : Option State :=
  let role := m.members (s.core k).theJob
  let cs := s.collChecks k m
  let src := cs.filterMap fun c => match c.2 with
    | .ok d => if c.1.2.2 = 0 then some (c.1.1, dLoc d) else none
    | _ => none
  let far := m.collRemote op (role.members.findIdx (· == m.num 30 2))
  if cs.any fun c => c.2 == .wait then none
  else match cs.find? fun c => c.2 == .dropped with
    | some c => some (s.meetDropped k m c.1.1 c.1.2.1)
    | none =>
      match cs.findSome? fun c => match c.2 with | .bad x => some (c.1.1, c.1.2.1, x) | _ => none with
      | some (h, b, x) => some (s.failCmd k m h b x)
      | none =>
        let fail := fun (s : State) (x : Denial) =>
          some (s.failCmd k m (m.handles.headD 0) (((m.collBlocks m.peers.length m.place).headD (0, 0, 0)).2.1) x)
        if far.any fun j => s.peerLost (role.members.getD j 0) then fail s { cause := 0x13, detail := 0xFF }
        else if src.any fun l => s.partnerLost k l.2 then fail s { cause := 0x13, detail := 0xFF }
        else if !s.servable k src then none
        else
          let (bad, s) := if far = [] then (false, s) else s.eccAny (src.map (·.2))
          if bad then fail s { cause := 0x13, detail := m.srcOff % 65536 / 4096 }
          else
            let m := { m with checked := true, flying := m.flying + far.length
                              vec := if far = [] then m.vec else s.returned m.vec src }
            let s := far.foldl (fun s j => s.sendRank k m (role.members.getD j 0)) s
            some (s.setCmd k m)

/-- Every member of the group in this package has passed its checks, so that bytes may land (R241). -/
def State.groupChecked (s : State) (m : Cmd) : Bool :=
  (List.range m.peers.length).all fun j =>
    !m.peers.getD j false || (s.collMember m.group j).all fun q => q.2.checked || q.2.stage == .drain

/-- A part of a coll lands in the destination of core `k`: it leaves column `j`, as a write of the command `x` of core `kx`
(R227, R413). One that is refused stops the receiving command. -/
def State.landPart (s : State) (k : Nat) (m : Cmd) (kx : Nat) (x : Cmd) (j : Nat) (op : LandOp) (here : Nat)
    (bytes : List Byte) : State :=
  let bs := bytes.zip (List.range bytes.length) |>.map fun b => (here + b.2, b.1)
  let ls := ((blocksOf here bytes.length).map fun blk => m.collLanding s op blk bs).drop m.sent
  let owner := if kx = k ∧ x.seq = m.seq then none else some (k, m.seq)
  let (s, fly, bad) := s.sendAll kx x j owner (m.pos, m.sent, 0) ls
  let s := s.modCore kx fun c => match c.cmd .L x.seq with
    | some y => c.setCmd { y with flying := y.flying + fly }
    | none => c
  match (s.core k).cmd .L m.seq with
  | none => s
  | some y =>
    let m := { m with flying := y.flying }
    match bad with
    | some (i, e) => s.failCmd k { m with sent := m.sent + i } (m.h 1) ((ls[i]?.map (·.block)).getD 0) e
    | none => s.setCmd k { m with pos := m.pos + 1, sent := 0 }

/-- One part of a coll: the rank that it comes from reads it and sends it (R227, R230, R413). -/
def State.walkColl (s : State) (k : Nat) (m : Cmd) (op rop : Nat) : Option State :=
  if s.writeOrder k m || s.writesLate k m then none
  else if !m.checked then s.startColl k m op
  else if !s.groupChecked m then none
  else
    let n := m.peers.length
    let us := (m.members (s.core k).theJob).members
    let b := m.num 24 4
    let parts := collParts op n m.place b (us.findIdx (· == m.num 30 2))
    match parts[m.pos]? with
    | none => some (s.setCmd k { m with stage := .drain })
    | some (j, from_, to_, second) =>
      let here := m.dstOff + to_
      let lop := collOp op rop m.pos n
      if !m.peers.getD j false then
        if s.peerLost (us.getD j 0) then
          some (s.failCmd k m (m.handles.headD 0) (here / 65536) { cause := 0x13, detail := 0xFF })
        else
          let bytes := (List.range b).map fun i => Config.freeByte (s.freeCtr + i)
          some (({ s with freeCtr := s.freeCtr + b } : State).landPart k m k m otherPackage lop here bytes)
      else match s.collMember m.group j with
        | none => none
        | some (kp, mp) =>
          let ready := !second || (blocksOf (mp.dstOff + from_) b).all fun x => n ≤ look 0 mp.landed x
          -- a stopped job's rank sends by the command that receives
          let live := ((s.core kp).cmd .L mp.seq).any fun y => y.group == mp.group && y.place == mp.place
          let locs := s.collLocs kp mp from_ b second
          let o := mp.collFrom second from_
          let lose := fun (s : State) (detail : Nat) =>
            let x : Denial := { cause := 0x13, detail := detail }
            some (if live then s.failCmd kp mp (if second then mp.h 1 else mp.h 0) (o / 65536) x
              else s.failCmd k m (m.h 1) (here / 65536) x)
          if (live && s.writeOrder kp mp) ∨ !ready ∨ !s.servable kp locs then none
          else if locs.any fun l => s.partnerLost kp l.2 then lose s 0xFF
          else
            let (bad, s) := s.eccAny (locs.map (·.2))
            if bad then lose s (o % 65536 / 4096)
            else
              let bytes := s.collBytes kp mp from_ b second
              let s := s.cacheRange (pairOf kp) o b locs
              if live ∧ !(kp = k ∧ mp.seq = m.seq) then
                let mp := { mp with vec := s.returned mp.vec locs }
                some ((s.setCmd kp mp).landPart k m kp mp (colOf kp) lop here bytes)
              else
                let m := { m with vec := s.returned m.vec locs }
                some (s.landPart k m k m (colOf kp) lop here bytes)

/-! ### Video decode (R419 to R421) -/

/-- Sample of a decoded plane at luma position (x, y), taken to 10 bits and repeated over 2 x 2 for chroma (R420). -/
def videoSample (v : Video) (frame plane x y : Nat) : Option Nat :=
  if plane ≠ 0 ∧ v.mono then none
  else
    let w := if plane = 0 then v.width else (v.width + 1) / 2
    let (x, y) := if plane = 0 then (x, y) else (x / 2, y / 2)
    let c := (v.samples.getD (3 * frame + plane) []).getD (y * w + x) 0
    some (if v.eightBit then 4 * c else c)

/-- Exact value of a sample; a plane that is absent writes 0 (R420). -/
def sampleNum : Option Nat → Num
  | none => .fin false 0 0
  | some c => .ofInt ((c : Int) - 512) (-9)

/-- The elements of one frame that a dec writes: coordinates and value. -/
def Cmd.decFrame (m : Cmd) (v : Video) (patch : Bool) (i : Nat) : List (List Nat × Num) :=
  let at_ := (m.num 20 4 + m.b.toNat) % 2 ^ 32 + i
  (List.range 3).flatMap fun pl => (List.range v.height).flatMap fun y => (List.range v.width).map fun x =>
    (sampleCoords patch pl x y at_, sampleNum (videoSample v i pl x y))

/-- The stream lies within R419: its frame size, and chroma planes in HEVC. -/
def videoFits (v : Video) (codec : Nat) : Bool :=
  decide (16 ≤ v.width) && decide (v.width ≤ 8192) && decide (16 ≤ v.height) && decide (v.height ≤ 4352) &&
    !(codec == 1 && v.mono)

/-- What a decode writes into one block, from the values at its bit offsets: in an 8-bit format a tile with its trailer,
whose amax is that of the values before conversion (R58, R421). -/
def decLanding (h : Nat) (target : Option Nat) (lw : Int) (blk fmt : Nat) (trl : Bool) (vs : List (Nat × Num)) : Landing :=
  let cs := vs.map fun e => (e.1, convert 0 e.2 fmt 0 true 0)
  let es := cs.map fun e => (e.1, e.2.code)
  let l : Landing := { handle := h, target := target, block := blk, elems := es, lw := lw }
  if trl then
    let lo := es.foldl (fun a e => min a e.1) (8 * 65536)
    let hi := es.foldl (fun a e => max a (e.1 + 8)) 0
    let sat := (cs.filter fun e => e.2.sat).length
    { l with
      elems := sortElems es
      trailer := some (lo / 8192, trailerBytes (amaxCode (amaxNum (vs.map (·.2)))) sat fmt 0 0 0 es.length
        (crc32c ((sortElems es).map fun e => BitVec.ofNat 8 e.2)))
      span := hi / 8 - lo / 8 }
  else l

/-- A dec stops at frame `i` of its output: the record's extent counts the frames not written (R421). -/
def State.failFrame (s : State) (k : Nat) (m : Cmd) (v : Video) (patch : Bool) (i h b : Nat) (x : Denial) : State :=
  let frame := 3 * v.width * v.height * fmtWidth (m.num 24 1) / 8
  let m := { m with pos := i }
  s.setCmd k { m with stage := .failed { m.record s k h b x with
    coords := sampleCoords patch 0 0 0 ((m.num 20 4 + m.b.toNat) % 2 ^ 32 + i)
    remaining := (m.num 25 1 - i) * frame, delivered := i * frame } }

/-- The frames of a decoded stream from the command's next one on are written (R420, R421): those before the first that
has an element outside the output's extents, block by block in increasing address order. A view other than a slice has no
such place (DESIGN CHOICE, safe: log entry 93). An 8-bit output is a converting transfer, one tile per block (R202);
another lands by R239 in any block. A block of another format than the command's raises VIEW_BAD (DESIGN CHOICE, safe: log
entry 100). -/
def State.writeFrames (s : State) (k : Nat) (m : Cmd) (v : Video) (patch : Bool) (src out : Nat) (view : Option View) :
    Option State :=
  let fmt := m.num 24 1
  let fail := fun (s : State) i h b x => s.failFrame k m v patch i h b x
  let count := min v.frames (m.num 25 1)
  let place := fun (e : List Nat × Num) =>
    (match (match view with | some w => w.map e.1 | none => some e.1) with
      | some cs => s.place [] out cs
      | none => .inr { cause := 0x11, detail := 5 }, e.2)
  let frames := (List.range (count - m.pos)).map fun i => (m.decFrame v patch (m.pos + i)).map place
  let inside := fun (p : (Place ⊕ Denial) × Num) => match p.1 with | .inl _ => true | .inr _ => false
  let good := frames.takeWhile fun f => f.all inside
  let stop := m.pos + good.length
  let qs := good.flatten.filterMap fun p => match p.1 with | .inl q => some (q.block, q.bit, p.2) | _ => none
  let blocks := qs.foldl (fun l q => if l.contains q.1 then l else insertAsc q.1 l) []
  let ws := blocks.map fun b => (b, s.checkBlock k out b 1)
  if ws.any fun c => c.2 == .wait then none
  else match ws.find? fun c => c.2 == .dropped with
    | some c => some (s.meetDropped k m out c.1)
    | none =>
      match ws.findSome? fun c => match c.2 with | .bad x => some (c.1, x) | _ => none with
      | some (b, x) => some (fail s m.pos (m.h 1) b x)
      | none =>
        -- the source's exponent, by the second rule of R239
        let lw := if handleClass src = 0 then (s.tensor src).info.curl.toInt else 0
        let ls := blocks.map fun b =>
          let d := (s.tensor out).block b
          (d, decLanding out (m.target out) lw b fmt (fmtWidth fmt == 8) ((qs.filter fun q => q.1 == b).map fun q => (q.2.1, q.2.2)))
        let low := fun (l : Landing) => l.elems.foldl (fun a e => min a e.1) (8 * 65536)
        let bad := fun (p : BitVec 256 × Landing) => dFmt p.1 != fmt ||
          (fmtWidth fmt == 8 && (!dTrl p.1 || low p.2 % 8192 != 0 || (some p.2.block != blocks.head? && low p.2 != 0)))
        if ls.any bad then some (fail s m.pos (m.h 1) 0 { cause := 0x14 })
        else
          let (s, fly, no) := s.sendAll k m (colOf k) none (m.pos, m.sent, 0) ((ls.map (·.2)).drop m.sent)
          let m := { m with flying := m.flying + fly }
          match no with
          | some (i, x) =>
            some (s.failFrame k { m with sent := m.sent + i } v patch m.pos (m.h 1) ((blocks.drop (m.sent + i)).headD 0) x)
          | none =>
            let m := { m with sent := 0 }
            if stop < count then some (s.failFrame k m v patch stop (m.h 1) 0 { cause := 0x11, detail := 5 })
            else if v.bad ∧ v.frames < m.num 25 1 then
              some (s.failFrame k m v patch v.frames (m.h 0) (m.num 8 8 / 65536) { cause := 0x14 })
            else some (s.setCmd k { m with pos := stop, stage := .drain })

/-- The tensor whose bytes a dec reads: reads through a quantising view see the stored codes, and no other view has an image
of bytes (R215, R216; DESIGN CHOICE, safe: log entry 93). -/
def State.imageOf (s : State) (h : Nat) : Nat ⊕ Denial :=
  match s.baseOf h false with
  | .inr x => .inr x
  | .inl (b, none) => .inl b
  | .inl (b, some v) => if v.kind = 2 then .inl b else .inr { cause := 0x14 }

/-- The whole of a dec in one walk. An output tensor of another format than the command's raises VIEW_BAD (DESIGN CHOICE,
safe: log entry 100). -/
def State.walkDec (s : State) (k : Nat) (m : Cmd) (codec : Nat) (patch : Bool) : Option State :=
  let off := m.num 8 8
  let len := m.num 16 4
  if s.writeOrder k m || s.writesLate k m then none
  else match s.imageOf (m.h 0), s.baseOf (m.h 1) true with
  | .inr x, _ => some (s.failCmd k m (m.h 0) 0 x)
  | _, .inr x => some (s.failCmd k m (m.h 1) 0 x)
  | .inl src, .inl (out, view) =>
    if view.any fun w => w.kind != 4 then some (s.failCmd k m (m.h 1) 0 { cause := 0x14 })
    else
      let s := (blocksOf off len).foldl (fun s b => s.walked k src b) s
      let cs := (blocksOf off len).map fun b => (b, s.checkBlock k src b 0)
      if cs.any fun c => c.2 == .wait then none
      else match cs.find? fun c => c.2 == .dropped with
        | some c => some (s.meetDropped k m src c.1)
        | none =>
          match cs.findSome? fun c => match c.2 with | .bad x => some (c.1, x) | _ => none with
          | some (b, x) => some (s.failCmd k m (m.h 0) b x)
          | none =>
            let locs := cs.filterMap fun c => match c.2 with | .ok d => some (src, dLoc d) | _ => none
            let lose := fun (s : State) (detail : Nat) =>
              some (s.failCmd k m (m.h 0) (off / 65536) { cause := 0x13, detail := detail })
            if locs.any fun l => s.partnerLost k l.2 then lose s 0xFF
            else if !s.servable k locs then none
            else
              let (bad, s) := s.eccAny (locs.map (·.2))
              if bad then lose s (off % 65536 / 4096)
              else
                let m := { m with vec := s.returned m.vec locs }
                let v := Config.video codec (s.imageBytes src off len)
                let s := s.cacheRange (pairOf k) off len locs
                if !videoFits v codec then some (s.failFrame k m v patch m.pos (m.h 0) (off / 65536) { cause := 0x14 })
                else if patch ∧ (v.width % 16 ≠ 0 ∨ v.height % 16 ≠ 0) ∨ (s.tensor out).info.fmt.toNat ≠ m.num 24 1 then
                  some (s.failFrame k m v patch m.pos (m.h 1) 0 { cause := 0x14 })
                else s.writeFrames k m v patch src out view

/-! ### The events -/

/-- The walk of an accepted command's next block; one whose rebuild has failed takes its cause, whatever has become of the
tensor since (R356). DESIGN CHOICE, unsafe: log entry 14. -/
def State.walk (s : State) (k : Nat) (m : Cmd) : Option State :=
  match m.doomed with
  | some (h, b, e) => some (s.failCmd k { m with doomed := none } h b { cause := e })
  | none =>
  match m.instr with
  | .nmc _ _ _ mom => s.walkNmc k m (mom == 1)
  | .coll _ _ _ op rop => s.walkColl k m op.toNat rop.toNat
  | .dec _ _ _ codec layout => s.walkDec k m codec.toNat (layout == 1)
  | _ => if m.dir = 1 then s.walkWrite k m else s.walkRead k m

/-- TRANSLATION_WALK (R205): A walker fetches a block descriptor into a translation cache. -/
def execTranslationWalk (core : Nat) (strm : Strm) (seq : Nat) (s : State) : Host.Outcome State Fault Refusal :=
  let no : Host.Outcome State Fault Refusal := .refused (.notEnabled "TRANSLATION_WALK")
  match (s.core core).cmd strm seq with
  | none => no
  | some m =>
    if m.stage ≠ .walk then no
    else match s.walk core m with
      | some t => .next t
      | none => no

/-- READ_SERVE (R229): A serving column serves a tensor read once its vector clock covers the reader's. -/
def execReadServe (core : Nat) (strm : Strm) (seq : Nat) (s : State) : Host.Outcome State Fault Refusal :=
  let no : Host.Outcome State Fault Refusal := .refused (.notEnabled "READ_SERVE")
  match (s.core core).cmd strm seq with
  | none => no
  | some m =>
    match m.stage with
    | .read vec =>
      match s.serve core m vec with
      | some t => .next t
      | none => no
    | _ => no

/-- A landing that finds no space stops its command (R221). -/
def State.landFailed (s : State) (f : Flight) (h b : Nat) : State :=
  let (k, seq) := f.owner.getD (f.core, f.seq)
  match (s.core k).cmd f.strm seq with
  | some m => s.failCmd k m h b { cause := 0x2A }
  | none => s

/-- One write of a command has been applied, or acknowledged by another package. -/
def State.landedOne (s : State) (f : Flight) : State :=
  s.modCore f.core fun c => match c.cmd f.strm f.seq with
    | some m => c.setCmd { m with flying := m.flying - 1 }
    | none => c

/-- A write to another package is lost with both links to it (R409): its command stops with UNCORRECTABLE, and what it has on
its way there is sent again on resume, from the first of it on; a coll sends all again. -/
def State.loseFar (s : State) (f : Flight) : State :=
  let (k, seq) := f.owner.getD (f.core, f.seq)
  let mine := fun (g : Flight) => g.dest == otherPackage && g.strm == f.strm && g.owner.getD (g.core, g.seq) == (k, seq)
  let gone := s.transit.filter mine
  let s := gone.foldl State.landedOne { s with transit := s.transit.filter fun g => !mine g }
  match (s.core k).cmd f.strm seq, (gone.filterMap (·.far)).head? with
  | some m, some p =>
    let all := gone.any fun g => g.write.isNone
    let m := if all then { m with checked := false } else { m with pos := p.pos, sent := p.sent, run := p.run }
    let (h, b) := match gone.findSome? (·.write) with
      | some w => (w.handle, w.block)
      | none => (m.handles.headD 0, ((m.collBlocks m.peers.length m.place).headD (0, 0, 0)).2.1)
    match m.stage with
    | .failed _ | .stopped _ => s.setCmd k m
    | _ => s.failCmd k m h b { cause := 0x13, detail := 0xFF }
  | _, _ => s

/-- The `n`-th write or stamp that has come to a column is applied (R228); at `otherPackage`, the `n`-th write to another
package is acknowledged there, once its flits have gone (R236), or lost where no link reaches it (R409). -/
def execWriteApply (col n : Nat) (s : State) : Host.Outcome State Fault Refusal :=
  let no : Host.Outcome State Fault Refusal := .refused (.notEnabled "WRITE_APPLY")
  match (s.transit.filter fun f => f.dest == col)[n]? with
  | none => no
  | some f =>
    let vd := (s.column col).vc
    let ok := (List.range 4).all fun k =>
      if k = f.frm then f.vec.getD k 0 == (vd.getD k 0 + 1) % 2 ^ 48 else vcLe (f.vec.getD k 0) (vd.getD k 0)
    if col = otherPackage then
      if f.far.any fun p => s.peerLost p.rank then (if f.strm = .C then no else .next (s.loseFar f))
      else if f.far.any s.onLink then no
      else
        let s := ({ s with transit := s.transit.erase f } : State).landedOne f
        .next (match f.write with
          | none => s
          | some w => (s.landContrib w).getD (s.landFailed f w.handle w.block))
    else if !ok ∨ f.write.any fun w => handleClass w.handle == 1 && s.comesLate f.core w.handle then no
    else
      let s := { s with transit := s.transit.erase f }
      let s := s.modColumn col fun c => { c with vc := c.vc.set f.frm (f.vec.getD f.frm 0) }
      match f.write with
      | none => .next s
      | some w =>
        let s := s.landedOne f
        .next ((s.arrives f.core w).getD (s.landFailed f w.handle w.block))

end Sys2Proof.Machine
end

