-- ==== Sys2Proof/Machine/Cullet.lean ====
section
/-! DEFINITION. The cullet stack: entries, forward and undo instructions, markers, attachment and detachment, spills and
refills (R291 to R315). -/
namespace Sys2Proof.Machine

/-! ### The ring (R98, R292) -/

/-- Bytes of entries on core. -/
def CoreSt.occupancy (c : CoreSt) : Nat := (c.culTop - c.culBase).toNat

def ringSize : Nat := 2 ^ 18

/-- `n` bytes of the ring from an offset on, as a memory. -/
def ringSlice (m : Memory) (base n : Nat) : Memory :=
  let a := min n (ringSize - base)
  m.slice base a ++ (m.slice 0 (n - a)).map fun e => (e.1 + a, e.2)

/-- Writes the first `n` bytes of a memory into the ring from an offset on. -/
def ringSplice (m : Memory) (base n : Nat) (v : Memory) : Memory :=
  let a := min n (ringSize - base)
  (m.splice base a v).splice 0 (n - a) (v.slice a (n - a))

def ringBytes (m : Memory) (base n : Nat) : List Byte := (List.range n).map fun i => m.byte ((base + i) % ringSize)

/-- Length of the highest chunk of the cullet tensor. -/
def CoreSt.chunkLen (c : CoreSt) : Nat := if c.culLast = 0 then 65536 else c.culLast

/-! ### Entries (R293 to R296) -/

/-- The header of an entry. -/
def entryHeader (seq cls vreg acc frac pw param : Nat) : Nat :=
  2 ^ 44 * seq + 2 ^ 38 * cls + 2 ^ 32 * vreg + 2 ^ 29 * acc + 2 ^ 24 * frac + 2 ^ 18 * pw + param

def hdrSeq (h : Nat) : Nat := bitsOf h 44 20
def hdrClass (h : Nat) : Nat := bitsOf h 38 6
def hdrVreg (h : Nat) : Nat := bitsOf h 32 6
def hdrAcc (h : Nat) : Nat := bitsOf h 29 3
def hdrFrac (h : Nat) : Nat := bitsOf h 24 5
def hdrPw (h : Nat) : Nat := bitsOf h 18 6
def hdrParam (h : Nat) : Nat := bitsOf h 0 16

/-- Remainders of `pw` bits as one number, lane 0 lowest. -/
def packRem (pw : Nat) : List Nat → Nat
  | [] => 0
  | r :: rs => r % 2 ^ pw + 2 ^ pw * packRem pw rs

/-- push_cullet (R294): the checks and the wait, then the entry and the rest of the instruction's effect. -/
def CoreSt.pushCullet (c : CoreSt) (cls vreg acc frac pw param : Nat) (rem : List Nat) (done : CoreSt → CoreSt) :
    Res CoreSt :=
  let z := 8 * pw + 8
  let r := if c.culMove = 2 then c.chunkLen else 0
  if c.culSeq = 0xFFFFF then .fault 0x23 (BitVec.ofNat 64 z)
  else if 2 ^ 18 - 8 < c.occupancy + r + z then
    if c.culHandle = 0 then .fault 0x2A (BitVec.ofNat 64 z) else .wait (.push z) c
  else
    let bytes := leBytes (8 * pw) (packRem pw rem) ++ leBytes 8 (entryHeader c.culSeq.toNat cls vreg acc frac pw param)
    .ok (done { c with
      ring := ringSplice c.ring c.culTop.toNat z (cellsAt 0 bytes)
      culTop := c.culTop + BitVec.ofNat 18 z, culSeq := c.culSeq + 1 })

/-- What top_entry finds (R295). -/
inductive TopEntry where
  | wait
  | bad (cause : Nat) (finfo : W64)
  | found (h : Nat)
  deriving DecidableEq, Repr

/-- The header of the top entry; none where the entry is not whole in the ring, a chunk being spilled left out (R295). A
header that claims more bytes than lie there is waited for by its claim, before its own check (DEDUCED, safe: log entry
86). -/
def CoreSt.topHeader (c : CoreSt) : Option Nat :=
  let whole := c.occupancy - (if c.culMove = 1 then 65536 else 0)
  if whole < 8 then none
  else
    let h := leNat (ringBytes c.ring (c.culTop - 8).toNat 8)
    if whole < 8 * hdrPw h + 8 then none else some h

/-- top_entry (R295): `acc` is none for a marker, `param` where the instruction names one. A header that fails its own check
gives FINFO bit 6 alone, in cchk too, where R296 might add the marker found (DESIGN CHOICE, unsafe: log entry 87). -/
def CoreSt.topEntry (c : CoreSt) (cls vreg : Nat) (acc param : Option Nat) : TopEntry :=
  if c.culSeq = 0 then .bad 0x21 0
  else match c.topHeader with
  | none => .wait
  | some h =>
    if hdrClass h ≠ cls ∨ hdrVreg h ≠ vreg ∨ acc.any (· != hdrAcc h) ∨ param.any (· != hdrParam h) then
      .bad 0x20 (BitVec.ofNat 64 h)
    else if hdrClass h = 0 ∨ 5 < hdrClass h ∨ bitsOf h 16 2 ≠ 0 ∨ 32 < hdrPw h ∨ hdrSeq h ≠ (c.culSeq - 1).toNat then
      .bad 0x22 64
    else .found h

/-- pop_cullet (R295). -/
def CoreSt.popCullet (c : CoreSt) (h : Nat) : CoreSt :=
  { c with culTop := c.culTop - BitVec.ofNat 18 (8 * hdrPw h + 8), culSeq := c.culSeq - 1 }

/-- Lane `j`'s remainder in the top entry. -/
def CoreSt.remOf (c : CoreSt) (h j : Nat) : Nat :=
  let pw := hdrPw h
  bitsOf (leNat (ringBytes c.ring (c.culTop - BitVec.ofNat 18 (8 * pw + 8)).toNat (8 * pw))) (pw * j) pw

/-! ### Forward and undo instructions (R298 to R305) -/

/-- The first lane that gives nothing. -/
def firstBad {α : Type} (xs : List (Option α)) : Option Nat := (List.range 64).find? fun i => (xs.getD i none).isNone

/-- A forward instruction: each lane gives a result and a remainder, or RANGE. -/
def CoreSt.forward (c : CoreSt) (cls : Nat) (vd : BitVec 6) (frac pw param : Nat) (f : Nat → Option (Nat × Nat)) :
    Res CoreSt :=
  let xs := (List.range 64).map f
  match firstBad xs with
  | some i => .fault 0x23 (BitVec.ofNat 64 i)
  | none =>
    let ys := xs.filterMap id
    c.pushCullet cls vd.toNat c.vwin.toNat frac pw param (ys.map (·.2)) fun c => c.setRow vd (ys.map (·.1))

/-- An undo form: each lane gives its value from the header and its remainder, or CULLET_CHECK. -/
def CoreSt.undo (c : CoreSt) (cls : Nat) (vd va : BitVec 6) (param : Option Nat) (good : Nat → Bool)
    (f : Nat → Nat → Nat → Option Nat) : Res CoreSt :=
  match c.topEntry cls va.toNat (some c.vwin.toNat) param with
  | .wait => .wait .pop c
  | .bad e i => .fault e i
  | .found h =>
    if !good h then .fault 0x20 (BitVec.ofNat 64 h)
    else
      let xs := (List.range 64).map fun j => f h j (c.remOf h j)
      match firstBad xs with
      | some i => .fault 0x22 (BitVec.ofNat 64 i)
      | none => .ok ((c.popCullet h).setRow vd (xs.filterMap id))

/-- Lane `j` of v as a two's complement number. -/
def CoreSt.laneInt (c : CoreSt) (v : BitVec 6) (j : Nat) : Int := sint 32 (c.lane v j)

def inInt32 (x : Int) : Bool := -(2 ^ 31) ≤ x && x < 2 ^ 31

/-- radd (R299): Adds 32-bit lanes exactly modulo 2^32. -/
def execRadd (vd va vb : BitVec 6) (s : State) : Host.Outcome State Fault Refusal :=
  lanewise (.radd vd va vb) s vd 0 fun c j => (c.lane va j + c.lane vb j) % 2 ^ 32

/-- rsub (R299): Subtracts 32-bit lanes exactly modulo 2^32. -/
def execRsub (vd va vb : BitVec 6) (s : State) : Host.Outcome State Fault Refusal :=
  lanewise (.rsub vd va vb) s vd 0 fun c j => (c.lane va j + 2 ^ 32 - c.lane vb j) % 2 ^ 32

/-- An instruction of fraction width RQF: above 24 it raises RANGE (R296, R300). -/
def CoreSt.withRqf (c : CoreSt) (r : Nat → Res CoreSt) : Res CoreSt :=
  let F := c.c.rqf.toNat
  if 24 < F then .fault 0x23 128 else r F

/-- A product's result and remainder (R300). -/
def mulLane (a m : Int) (F : Nat) : Option (Nat × Nat) :=
  let p := a * m
  let d := Int.fdiv p (2 ^ F)
  if m = 0 ∨ !inInt32 d then none else some (wrap 32 d, wrap F p)

/-- rmul (R300): Multiplies fixed-point lanes and pushes the discarded low bits onto the cullet stack. -/
def execRmul (vd va vb : BitVec 6) (s : State) : Host.Outcome State Fault Refusal :=
  issueCore (.rmul vd va vb) s fun c _ => c.withRqf fun F =>
    c.forward 1 vd F F 0 fun j => mulLane (c.laneInt va j) (c.laneInt vb j) F

/-- The exact quotient of R300's undo. -/
def undoLane (y m : Int) (F rem : Nat) : Option Int :=
  let p := y * 2 ^ F + rem
  if m = 0 ∨ Int.tmod p m ≠ 0 then none else some (Int.tdiv p m)

/-- rmul.undo (R300): Pops an rmul entry and restores the multiplied lanes exactly. -/
def execRmulUndo (vd va vb : BitVec 6) (s : State) : Host.Outcome State Fault Refusal :=
  issueCore (.rmulUndo vd va vb) s fun c _ => c.undo 1 vd va none (fun _ => true) fun h j rem =>
    (undoLane (c.laneInt va j) (c.laneInt vb j) (hdrFrac h) rem).bind fun a =>
      if inInt32 a then some (wrap 32 a) else none

/-- rshr (R301): Shifts lanes right and pushes the discarded bits. -/
def execRshr (vd va k : BitVec 6) (s : State) : Host.Outcome State Fault Refusal :=
  issueCore (.rshr vd va k) s fun c _ =>
    c.forward 2 vd k.toNat k.toNat 0 fun j =>
      some (wrap 32 (Int.fdiv (c.laneInt va j) (2 ^ k.toNat)), c.lane va j % 2 ^ k.toNat)

/-- rshr.undo (R301): Pops an rshr entry and restores the shifted lanes. -/
def execRshrUndo (vd va k : BitVec 6) (s : State) : Host.Outcome State Fault Refusal :=
  issueCore (.rshrUndo vd va k) s fun c _ =>
    c.undo 2 vd va none (fun h => hdrFrac h == k.toNat) fun _ j rem =>
      let y := c.laneInt va j * 2 ^ k.toNat
      if inInt32 y then some (wrap 32 y ||| rem) else none

/-- rlrelu (R302): Applies a reversible leaky rectifier and pushes remainders. -/
def execRlrelu (vd va vb : BitVec 6) (s : State) : Host.Outcome State Fault Refusal :=
  issueCore (.rlrelu vd va vb) s fun c _ => c.withRqf fun F =>
    c.forward 4 vd F F 0 fun j =>
      let a := c.laneInt va j
      let m := c.laneInt vb j
      if m ≤ 0 then none else if 0 ≤ a then some (wrap 32 a, 0) else mulLane a m F

/-- rlrelu.undo (R302): Pops an rlrelu entry and restores the input lanes. -/
def execRlreluUndo (vd va vb : BitVec 6) (s : State) : Host.Outcome State Fault Refusal :=
  issueCore (.rlreluUndo vd va vb) s fun c _ => c.undo 4 vd va none (fun _ => true) fun h j rem =>
    let y := c.laneInt va j
    let m := c.laneInt vb j
    if m ≤ 0 then none
    else if 0 ≤ y then (if rem = 0 then some (wrap 32 y) else none)
    else (undoLane y m (hdrFrac h) rem).bind fun a => if 0 ≤ a ∨ !inInt32 a then none else some (wrap 32 a)

/-- The bf16 code of a narrowed code, by R303's formula (DEDUCED, unsafe: log entry 103). -/
def widened (fmt x : Nat) : Nat := (convert 0 (decodeNum 0 fmt x) 0x01 0 false 0).code

/-- rnrw (R303): Narrows lanes by truncation and pushes the discarded bits. -/
def execRnrw (vd va fmt : BitVec 6) (s : State) : Host.Outcome State Fault Refusal :=
  issueCore (.rnrw vd va fmt) s fun c _ =>
    c.forward 3 vd 0 16 fmt.toNat fun j =>
      let x := c.lane va j
      if fmt.toNat = 0x01 then some (x / 2 ^ 16, x % 2 ^ 16)
      else
        let y := (convert 0 (decodeNum 0 0x01 (x % 2 ^ 16)) fmt.toNat 1 true 0).code
        some (y, Nat.xor (x % 2 ^ 16) (widened fmt.toNat y))

/-- rnrw.undo (R303): Pops an rnrw entry and restores the wide lanes. -/
def execRnrwUndo (vd va fmt : BitVec 6) (s : State) : Host.Outcome State Fault Refusal :=
  issueCore (.rnrwUndo vd va fmt) s fun c _ =>
    c.undo 3 vd va (some fmt.toNat) (fun _ => true) fun _ j rem =>
      let y := c.lane va j
      if fmt.toNat = 0x01 then some (2 ^ 16 * (y % 2 ^ 16) ||| rem)
      else some (Nat.xor rem (widened fmt.toNat (y % 2 ^ 8)))

/-- cmark (R305): Pushes a 16-bit marker entry onto the cullet stack. -/
def execCmark (imm : BitVec 16) (s : State) : Host.Outcome State Fault Refusal :=
  issueCore (.cmark imm) s fun c _ => c.pushCullet 5 0 0 0 0 imm.toNat [] id

/-- cchk (R305): Checks and pops a cullet marker entry. -/
def execCchk (imm : BitVec 16) (s : State) : Host.Outcome State Fault Refusal :=
  issueCore (.cchk imm) s fun c _ =>
    match c.topEntry 5 0 none none with
    | .wait => .wait .pop c
    | .bad e i => .fault e i
    | .found h =>
      if hdrParam h = imm.toNat then .ok (c.popCullet h) else .fault 0x22 (BitVec.ofNat 64 (2 ^ 16 * hdrParam h))

/-- cdepth (R306). -/
def execCdepth (rd : BitVec 5) (s : State) : Host.Outcome State Fault Refusal :=
  issueCore (.cdepth rd) s fun c x =>
    .ok (c.modStrm x fun t => t.setReg rd.toNat
      (BitVec.ofNat 64 (c.culSeq.toNat + 2 ^ 20 * c.occupancy + 2 ^ 38 * c.culChunks.toNat)))

/-! ### Attachment and detachment (R307 to R311) -/

/-- FINFO of a refused tensor instruction or attachment (R308, R360). -/
def tensorInfo (h : Nat) (x : Denial) : W64 :=
  BitVec.ofNat 64 (h + (if x.cause = 0x11 then 2 ^ 56 * x.detail else 0))

/-- Where an attempt that may have to wait has come to. -/
inductive Attempt where
  | wait
  | dropped
  | bad (x : Denial)
  | done (s : State)

/-- A dropped tensor met by an instruction: outside handler mode the job is to be suspended; in handler mode the
instruction waits for the rebuild (R356, R361). -/
def CoreSt.awaitRebuild (c : CoreSt) (h : Nat) : CoreSt :=
  let c := { c with susp := some (c.susp.getD h) }
  if c.hm then c
  else match c.phase with
    | .running => { c.marked with phase := .stopping .suspend }
    | _ => c

/-- A cullet header that R308 step 3 accepts. -/
def headerOk (b : List Byte) : Bool :=
  let n := descNum b 4 4
  let l := descNum b 8 4
  descNum b 12 4 == 0 && descNum b 0 4 < 2 ^ 20 && (if n = 0 then l == 0 else 1 ≤ l && l ≤ 65536)

/-- Attaching `h` to core `k` (R308), as far as the refill of step 6, which its dray begins in its turn (R339): the state
with what its reads have drawn, and the outcome. DEDUCED, safe: log entry 43. -/
def State.attach (s : State) (k h : Nat) : State × Attempt :=
  let d := (s.tensor h).block 0
  let a := (s.core k).access
  if handleClass h ≠ 3 then (s, .bad { cause := 0x14 })
  else match s.checkDesc a h d 0, s.checkDesc a h d 1 with
    | .bad x, _ => (s, .bad x)
    | _, .bad x => (s, .bad x)
    | .ok _, .ok _ =>
      let own := (s.column (colOf k)).vc
      let home := (s.column (s.locColumn (handleHome h) (dLoc d))).vc
      if !vcCovers home own ∨ !vcCovers own home ∨ s.comesLate k h then (s, .wait)
      else if s.partnerLost k (dLoc d) then (s, .bad { cause := 0x13, detail := 0xFF })
      else
        let (bad, s) := (s.comes k h).eccBad (dLoc d)
        (s, if bad then .bad { cause := 0x13 } else
        let b := s.frameBytes (dLoc d) 0 20
        if !headerOk b then .bad { cause := 0x23 }
        else match s.prepare h 0 false with
          | none => .bad { cause := 0x2A }
          | some s =>
            let s := (s.setFrame (dLoc ((s.tensor h).block 0)) 12 (leBytes 4 1 ++ leBytes 4 k)).pinUp h
            let n := descNum b 4 4
            let l := descNum b 8 4
            let short := n ≠ 0 ∧ l < 65536
            .done (s.modCore k fun c => { c with
              culHandle := BitVec.ofNat 32 h, culChunks := BitVec.ofNat 32 n, culBase := 0, culTop := 0
              culSeq := BitVec.ofNat 20 (descNum b 0 4), culLast := if short then l else 0 }))
    | .dropped, _ => (s, .dropped)
    | _, _ => (s, .wait)

/-- A transfer record of a chunk move or of a detachment's chunk (R207, R314). -/
def CoreSt.chunkRecord (c : CoreSt) (chunk n : Nat) (x : Denial) : TransferRec :=
  { seq := c.c.seq, cause := x.cause, strm := .C, engine := 0, handle := c.culHandle.toNat, block := chunk + 1
    coords := [65536 * (chunk + 1) % 2 ^ 32, 65536 * (chunk + 1) / 2 ^ 32, 0, 0, 0, 0], remaining := n, detail := x.detail }

/-- One write of ring bytes or of header bytes leaves the core's column (R310, R312). -/
def State.culletWrite (s : State) (k blk n : Nat) (v : Memory) : Attempt :=
  let h := (s.core k).culHandle.toNat
  match s.checkDesc (s.core k).access h ((s.tensor h).block blk) 1 with
  | .bad x => .bad x
  | .ok _ =>
    match s.prepare h blk false with
      | none => .bad { cause := 0x2A }
      | some s =>
        let loc := dLoc ((s.tensor h).block blk)
        let col := if locTier loc = 4 then otherPackage else s.locColumn (handleHome h) loc
        if s.partnerLost k loc then .bad { cause := 0x13, detail := 0xFF }
        else match s.leave (colOf k) col { handle := h, block := blk, fill := some (n, v) } k .C 0 with
        | some (s, _) => .done s
        | none => .bad { cause := 0x2A }
  | _ => .wait

/-- The chunks of a detachment, from chunk `j` on, `left` bytes of them: a wait or a denied block stops it. -/
def State.flushChunks (s : State) (k : Nat) : Nat → Nat → Nat → Nat → Attempt × Nat
  | 0, j, _, _ => (.done s, j)
  | fuel + 1, j, at_, left =>
    if left = 0 then (.done s, j)
    else
      let n := min left 65536
      match s.culletWrite k (j + 1) n (ringSlice (s.core k).ring at_ n) with
      | .done t => t.flushChunks k fuel (j + 1) ((at_ + n) % ringSize) (left - n)
      | r => (r, j)

/-- Steps 2 and 3 of R310: the writes leave. A chunk that the attachment had still to refill keeps its length. -/
def State.startDetach (s : State) (k : Nat) : Attempt × Nat :=
  let c := s.core k
  let o := c.occupancy
  match s.flushChunks k 5 c.culChunks.toNat c.culBase.toNat o with
  | (.done t, n) =>
    let last := if n = 0 then 0 else if o = 0 then c.chunkLen else if o % 65536 = 0 then 65536 else o % 65536
    match t.culletWrite k 0 20 (cellsAt 0 (leBytes 4 c.culSeq.toNat ++ leBytes 4 n ++ leBytes 4 last ++ leBytes 8 0)) with
    | .done u => (.done (u.modCore k fun c => { c with culLeave := some (u.column (colOf k)).vc }), n)
    | r => (r, n)
  | r => r

/-- Every column has performed what the vector names, and other packages have acknowledged the chunks of core `k`'s C
stream. -/
def State.performed (s : State) (k : Nat) (vec : List Nat) : Bool :=
  ((List.range 4).all fun c => vcCovers (s.column c).vc vec) &&
    !s.transit.any fun f => f.dest == otherPackage && f.core == k && f.strm == .C

/-- The cullet registers of a core that is attached to nothing. -/
def CoreSt.clearCullet (c : CoreSt) : CoreSt :=
  { c with culHandle := 0, culChunks := 0, culBase := 0, culTop := 0, culSeq := 0, culLast := 0, culLeave := none }

/-- Core `k` is attached to nothing, and so are its registers where they stand aside (R310, R380). -/
def State.unattach (s : State) (k : Nat) : State :=
  { s.modCore k CoreSt.clearCullet with
    asides := s.asides.map fun p => (p.1, if p.1 = k then p.2.clearCullet else p.2) }

/-- Detaching (R310): one more stage of it, or done. A denied block is a transfer fault of C (R314). -/
def State.detach (s : State) (k : Nat) : Attempt :=
  let c := s.core k
  if c.culMove ≠ 0 then .wait
  else match c.culLeave with
    | some v =>
      if s.performed k v then .done ((s.pinDown c.culHandle.toNat).unattach k) else .wait
    | none => .wait

/-- A cullet write of core `k` on its way to another package. -/
def Flight.ofCullet (f : Flight) (k : Nat) : Bool := f.dest == otherPackage && f.core == k && f.strm == .C

/-- Both links to the package that a cullet write of core `k` is on its way to are down (R409). -/
def State.culletLost (s : State) (k : Nat) : Bool := s.transit.any fun f => f.ofCullet k && f.far.any fun p => s.peerLost p.rank

/-- The cullet writes of core `k` on their way to another package are given up. -/
def State.dropCullet (s : State) (k : Nat) : State := { s with transit := s.transit.filter fun f => !f.ofCullet k }

/-- A detachment that has not begun begins: its state after that, or none where it cannot begin now. One whose writes are
lost with their links is a transfer fault of C, and begins again (R314, R409). -/
def State.beginDetach (s : State) (k : Nat) : Option State :=
  let c := s.core k
  if c.culLeave.isSome ∧ s.culletLost k then
    some ((s.dropCullet k).modCore k fun c =>
      ({ c with culLeave := none } : CoreSt).raiseTransfer
        (c.chunkRecord c.culChunks.toNat (min c.occupancy 65536) { cause := 0x13, detail := 0xFF }))
  else if c.culMove ≠ 0 ∨ c.culLeave.isSome then none
  else match s.startDetach k with
    | (.done t, _) => some t
    | (.bad x, j) => some (s.modCore k fun c => c.raiseTransfer (c.chunkRecord j (min c.occupancy 65536) x))
    | _ => none

/-- catt (R311). -/
def execCatt (ra : BitVec 5) (s : State) : Host.Outcome State Fault Refusal :=
  issue (.catt ra) s fun s =>
    let k := s.who
    let c := s.core k
    let h := (s.cur.val ra).toNat % 2 ^ 32
    if c.culHandle = 0 ∧ c.culSeq ≠ 0 then .fault 0x23 (s.cur.val ra)
    else if c.culHandle.toNat = h ∧ c.culLeave.isNone then
      -- attached already, or by an earlier pass of this catt, whose refill is awaited (R308 step 6)
      if c.culLast ≠ 0 then .wait .cullet s else .ok s
    else
      let s' : Attempt := if c.culHandle = 0 then .done s else s.detach k
      match s' with
      | .wait | .dropped => .wait .cullet ((s.beginDetach k).getD s)
      | .bad x => .fault x.cause (tensorInfo h x)
      | .done s =>
        if h = 0 then .ok s
        else match (s.core k).rebuildFailed h with
        | some e => .report (s.modCore k fun c => { c with failed := none }) e ((s.core k).rebuildInfo h e)
        | none =>
          let (s, got) := s.attach k h
          match got with
          | .wait => .wait .cullet s
          | .dropped => .wait .cullet (s.modCore k fun c => c.awaitRebuild h)
          | .bad x => .report s x.cause (tensorInfo h x)
          | .done t => if (t.core k).culLast ≠ 0 then .wait .cullet t else .ok t

/-- Attachment at job start (R309): tried until it is done or has failed, before any stream's first instruction. A dropped
tensor suspends the job (R356).
DEDUCED, safe: log entry 43. -/
def State.attachJob (s : State) (k : Nat) : State :=
  let c := s.core k
  match c.culPend with
  | none => s
  | some h =>
    let fail := fun (s : State) (c : CoreSt) cause info =>
      s.setCore k { ({ c with culPend := none } : CoreSt).raise (some .C) cause info with begun := false }
    if c.culHandle.toNat = h then (if c.culLast = 0 then s.setCore k { c with culPend := none } else s)
    else if c.phase ≠ .running then s
    else match c.rebuildFailed h with
    | some e => fail s { c with failed := none } e (c.rebuildInfo h e)
    | none =>
      let (s, got) := s.attach k h
      match got with
      | .wait => s
      | .dropped => s.setCore k (c.awaitRebuild h)
      | .bad x => fail s c x.cause (tensorInfo h x)
      | .done t => if (t.core k).culLast = 0 then t.modCore k fun c => { c with culPend := none } else t

/-! ### Spill and refill (R312 to R315, R436) -/

/-- The core's chunk moves may begin: it runs a job, and has not stopped (R208, R315). -/
def CoreSt.movesBegin (c : CoreSt) : Bool :=
  c.job.isSome && !c.debug && c.culMove == 0 && c.culLeave.isNone &&
    (c.phase == .running || c.phase == .draining)

/-- A push waits for room (R312). -/
def CoreSt.pushWaits (c : CoreSt) : Bool :=
  match c.c.wait with
  | some (.push z) => 2 ^ 18 - 8 < c.occupancy + z
  | _ => false

/-- An undo or cchk waits for its entry (R313). -/
def CoreSt.popWaits (c : CoreSt) : Bool := c.c.wait == some .pop && c.topHeader.isNone

/-- The conditions of R312. -/
def CoreSt.spillReady (c : CoreSt) : Bool :=
  c.movesBegin && 65536 ≤ c.occupancy && c.culHandle != 0 && (c.culhw.toNat < c.occupancy || c.pushWaits)

/-- The conditions of R313, or of the refill that ends an attachment (R308). -/
def CoreSt.refillReady (c : CoreSt) : Bool :=
  c.movesBegin && c.culChunks != 0 && c.occupancy ≤ 2 ^ 18 - 65544 &&
    (c.culLast != 0 || c.occupancy < c.cullw.toNat || c.popWaits)

/-- A chunk move of the core waits for its turn in its dray's rotation (R339). -/
def State.moveReady (s : State) (k : Nat) : Bool := coreValid k && ((s.core k).spillReady || (s.core k).refillReady)

/-- The dray that serves a core, and the place of the core's chunk moves in its rotation (R436). -/
def drayOf (k : Nat) : Engine := .dray (colOf k) (pairOf k)
def movePlace (k : Nat) : Nat := 3 * (k % 32) + 2

/-- It is the turn of the core's chunk move. -/
def State.moveTurn (s : State) (k : Nat) : Bool := s.nextPlace (drayOf k) s.moveReady == some (movePlace k)

/-- An engine takes the head of the next queue of its rotation whose head may be accepted (R339, R436). -/
def execEngineCommandAcceptance (eng : Engine) (s : State) : Host.Outcome State Fault Refusal :=
  let no : Host.Outcome State Fault Refusal := .refused (.notEnabled "ENGINE_COMMAND_ACCEPTANCE")
  match s.nextPlace eng s.moveReady with
  | none => no
  | some i =>
    if ((engineQueues eng).getD i default).2.1 = .C then no else .next (s.acceptHead eng i)

/-- CULLET_SPILL_START (R312): A chunk of the ring begins to spill to the cullet tensor, in the turn of its dray. -/
def execCulletSpillStart (core : Nat) (s : State) : Host.Outcome State Fault Refusal :=
  let c := s.core core
  if coreValid core && c.spillReady && s.moveTurn core then
    .next ((s.setCore core { c with culMove := 1, culBuf := c.c.buftag }).served (drayOf core) (movePlace core))
  else .refused (.notEnabled "CULLET_SPILL_START")

/-- A chunk move has faulted: its record is kept and raised (R314, R315). -/
def State.failMove (s : State) (k chunk n : Nat) (x : Denial) : State :=
  s.modCore k fun c =>
    let r := c.chunkRecord chunk n x
    ({ c with culRec := some r } : CoreSt).raiseTransfer r

/-- A chunk of `n` bytes has moved: hotness and counters (R388, R394). -/
def State.chunkMoved (s : State) (k n : Nat) : State :=
  (s.heat (colOf k) (s.vf (s.core k).theJob.region) (s.core k).culBuf n 0).count k 11 1 none

/-- A chunk of the core that has left its column is not written yet. -/
def State.chunkFlying (s : State) (k : Nat) : Bool := s.transit.any fun f => f.core == k && f.strm == .C && f.write.isSome

/-- The last byte of a spill is written (R312). -/
def State.spilled (s : State) (k : Nat) : State :=
  (s.modCore k fun c =>
    { c with culBase := c.culBase + 65536, culChunks := c.culChunks + 1, culMove := 0, culSent := false }).chunkMoved k 65536

/-- CULLET_SPILL_DONE (R312): The spill completes and base advances, once its bytes are written; those bound for another
column or package leave first. -/
def execCulletSpillDone (core : Nat) (s : State) : Host.Outcome State Fault Refusal :=
  let c := s.core core
  if c.culMove = 1 ∧ c.culRec.isNone then
    if c.culSent then
      (if s.culletLost core then
        .next (((s.dropCullet core).modCore core fun c => { c with culSent := false }).failMove core c.culChunks.toNat 65536
          { cause := 0x13, detail := 0xFF })
      else if s.chunkFlying core then .refused (.notEnabled "CULLET_SPILL_DONE") else .next (s.spilled core))
    else match s.culletWrite core (c.culChunks.toNat + 1) 65536 (ringSlice c.ring c.culBase.toNat 65536) with
    | .wait | .dropped => .refused (.notEnabled "CULLET_SPILL_DONE")
    | .bad x => .next (s.failMove core c.culChunks.toNat 65536 x)
    | .done t => .next (if t.chunkFlying core then t.modCore core fun c => { c with culSent := true } else t.spilled core)
  else .refused (.notEnabled "CULLET_SPILL_DONE")

/-- CULLET_REFILL_START (R313): The highest chunk begins to refill below base, in the turn of its dray. -/
def execCulletRefillStart (core : Nat) (s : State) : Host.Outcome State Fault Refusal :=
  let c := s.core core
  if coreValid core && c.refillReady && s.moveTurn core then
    .next ((s.setCore core { c with culMove := 2, culVec := (s.column (colOf core)).vc
                                    culBuf := c.c.buftag }).served (drayOf core) (movePlace core))
  else .refused (.notEnabled "CULLET_REFILL_START")

/-- The refill's bytes have been served and its reads are covered (R229, R230). -/
def execCulletRefillDone (core : Nat) (s : State) : Host.Outcome State Fault Refusal :=
  let no : Host.Outcome State Fault Refusal := .refused (.notEnabled "CULLET_REFILL_DONE")
  let c := s.core core
  let h := c.culHandle.toNat
  let chunk := c.culChunks.toNat - 1
  let n := c.chunkLen
  let d := (s.tensor h).block (chunk + 1)
  if c.culMove ≠ 2 ∨ c.culRec.isSome then no
  else match s.checkDesc c.access h d 0 with
    | .bad x => .next (s.failMove core chunk n x)
    | .ok _ =>
      let home := (s.column (s.locColumn (handleHome h) (dLoc d))).vc
      if !vcCovers home c.culVec ∨ !vcCovers (s.column (colOf core)).vc home then no
      else if s.partnerLost core (dLoc d) then .next (s.failMove core chunk n { cause := 0x13, detail := 0xFF })
      else
        let (bad, s) := s.eccBad (dLoc d)
        if bad then .next (s.failMove core chunk n { cause := 0x13, detail := 0 })
        else
          let base := c.culBase - BitVec.ofNat 18 n
          .next ((s.setCore core { c with
            ring := ringSplice c.ring base.toNat n (s.frameRange (dLoc d) n), culBase := base
            culChunks := c.culChunks - 1, culMove := 0, culLast := 0 }).chunkMoved core n)
    | _ => no

end Sys2Proof.Machine
end

