-- ==== Sys2Proof/Machine/Counters.lean ====
section
/-! DEFINITION. The counter instructions (R384 to R396). -/
namespace Sys2Proof.Machine

/-- Effective virtual function of the job on a core. -/
def State.jobVf (s : State) (k : Nat) : Nat := s.vf (s.core k).theJob.region

/-- The counter that a 13-bit index names, as it stood at the end of the ac before (R386). -/
def State.counter (s : State) (k idx : Nat) : Option W64 :=
  let r := (s.core k).ctrWas
  let z := fun v : BitVec 48 => some (v.zeroExtend 64)
  if idx < 0x10 then
    (if bitsOf (look 0 r.pmcsel idx).toNat 29 3 = s.jobVf k then z (look 0 r.pmc idx) else some 0)
  else if idx = 0x10 then some (BitVec.ofNat 64 r.lwc)
  else if idx = 0x11 then z r.snapptr
  else if idx = 0x12 then z r.loopExits
  else if idx = 0x13 then z (s.energyWas k)
  else if 0x18 ≤ idx ∧ idx < 0x1C then some (BitVec.ofNat 64 ((s.column (colOf k)).vcWas.getD (idx - 0x18) 0))
  else if 0x40 ≤ idx ∧ idx < 0x50 then some (look 0 r.tags (idx - 0x40))
  else if 0x100 ≤ idx ∧ idx < 0x200 then z (look 0 r.matrix (idx - 0x100))
  else if 0x1000 ≤ idx ∧ idx < 0x2000 then z (look 0 (look [] r.snaps ((idx - 0x1000) / 256)) ((idx - 0x1000) % 256))
  else none

/-- rdcnt (R386): Reads one counter through a 13-bit index. -/
def execRdcnt (rd ra : BitVec 5) (imm : BitVec 13) (s : State) : Host.Outcome State Fault Refusal :=
  issue (.rdcnt rd ra imm) s fun s =>
    let idx := s.cur.val ra + imm.zeroExtend 64
    match s.counter s.who idx.toNat with
    | some v => .ok (s.modCur fun t => t.setReg rd.toNat v)
    | none => .fault 0x23 idx

/-- The bits of PMCSEL that s[ra] may set, and the event codes (R387, R388). -/
def pmcselOk (v : Nat) : Bool := bitsOf v 21 8 == 0 && bitsOf v 19 1 == 0 && bitsOf v 8 8 == 0 && bitsOf v 0 8 ≤ 15

/-- cntsel (R387). DEDUCED, unsafe: log entry 33. -/
def execCntsel (ra : BitVec 5) (imm : BitVec 13) (s : State) : Host.Outcome State Fault Refusal :=
  issue (.cntsel ra imm) s fun s =>
    let v := (s.cur.val ra).toNat
    let n := imm.toNat
    let r := v / 2 ^ 32
    let region := (s.core s.who).theJob.region
    if 15 < n then .fault 0x23 (BitVec.ofNat 64 n)
    else if !pmcselOk v then .fault 0x23 (BitVec.ofNat 64 v)
    else if r ≠ noRegion ∧ !s.isWithin r region then .fault 0x11 (BitVec.ofNat 64 (2 ^ 56 * 4))
    else
      .ok (s.modCore s.who fun c => { c with ctr := { c.ctr with
        pmcsel := set c.ctr.pmcsel n (BitVec.ofNat 64 (setBits v 29 3 (s.jobVf s.who))), pmc := set c.ctr.pmc n 0 } })

/-- cntclr (R389): what its immediate names is 0, and counts again from the next ac on. -/
def execCntclr (imm : BitVec 13) (s : State) : Host.Outcome State Fault Refusal :=
  issue (.cntclr imm) s fun s =>
    let n := imm.toNat
    if 18 < n then .fault 0x23 (BitVec.ofNat 64 n)
    else if n < 16 && !s.clearsPmc s.who n then .ok s
    else .ok (s.modCore s.who fun c => { c with ctr := { c.ctr.clear n with cleared := n :: c.ctr.cleared } })

/-- rdtime (R390): Reads the package time base. -/
def execRdtime (rd : BitVec 5) (s : State) : Host.Outcome State Fault Refusal :=
  issue (.rdtime rd) s fun s => .ok (s.modCur fun t => t.setReg rd.toNat s.time)

/-- waitc (R391): not a watchdog wait. -/
def execWaitc (imm : BitVec 13) (s : State) : Host.Outcome State Fault Refusal :=
  issueCore (.waitc imm) s fun c _ => if c.ctr.lwc ≤ imm.toNat then .ok c else .wait .crossbar c

/-- bufsel (R391): Sets the stream's buffer tag. -/
def execBufsel (imm : BitVec 13) (s : State) : Host.Outcome State Fault Refusal :=
  issueCore (.bufsel imm) s fun c x =>
    if 255 < imm.toNat then .fault 0x23 (imm.zeroExtend 64)
    else .ok (c.modStrm x fun t => { t with buftag := imm.truncate 8 })

/-- psnap (R393): Takes a bank-conflict snapshot and returns the prior snapshot count. -/
def execPsnap (rd : BitVec 5) (s : State) : Host.Outcome State Fault Refusal :=
  issue (.psnap rd) s fun s =>
    if (s.core s.who).snapLate s.strm then .wait .others s else
    let p := (s.core s.who).ctr.snapptr.zeroExtend 64
    .ok ((s.modCore s.who fun c => c.snapshot s.strm s.time.toNat).modCur fun t => t.setReg rd.toNat p)

end Sys2Proof.Machine
end

