-- ==== Sys2Proof/Machine/StackScope.lean ====
section
/-! DEFINITION. Stack scope and the stack bus: loads, stores, atomics, broadcasts, watch ranges, the slot table, and the
events of the bus (R244 to R264). -/
namespace Sys2Proof.Machine

/-! ### The slot table (R246) -/

def slotKind (e : W64) : Nat := bitsOf e.toNat 8 2
def slotLayer (e : W64) : Nat := bitsOf e.toNat 0 5
def slotRegion (e : W64) : Nat := e.toNat / 2 ^ 32
def slotPackets (e : W64) : Bool := slotKind e == 1 || slotKind e == 3
def slotBulk (e : W64) : Bool := slotKind e == 2 || slotKind e == 3

/-- The entry is owned by (layer identifier, region). -/
def slotOwned (e : W64) (layer region : Nat) : Bool :=
  slotKind e != 0 && slotRegion e == region && (slotLayer e == layer || slotLayer e == 31)

def Column.slotEntry (c : Column) (i : Nat) : W64 := look 0 c.slots i

/-- Slots of a round that an owner may use, of the wanted kind. -/
def Column.ownedSlots (c : Column) (want : W64 → Bool) (layer region : Nat) : List Nat :=
  (List.range 64).filter fun i => slotOwned (c.slotEntry i) layer region && want (c.slotEntry i)

/-- The layout rules of R246: reserved bits and the layer value. -/
def slotSound (e : W64) : Bool :=
  bitsOf e.toNat 10 22 == 0 && bitsOf e.toNat 5 3 == 0 &&
    (if slotKind e = 0 then slotLayer e == 0 && slotRegion e == 0
     else slotLayer e == 31 || (slotLayer e % 2 == 1 && slotLayer e ≤ 15))

/-! ### lds and sts (R253) -/

/-- FINFO of a range or alignment fault in stack scope (R375): bit 63 is set. -/
def scopeInfo (ea : Nat) : W64 := BitVec.ofNat 64 (2 ^ 63 + ea % 2 ^ 63)

def scopeFault (ea n : Nat) : Option Nat :=
  if 2 ^ 18 < ea + n then some 0x09 else if ea % n ≠ 0 then some 0x0A else none

/-- SLOT_NONE's detail: the issuing layer and the kind required (R253). -/
def slotNoneInfo (k kind : Nat) : W64 := BitVec.ofNat 64 (layerId k + 2 ^ 8 * kind)

def overlaps (a n b m : Nat) : Bool := a < b + m && b < a + n

/-- A packet of the stream that overlaps the bytes and is not visible yet. -/
def State.scopeBlocked (s : State) (k : Nat) (x : Strm) (ea n : Nat) : Bool :=
  ((s.core k).strm x).stackq.any (fun p => overlaps p.ea p.n ea n) ||
    (s.column (colOf k)).flying.any fun f => f.packets.any fun p => p.core == k && p.strm == x && overlaps p.ea p.n ea n

/-- A stream's access to stack scope has completed its instruction; the watches see it (R383). -/
def scopeDone (s : State) (k : Nat) (store : Bool) (ea n : Nat) (s' : State) : Res State :=
  match (s.core k).watchHit true store [(ea, n)] with
  | some f => .trap s' 0x3B f
  | none => .ok s'

/-- A slot's content is due in the column and has not been applied: reads of this ac come after it (R250). -/
def State.scopeDue (s : State) (col : Nat) : Bool := (s.column col).flying.any fun l => l.at_ + 4 ≤ s.time.toNat

/-- lds (R253): Loads from the own layer's stack-scope replica. -/
def execLds (rd ra : BitVec 5) (size : BitVec 2) (imm : BitVec 12) (s : State) : Host.Outcome State Fault Refusal :=
  issue (.lds rd ra size imm) s fun s =>
    let ea := ea12 s.cur ra imm
    let n := 2 ^ size.toNat
    match scopeFault ea n with
    | some e => .fault e (scopeInfo ea)
    | none =>
      if s.scopeBlocked s.who s.strm ea n then .wait .stackQueue s
      else if s.scopeDue (colOf s.who) then .wait .others s
      else scopeDone s s.who false ea n
        (s.modCur fun t => t.setReg rd.toNat (BitVec.ofNat 64 ((s.column (colOf s.who)).seg.num ea n)))

/-- The owner (own layer, job region) has a packet-capable slot. -/
def State.hasPacketSlot (s : State) (k : Nat) : Bool :=
  (s.column (colOf k)).ownedSlots slotPackets (layerId k) (s.core k).theJob.region != []

/-- A packet of the stream in hand. -/
def State.packet (s : State) (op : PacketOp) (ea n v : Nat) : Packet :=
  { op := op, ea := ea, n := n, v := v % 2 ^ (8 * n), issued := s.time.toNat, core := s.who, strm := s.strm,
    region := (s.core s.who).theJob.region, after := if s.strm = .L then (s.core s.who).bulkCount else 0 }

def State.enqueue (s : State) (p : Packet) : State := s.modCur fun t => { t with stackq := t.stackq ++ [p] }

/-- sts (R253): Enqueues a stack-scope write packet for the stack bus. -/
def execSts (rs ra : BitVec 5) (size : BitVec 2) (imm : BitVec 12) (s : State) : Host.Outcome State Fault Refusal :=
  issue (.sts rs ra size imm) s fun s =>
    let ea := ea12 s.cur ra imm
    let n := 2 ^ size.toNat
    match scopeFault ea n with
    | some e => .fault e (scopeInfo ea)
    | none =>
      if !s.hasPacketSlot s.who then .fault 0x30 (slotNoneInfo s.who 1)
      else if 8 ≤ s.cur.stackq.length then .wait .stackQueue s
      else scopeDone s s.who true ea n (s.enqueue (s.packet .write ea n (s.cur.val rs).toNat))

/-! ### Atomics (R255, R256) -/

/-- An atomic on stack scope: its destination is pending until its slot applies. -/
def issueScopeAtomic (i : Instr) (s : State) (rd ra rb : BitVec 5) (w : BitVec 1) (op : State → PacketOp) :
    Host.Outcome State Fault Refusal :=
  issue i s fun s =>
    let ea := (s.cur.val ra).toNat
    let n := amoBytes w
    let c := s.core s.who
    match scopeFault ea n with
    | some e => .fault e (scopeInfo ea)
    | none =>
      if !s.hasPacketSlot s.who then .fault 0x30 (slotNoneInfo s.who 1)
      else if c.guard ≠ 0 then .report (s.setCore s.who { c with guard := 0 }) 0x08 c.guard
      else if 8 ≤ s.cur.stackq.length then .wait .stackQueue s
      else
        let s' := (s.enqueue (s.packet (op s) ea n (s.cur.val rb).toNat)).modCur fun t => t.setPending rd.toNat
        match c.watchHit true true [(ea, n)] with
        | some f => .trap s' 0x3B f
        | none => scopeDone s s.who false ea n s'

/-- amos.add (R255): Enqueues a stack-scope atomic add. -/
def execAmosAdd (rd ra rb : BitVec 5) (w : BitVec 1) (s : State) : Host.Outcome State Fault Refusal :=
  issueScopeAtomic (.amosAdd rd ra rb w) s rd ra rb w fun _ => .amo 0 rd.toNat

/-- amos.min (R255): Enqueues a stack-scope atomic signed minimum. -/
def execAmosMin (rd ra rb : BitVec 5) (w : BitVec 1) (s : State) : Host.Outcome State Fault Refusal :=
  issueScopeAtomic (.amosMin rd ra rb w) s rd ra rb w fun _ => .amo 1 rd.toNat

/-- amos.max (R255): Enqueues a stack-scope atomic signed maximum. -/
def execAmosMax (rd ra rb : BitVec 5) (w : BitVec 1) (s : State) : Host.Outcome State Fault Refusal :=
  issueScopeAtomic (.amosMax rd ra rb w) s rd ra rb w fun _ => .amo 2 rd.toNat

/-- amos.and (R255): Enqueues a stack-scope atomic AND. -/
def execAmosAnd (rd ra rb : BitVec 5) (w : BitVec 1) (s : State) : Host.Outcome State Fault Refusal :=
  issueScopeAtomic (.amosAnd rd ra rb w) s rd ra rb w fun _ => .amo 3 rd.toNat

/-- amos.or (R255): Enqueues a stack-scope atomic OR. -/
def execAmosOr (rd ra rb : BitVec 5) (w : BitVec 1) (s : State) : Host.Outcome State Fault Refusal :=
  issueScopeAtomic (.amosOr rd ra rb w) s rd ra rb w fun _ => .amo 4 rd.toNat

/-- amos.xor (R255): Enqueues a stack-scope atomic XOR. -/
def execAmosXor (rd ra rb : BitVec 5) (w : BitVec 1) (s : State) : Host.Outcome State Fault Refusal :=
  issueScopeAtomic (.amosXor rd ra rb w) s rd ra rb w fun _ => .amo 5 rd.toNat

/-- amos.swap (R255): Enqueues a stack-scope atomic swap. -/
def execAmosSwap (rd ra rb : BitVec 5) (w : BitVec 1) (s : State) : Host.Outcome State Fault Refusal :=
  issueScopeAtomic (.amosSwap rd ra rb w) s rd ra rb w fun _ => .amo 6 rd.toNat

/-- cass: compares with s[rb] and writes s[rc] (R255). -/
def execCass (rd ra rb rc : BitVec 5) (w : BitVec 1) (s : State) : Host.Outcome State Fault Refusal :=
  issueScopeAtomic (.cass rd ra rb rc w) s rd ra rb w fun s =>
    .cas ((s.cur.val rc).toNat % 2 ^ (8 * amoBytes w)) rd.toNat

/-! ### sbcast (R257) -/

/-- Cores of one role; none where its kind, or a bound unit outside the column, is not allowed. -/
def Role.coresIn (r : Role) (col : Nat) : Option (List Nat) :=
  if !(r.members.all fun u => colOf u == col) then none
  else if r.kind = 0 then some r.members
  else if r.kind = 1 then some (r.members.flatMap fun u => (List.range 18).map fun i => 32 * (u / 32) + i)
  else none

/-- Cores of the roles in a mask (R257). -/
def roleCores (roles : List Role) (mask col : Nat) : Option (List Nat) :=
  let picked := (List.range roles.length).filter fun i => bitsOf mask i 1 == 1
  (picked.mapM fun i => (roles.getD i {}).coresIn col).map fun (l : List (List Nat)) => l.flatten.eraseDups

/-- sbcast (R257): Accepts a bulk broadcast of a scratchpad range to the cores of named roles over bulk slots. -/
def execSbcast (rd ra rb rc : BitVec 5) (s : State) : Host.Outcome State Fault Refusal :=
  issue (.sbcast rd ra rb rc) s fun s =>
    let t := s.cur
    let c := s.core s.who
    let off := (t.val ra).toNat
    let len := (t.val rb).toNat
    let mask := (t.val rc).toNat
    if len = 0 ∨ len % 64 ≠ 0 then .fault 0x23 (t.val rb)
    else if mask = 0 then .fault 0x23 (t.val rc)
    else if off % 64 ≠ 0 then .fault 0x0A (eaInfo off)
    else if 2 ^ 20 < off + len then .fault 0x09 (eaInfo off)
    else if mask / 2 ^ c.theJob.roles.length ≠ 0 then .fault 0x23 (t.val rc)
    else match roleCores c.theJob.roles mask (colOf s.who) with
      | none => .fault 0x23 (t.val rc)
      | some d =>
        if (s.column (colOf s.who)).ownedSlots slotBulk (layerId s.who) c.theJob.region = [] then
          .fault 0x30 (slotNoneInfo s.who 2)
        else if 4 ≤ c.bulk.length then .wait .bulkQueue s
        else
          let b : Bulk := { tok := rd.toNat, off := off, len := len, dests := d, region := c.theJob.region,
                            buf := t.buftag, seq := t.seq, nth := c.bulkCount, at_ := s.time.toNat, entered := c.entered }
          .ok (s.setCore s.who (({ c with bulk := c.bulk ++ [b], bulkCount := c.bulkCount + 1
                                          entered := c.entered + 1 } : CoreSt).modStrm s.strm
            fun t => { t.setPending rd.toNat with seq := t.seq + 1 }))

/-! ### swatch, slotq, slotset (R259 to R261) -/

/-- swatch (R259): Arms or disarms the stream's stack-scope watch range. -/
def execSwatch (ra rb : BitVec 5) (s : State) : Host.Outcome State Fault Refusal :=
  issue (.swatch ra rb) s fun s =>
    let start := (s.cur.val ra).toNat
    let len := (s.cur.val rb).toNat
    if 2 ^ 18 < start then .fault 0x23 (s.cur.val ra)
    else if 2 ^ 18 < start + len then .fault 0x23 (s.cur.val rb)
    else .ok (s.modCur fun t => { t with
      watchStart := BitVec.ofNat 18 start, watchLen := BitVec.ofNat 19 len, watchFrom := s.time.toNat })

/-- ac until the next packet-capable owned slot begins, not counting a resync (R260). A slot of the present ac counts,
with 0, while its content has not been taken (DESIGN CHOICE, unsafe: log entry 97). -/
def Column.untilSlot (c : Column) (time : Nat) (owned : List Nat) : W64 :=
  let inside := c.resync.isSome && decide (time < c.resyncAt.getD 0 + 512)
  let base := if inside then 0 else c.slotAt - time
  let next := if inside then 0 else c.slot % 64
  match owned.filter (next ≤ ·), owned with
  | i :: _, _ => BitVec.ofNat 64 (base + i - next)
  | [], i :: _ => BitVec.ofNat 64 (base + 64 + i - next)
  | [], [] => -1

/-- slotq (R260): Returns slot ownership, next-slot distance, round counter or stack queue occupancy. -/
def execSlotq (rd ra : BitVec 5) (s : State) : Host.Outcome State Fault Refusal :=
  issue (.slotq rd ra) s fun s =>
    let c := s.column (colOf s.who)
    let own := fun want => c.ownedSlots want (layerId s.who) (s.core s.who).theJob.region
    let put := fun v : W64 => Res.ok (s.modCur fun t => t.setReg rd.toNat v)
    match (s.cur.val ra).toNat with
    | 0 => put (BitVec.ofNat 64 (own slotPackets).length)
    | 1 => put (BitVec.ofNat 64 (own slotBulk).length)
    | 2 => put (c.untilSlot s.time.toNat (own slotPackets))
    | 3 => put (c.round.zeroExtend 64)
    | 4 => put (BitVec.ofNat 64 s.cur.stackq.length)
    | _ => .fault 0x23 (s.cur.val ra)

/-- Entries a region would own with the pending ones applied and entry `i` holding `e`. -/
def Column.ownedAfter (c : Column) (i : Nat) (e : W64) (region : Nat) : Nat :=
  ((List.range 64).filter fun j =>
    let v := if j = i then e else ((find c.slotsPending j).map (·.value)).getD (c.slotEntry j)
    slotKind v != 0 && slotRegion v == region).length

/-- Core `k` posts an entry: of two posts of one entry the one received later remains, and in one ac the one of the
higher COREID (R261). -/
def Column.post (c : Column) (i k : Nat) (time : Nat) (e : W64) : Column :=
  if (find c.slotsPending i).any (fun p => p.at_ == time && k < p.core) then c
  else { c with slotsPending := set c.slotsPending i ⟨e, k, time⟩ }

/-- slotset (R261): Stages a stack-bus slot table entry for the next round boundary. DEDUCED, safe: log entry 34. -/
def execSlotset (ra rb : BitVec 5) (s : State) : Host.Outcome State Fault Refusal :=
  issue (.slotset ra rb) s fun s =>
    let i := (s.cur.val ra).toNat
    let e := s.cur.val rb
    let c := s.column (colOf s.who)
    if s.cur.wait = some .boundary then
      (if (s.core s.who).posted then .wait .boundary s else .ok s)
    else if 64 ≤ i then .fault 0x23 (s.cur.val ra)
    else if !slotSound e then .fault 0x23 e
    else if slotKind e ≠ 0 ∧ !s.isWithin (slotRegion e) (s.core s.who).theJob.region then .fault 0x23 e
    else if slotKind e ≠ 0 ∧ s.slotsBudget (slotRegion e) < c.ownedAfter i e (slotRegion e) then .fault 0x23 e
    else .wait .boundary ((s.modColumn (colOf s.who) fun c => c.post i s.who s.time.toNat e).modCore s.who fun c =>
      { c with posted := true })

/-! ### The bus: rounds (R246, R249, R261 to R264) -/

def Column.pairPower (c : Column) (p : Nat) : Nat := look 0 c.power p
def Column.isStale (c : Column) (layer : Nat) : Bool := look false c.stale layer
/-- The pair is awake and its compute layer's replica is fresh (R262), and it waits for no resync after a wake (R264, R428).
-/
def Column.pairReady (c : Column) (p : Nat) : Bool :=
  c.pairPower p == 0 && !c.isStale (2 * p + 1) && !c.woken.contains p && !c.resync.any (·.contains p)

/-- Packets issued in R248's order: by ac of issue, then core, then L, C, S. -/
def packetBefore (a b : Packet) : Bool :=
  a.issued < b.issued || a.issued == b.issued &&
    (a.core % 32 < b.core % 32 || a.core % 32 == b.core % 32 && strmCode a.strm < strmCode b.strm)

/-- Stable insertion of a packet in that order. -/
def insertPacket (p : Packet) : List Packet → List Packet
  | [] => [p]
  | q :: r => if packetBefore p q then p :: q :: r else q :: insertPacket p r

def sortPackets (l : List Packet) : List Packet := l.foldl (fun a p => insertPacket p a) []

/-- Streams of a column that hold queued packets. -/
def State.scopeStreams (s : State) (col : Nat) : List (Nat × Strm) :=
  (s.cores.filter fun p => colOf p.1 == col).flatMap fun p =>
    (allStrms.filter fun x => (p.2.strm x).stackq != []).map fun x => (p.1, x)

/-- Queued packets of owners without a packet-capable slot, in order. -/
def State.orphanPackets (s : State) (col : Nat) : List Packet :=
  sortPackets ((s.scopeStreams col).flatMap fun (k, x) => ((s.core k).strm x).stackq.filter fun p =>
    (s.column col).ownedSlots slotPackets (layerId p.core) p.region == [])

/-- Discards one packet: a destination it would have written is no longer pending (R249). -/
def State.discard (s : State) (p : Packet) : State :=
  s.modStrm p.core p.strm fun t =>
    let t := { t with stackq := t.stackq.erase p }
    match p.op with
    | .amo _ rd | .cas _ rd => t.clearPending rd
    | .write => t

/-- R249: every such packet is discarded, and the stream of each owner's first one raises SLOT_NONE. -/
def State.discardOrphans (s : State) (col : Nat) : State :=
  let ps := s.orphanPackets col
  let owner := fun p : Packet => (layerId p.core, p.region)
  let firsts := ps.foldl (fun (l : List Packet) p => if l.any (fun q => owner q == owner p) then l else l ++ [p]) []
  let s := ps.foldl State.discard s
  firsts.foldl (fun s p => s.raise p.core (some p.strm) 0x30 (BitVec.ofNat 64 p.ea)) s

/-- No core of the pair has a job, a saved context or an accepted beat, and no started operator binds a unit of it
(R262). -/
def State.pairIdle (s : State) (col p : Nat) : Bool :=
  let c := s.column col
  let mine := fun k => layerOf k == 8 * col + p
  s.cores.all (fun q => !mine q.1 || q.2.job.isNone) && (s.layer (8 * col + p)).tiles == [] &&
    s.saves.all (fun q => !(q.1 / 4096 == col && q.1 % 4096 / 18 == p)) &&
    c.flying.all (fun f => f.beat.all fun b => b.dests.all fun k => !mine k) &&
    (List.range 4).all fun d => (s.column d).opers.all fun o =>
      !o.layers.contains (8 * col + p)

/-- Power changes at a boundary: wakes the arbiter has completed, and sleeps it decides where R262 allows them. -/
def State.powerChanges (s : State) (col : Nat) (sleep : List (Nat × Nat)) : State :=
  let allowed := sleep.filter fun q => q.1 < 8 && (q.2 == 1 || q.2 == 2) && s.pairIdle col q.1
  s.modColumn col fun c =>
    let c := c.powerNext.foldl (fun c q => { c with power := set c.power q.1 q.2, woken := c.woken ++ [q.1] }) c
    let c := { c with powerNext := [] }
    allowed.foldl (fun c q => { c with power := set c.power q.1 q.2 }) c

/-- The slotsets of a column have taken effect: their streams go on. -/
def State.posted (s : State) (col : Nat) : State :=
  { s with cores := s.cores.map fun q => (q.1, if colOf q.1 = col then { q.2 with posted := false } else q.2) }

/-- A round begins at the column's next boundary. A boundary inside a resync changes no power state: a finished wake joins at
the next one after it (R262; DESIGN CHOICE, unsafe: log entry 98). -/
def execStackRoundBoundary (col : Nat) (sleep : List (Nat × Nat)) (s : State) : Host.Outcome State Fault Refusal :=
  let c := s.column col
  if 4 ≤ col ∨ c.slot < 64 ∨ s.time.toNat < c.slotAt then .refused (.notEnabled "STACK_ROUND_BOUNDARY")
  else
    let s := s.modColumn col fun c => { c with round := c.round + 1 }
    if 0 < c.resyncLeft then
      .next (s.modColumn col fun c => { c with resyncLeft := c.resyncLeft - 1, slotAt := c.slotAt + 64 })
    else
      let s := s.powerChanges col sleep
      let c := s.column col
      if c.woken ≠ [] ∧ c.resync = none ∧ c.resyncAt.all (fun a => a + 1024 ≤ c.slotAt) then
        .next (s.modColumn col fun c => { c with
          resync := some c.woken, woken := [], resyncLeft := 7, resyncAt := some c.slotAt, slotAt := c.slotAt + 64 })
      else
        let s := s.modColumn col fun c => { c with
          slots := c.slotsPending.foldl (fun m q => set m q.1 q.2.value) c.slots, slotsPending := [], slot := 0 }
        .next ((s.posted col).discardOrphans col)

/-! ### Slots (R247, R248, R250, R257, R258, R263) -/

/-- The packets of a stream that may enter a slot of an owner: those issued before it, up to the first that must wait
for a broadcast of its stream. -/
def State.readyPackets (s : State) (k : Nat) (x : Strm) (region : Nat) : List Packet :=
  let c := s.core k
  if c.debug then [] else
  (c.strm x).stackq.takeWhile fun p =>
    p.region == region && p.issued < s.time.toNat && !(c.bulk.any fun b => b.nth < p.after)

/-- A core that runs its job, a stop in progress included; while a handler runs, the job is stopped (R257). -/
def CoreSt.runsJob (c : CoreSt) : Bool :=
  c.job.isSome && !c.debug && !c.hm && (match c.phase with | .running | .draining | .stopping _ => true | _ => false)

/-- Each broadcast's next beat is read as the ac ends, for a slot of the ac after it (R257). -/
def CoreSt.readBeats (c : CoreSt) : CoreSt :=
  { c with bulk := c.bulk.map fun b =>
      { b with data := c.scratch.bytes (b.off + 512 * b.beat) (min 512 (b.len - 512 * b.beat)) } }

/-- The oldest broadcast of a layer's owner whose next beat can be carried, with its core; of two that two cores issued in
one ac, the lower COREID's (DESIGN CHOICE, unsafe: log entry 88). A debug stop of the issuing core does not hold it back
(R397). -/
def State.readyBeat (s : State) (col layer region : Nat) : Option (Nat × Bulk) :=
  let bs := (s.cores.filter fun p => colOf p.1 == col && layerId p.1 == layer).flatMap fun p =>
    (p.2.bulk.filter fun b => b.region == region && decide (b.at_ < s.time.toNat)).map fun b => (p.1, b)
  match bs.foldl (fun (m : Option (Nat × Bulk)) b => match m with
      | some a => if b.2.at_ < a.2.at_ then some b else some a
      | none => some b) none with
  | some (k, b) => if b.dests.all fun d => (s.core d).runsJob then some (k, b) else none
  | none => none

/-- What one layer's owner has ready for a slot: a beat where the slot takes one, else packets. A beat is not for the core on
which the issuing job now runs (R257; DEDUCED, unsafe: log entry 89). -/
def State.layerLoad (s : State) (col layer : Nat) (e : W64) : SlotLoad :=
  let load : SlotLoad := { at_ := s.time.toNat }
  match if slotBulk e then s.readyBeat col layer (slotRegion e) else none with
  | some (k, b) =>
    let bt : Beat :=
      { core := k, bulk := b, last := decide (b.len ≤ 512 * b.beat + 512), off := b.off + 512 * b.beat,
        data := b.data, dests := b.dests.filter (· != k) }
    { load with beat := some bt }
  | none =>
    if slotPackets e then
      { load with packets := (sortPackets ((s.scopeStreams col).flatMap fun (k, x) =>
        if layerId k = layer then s.readyPackets k x (slotRegion e) else [])).take 16 }
    else load

def SlotLoad.isEmpty (l : SlotLoad) : Bool := l.packets == [] && l.beat.isNone

/-- Layers in the order in which an entry is offered (R247). -/
def Column.slotLayers (c : Column) (i : Nat) (e : W64) : List Nat :=
  if slotLayer e ≠ 31 then [slotLayer e]
  else
    let last := look 15 c.slotUser i
    let all := [1, 3, 5, 7, 9, 11, 13, 15]
    all.filter (last < ·) ++ all.filter (· ≤ last)

/-- The accepted content leaves its queues. A beat's source has been read in the ac before (R257); its banks and a guard
granule that it touches are charged as the slot takes it (R188 to R190). -/
def State.takeLoad (s : State) (l : SlotLoad) : State :=
  let s := l.packets.foldl (fun s p =>
    (s.modStrm p.core p.strm fun t => { t with stackq := t.stackq.erase p }).count p.core 13 1 (some p.strm)) s
  match l.beat with
  | none => s
  | some b => s.modCore b.core fun c =>
      let c := c.touch [(b.off, b.data.length)] 0 7 3 false
      if b.last then { c with bulk := c.bulk.filter (fun q => q.nth != b.bulk.nth), casts := c.casts ++ [b.bulk] }
      else { c with bulk := c.bulk.map fun q => if q.nth = b.bulk.nth then { q with beat := q.beat + 1 } else q }

/-- STACK_SLOT (R248): A slot accepts packets or one bulk beat from its owner. -/
def execStackSlot (col : Nat) (s : State) : Host.Outcome State Fault Refusal :=
  let c := s.column col
  if 4 ≤ col ∨ 64 ≤ c.slot ∨ s.time.toNat < c.slotAt then .refused (.notEnabled "STACK_SLOT")
  else
    let e := c.slotEntry c.slot
    let loads := (if slotKind e = 0 then [] else c.slotLayers c.slot e).map fun l => (l, s.layerLoad col l e)
    let s' := match loads.find? fun l => !l.2.isEmpty with
      | none => s
      | some (layer, l) =>
        (s.takeLoad l).modColumn col fun c => { c with
          flying := c.flying ++ [l], slotUser := if slotLayer e = 31 then set c.slotUser c.slot layer else c.slotUser,
          stale := if l.packets = [] then c.stale
            else (List.range 8).foldl (fun m p =>
              if c.pairPower p = 0 then m else set (set m (2 * p + 1) true) (2 * p + 2) true) c.stale }
    .next (s'.modColumn col fun c => { c with slot := c.slot + 1, slotAt := c.slotAt + 1 })

/-- One packet applies: the segment changes, an atomic's destination is written, and watch ranges are matched (R250,
R251, R255, R259). -/
def State.applyPacket (s : State) (col : Nat) (p : Packet) : State :=
  let seg := (s.column col).seg
  let old := seg.num p.ea p.n
  let new := match p.op with
    | .write => p.v
    | .amo fn _ => amoNew fn p.n old p.v
    | .cas nw _ => if old = p.v then nw else old
  let s := s.modColumn col fun c => { c with seg := seg.setNum p.ea p.n new }
  let s := match p.op with
    | .write => s
    | .amo _ rd | .cas _ rd => s.modStrm p.core p.strm fun t => t.completeReg rd (BitVec.ofNat 64 old)
  { s with cores := s.cores.map fun q =>
      if colOf q.1 = col then
        (q.1, allStrms.foldl (fun c x => c.modStrm x fun t =>
          if t.watchLen ≠ 0 ∧ t.watchFrom < s.time.toNat ∧ overlaps p.ea p.n t.watchStart.toNat t.watchLen.toNat
          then t.signal else t) q.2)
      else q }

/-- One beat applies in its destinations; the last one writes the token (R257). -/
def State.applyBeat (s : State) (b : Beat) : State :=
  let s := b.dests.foldl (fun s k => s.modCore k fun c =>
    ({ c with scratch := c.scratch.setBytes b.off b.data } : CoreSt).touch [(b.off, b.data.length)] 0 7 5 true) s
  if b.last then
    let s := s.modCore b.core fun c => { c with casts := c.casts.filter fun q => q.nth != b.bulk.nth }
    let s := s.modStrm b.core .L fun t => t.completeReg b.bulk.tok (statusWord b.bulk.len b.bulk.at_ 0)
    (s.heat (colOf b.core) (s.vf b.bulk.region) b.bulk.buf b.bulk.len 0)
  else s

/-- A slot's content applies (R250). -/
def State.applyLoad (s : State) (col : Nat) (l : SlotLoad) : State :=
  let s := (s.modColumn col fun c => { c with flying := c.flying.erase l })
  let s := l.packets.foldl (fun s p => s.applyPacket col p) s
  match l.beat with | some b => s.applyBeat b | none => s

/-- STACK_SLOT_APPLY (R250): Every awake layer applies a slot's content four ac after it. -/
def execStackSlotApply (col : Nat) (s : State) : Host.Outcome State Fault Refusal :=
  match (s.column col).flying with
  | [] => .refused (.notEnabled "STACK_SLOT_APPLY")
  | l :: _ =>
    if s.time.toNat < l.at_ + 4 then .refused (.notEnabled "STACK_SLOT_APPLY")
    else .next (s.applyLoad col l)

/-- A resync ends: every participating replica is fresh (R264). -/
def execResyncEnd (col : Nat) (s : State) : Host.Outcome State Fault Refusal :=
  let c := s.column col
  match c.resync, c.resyncAt with
  | some ps, some a =>
    if s.time.toNat < a + 516 then .refused (.notEnabled "RESYNC_END")
    else .next (s.modColumn col fun c => { c with
      resync := none
      stale := ps.foldl (fun m p =>
        if c.pairPower p = 0 then set (set m (2 * p + 1) false) (2 * p + 2) false else m) c.stale })
  | _, _ => .refused (.notEnabled "RESYNC_END")

/-- A pair that the arbiter wakes has left retention or gated; it joins at the next boundary (R428, R262). -/
def execLayerPairWakeDone (col pair : Nat) (s : State) : Host.Outcome State Fault Refusal :=
  if (s.column col).wakeAsked.any fun q => q.1 == pair then
    .next (s.modColumn col fun c => { c with
      wakeAsked := c.wakeAsked.filter (·.1 != pair), powerNext := c.powerNext ++ [(pair, 0)] })
  else .refused (.notEnabled "LAYER_PAIR_WAKE_DONE")

/-- What the bus of a column does as an ac begins: content of the slot four ac before applies, ahead of every read of the ac
(R250), and a resync that is over has ended (R264). -/
def State.busOpens (s : State) (col : Nat) : State :=
  let s := ((s.column col).flying.filter fun l => l.at_ + 4 ≤ s.time.toNat).foldl (fun s l => s.applyLoad col l) s
  match execResyncEnd col s with
  | .next t => t
  | _ => s

/-- The bus of a column has its boundary and its slot in every ac in which one is due (R21, R246). -/
def State.busCloses (s : State) (col : Nat) : State :=
  let s := match execStackRoundBoundary col [] s with
    | .next t => t
    | _ => s
  match execStackSlot col s with
  | .next t => t
  | _ => s

end Sys2Proof.Machine
end

