-- ==== Sys2Proof/Machine/Jobs.lean ====
section
/-! DEFINITION. Kernel headers, the start of a job, its retirement and its kill (R68 to R74, R93, R128, R129, R191, R309,
R380). -/
namespace Sys2Proof.Machine

/-! ### The kernel header (R68 to R74) -/

/-- A header allocation: first granule, length, init flag, pool granule offset (R70). -/
structure HdrAlloc where
  first : Nat
  len : Nat
  init : Bool
  pool : Nat
  deriving DecidableEq, Repr, Inhabited

/-- A kernel header that R74 accepts. -/
structure Header where
  /-- Entries of L, C and S. -/
  entries : List Pc
  /-- Kind and member count of each role. -/
  roles : List (Nat × Nat)
  rows : List W64
  allocs : List HdrAlloc
  /-- Use list: operand slot, operator offset. -/
  uses : List (Nat × Nat)
  pool : List Byte
  len : Nat
  rmode : Nat
  vwin : Nat
  rqf : Nat
  fmtbase : Nat
  /-- Index register of each dimension. -/
  idx : List Nat
  /-- Expected kind and register of each operand slot. -/
  slots : List (Nat × Nat)
  deriving DecidableEq, Repr, Inhabited

/-- A header-class line (R62). -/
def State.headerLine (s : State) (code l : Nat) : Bool := linkStream (s.codeWord code l 0) == 3

/-- `n` bytes of a table that starts at a line, 60 bytes a line along the chain; none where the chain ends first or
leaves the kernel's header-class lines (R69, R74). -/
def State.tableBytes (s : State) (code : Nat) (inside : Nat → Bool) : Nat → Nat → Nat → Option (List Byte)
  | 0, _, n => if n = 0 then some [] else none
  | fuel + 1, l, n =>
    if n = 0 then some []
    else if !inside l || !s.headerLine code l then none
    else
      let here := s.imageBytes code (64 * (l % 2 ^ 24) + 4) (min n 60)
      let w := s.codeWord code l 0
      if n ≤ 60 then some here
      else if linkEnd w then none
      else (s.tableBytes code inside fuel (linkNext w) (n - 60)).map (here ++ ·)

/-- The entries of `size` bytes of a table, as numbers. -/
def tableEntries (size : Nat) (bs : List Byte) : List Nat :=
  (List.range (bs.length / size)).map fun i => leNat ((bs.drop (size * i)).take size)

/-- Reserved bits of header words 1 to 15. -/
def hdrReserved (i : Nat) : Nat :=
  match i with
  | 1 | 2 | 3 => 0xF0000000
  | 4 => 0x80808080
  | 11 => 0xFF88E0C0
  | 12 => 0xC0000000
  | 13 | 14 => 0
  | 15 => 0xFFF00000
  | _ => 0xFF000000

/-- Two allocations keep R73. -/
def HdrAlloc.apart (a b : HdrAlloc) : Bool := a.first + a.len < b.first || b.first + b.len < a.first

/-- The allocation keeps R74, with `pool` bytes of constant pool. -/
def HdrAlloc.ok (a : HdrAlloc) (pool : Nat) : Bool :=
  a.len != 0 && 1 ≤ a.first && a.first + a.len ≤ 16383 && (!a.init || a.pool + a.len ≤ (pool + 63) / 64)

/-- Every allocation keeps R73 against those after it. -/
def allocsApart : List HdrAlloc → Bool
  | [] => true
  | a :: r => r.all a.apart && allocsApart r

/-- The program counter that an entry word names. -/
def entryPc (w : Nat) : Pc := ⟨BitVec.ofNat 24 w, BitVec.ofNat 4 (w / 2 ^ 24)⟩

/-- The header at a line of a code image; none where R74 refuses it. A header line that is not itself of the header class
is refused too, which R74 does not list (DEDUCED, unsafe: log entry 36). -/
def State.readHeader (s : State) (code hline : Nat) : Option Header :=
  let w := fun i => s.codeWord code hline i
  let len := w 10 % 2 ^ 24
  let inside := fun l => (l % 2 ^ 24 + 2 ^ 24 - hline % 2 ^ 24) % 2 ^ 24 < len
  let table := fun (word size n : Nat) => s.tableBytes code inside (size * n / 60 + 1) (w word % 2 ^ 24) (size * n)
  let nUse := bitsOf (w 4) 24 7
  let nAlloc := bitsOf (w 4) 16 7
  let nRow := bitsOf (w 4) 8 7
  let nRole := bitsOf (w 4) 0 7
  let poolLen := bitsOf (w 15) 0 20
  let sound := s.headerLine code hline && ((List.range 15).all fun i => w (i + 1) &&& hdrReserved (i + 1) == 0) &&
    nAlloc ≤ 64 && nRow ≤ 64 && nRole ≤ 64 && bitsOf (w 11) 8 5 ≤ 24 && bitsOf (w 11) 20 3 ≤ 4
  if !sound then none
  else match table 5 4 nRole, table 6 8 nRow, table 7 8 nAlloc, table 8 8 nUse, table 9 1 poolLen with
    | some roleB, some rowB, some allocB, some useB, some pool =>
      let roles := tableEntries 4 roleB
      let allocs := tableEntries 8 allocB
      let uses := tableEntries 8 useB
      let slots := (List.range 8).map fun i =>
        let b := bitsOf (w (13 + i / 4)) (8 * (i % 4)) 8
        (b / 32, b % 32)
      let as := allocs.map fun e =>
        { first := bitsOf e 0 14, len := bitsOf e 14 14, init := bitsOf e 28 1 == 1, pool := bitsOf e 32 14 : HdrAlloc }
      let ok := roles.all (fun e => bitsOf e 24 8 == 0 && bitsOf e 4 4 == 0 && bitsOf e 0 4 ≤ 5 && bitsOf e 8 16 != 0) &&
        allocs.all (fun e => bitsOf e 46 18 == 0 && bitsOf e 29 3 == 0) && as.all (·.ok poolLen) && allocsApart as &&
        uses.all (fun e => bitsOf e 3 29 == 0) && slots.all fun e => e.1 ≤ 4
      if !ok then none
      else some {
        entries := [entryPc (w 1), entryPc (w 2), entryPc (w 3)]
        roles := roles.map fun e => (bitsOf e 0 4, bitsOf e 8 16)
        rows := (tableEntries 8 rowB).map (BitVec.ofNat 64)
        allocs := as
        uses := uses.map fun e => (e % 8, e / 2 ^ 32)
        pool := pool, len := len
        rmode := bitsOf (w 11) 20 3, vwin := bitsOf (w 11) 16 3, rqf := bitsOf (w 11) 8 5, fmtbase := bitsOf (w 11) 0 6
        idx := (List.range 6).map fun d => bitsOf (w 12) (5 * d) 5
        slots := slots }
    | _, _, _, _, _ => none

/-! ### Job start (R72, R74, R93, R191, R309) -/

/-- Counters at the start or the resume of a job, of the virtual function of the core's previous job or of another: no
crossbar instruction is outstanding, and what another virtual function has counted is cleared (R384, R391, R396). -/
def Counters.forJob (r : Counters) (sameVf : Bool) : Counters :=
  { r with
    lwc := 0, matrix := if sameVf then r.matrix else [], snaps := if sameVf then r.snaps else []
    tags := if sameVf then r.tags else [], snapptr := if sameVf then r.snapptr else 0 }

/-- A core with the registers that R93 and R191 give a job of this region and virtual function.
DEDUCED, unsafe: log entry 44. -/
def CoreSt.fresh (c : CoreSt) (j : Job) (hm : Bool) : CoreSt :=
  let same := c.ran && c.lastRegion == j.region
  let mine := fun (r : Counters) => r.forJob (c.ran && c.lastVf == j.vf)
  { culhw := c.culhw, cullw := c.cullw, hscratch := c.hscratch, timer := c.timer, ring := c.ring, fframe := c.fframe
    flineL := c.flineL, flineC := c.flineC, flineS := c.flineS, finfo := c.finfo
    acc := if same then c.acc else [], tiles := if same then c.tiles else [], scratch := if same then c.scratch else []
    btc := if same then c.btc else []
    timercmp := if hm then c.timercmp else 0, timerDue := if hm then c.timerDue else none
    region := BitVec.ofNat 32 j.region, hm := hm, phase := .running, job := some j
    ctr := mine c.ctr, ctrWas := mine c.ctrWas
    debug := c.debug, debugReq := c.debugReq, traceBits := c.traceBits, pool := c.pool
    ran := true, lastRegion := j.region, lastVf := j.vf }

/-- Header allocations and their guards enter the allocation map (R191). -/
def CoreSt.mapAlloc (c : CoreSt) (a : HdrAlloc) : CoreSt :=
  ((c.setGranules a.first a.len 1).setGranule (a.first - 1) 3).setGranule (a.first + a.len) 3

/-- An init allocation takes its part of the constant pool, zeros past its end (R72 step 4). -/
def CoreSt.fillAlloc (c : CoreSt) (pool : List Byte) (a : HdrAlloc) : CoreSt :=
  if a.init then
    { c with scratch := c.scratch.splice (64 * a.first) (64 * a.len) (cellsAt 0 ((pool.drop (64 * a.pool)).take (64 * a.len))) }
  else c

/-- A stream at its entry, with handles and then indices in its registers (R72). -/
def Header.stream (h : Header) (j : Job) (x : Strm) : StreamSt :=
  let t : StreamSt := { pc := h.entries.getD (strmCode x) {} }
  let t := if x = .L then t else { t with rmode := BitVec.ofNat 3 h.rmode, rqf := BitVec.ofNat 5 h.rqf }
  let t := (List.range 8).foldl (fun t i => t.setReg (h.slots.getD i (0, 0)).2 (BitVec.ofNat 64 (j.handles.getD i 0))) t
  (List.range 6).foldl (fun t d => t.setReg (h.idx.getD d 0) (BitVec.ofNat 64 (j.indices.getD d 0))) t

/-- The core after R93, R191 and R72. -/
def Header.load (h : Header) (c : CoreSt) (j : Job) : CoreSt :=
  let c := { c with
    l := h.stream j .L, c := h.stream j .C, s := h.stream j .S
    vwin := BitVec.ofNat 3 h.vwin, fmtbase := BitVec.ofNat 6 h.fmtbase
    fmtRows := (List.range h.rows.length).zip h.rows }
  h.allocs.foldl (fun c a => c.fillAlloc h.pool a) (h.allocs.foldl CoreSt.mapAlloc c)

/-- The operand slots hold handles of their expected kinds (R70, R74). -/
def State.slotsOk (s : State) (h : Header) (j : Job) : Bool :=
  (List.range 8).all fun i =>
    let (kind, reg) := h.slots.getD i (0, 0)
    let g := j.handles.getD i 0
    reg == 0 || (g % 2 ^ 28 != 0 &&
      (if handleClass g = 2 then kind != 0 && (viewOf (s.viewRec g)).kind == kind else kind == 0))

/-- The class-3 handle of the highest operand slot that holds one (R309). -/
def Job.cullet (j : Job) : Option Nat := j.handles.reverse.find? fun g => handleClass g == 3 && g % 2 ^ 28 != 0

/-- A job starts on a core: its registers and scratchpad, or the fault of R74, at which no stream starts. Its cullet
tensor is attached from the next ac on, before any stream issues (R309). -/
def State.startJob (s : State) (k : Nat) (j : Job) (hm : Bool) : State :=
  let s := s.markEnergy k
  let c := s.core k
  let j := { j with vf := s.vf j.region, timer := c.timerAt s.time, start := s.time.toNat }
  let c := c.fresh j hm
  let fail := fun (c : CoreSt) cause =>
    let c := ({ c with l := { c.l with pc := ⟨BitVec.ofNat 24 j.hline, 0⟩ } } : CoreSt).raise (some .L) cause 0
    s.setCore k { c with begun := false }
  match s.readHeader j.code j.hline with
  | none =>
    let at_ := fun i => entryPc (s.codeWord j.code j.hline i)
    fail { c with c := { c.c with pc := at_ 2 }, s := { c.s with pc := at_ 3 } } 0x02
  | some h =>
    let j := { j with len := h.len }
    let c := h.load { c with job := some j } j
    if !s.slotsOk h j then fail c 0x14
    else s.setCore k { c with culPend := j.cullet }

/-! ### The end of a job (R128, R129, R380, R384) -/

/-- The area of the context pool that belongs to a core's faults (R372). -/
def faultArea (k : Nat) : Nat := 18 * pairOf k + k % 32

/-- Key of a saved job in `saves`. -/
def saveKey (col area : Nat) : Nat := 4096 * col + area

/-- Energy since the job's start, resume or last stop goes to its region, in whole µJ (R384). -/
def State.bankEnergy (s : State) (k r : Nat) : State :=
  let c := s.core k
  let uj := (s.energyOf k - c.ctr.energyMark).toNat / 1000
  { s.modCore k fun c => { c with ctr := { c.ctr with energyMark := c.ctr.energyMark + BitVec.ofNat 48 (1000 * uj) } } with
    regionEnergy := set s.regionEnergy r (look 0 s.regionEnergy r + BitVec.ofNat 64 uj) }

/-- The job of an operator has ended. -/
def State.tileEnded (s : State) (col idx seq : Nat) : State :=
  s.modColumn col fun c => { c with
    opers := c.opers.map fun o => if o.idx = idx ∧ o.seq = seq then { o with open_ := o.open_ - 1 } else o }

/-- The recipe job of a rebuild has ended. -/
def State.recipeEnded (s : State) (h : Nat) (good : Bool) : State :=
  s.modColumn (handleHome h) fun c => { c with
    rebuilds := c.rebuilds.map fun r => if r.handle = h then { r with ended := some good, core := none } else r }

/-- A core after a kill of its stopped job: its own registers, as they stood before the kill (R90, R92), with what the kill
has changed. -/
def CoreSt.returned (c own : CoreSt) : CoreSt :=
  { own with
    phase := c.phase, job := c.job, pins := c.pins, alloc := own.freeDynamic.alloc, dyn := [], timer := c.timer
    timercmp := c.timercmp, timerDue := c.timerDue, timercmpSet := false, ctr := c.ctr, debug := c.debug, debugReq := c.debugReq, traceBits := c.traceBits, hm := c.hm
    btc := c.btc, freeAt := c.freeAt }

/-- What retirement and kill leave: pins are released, and the core is free; after a retirement it is reported free in the
following ac (R129). A retirement empties the cullet ring and the allocation map, a kill frees the dynamic allocations (R187,
R310, R380). A handler job that retires leaves the interrupted job where it is: in its area (DESIGN CHOICE, unsafe: log entry
80). -/
def State.endJob (s : State) (k : Nat) (good : Bool) : State :=
  let c := s.core k
  let j := c.theJob
  let s := (c.pins.foldl State.pinDown s).bankEnergy k j.region
  let s := s.modCore k fun c =>
    let c := { (if good then c.clearCullet else c) with
      pins := [], alloc := if good then [] else c.freeDynamic.alloc, dyn := [], timercmp := 0, timerDue := none
      timercmpSet := false, phase := .idle, job := none, hm := false, susp := none, failed := none, raised := [], recs := []
      chain := []
      freeAt := if good then s.time.toNat + 1 else s.time.toNat }
    match find s.asides k, good with | some own, false => c.returned own | _, _ => c
  let s := { s with asides := erase s.asides k }
  match j.kind with
  | .operator col idx seq => s.tileEnded col idx seq
  | .recipe h => s.recipeEnded h good
  | .handler => s

/-- Stream that receives from a token FIFO (R79). -/
def tokenReceiver (f : Nat) : Strm :=
  match f with
  | 0 | 3 => .C
  | 1 | 5 => .L
  | _ => .S

/-- Streams in which R128 raises STREAM_DESYNC, given the queues left. -/
def desyncStrms (left : Nat) : List Strm :=
  allStrms.filter fun x =>
    (x == .C && (bitsOf left 0 4 != 0 || bitsOf left 6 2 != 0)) || (x == .S && bitsOf left 4 2 != 0) ||
      (List.range 6).any fun f => bitsOf left (8 + f) 1 == 1 && tokenReceiver f == x

/-- The stream that a guard record charges (R190). -/
def guardStrm (g : W64) : Strm :=
  match bitsOf g.toNat 40 2 with
  | 0 => .L
  | 1 => .C
  | _ => .S

/-- The checks of R128: the core with every cause raised, or none where they pass. DEDUCED, unsafe: log entry 48. -/
def CoreSt.retireFault (c : CoreSt) : Option CoreSt :=
  let left := c.leftover
  if c.guard = 0 ∧ left = 0 then none
  else
    let c := if c.guard = 0 then c else ({ c with guard := 0 } : CoreSt).raise (some (guardStrm c.guard)) 0x08 c.guard
    some ((desyncStrms left).foldl (fun c x => c.raise (some x) 0x18 (BitVec.ofNat 64 left)) c)

/-- Detaching as far as it can go now: none while it must wait, else the state and whether it is done. -/
def State.detachStep (s : State) (k : Nat) : Option (State × Bool) :=
  let c := s.core k
  if c.culHandle = 0 then some (s, true)
  else match s.detach k with
    | .done t => some (t, true)
    | _ => (s.beginDetach k).map fun t => (t, false)

/-- Instructions that the three streams have issued. -/
def CoreSt.issuedAll (c : CoreSt) : Nat := c.l.issued + c.c.issued + c.s.issued

/-- A recipe job has issued more instructions than its limit: it is to be killed (R357). -/
def CoreSt.overLimit (c : CoreSt) : Bool := !c.hm && c.theJob.rlimit != 0 && decide (c.theJob.rlimit < c.issuedAll)

/-- All streams have arrived: the checks, the release of the lease, the detachment, and the end of the job, a handler job's
too (R128, R129). -/
def execJobRetirement (core : Nat) (s : State) : Host.Outcome State Fault Refusal :=
  let no : Host.Outcome State Fault Refusal := .refused (.notEnabled "JOB_RETIREMENT")
  let c := s.core core
  if c.job.isNone ∨ c.phase ≠ .running ∨ c.debug ∨ c.overLimit ∨ !(c.l.arrived && c.c.arrived && c.s.arrived) then no
  else match c.retireFault with
    | some c => .next (s.setCore core c)
    | none =>
      if c.cmds ≠ [] ∨ allStrms.any (fun x => s.scopePending core x) then no
      else match (s.releaseLease core).detachStep core with
        | none => no
        | some (t, false) => .next t
        | some (t, true) => .next (t.endJob core true)

/-! ### Commands that cannot go on (R105, R380) -/

def Cmd.isStopped (m : Cmd) : Bool := match m.stage with | .stopped _ => true | _ => false

/-- A transfer that pushes into a queue of its core cannot go on: the queue has no room for its next entry, of `n` bytes,
or an earlier transfer that feeds it stays: it has stopped, or is among those whose acceptance is undone (R105, R268). -/
def CoreSt.fullFeed (c : CoreSt) (undone : List Cmd) (m : Cmd) (n : Nat) : Bool :=
  match m.feeds with
  | none => false
  | some q =>
    m.stage == .push && ((if q = 4 then 256 < c.sq.items.length + n else 16 ≤ (c.dqueue q).items.length) ||
      (c.incomplete m.strm).any fun a => a.feeds == some q && a.seq < m.seq && (a.isStopped || undone.contains a))

/-- Unaccepted, faulted and suspended commands and beats not yet accepted are dropped (R380). -/
def CoreSt.dropCommands (c : CoreSt) : CoreSt :=
  let clear := fun (t : StreamSt) => { t with dray := [], coach := [], near := [], decode := [], stopped := true }
  { c with
    l := clear c.l, c := clear c.c, s := clear c.s, bulk := []
    cmds := c.cmds.filter fun m => match m.stage with
      | .failed _ | .stopped _ | .rebuild .. => false
      | _ => true
    culMove := if c.culRec.isSome then 0 else c.culMove, culRec := none, susp := none }

/-- In a kill no stream takes entries any more: a command that feeds a full queue is dropped, and so is one that has faulted
or met a dropped tensor since the kill began (R105, R380). -/
def State.dropHalted (s : State) (k : Nat) : State :=
  let c := (s.core k).dropCommands
  let left := c.cmds.filter fun m => !c.fullFeed [] m (m.nextEntry s).length
  let gone := (s.core k).cmds.filter fun m => !left.contains m
  gone.foldl State.unpinCmd (s.setCore k { c with cmds := left })

/-- A kill begins (R380): the job of core `k` gives up what it has not done. -/
def State.beginKill (s : State) (k : Nat) : State :=
  let s := ((s.releaseLease k).dropHalted k).modCore k fun c =>
    { c with
      phase := .killing, leaseReq := none, leaseGot := false, regain := none, leaving := none, culPend := none, raised := []
      recs := [], susp := none, failed := none, hm := false }
  { s with tensors := s.tensors.map fun t =>
      (t.1, if t.2.closing.map (· / 4) = some k then { t.2 with closing := none } else t.2) }

/-- A kill goes on: what is on its way lands, the cullet tensor is detached, and the core is free. A detachment that is
denied leaves the tensor as it stands (DESIGN CHOICE, unsafe: log entry 41). -/
def State.finishKill (s : State) (k : Nat) : State :=
  if (s.core k).phase ≠ .killing then s else
  let s := s.dropHalted k
  let c := s.core k
  if c.debug ∨ c.cmds ≠ [] ∨ c.casts ≠ [] ∨ c.culMove ≠ 0 ∨ allStrms.any (fun x => s.scopePending k x) then s
  else if c.culHandle = 0 then s.endJob k false
  else if c.culLeave.isSome then
    match s.detach k with
    | .done t => t.endJob k false
    | _ => if s.culletLost k then (((s.dropCullet k).pinDown c.culHandle.toNat).unattach k).endJob k false else s
  else match s.startDetach k with
    | (.done t, _) => t
    | (.bad _, _) => ((s.pinDown c.culHandle.toNat).unattach k).endJob k false
    | _ => s

end Sys2Proof.Machine
end

