-- ==== Sys2Proof/Machine/Residency.lean ====
section
/-! DEFINITION. The residency engines and the instructions that speak to them: distances, eviction, moves, compression,
rebuilds, tensor instructions and attention cache instructions (R206, R210, R214, R341 to R367, R431). -/
namespace Sys2Proof.Machine

/-! ### Position and distance (R346) -/

/-- Operator streams of a region: column, index, descriptor. -/
def State.streamsOf (s : State) (r : Nat) : List (Nat × Nat × OpStream) :=
  (List.range 4).flatMap fun c =>
    ((s.column c).streams.filter fun x => x.2.region == r).map fun x => (c, x.1, x.2)

/-- The least of some positions. -/
def leastPos : List (Nat × Nat × OpStream) → Option Nat
  | [] => none
  | x :: r => some (r.foldl (fun m y => min m y.2.2.pos.toNat) x.2.2.pos.toNat)

/-- The stream runs: status 0, with a started and unended operator. -/
def State.streamRuns (s : State) (x : Nat × Nat × OpStream) : Bool :=
  x.2.2.status == 0 && (s.column x.1).opers.any fun o => o.idx == x.2.1

/-- pos of a region (R346). -/
def State.regionPos (s : State) (r : Nat) : Option Nat :=
  let all := s.streamsOf r
  match leastPos (all.filter s.streamRuns) with
  | some p => some p
  | none => leastPos all

/-- The greatest distance, and the index that stands for none. -/
def farthest : Nat := 2 ^ 64 - 1

/-- The next-use distance of a tensor. -/
def State.dist (s : State) (h : Nat) : Nat :=
  let i := (s.tensor h).info
  match s.regionPos i.region with
  | none => farthest
  | some p => if i.nextuse.toNat = farthest ∨ i.nextuse.toNat < p then farthest else i.nextuse.toNat - p

/-! ### Compression (R214, R352) -/

/-- sample_ratio (R352). -/
def State.sampleRatio (s : State) (h : Nat) : Nat := 4096 * 256 / s.linesTake (dLoc ((s.tensor h).block 0)) 32

/-! ### Candidates and victims (R348 to R351, R354) -/

/-- Blocks of the current version that hold storage. -/
def Tensor.stored (t : Tensor) : List (Nat × BitVec 256) := t.blocks.filter fun b => dTier b.2 != 0 && dTier b.2 != 6

/-- Frames that the current version takes. -/
def Tensor.frames (t : Tensor) : Nat := t.stored.foldl (fun n b => n + Machine.frames b.2) 0

/-- The recipe's inputs (R341, R343). -/
def Tensor.uses (t : Tensor) : List (Nat × Nat) := t.inputs.take t.info.inputs

/-- The chain depth of a tensor, at most `n`: 0 for one that is not dropped (R354). -/
def State.chainDepth (s : State) : Nat → Nat → Nat
  | 0, _ => 0
  | n + 1, h =>
    let t := s.tensor h
    if t.info.state = 7 then
      1 + (t.uses.map fun i => s.chainDepth n i.1).foldl max 0
    else 0

/-- A drop is admitted (R354). -/
def State.dropAdmitted (s : State) (h : Nat) : Bool :=
  let t := s.tensor h
  t.info.recipe && t.uses.all (fun i => s.tensorValid i.1 && (s.tensor i.1).info.ver.toNat == i.2 && i.1 != h) &&
    decide (1 + (t.uses.map fun i => s.chainDepth 16 i.1).foldl max 0 ≤ (s.column (handleHome h)).depthMax.toNat)

/-- The tensor may be evicted from a partition (R349, R417). -/
def State.candidate (s : State) (col p h : Nat) : Bool :=
  let t := s.tensor h
  let i := t.info
  handleClass h != 2 && 1 ≤ i.state && i.state ≤ 6 && i.pin == 0 && s.inFlight h == 0 && !i.shadow &&
    t.stored.any (fun b => dTier b.2 == p + 1 && s.locColumn (handleHome h) (dLoc b.2) == col) &&
    t.blocks.all fun b => dget b.2 22 1 == 0 && dget b.2 21 1 == 0

/-- The order of R350: distance and size descending, handle ascending. -/
def State.victimBefore (s : State) (a b : Nat) : Bool :=
  let da := s.dist a
  let db := s.dist b
  let za := (s.tensor a).info.size.toNat
  let zb := (s.tensor b).info.size.toNat
  db < da || da == db && (zb < za || za == zb && a < b)

def State.insertVictim (s : State) (h : Nat) : List Nat → List Nat
  | [] => [h]
  | g :: r => if s.victimBefore h g then h :: g :: r else g :: s.insertVictim h r

/-- Candidates of a partition, in order. DEDUCED, safe: log entry 29. -/
def State.victims (s : State) (col p : Nat) : List Nat :=
  ((s.tensors.map (·.1)).filter (s.candidate col p)).foldl (fun l h => s.insertVictim h l) []

/-- Place of the first role of kind spill partner in the bound roles of a region (R351). -/
def State.spillRole (s : State) (r : Nat) : Option Nat :=
  (List.range 4).findSome? fun c => (s.column c).opers.findSome? fun o =>
    if o.region = r then (List.range o.roles.length).find? fun i => (o.roles.getD i {}).kind == 5 else none

/-- A tier partition can take a tensor's frames: watermark and budget, and a role for the neighbour tier (R351). -/
def State.takes (s : State) (col p h : Nat) : Bool :=
  let t := s.tensor h
  s.belowHigh col p && s.budgetRoom t.info.region p t.frames && (p != 3 || (s.spillRole t.info.region).isSome)

/-- The spill target of a tensor in a partition: a tier and the role of the neighbour tier. -/
def State.spillTarget (s : State) (col p h : Nat) : Option (Nat × Nat) :=
  (([1, 2, 3].filter fun q => p < q).find? fun q => s.takes col q h).map fun q =>
    (q + 1, (s.spillRole (s.tensor h).info.region).getD 0)

/-- What eviction may do to a tensor. -/
inductive Evict where
  | compress | spill (tier role : Nat) | drop
  deriving DecidableEq, Repr, Inhabited

/-- The allowed action of least cost; ties go compress, spill, drop (R350). -/
def State.evictAction (s : State) (col p h ratio : Nat) : Option Evict :=
  let i := (s.tensor h).info
  let c := s.column col
  let kib := (i.size.toNat + 1023) / 1024
  let ordinary := handleClass h = 0
  let comp : List (Nat × Evict) :=
    if (i.state = 1 ∨ i.state = 2) ∧ ordinary ∧ c.crCompMin.toNat ≤ ratio then [(kib * c.crComp.toNat, .compress)] else []
  let spill : List (Nat × Evict) := match s.spillTarget col p h with
    | some (t, r) => [(kib * (if t = 4 then c.crSpillNeigh else c.crSpillFar).toNat, .spill t r)]
    | none => []
  let drop : List (Nat × Evict) :=
    if ordinary ∧ s.dropAdmitted h then [(i.rcost.toNat * c.crDrop.toNat / 16, .drop)] else []
  let best := (comp ++ spill ++ drop).foldl (fun (m : Option (Nat × Evict)) x => match m with
    | some y => if x.1 % 2 ^ 64 < y.1 % 2 ^ 64 then some x else some y
    | none => some x) none
  best.map (·.2)

/-! ### Starting and ending actions (R353) -/

def State.setInfo (s : State) (h : Nat) (f : TensorRec → TensorRec) : State :=
  s.modTensor h fun t => { t with info := f t.info }

/-- Rewrites every descriptor of a tensor; cached copies are invalidated first (R205). -/
def State.mapBlocks (s : State) (h : Nat) (f : BitVec 256 → BitVec 256) : State :=
  (s.invalidate h fun _ => true).modTensor h fun t => { t with blocks := t.blocks.map fun b => (b.1, f b.2) }

/-- A move or a compression begins. -/
def State.beginAction (s : State) (h : Nat) (a : Action) : State :=
  let s' := (s.mapBlocks h fun d => dput d 23 1 1).setInfo h fun i => { i with state := 8 }
  s'.modColumn (handleHome h) fun c => { c with
    moving := c.moving ++ [{ handle := h, action := a, from_ := (s.tensor h).info.state }] }

/-- The move in progress on a tensor. -/
def State.movingOf (s : State) (h : Nat) : Option Moving := (s.column (handleHome h)).moving.find? fun m => m.handle == h

/-- An action is over: the state is set and the blocks no longer move. -/
def State.endAction (s : State) (h st : Nat) : State :=
  ((s.mapBlocks h fun d => dput d 23 1 0).setInfo h fun i => { i with state := st }).modColumn (handleHome h) fun c =>
    { c with moving := c.moving.filter fun m => m.handle != h }

/-- The current version's storage is given up: no block is mapped. -/
def State.freeStorage (s : State) (h st : Nat) : State :=
  (s.mapBlocks h fun d => dput (dput d 64 64 0) 3 1 0).setInfo h fun i => { i with state := st }

/-- Starts what eviction has chosen; a drop is done at once. DEDUCED, unsafe: log entry 28. -/
def State.startEvict (s : State) (col h : Nat) : Evict → State
  | .compress => s.beginAction h .compress
  | .spill t r => s.beginAction h (.move t r col)
  | .drop => s.freeStorage h 7

/-- The first candidate that has an allowed action; ratios sampled on the way are kept (R350, R352). -/
def State.tryVictims (s : State) (col p : Nat) : List Nat → State × Bool
  | [] => (s, false)
  | h :: r =>
    let i := (s.tensor h).info
    let sampled := i.ratio = 0
    let ratio := if sampled then s.sampleRatio h else i.ratio.toNat
    let s := if sampled then s.setInfo h fun i => { i with ratio := BitVec.ofNat 16 ratio } else s
    match s.evictAction col p h ratio with
    | some a => (s.startEvict col h a, true)
    | none => s.tryVictims col p r

/-- Frames that actions in progress will free in a partition (R350). -/
def State.pendingFree (s : State) (col p : Nat) : Nat :=
  (List.range 4).foldl (fun n c => (s.column c).moving.foldl (fun n m =>
    let f := s.framesIn m.handle col p
    match m.action with
    | .move tier _ to_ => if tier = p + 1 ∧ to_ = col then n else n + f
    | .compress =>
      let t := s.tensor m.handle
      let r := max 1 t.info.ratio.toNat
      n + (f - min f ((t.stored.length * 256 + r - 1) / r + (t.frames - t.stored.length)))) n) 0

/-- The loop of R350. -/
def State.evict (s : State) (col p : Nat) : Nat → State
  | 0 => s
  | n + 1 =>
    let c := s.column col
    if (s.occupancy col p - s.pendingFree col p) * 65536 ≤ c.wmLo.getD p 0 * c.capacity p then s
    else match s.tryVictims col p (s.victims col p) with
      | (t, true) => t.evict col p n
      | (t, false) => t

/-- The partition crosses WM_HI (R348), what is being freed counted as free. -/
def State.crossed (s : State) (col p : Nat) : Bool :=
  let c := s.column col
  c.wmHi.getD p 0 * c.capacity p < (s.occupancy col p - s.pendingFree col p) * 65536

/-- An engine evaluates partition `tier` of its column: 0 SRAM, 1 HBM, 2 far, 3 neighbour, at an allocation in it and
every 1,024 ac; where it crosses, it evicts (R348, R350). -/
def execEvictionEvaluation (col tier : Nat) (s : State) : Host.Outcome State Fault Refusal :=
  if 4 ≤ col ∨ 4 ≤ tier ∨ !(s.column col).evalDue.contains tier then .refused (.notEnabled "EVICTION_EVALUATION")
  else
    let s := s.modColumn col fun c => { c with evalDue := c.evalDue.filter (· != tier) }
    .next (if s.crossed col tier then s.evict col tier (s.tensors.length + 1) else s)

/-- State code of an uncompressed tensor of a tier (R342). -/
def tierState (tier : Nat) : Nat := if tier = 5 then 10 else tier

/-- Moves the blocks of a list into frames of a partition; none where there are not enough. -/
def State.moveBlocks (s : State) (h col p role : Nat) : List (Nat × BitVec 256) → Option State
  | [] => some s
  | (b, d) :: r =>
    (s.freeFrame col p role (dTrl d)).bind fun l =>
      (((s.copyFrames (dLoc d) l (dTrl d)).noteAlloc h l).modTensor h fun t =>
        t.setBlock b (dput (dput d 64 64 l) 3 1 0)).moveBlocks h col p role r

/-- A pin or an accepted transfer would meet the action (R353), or a block has been given to the host (R417). -/
def State.actionMet (s : State) (h : Nat) : Bool :=
  (s.tensor h).info.pin != 0 || s.inFlight h != 0 || (s.tensor h).blocks.any fun b => dget b.2 21 1 == 1

/-- The location of the compressed copy of a block: of its partition, with a number in bits 60:24 that no other copy has, so
that its frame is free (DESIGN CHOICE, safe: log entry 85). -/
def State.packedLoc (s : State) (loc : Nat) : Nat :=
  2 ^ 61 * locTier loc + loc % 2 ^ 24 + 2 ^ 24 * (1 + (s.usedLocs.map fun l => bitsOf l 24 37).foldl max 0)

/-- Compresses the blocks of a list in place. -/
def State.packBlocks (s : State) (h : Nat) : List (Nat × BitVec 256) → State
  | [] => s
  | (b, d) :: r =>
    let l := s.packedLoc (dLoc d)
    (((s.copyFrames (dLoc d) l (dTrl d)).modTensor h fun t => t.setBlock b (dput (dput d 64 64 l) 3 1 1))).packBlocks h r

/-- RESIDENCY_ACTION_DONE (R353): A spill, compression, move or drop completes and the state is set. -/
def execResidencyActionDone (handle : Nat) (s : State) : Host.Outcome State Fault Refusal :=
  match s.movingOf handle with
  | none => .refused (.notEnabled "RESIDENCY_ACTION_DONE")
  | some m =>
    if s.actionMet handle then .refused (.notEnabled "RESIDENCY_ACTION_DONE")
    else
      let t := s.tensor handle
      match m.action with
      | .move tier role col =>
        match (s.invalidate handle fun _ => true).moveBlocks handle col (tier - 1) role t.stored with
        | some s' => .next (s'.endAction handle (tierState tier))
        | none => .next (s.endAction handle m.from_)
      | .compress =>
        let after := t.stored.foldl (fun n b => n + s.linesTake (dLoc b.2) 512) 0
        let ratio := if after = 0 then 0 else 65536 * t.stored.length * 256 / after
        let s := (s.invalidate handle fun _ => true).packBlocks handle t.stored
        .next ((s.setInfo handle fun i => { i with ratio := BitVec.ofNat 16 ratio }).endAction handle (m.from_ + 4))

/-- RESIDENCY_ACTION_STOP (R353): An action met by a new pin or transfer stops at a block boundary. -/
def execResidencyActionStop (handle : Nat) (s : State) : Host.Outcome State Fault Refusal :=
  match s.movingOf handle with
  | none => .refused (.notEnabled "RESIDENCY_ACTION_STOP")
  | some m =>
    if s.actionMet handle then .next (s.endAction handle m.from_) else .refused (.notEnabled "RESIDENCY_ACTION_STOP")

/-! ### Rebuilds (R356 to R358, R431) -/

/-- The rebuild of a tensor in progress. -/
def State.rebuildOf (s : State) (h : Nat) : Option Rebuild := (s.column (handleHome h)).rebuilds.find? fun r => r.handle == h

def State.setRebuild (s : State) (r : Rebuild) : State :=
  s.modColumn (handleHome r.handle) fun c => { c with
    rebuilds := c.rebuilds.map fun q => if q.handle = r.handle then r else q }

def State.dropRebuild (s : State) (h : Nat) : State :=
  s.modColumn (handleHome h) fun c => { c with rebuilds := c.rebuilds.filter fun r => r.handle != h }

/-- Every rebuild of the package. -/
def State.allRebuilds (s : State) : List Rebuild := (List.range 4).flatMap fun c => (s.column c).rebuilds

/-- The rebuild that looks at input `h` now, one level out. -/
def State.askingRebuild (s : State) (h : Nat) : Option Rebuild := s.allRebuilds.find? fun r => r.todo.head? == some h && !r.job

/-- A core, a saved job or an operator waits for a rebuild of `h`. -/
def State.referenced (s : State) (h : Nat) : Bool :=
  (s.cores ++ s.saves).any (fun q => q.2.susp == some h || q.2.cmds.any fun m => (match m.stage with | .rebuild g _ => g == h | _ => false)) ||
    (List.range 4).any fun c => (s.column c).opers.any fun o => o.await.contains h

/-- What core `k` awaited of a rebuild of `h` has come to an end: `bad` holds the cause and the chain of a failure. A
transfer that waited in place goes on, or fails at its record; one for which the job was suspended is to fail when it
resumes, and else the reference that the job waits at (R356). -/
def State.rebuilt (s : State) (k : Nat) (c : CoreSt) (h : Nat) (bad : Option (Nat × List Nat)) : CoreSt :=
  let hit := c.susp = some h
  let ended := fun (m : Cmd) => match m.stage, bad with
    | .rebuild g _, none => if g = h then { m with stage := .walk } else m
    | .rebuild g b, some (e, _) => if g = h then { m with stage := .failed (m.record s k h b { cause := e }) } else m
    | .stopped r, some (e, _) => if hit ∧ r.cause = 0 ∧ r.handle = h then { m with doomed := some (h, r.block, e) } else m
    | _, _ => m
  let met := c.cmds.any fun m => match m.stage with | .rebuild g _ => g == h | _ => false
  let c := { c with cmds := c.cmds.map ended, susp := if hit then none else c.susp }
  match bad with
  | some (e, chain) =>
    if hit ∨ met then
      { c with failed := if hit && !c.cmds.any (fun m => m.doomed.any fun d => d.1 == h) then some (h, e) else c.failed
               chain := if e = 0x28 then chain.take 8 else c.chain }
    else c
  | none => c

/-- Everyone who waited for a rebuild of `h` goes on (R356, R358). -/
def State.rebuildEnded (s : State) (h : Nat) (bad : Option (Nat × List Nat)) : State :=
  let wake := fun (l : List (Nat × CoreSt)) => l.map fun q => (q.1, s.rebuilt q.1 q.2 h bad)
  let s := { s with cores := wake s.cores, saves := wake s.saves }
  (List.range 4).foldl (fun s c => s.modColumn c fun c => { c with
    opers := c.opers.map fun o => { o with await := o.await.filter (· != h) } }) s

/-- A rebuild of `h` fails: its storage is free again, and the failure passes outward (R356). `chain` holds the handles
from `h` inward. -/
def State.rebuildFails (s : State) (cause : Nat) : List Nat → Nat → Nat → State
  | _, 0, _ => s
  | chain, n + 1, h =>
    let s := match s.rebuildOf h with
      | some (r : Rebuild) => if r.job then ((s.tensor h).uses.map Prod.fst).foldl State.pinDown s else s
      | none => s
    let s := (s.freeStorage h 7).dropRebuild h
    let outer := (s.allRebuilds.filter fun (r : Rebuild) => r.todo.head? == some h && !r.job).map fun r => r.handle
    outer.foldl (fun s g => s.rebuildFails cause (g :: chain) n g) (s.rebuildEnded h (some (cause, chain)))

/-- A failure of a rebuild in progress, with fuel for every rebuild. -/
def State.failRebuild (s : State) (h cause : Nat) : State := s.rebuildFails cause [h] (s.allRebuilds.length + 1) h

/-- A call rebuild(h, depth) fails before the rebuild begins: at depth 1 those who wait for `h` itself take the failure, and
deeper the rebuilds that made the call (R356). -/
def State.failCall (s : State) (h depth cause : Nat) : State :=
  if depth ≤ 1 then s.rebuildEnded h (some (cause, [h]))
  else
    let callers := (s.allRebuilds.filter fun (r : Rebuild) => r.todo.head? == some h && !r.job && r.depth + 1 == depth).map
      fun r => r.handle
    callers.foldl (fun s g => s.rebuildFails cause [g, h] (s.allRebuilds.length + 1) g) s

/-- Bytes that hold undefined contents: free values. -/
def State.drawBytes (s : State) (n : Nat) : List Byte × State :=
  ((List.range n).map fun i => Config.freeByte (s.freeCtr + i), { s with freeCtr := s.freeCtr + n })

/-- Storage with undefined contents for some blocks, in one partition. -/
def State.giveBlocks (s : State) (h col p : Nat) : List (Nat × BitVec 256) → Option State
  | [] => some s
  | (b, d) :: r =>
    (s.freeFrame col p 0 (dTrl d)).bind fun l =>
      let (bs, s) := s.drawBytes 65536
      let s := if dTrl d then s.setFrame (l + 1) 0 (List.replicate 4096 0) else s
      (((s.setFrame l 0 bs).noteAlloc h l).modTensor h fun t => t.setBlock b (dput d 64 64 l)).giveBlocks h col p r

/-- Storage for a whole tensor by R355, and the tier that it lies in: HBM where it has parameter blocks (R212). DEDUCED,
safe: log entry 30. -/
def State.giveStorage (s : State) (h : Nat) : Option (State × Nat) :=
  let t := s.tensor h
  let col := handleHome h
  (if t.blocks.any fun b => dget b.2 22 1 == 1 then [1] else [0, 1, 2]).findSome? fun p =>
    if s.belowHigh col p && s.budgetRoom t.info.region p (t.blocks.foldl (fun n b => n + frames b.2) 0) then
      ((s.invalidate h fun _ => true).giveBlocks h col p t.blocks).map fun s => (s, p + 1)
    else none

/-- The recipe kernel declares roles, so that its job is never started (R357). -/
def State.recipeHasRoles (s : State) (i : TensorRec) : Bool :=
  bitsOf (s.codeWord i.rcode.toNat i.rline.toNat 4) 0 7 != 0

/-- The next thing a rebuild in progress does; none while it waits. -/
def State.rebuildStep (s : State) (r : Rebuild) : Option State :=
  let h := r.handle
  let t := s.tensor h
  match r.todo with
  | u :: rest =>
    let recorded := (t.uses.getD (t.uses.length - r.todo.length) (0, 0)).2
    let i := (s.tensor u).info
    if !s.tensorValid u ∨ recorded ≠ i.ver.toNat ∨ r.chain.contains u then some (s.failRebuild h 0x29)
    else if i.state = 7 ∨ i.state = 8 ∨ i.state = 9 then none
    else some (s.setRebuild { r with todo := rest })
  | [] =>
    if r.job then none
    else match s.giveStorage h with
      | none => some (s.failRebuild h 0x2A)
      | some (s, _) =>
        if s.recipeHasRoles t.info then some (s.failRebuild h 0x29) else
        some ((t.uses.map (·.1)).foldl State.pinUp (s.setRebuild { r with job := true, since := s.time.toNat }))

/-- rebuild(h, depth): begins where a dropped tensor is reached for, or goes on to its next input. -/
def execRebuild (handle depth : Nat) (s : State) : Host.Outcome State Fault Refusal :=
  let no : Host.Outcome State Fault Refusal := .refused (.notEnabled "REBUILD")
  let i := (s.tensor handle).info
  match s.rebuildOf handle with
  | some r => if r.depth = depth then (match s.rebuildStep r with | some t => .next t | none => no) else no
  | none =>
    let outer := s.askingRebuild handle
    let asked := if depth = 1 then s.referenced handle else outer.any fun r => r.depth + 1 == depth
    if i.state ≠ 7 ∨ !asked then no
    else
      let chain := (if depth = 1 then [] else (outer.map (·.chain)).getD []) ++ [handle]
      if (s.column (handleHome handle)).depthMax.toNat < depth then .next (s.failCall handle depth 0x28)
      else if !i.recipe then .next (s.failCall handle depth 0x29)
      else .next ((s.setInfo handle fun i => { i with state := 9 }).modColumn (handleHome handle) fun c => { c with
        rebuilds := c.rebuilds ++
          [{ handle := handle, depth := depth, chain := chain, todo := (s.tensor handle).uses.map (·.1) }] })

/-- The core is reported free (R129), on a layer pair that is awake and fresh (R262). -/
def State.isFree (s : State) (k : Nat) : Bool :=
  let c := s.core k
  c.phase == .idle && c.job.isNone && !c.debug && c.freeAt ≤ s.time.toNat &&
    (s.column (colOf k)).pairReady (pairOf k)

/-- The lowest free core of a column. -/
def State.freeCore (s : State) (col : Nat) : Option Nat :=
  (coresOfColumn col).find? s.isFree

/-- The recipe job of R357. -/
def State.recipeJob (s : State) (h : Nat) : Job :=
  let t := s.tensor h
  { kind := .recipe h, region := t.info.region, code := t.info.rcode.toNat, hline := t.info.rline.toNat,
    handles := (h :: t.uses.map Prod.fst ++ List.replicate 8 0).take 8, indices := [0],
    rlimit := t.info.rlimit.toNat }

/-- RECIPE_JOB_START (R357): A recipe job is started on a free core of the home column. -/
def execRecipeJobStart (handle : Nat) (s : State) : Host.Outcome State Fault Refusal :=
  let no : Host.Outcome State Fault Refusal := .refused (.notEnabled "RECIPE_JOB_START")
  match s.rebuildOf handle with
  | some r =>
    if !r.job ∨ r.core.isSome ∨ r.ended.isSome then no
    else match s.freeCore (handleHome handle) with
      | some k => .next ((s.setRebuild { r with core := some k }).startJob k (s.recipeJob handle) false)
      | none => no
  | none => no

/-- Area `i` of a column's pool exists, and every block of it has storage. DESIGN CHOICE, safe: log entry 38. -/
def State.areaThere (s : State) (col i : Nat) : Bool :=
  let c := s.column col
  i < c.poolAreas && s.tensorValid c.poolHandle &&
    (List.range 32).all fun b => dTier ((s.tensor c.poolHandle).block (32 * i + b)) != 0

/-- Areas of a column's context pool from 144 on that hold no saved job (R372). -/
def State.freeAreas (s : State) (col : Nat) : List Nat :=
  (List.range (s.column col).poolAreas).filter fun a =>
    144 ≤ a && (find s.saves (saveKey col a)).isNone && s.areaThere col a

/-- Cores of a column that a pre-emption stop holds (R369). -/
def State.preempting (s : State) (col : Nat) : Nat :=
  (s.cores.filter fun q => colOf q.1 == col && q.2.phase == .stopping .preempt).length

/-- A pre-emption may stop the job of the core: it runs, is neither a handler nor held by a debug stop, and an area is free
beside those that the pre-emptions in progress hold (R370, R371, R372, R400), or its tile has only just reached it (R338). -/
def State.canPreempt (s : State) (k : Nat) : Bool :=
  let c := s.core k
  c.job.isSome && !c.hm && !c.debug && ((find s.reached k).isSome && (c.phase == .running || c.phase.isRestoring) ||
    c.phase == .running && s.preempting (colOf k) < (s.freeAreas (colOf k)).length)

/-- The tile of a job goes back to its walker unstarted: it keeps its ordinal and indices, and the core stands as it stood
before the hand-out (R338). -/
def State.returnTile (s : State) (k : Nat) (r : Reached) : State :=
  let j := (s.core k).theJob
  let s := { s.setCore k r.before with reached := erase s.reached k }
  match r.area, j.kind with
  | some a, _ => s.modLayer r.layer fun y => { y with tiles := a :: y.tiles }
  | none, .operator col idx seq => s.modColumn col fun c => { c with
      opers := c.opers.map fun o => if o.idx = idx ∧ o.seq = seq then
        { o with open_ := o.open_ - 1, back := o.back ++ [j.ordinal] } else o }
  | none, _ => s

/-- Every tile of a region that has reached its core in this ac goes back (R338). -/
def State.returnTiles (s : State) (r : Nat) : State :=
  (s.reached.filter fun q => (s.core q.1).theJob.region == r).foldl (fun s q => s.returnTile q.1 q.2) s

/-- The control plane pre-empts the job of a core (R381). The tiles of its region that have reached their cores in this ac go
back, and where its own is one of them nothing is left to stop (R338). -/
def State.preempt (s : State) (k : Nat) : State :=
  let t := s.returnTiles (s.core k).theJob.region
  if (find s.reached k).isSome then t else t.modCore k fun c => { c.marked with phase := .stopping .preempt }

/-- Priority of a job: a recipe job runs at 7 (R357). -/
def State.jobPrio (s : State) (j : Job) : Nat := match j.kind with | .recipe _ => 7 | _ => s.prio j.region

/-- RECIPE_CORE_TIMEOUT (R357): No free core within 1,024 ac pre-empts a job for the recipe. -/
def execRecipeCoreTimeout (handle : Nat) (s : State) : Host.Outcome State Fault Refusal :=
  let no : Host.Outcome State Fault Refusal := .refused (.notEnabled "RECIPE_CORE_TIMEOUT")
  let col := handleHome handle
  match s.rebuildOf handle with
  | some r =>
    if !r.job ∨ r.core.isSome ∨ r.ended.isSome ∨ s.time.toNat < r.since + 1024 ∨ (s.freeCore col).isSome ∨
        s.preempting col ≠ 0 then no
    else
      let jobs := (coresOfColumn col).filter s.canPreempt
      match jobs.foldl (fun (m : Option Nat) k => match m with
          | none => some k
          | some a =>
            let pa := s.jobPrio (s.core a).theJob
            let pk := s.jobPrio (s.core k).theJob
            if pk < pa ∨ (pk = pa ∧ (s.core a).theJob.start < (s.core k).theJob.start) then some k else some a) none with
      | some k => .next (s.preempt k)
      | none => no
  | none => no

/-- RECIPE_LIMIT_KILL (R357): A recipe job exceeding rlimit instructions is killed. -/
def execRecipeLimitKill (core : Nat) (s : State) : Host.Outcome State Fault Refusal :=
  let c := s.core core
  if c.job.isSome ∧ c.overLimit ∧ (c.phase = .running ∨ c.phase = .draining) then .next ((s.beginKill core).finishKill core)
  else .refused (.notEnabled "RECIPE_LIMIT_KILL")

/-- Tier of the storage of a tensor's current version, if it has any. -/
def Tensor.tier (t : Tensor) : Option Nat := t.stored.head?.map fun b => dTier b.2

/-- REBUILD_COMPLETE (R356): The recipe job ends and the tensor becomes resident or returns to dropped. -/
def execRebuildComplete (handle : Nat) (s : State) : Host.Outcome State Fault Refusal :=
  match s.rebuildOf handle with
  | some r =>
    match r.ended with
    | some true =>
      let t := s.tensor handle
      let s := (t.uses.map (·.1)).foldl State.pinDown s
      let s := (s.setInfo handle fun i => { i with state := tierState (t.tier.getD 1) }).dropRebuild handle
      .next (s.rebuildEnded handle none)
    | some false => .next (s.failRebuild handle 0x29)
    | none => .refused (.notEnabled "REBUILD_COMPLETE")
  | none => .refused (.notEnabled "REBUILD_COMPLETE")

/-! ### Versions (R210, R363, R364) -/

/-- Opens a shadow with exponent `l`. -/
def State.openShadow (s : State) (h : Nat) (zero : Bool) (l : BitVec 8) : State :=
  (s.mapBlocks h fun d => dput (dput d 4 2 (if zero then 2 else 1)) 128 64 0).setInfo h fun i => { i with shl := l, shadow := true }

/-- State of a tensor after its shadow is published: the tier of its first stored block; R210 lets blocks that were not
written keep their place, beside those of the shadow (DEDUCED, unsafe: log entry 78). One that is being rebuilt still is
(R358). -/
def publishedState (blocks : List (BitVec 256)) (old : Nat) : Nat :=
  if old = 9 ∨ blocks.any fun d => dTier d == 0 then old
  else match blocks.find? fun d => dTier d != 6 with
    | some d => if dget d 3 1 = 1 ∧ dTier d ≤ 2 then dTier d + 4 else tierState (dTier d)
    | none => if old = 7 then 1 else old

/-- The descriptor of a block of the published version. -/
def publishedDesc (d : BitVec 256) : BitVec 256 :=
  let clear := fun d => dput (dput d 128 64 0) 4 2 0
  if dShst d = 3 then clear (dput (dput d 64 64 (dShloc d)) 3 1 0)
  else if dShst d = 2 then clear (dput (dput d 64 64 zeroLoc) 3 1 0)
  else clear d

/-- Publishes the open shadow (R210). A move in progress ends first. -/
def State.publish (s : State) (h : Nat) : State :=
  let s := match s.movingOf h with | some m => s.endAction h m.from_ | none => s
  let s := s.mapBlocks h publishedDesc
  s.modTensor h fun t => { t with
    closing := none
    info := { t.info with
      curl := t.info.shl, ver := t.info.ver + 1, shadow := false
      state := publishedState (t.blocks.map (·.2)) t.info.state } }

/-- An admitted write into the open shadow of `h` has not been performed at .pkg: it has not landed, or a stamp of it is
on its way (R223, R232, R238). -/
def State.admitted (s : State) (h : Nat) : Bool :=
  let v := (s.tensor h).info.ver.toNat + 1
  (s.cores ++ s.saves).any (fun q => q.2.cmds.any fun m => !m.stale && m.targets.contains (h, v)) ||
    s.transit.any fun f => f.into == some h

/-! ### The tensor instructions (R359 to R366) -/

/-- The common checks of R360 on the tensor that an instruction names: the class must be one of `classes`. -/
def State.tensorFault (s : State) (k h : Nat) (classes : List Nat) : Option (Nat × W64) :=
  let t := s.tensor h
  if !s.tensorValid h then some (0x10, tensorInfo h { cause := 0x10 })
  else if !classes.contains (handleClass h) then some (0x23, tensorInfo h { cause := 0x23 })
  else if !dShared (t.block 0) && !s.isWithin t.info.region (s.core k).theJob.region then
    some (0x11, tensorInfo h { cause := 0x11, detail := 4 })
  else none

/-- A RANGE that holds the handle. -/
def handleRange (h : Nat) : Res State := .fault 0x23 (BitVec.ofNat 64 h)

/-- A tensor instruction on handle s[ra][31:0]: earlier commands of the stream are accepted, and R360 passes. -/
def issueTensor (i : Instr) (s : State) (ra : BitVec 5) (classes : List Nat) (body : Nat → State → Res State) :
    Host.Outcome State Fault Refusal :=
  issue i s fun s =>
    let h := (s.cur.val ra).toNat % 2 ^ 32
    if s.cur.queued ≠ [] then .wait .engine s
    else match s.tensorFault s.who h classes with
      | some (e, f) => .fault e f
      | none => body h s

/-- Writes a scalar register of the issuing stream. -/
def State.put (s : State) (rd : BitVec 5) (v : Nat) : Res State := .ok (s.modCur fun t => t.setReg rd.toNat (BitVec.ofNat 64 v))

/-- Bytes 15:8 of a record (R341). -/
def TensorRec.word0 (i : TensorRec) : Nat :=
  i.state + 2 ^ 4 * i.shadow.toNat + 2 ^ 5 * i.recipe.toNat + 2 ^ 8 * i.curl.toNat + 2 ^ 16 * i.shl.toNat +
    2 ^ 24 * i.fmt.toNat + 2 ^ 32 * i.pin.toNat + 2 ^ 48 * i.ratio.toNat

/-- tref (R361). -/
def execTref (rd ra : BitVec 5) (s : State) : Host.Outcome State Fault Refusal :=
  issueTensor (.tref rd ra) s ra [0, 1, 3] fun h s =>
    let c := s.core s.who
    let i := (s.tensor h).info
    if 16 ≤ c.pins.length then handleRange h
    else match c.rebuildFailed h with
    | some e => .report (s.setCore s.who { c with failed := none }) e (c.rebuildInfo h e)
    | none =>
    if i.state = 7 ∨ i.state = 9 ∧ c.access.rebuilds ≠ some h then .wait .engine (s.setCore s.who (c.awaitRebuild h))
    else if i.state = 8 ∨ i.state = 9 then .wait .engine s
    else if i.pin = 0xFFFF then handleRange h
    else
      let s := (s.pinUp h).modCore s.who fun c => { c with pins := c.pins ++ [h] }
      s.put rd (s.tensor h).info.word0

/-- tunpin (R361): Removes a pin taken by tref. -/
def execTunpin (ra : BitVec 5) (s : State) : Host.Outcome State Fault Refusal :=
  issueTensor (.tunpin ra) s ra [0, 1, 3] fun h s =>
    if (s.core s.who).pins.contains h then
      .ok ((s.modCore s.who fun c => { c with pins := c.pins.erase h }).pinDown h)
    else handleRange h

/-- thint (R362). -/
def execThint (ra rb : BitVec 5) (s : State) : Host.Outcome State Fault Refusal :=
  issueTensor (.thint ra rb) s ra [0, 1, 3] fun h s =>
    let v := (s.cur.val rb).toNat
    let tier := v % 8
    let i := (s.tensor h).info
    if 16 ≤ v ∨ (v < 8 ∧ (tier = 0 ∨ 4 ≤ tier)) then handleRange h
    else if 8 ≤ v then .ok (s.setInfo h fun i => { i with nextuse := -1 })
    else if i.pin = 0 ∧ 1 ≤ i.state ∧ i.state ≤ 6 ∧ (s.tensor h).tier.any (· != tier) ∧
        (s.tensor h).blocks.all (fun b => dget b.2 22 1 == 0 && dget b.2 21 1 == 0) ∧ s.takes (handleHome h) (tier - 1) h then
      .ok (s.beginAction h (.move tier 0 (handleHome h)))
    else .ok s

/-- tnewv and tnewv.zero (R363). -/
def newVersion (rd ra rb : BitVec 5) (i : Instr) (zero : Bool) (s : State) : Host.Outcome State Fault Refusal :=
  issueTensor i s ra [0] fun h s =>
    let t := s.tensor h
    let v := (s.cur.val rb).toNat
    if dget (t.block 0) 18 1 = 0 then .fault 0x11 (tensorInfo h { cause := 0x11, detail := 2 })
    else if 256 ≤ v ∨ v = 128 then handleRange h
    else
      let s := if t.info.shadow then s else s.openShadow h zero (BitVec.ofNat 8 v)
      s.put rd ((t.info.ver + 1).toNat)

/-- tnewv (R363): Opens a shadow version of an ordinary tensor. -/
def execTnewv (rd ra rb : BitVec 5) (s : State) : Host.Outcome State Fault Refusal :=
  newVersion rd ra rb (.tnewv rd ra rb) false s

/-- tnewv.zero (R363): Opens a zero-filled shadow version. -/
def execTnewvZero (rd ra rb : BitVec 5) (s : State) : Host.Outcome State Fault Refusal :=
  newVersion rd ra rb (.tnewvZero rd ra rb) true s

/-- pubv (R364): of one ac's the lower COREID is taken first; the first to arrive closes the shadow to new commands and
waits for those admitted. -/
def execPubv (rd ra : BitVec 5) (s : State) : Host.Outcome State Fault Refusal :=
  issueTensor (.pubv rd ra) s ra [0] fun h s =>
    let t := s.tensor h
    let me := 4 * s.who + strmCode s.strm
    if s.comesLate s.who h then .wait .engine s
    else if !t.info.shadow then handleRange h
    else if t.closing.any (· != me) then .wait .engine s
    else if s.admitted h then .wait .engine ((s.comes s.who h).modTensor h fun t => { t with closing := some me })
    else
      let s := (s.comes s.who h).publish h
      s.put rd (s.tensor h).info.ver.toNat

/-- tinfo (R365). A chain depth that its four bits do not hold is given as 15 (DESIGN CHOICE, unsafe: log entry 99). -/
def execTinfo (rd ra rb : BitVec 5) (s : State) : Host.Outcome State Fault Refusal :=
  issue (.tinfo rd ra rb) s fun s =>
    let h := (s.cur.val ra).toNat % 2 ^ 32
    let i := (s.tensor h).info
    if !s.tensorValid h then s.put rd 0
    else match s.tensorFault s.who h [0, 1, 3] with
      | some (e, f) => .fault e f
      | none =>
        match (s.cur.val rb).toNat with
        | 0 => s.put rd i.word0
        | 1 => s.put rd (i.ver.toNat + 2 ^ 32 * i.shadow.toNat)
        | 2 => s.put rd i.size.toNat
        | 3 => s.put rd (s.dist h)
        | 4 => s.put rd i.nextuse.toNat
        | 5 => s.put rd (min (s.chainDepth 16 h) 15 + 2 ^ 16 * (s.inFlight h % 2 ^ 16))
        | _ => handleRange h

/-- useadv (R366). -/
def execUseadv (rd ra : BitVec 5) (s : State) : Host.Outcome State Fault Refusal :=
  issue (.useadv rd ra) s fun s =>
    let k := (s.cur.val ra).toNat
    if s.cur.queued ≠ [] then .wait .engine s
    else if k = 0 ∨ 65535 < k then .fault 0x23 (s.cur.val ra)
    else match (s.core s.who).theJob.kind with
      | .operator col idx _ =>
        let p := (look {} (s.column col).streams idx).pos + BitVec.ofNat 64 k
        (s.modColumn col fun c => { c with
          streams := set c.streams idx { look {} c.streams idx with pos := p } }).put rd p.toNat
      | _ => s.put rd 0

/-! ### Attention cache instructions (R221, R367) -/

/-- A cache instruction on triple s[rb]; of one ac's the lower COREID is taken first (R367). -/
def issueCache (i : Instr) (s : State) (ra rb : BitVec 5) (body : Nat → Nat → State → Res State) :
    Host.Outcome State Fault Refusal :=
  issueTensor i s ra [1] fun h s =>
    let key := (s.cur.val rb).toNat
    if s.comesLate s.who h then .wait .engine s
    else if 2 ^ 40 ≤ key then handleRange h
    else body h key (s.comes s.who h)

/-- Descriptor of a new block: the attributes of block 0, or the record's format with reads and writes permitted
(DESIGN CHOICE, unsafe: log entry 42). -/
def Tensor.newDesc (t : Tensor) : BitVec 256 :=
  match find t.blocks 0 with
  | some d => dput (dput (dput (dput d 64 64 0) 128 64 0) 23 1 0) 3 3 0
  | none => BitVec.ofNat 256 (2 ^ 6 * t.info.fmt.toNat + 2 ^ 17 + 2 ^ 18)

/-- A block number that the tensor does not use. -/
def Tensor.newBlock (t : Tensor) : Nat := t.blocks.foldl (fun n b => max n (b.1 + 1)) 0

/-- kvalloc (R367): Maps a cache triple to a new block. -/
def execKvalloc (rd ra rb : BitVec 5) (s : State) : Host.Outcome State Fault Refusal :=
  issueCache (.kvalloc rd ra rb) s ra rb fun h key s =>
    let t := s.tensor h
    let d := t.newDesc
    if (find t.kv key).isSome then handleRange h
    else match s.allocateKv h d with
      | none => .fault 0x2A (BitVec.ofNat 64 h)
      | some l =>
        let (bs, s) := s.drawBytes 65536
        let b := t.newBlock
        let s := if dTrl d then s.setFrame (l + 1) 0 (List.replicate 4096 0) else s
        (((s.setFrame l 0 bs).noteAlloc h l).modTensor h fun t =>
          { t.setBlock b (dput d 64 64 l) with kv := set t.kv key b, shares := set t.shares b 1 }).put rd 0

/-- kvmap (R367): Returns the mapping state of a cache triple. -/
def execKvmap (rd ra rb : BitVec 5) (s : State) : Host.Outcome State Fault Refusal :=
  issueCache (.kvmap rd ra rb) s ra rb fun h key s =>
    let t := s.tensor h
    match find t.kv key with
    | none => s.put rd 0
    | some b =>
      let d := t.block b
      s.put rd (1 + 2 * dTier d + 2 ^ 4 * dget d 3 1 + 2 ^ 16 * look 1 t.shares b)

/-- kvshare (R367): Maps a second triple to the block of a first and raises its share count. -/
def execKvshare (rd ra rb rc : BitVec 5) (s : State) : Host.Outcome State Fault Refusal :=
  issueCache (.kvshare rd ra rb rc) s ra rb fun h key s =>
    let t := s.tensor h
    let key2 := (s.cur.val rc).toNat
    if 2 ^ 40 ≤ key2 then handleRange h
    else match find t.kv key with
      | none => handleRange h
      | some b =>
        let n := look 1 t.shares b
        if (find t.kv key2).isSome ∨ n = 0xFFFF then handleRange h
        else
          (s.modTensor h fun t => { t with kv := set t.kv key2 b, shares := set t.shares b (n + 1) }).put rd (n + 1)

/-- kvfree (R367): Unmaps a cache triple and lowers the share count. -/
def execKvfree (rd ra rb : BitVec 5) (s : State) : Host.Outcome State Fault Refusal :=
  issueCache (.kvfree rd ra rb) s ra rb fun h key s =>
    let t := s.tensor h
    match find t.kv key with
    | none => handleRange h
    | some b =>
      let n := look 1 t.shares b - 1
      ((s.modTensor h fun t => { t with kv := erase t.kv key, shares := set t.shares b n }).reap h).put rd n

/-! ### binv (R206) -/

/-- binv (R206): Invalidates block translation cache entries across the package. -/
def execBinv (ra rb : BitVec 5) (s : State) : Host.Outcome State Fault Refusal :=
  issue (.binv ra rb) s fun s =>
    let h := (s.cur.val ra).toNat % 2 ^ 32
    let b := s.cur.val rb
    .ok (s.invalidate h fun n => b == -1 || n == b.toNat)

end Sys2Proof.Machine
end

