-- ==== Sys2Proof/Machine/Scheduling.lean ====
section
/-! DEFINITION. Operator streams, records, loop nests, bindings, hand-out, arbitration and pre-emption (R317 to R338,
R346, R347, R234). -/
namespace Sys2Proof.Machine

/-! ### Operator streams (R321, R322, R331) -/

def State.opStream (s : State) (col idx : Nat) : OpStream := look {} (s.column col).streams idx

/-- The descriptor is in use. -/
def State.streamUsed (s : State) (col idx : Nat) : Bool := (find (s.column col).streams idx).isSome

def State.modStream (s : State) (col idx : Nat) (f : OpStream → OpStream) : State :=
  s.modColumn col fun c => { c with streams := set c.streams idx (f (look {} c.streams idx)) }

/-- First byte of record `q` in the ring of a stream. -/
def OpStream.slot (x : OpStream) (q : Nat) : Nat := 128 * (q % 2 ^ x.cap)

/-- tail − done is the ring's capacity (R321). -/
def OpStream.full (x : OpStream) : Bool := (x.tail - x.done).toNat == 2 ^ x.cap

/-- Bytes written by a sequencer into a tensor's current storage; a tier-6 block is first given storage. -/
def State.deviceWrite (s : State) (h off : Nat) (bs : List Byte) : State :=
  ((s.prepare h (off / 65536) false).getD s).setImage h off bs

/-- The host writes a stream's tail (R322). -/
def execHostTailWrite (col idx : Nat) (tail : BitVec 64) (s : State) : Host.Outcome State Fault Refusal :=
  if col < 4 ∧ s.streamUsed col idx then .next (s.modStream col idx fun st => { st with tail := tail })
  else .refused (.notEnabled "HOST_TAIL_WRITE")

/-! ### Records (R322 to R326, R347) -/

/-- A field of an operator record. -/
def recNum (b : List Byte) (byte n : Nat) : Nat := leNat ((b.drop byte).take n)

/-- Reserved bits of a record are zero, and flag bit 2 is not set without bit 1 (R323). -/
def recordSound (b : List Byte) : Bool :=
  recNum b 0 4 == 0 && recNum b 11 1 == 0 && recNum b 12 1 == 0 && recNum b 13 1 < 16 && recNum b 16 8 == 0 &&
    recNum b 80 48 == 0 && recNum b 13 1 / 2 % 4 != 2

/-- Bytes of a tensor, where some of them are as a walker's cache holds them (R317). -/
def State.spanNum (s : State) (cached : List Span) (h off n : Nat) : Nat :=
  match cached.find? fun p => p.handle == h && p.off ≤ off && off + n ≤ p.off + p.bytes.length with
  | some p => leNat ((p.bytes.drop (off - p.off)).take n)
  | none => s.imageNum h off n

/-- Bounds and order of a loop-nest record (R324). -/
def State.loopNest (s : State) (cached : List Span) (h off : Nat) : Option (List Nat × Nat) :=
  let f := fun byte n => s.spanNum cached h (off + byte) n
  let d := f 24 1
  let bs := (List.range 6).map fun i => f (4 * i) 4
  if 1 ≤ d ∧ d ≤ 6 ∧ f 25 1 ≤ 3 ∧ f 26 6 = 0 ∧ (bs.drop d).all (· == 0) ∧ (bs.take d).foldl (· * ·) 1 < 2 ^ 32 then
    some (bs.take d, f 25 1)
  else none

/-- A unit identity of a kind names an enabled unit (R326). -/
def unitOk (kind u : Nat) : Bool :=
  match kind with
  | 0 => coreValid u
  | 1 => u < 1024 && u % 32 == 0
  | 2 => u < 4
  | 3 => u < 8
  | _ => u < 512

/-- No number repeats. -/
def noRepeat : List Nat → Bool
  | [] => true
  | a :: r => !r.contains a && noRepeat r

/-- The roles of a group binding table; none where the binding is bad (R326). -/
def State.binding (s : State) (cached : List Span) (h off : Nat) (roles : List (Nat × Nat)) : Option (List Role) :=
  ((List.range roles.length).zip roles).mapM fun (i, kind, count) =>
    let e := s.spanNum cached h (off + 8 * i) 8
    let us := (List.range count).map fun j => s.spanNum cached h (off + e / 2 ^ 32 + 4 * j) 4
    if bitsOf e 0 4 = kind ∧ bitsOf e 4 12 = 0 ∧ bitsOf e 16 16 = count ∧ us.all (unitOk kind) ∧ noRepeat us then
      some { kind := kind, members := us }
    else none

/-- Bytes of a tensor, as they are read now. -/
def State.span (s : State) (cached : List Span) (h off n : Nat) : Span :=
  { handle := h, off := off, bytes := (List.range n).map fun i => BitVec.ofNat 8 (s.spanNum cached h (off + i) 1) }

/-- The parts of a group binding table (R326). -/
def State.bindingSpans (s : State) (cached : List Span) (h off : Nat) (roles : List (Nat × Nat)) : List Span :=
  s.span cached h off (8 * roles.length) :: ((List.range roles.length).zip roles).map fun e =>
    s.span cached h (off + s.spanNum cached h (off + 8 * e.1) 8 / 2 ^ 32) (4 * e.2.2)

/-- The record's own use list, as handles and offsets; none where it makes a bad record (R347). -/
def State.useList (s : State) (h off : Nat) : Option (List (Nat × Nat)) :=
  if h = 0 then some []
  else
    let n := s.imageNum h off 4
    let es := (List.range n).map fun i => s.imageNum h (off + 4 + 8 * i) 8
    if 4096 < n then none
    else if es.all fun e => s.tensorValid (e % 2 ^ 32) then some (es.map fun e => (e % 2 ^ 32, e / 2 ^ 32)) else none

/-- Cores of an operator's group, and its bound layers (R327). -/
def groupCores (roles : List Role) : List Nat :=
  roles.flatMap fun r => if r.kind = 0 then r.members else if r.kind = 1 then r.members.flatMap fun u => layerCores (u / 32) else []

def groupLayers (roles : List Role) : List Nat :=
  (List.range 32).filter fun l => (groupCores roles).any fun k => layerOf k == l

/-- An operator as its record gives it, with its use lists; or the status that its stream takes (R322): 1 bad record, 2
bad binding, 3 region malformed, the least of those that apply (DESIGN CHOICE, unsafe: log entry 105). Its loop-nest
record and group binding table are read through `cached`. -/
def State.readRecord (s : State) (cached : List Span) (col idx : Nat) : (Oper × List (Nat × Nat) × List (Nat × Nat)) ⊕ Nat :=
  let st := s.opStream col idx
  let q := st.head.toNat
  let b := s.imageBytes st.ring (st.slot q) 128
  let hs := (List.range 8).map fun i => recNum b (24 + 4 * i) 4
  match s.readHeader (recNum b 4 4) (recNum b 8 3), s.loopNest cached (recNum b 56 4) (recNum b 60 4),
      s.useList (recNum b 64 4) (recNum b 68 4) with
  | some h, some (bounds, order), some uses =>
    if !recordSound b then .inr 1
    else match s.binding cached (recNum b 72 4) (recNum b 76 4) h.roles with
      | none => .inr 2
      | some roles =>
        if s.malformed st.region then .inr 3
        else
          let layers := groupLayers roles
          .inl ({
            idx := idx, seq := q, region := st.region, handles := hs, imask := recNum b 14 1, omask := recNum b 15 1
            flags := recNum b 13 1, code := recNum b 4 4, hline := recNum b 8 3, bounds := bounds, order := order
            roles := roles, layers := layers, next := List.range layers.length
            granules := (h.allocs.foldl CoreSt.mapAlloc {}).alloc.length
            spans := s.span cached (recNum b 56 4) (recNum b 60 4) 32 ::
              s.bindingSpans cached (recNum b 72 4) (recNum b 76 4) h.roles }, h.uses, uses)
  | _, _, _ => .inr 1

/-! ### Starting an operator (R333, R345, R347) -/

/-- Distinct handles in the slots of a mask. -/
def maskHandles (hs : List Nat) (mask : Nat) : List Nat :=
  ((List.range 8).filterMap fun i => if bitsOf mask i 1 = 1 ∧ hs.getD i 0 ≠ 0 then some (hs.getD i 0) else none).eraseDups

/-- The tensor behind a handle that need not be checked: a view's base. -/
def State.underlying (s : State) (h : Nat) : Nat := if handleClass h = 2 then (viewOf (s.viewRec h)).base else h

def Oper.reads (o : Oper) : List Nat := maskHandles o.handles o.imask
def Oper.writes (o : Oper) : List Nat := maskHandles o.handles o.omask

/-- Two operators conflict: one writes what the other names (R334). -/
def Oper.conflicts (a b : Oper) : Bool :=
  a.writes.any (fun h => b.reads.contains h || b.writes.contains h) ||
    b.writes.any fun h => a.reads.contains h || a.writes.contains h

def Oper.total (o : Oper) : Nat := o.bounds.foldl (· * ·) 1

/-- Indices of use given to handles by one record: the least index of each handle (R347). -/
def useIndices (pos : Nat) (hs : List Nat) (hdr own : List (Nat × Nat)) : List (Nat × Nat) :=
  let gives := (hdr.map fun u => (hs.getD u.1 0, (pos + u.2) % 2 ^ 64)) ++
    own.map fun u => (u.1, if u.2 = 2 ^ 32 - 1 then farthest else (pos + u.2) % 2 ^ 64)
  gives.foldl (fun m g => set m g.1 (min (look farthest m g.1) g.2)) []

/-- Applies use indices to the tensors they name. -/
def State.applyUses (s : State) (q : Nat) (us : List (Nat × Nat)) : State :=
  us.foldl (fun s u => if s.tensorValid u.1 then
    s.setInfo u.1 fun i => { i with nextuse := BitVec.ofNat 64 u.2, cursor := BitVec.ofNat 64 q } else s) s

/-- ac within which a pair leaves retention (1) or gated (2): 2 µs and 20 µs (R428). -/
def wakeLimit (power : Nat) : Nat := if power = 1 then 1700 else 17000

/-- Layer pairs that are not awake are asked to wake (R327, R428). -/
def State.wakeLayers (s : State) (ls : List Nat) : State :=
  ls.foldl (fun s l => s.modColumn (l / 8) fun c =>
    if c.pairPower (l % 8) = 0 ∨ (c.wakeAsked ++ c.powerNext).any (fun q => q.1 == l % 8) then c
    else { c with wakeAsked := c.wakeAsked ++ [(l % 8, s.time.toNat + wakeLimit (c.pairPower (l % 8)))] }) s

/-- An operator starts: its position, pins, use lists and rebuilds (R333 steps 1, 2). -/
def State.startOper (s : State) (col : Nat) (o : Oper) (hdr own : List (Nat × Nat)) : State :=
  let s := s.modStream col o.idx fun st => { st with pos := BitVec.ofNat 64 o.seq, head := st.head + 1 }
  let s := s.applyUses o.seq (useIndices o.seq o.handles hdr own)
  let pins := ((maskHandles o.handles (o.imask ||| o.omask)).map s.underlying).filter s.tensorValid
  let s := pins.foldl State.pinUp s
  let down := (o.reads.map s.underlying).filter fun h =>
    s.tensorValid h && ((s.tensor h).info.state == 7 || (s.tensor h).info.state == 9)
  let s := s.wakeLayers o.layers
  let age := (List.range 4).foldl (fun n c => n + (s.column c).ages) 0
  s.modColumn col fun c => { c with
    ages := c.ages + 1, opers := c.opers ++ [{ o with age := age, pinned := pins, await := down }] }

/-- Two entries of a record cache hold the loop-nest record and the group binding table of the same places. -/
def sameRecords (a b : List Span) : Bool :=
  (a.take 2).map (fun p => (p.handle, p.off)) == (b.take 2).map fun p => (p.handle, p.off)

/-- The walkers of the bound layers keep the operator's records (R317). DEDUCED, safe: log entry 12. -/
def State.cacheRecords (s : State) (o : Oper) : State :=
  o.layers.foldl (fun s l => s.modLayer l fun y =>
    let rest := y.cache.filter fun e => !sameRecords e o.spans
    { y with cache := (if 16 ≤ rest.length then rest.tail else rest) ++ [o.spans] }) s

/-- Shadows are opened as the flags ask, and the walkers have the nest (R333 steps 3, 4). -/
def State.readyOper (s : State) (col : Nat) (o : Oper) : State :=
  let s := if bitsOf o.flags 1 1 = 0 then s
    else o.writes.foldl (fun s h =>
      if handleClass h = 0 ∧ s.tensorValid h ∧ (s.tensor h).info.shadow = false then
        s.openShadow h (bitsOf o.flags 2 1 == 1) (s.tensor h).info.curl else s) s
  (s.cacheRecords o).modColumn col fun c => { c with
    opers := c.opers.map fun p => if p.idx = o.idx ∧ p.seq = o.seq then { p with ready := true } else p }

/-- What the operator reads is resident and not moving. -/
def State.inputsSettled (s : State) (o : Oper) : Bool :=
  o.await == [] && o.reads.all fun h => (s.tensor (s.underlying h)).info.state != 8

/-- The sequencer takes a stream one stage on, in sequence order: the operator that is not ready goes to its walkers once its
inputs are there; where there is none, the record at head is checked and started, or halts the stream. -/
def execOperatorRecordStart (col idx : Nat) (s : State) : Host.Outcome State Fault Refusal :=
  let no : Host.Outcome State Fault Refusal := .refused (.notEnabled "OPERATOR_RECORD_START")
  let st := s.opStream col idx
  let mine := (s.column col).opers.filter fun o => o.idx == idx
  match mine.find? fun o => !o.ready with
  | some o => if s.inputsSettled o then .next (s.readyOper col o) else no
  | none =>
    if 4 ≤ col ∨ !s.streamUsed col idx ∨ st.status ≠ 0 ∨ st.head = st.tail ∨ 4 ≤ mine.length then no
    else match s.readRecord [] col idx with
      | .inr code =>
        .next ((s.modStream col idx fun st => { st with status := code, errseq := st.head }).log
          (.badRecord col idx st.head.toNat))
      | .inl (o, hdr, own) =>
        if bitsOf o.flags 0 1 = 0 ∧ mine ≠ [] then no else .next (s.startOper col o hdr own)

/-- The walker's cached records for an operator (R317, R332). -/
def State.cachedFor (s : State) (l : Nat) (o : Oper) : Option (List Span) := (s.layer l).cache.find? fun e => sameRecords e o.spans

/-- Every input names a tensor that is resident and does not move (R332, R342). -/
def State.inputsHere (s : State) (o : Oper) : Bool :=
  o.reads.all fun h =>
    let i := (s.tensor (s.underlying h)).info
    s.tensorValid (s.underlying h) && ((1 ≤ i.state && i.state ≤ 6) || i.state == 10)

/-- The fast path of R332 for the record just appended: with no unended operator in the stream, or a FLOW record that
conflicts with none, its inputs resident and still, its records in the cache of the issuing layer's walker and a core of
its group free there, its operator starts and is ready at once, as the cached records give it. A record that R322 refuses
stays for the sequencer, which halts the stream; none of its jobs has started. Where earlier records have not started, the
record is not the next to start (R321). -/
def State.fastPath (s : State) (col idx : Nat) : State :=
  let st := s.opStream col idx
  let mine := (s.column col).opers.filter fun o => o.idx == idx
  let l := layerOf s.who
  if st.status ≠ 0 ∨ st.head + 1 ≠ st.tail ∨ 4 ≤ mine.length then s
  else match s.readRecord [] col idx with
    | .inr _ => s
    | .inl (o, _, _) =>
      match (s.cachedFor l o).map fun e => s.readRecord e col idx with
      | some (.inl (o, hdr, own)) =>
        if (mine = [] ∨ bitsOf o.flags 0 1 = 1 ∧ mine.all fun p => !p.conflicts o) ∧ s.inputsHere o ∧ bitsOf o.flags 1 3 = 0 ∧
            (layerCores l).any (fun k => (groupCores o.roles).contains k && s.isFree k) then
          let s := s.startOper col o hdr own
          match (s.column col).opers.find? fun p => p.idx == idx && p.seq == o.seq with
          | some p => s.readyOper col p
          | none => s
        else s
      | _ => s

/-- launch (R331, R332). -/
def execLaunch (rd ra rb : BitVec 5) (s : State) : Host.Outcome State Fault Refusal :=
  issue (.launch rd ra rb) s fun s =>
    let off := (s.cur.val ra).toNat
    let x := s.cur.val rb
    let col := bitsOf x.toNat 10 2
    let idx := bitsOf x.toNat 0 10
    let st := s.opStream col idx
    if 2 ^ 20 < off + 128 then .fault 0x09 x
    else if off % 64 ≠ 0 then .fault 0x0A x
    else if 2 ^ 12 ≤ x.toNat ∨ !s.streamUsed col idx then .fault 0x23 x
    else if !s.isWithin st.region (s.core s.who).theJob.region then .fault 0x11 (x ||| BitVec.ofNat 64 (2 ^ 56 * 4))
    else if st.full then s.put rd farthest
    else
      let c := s.core s.who
      let s := s.deviceWrite st.ring (st.slot st.tail.toNat) (c.scratch.bytes off 128)
      let s := s.modCore s.who fun c => c.touch [(off, 128)] (strmCode s.strm) (strmCode s.strm) (strmPort s.strm) false
      ((s.modStream col idx fun st => { st with tail := st.tail + 1 }).fastPath col idx).put rd st.tail.toNat

/-! ### Walking orders (R325) -/

/-- Row-major digits of ordinal `n` in some bounds, last fastest. -/
def rowIndex (bs : List Nat) (n : Nat) : List Nat :=
  (List.range bs.length).map fun k => n / (bs.drop (k + 1)).foldl (· * ·) 1 % bs.getD k 1

/-- Indices of a Morton code in `d` dimensions, `t` bits of it. -/
def mortonIndex (d t z : Nat) : List Nat :=
  (List.range d).map fun k =>
    ((List.range t).filter fun b => d - 1 - b % d == k).foldl (fun a b => a + 2 ^ (b / d) * bitsOf z b 1) 0

/-- The `n`-th code from `z` on whose indices lie in the bounds. -/
def mortonFrom (bs : List Nat) (t : Nat) : Nat → Nat → Nat → List Nat
  | 0, _, _ => []
  | fuel + 1, z, n =>
    let is := mortonIndex bs.length t z
    if (List.range bs.length).all fun k => is.getD k 0 < bs.getD k 0 then
      (if n = 0 then is else mortonFrom bs t fuel (z + 1) (n - 1))
    else mortonFrom bs t fuel (z + 1) n

/-- Indices of iteration `n`. -/
def Oper.indices (o : Oper) (n : Nat) : List Nat :=
  let bs := o.bounds
  match o.order with
  | 0 => rowIndex bs n
  | 1 => (rowIndex bs.reverse n).reverse
  | 2 =>
    let rs := rowIndex bs n
    (List.range bs.length).map fun k =>
      if n / (bs.drop k).foldl (· * ·) 1 % 2 = 0 then rs.getD k 0 else bs.getD k 1 - 1 - rs.getD k 0
  | _ =>
    let t := bs.length * (Nat.log2 (bs.foldl max 1) + 1)
    mortonFrom bs t (2 ^ t) 0 n

/-! ### Budgets (R317, R320) -/

/-- A core as its job counts: a stopped job under its handler, or one being restored, by its saved state. -/
def State.counted (s : State) (k : Nat) (c : CoreSt) : CoreSt :=
  match c.phase with
  | .restoring _ a => look c s.saves (saveKey (colOf k) a)
  | .entering .. | .escalated => look c s.saves (saveKey (colOf k) (faultArea k))
  | _ => if c.hm then look c s.saves (saveKey (colOf k) (faultArea k)) else c

/-- Cores whose jobs run, each as it counts. -/
def State.running (s : State) : List (Nat × CoreSt) :=
  (s.cores.filter fun q => q.2.job.isSome).map fun q => (q.1, s.counted q.1 q.2)

def CoreSt.isOperator (c : CoreSt) : Bool := match c.theJob.kind with | .operator .. => true | _ => false

/-- Running-job count of a region over the package (R317, R320). -/
def State.runCount (s : State) (r : Nat) : Nat :=
  (s.running.filter fun q => q.2.isOperator && s.isWithin q.2.theJob.region r).length

/-- Granules in use by a region's running jobs. -/
def State.granuleUse (s : State) (r : Nat) : Nat :=
  (s.running.filter fun q => s.isWithin q.2.theJob.region r).foldl (fun n q => n + q.2.alloc.length) 0

/-- A recipe job of so many granules keeps the scratchpad budgets of a region and its ancestors; it stands outside the cores
budget (R320, R357). -/
def State.granulesAllow (s : State) (r granules : Nat) : Bool :=
  (s.lineage r).all fun g => s.granuleUse g + granules ≤ s.spBudget g

/-- One more job with so many granules keeps the budgets of a region and its ancestors.
DEDUCED, unsafe: log entry 31. -/
def State.budgetsAllow (s : State) (r granules : Nat) : Bool :=
  s.granulesAllow r granules && (s.lineage r).all fun g => s.runCount g + 1 ≤ s.coresBudget g

/-! ### Ready tiles and hand-out (R328, R334, R335, R337, R338) -/

/-- A tile that a walker may hand out. -/
structure Tile where
  region : Nat
  /-- Area of a saved tile; none for a new one, of operator `key` = column, index, sequence number. -/
  area : Option Nat
  key : Nat × Nat × Nat
  age : Nat
  /-- 7 for a recipe job's tile, else the region's priority (R357). -/
  prio : Nat
  group : List Nat
  deriving DecidableEq, Repr, Inhabited

/-- Started operators of the package with their columns. -/
def State.allOpers (s : State) : List (Nat × Oper) := (List.range 4).flatMap fun c => (s.column c).opers.map fun o => (c, o)

/-- An unended earlier operator of the stream conflicts with the operator (R334). DEDUCED, unsafe: log entry 62. -/
def State.held (s : State) (col : Nat) (o : Oper) : Bool :=
  (s.column col).opers.any fun p => p.idx == o.idx && p.seq < o.seq && p.conflicts o

/-- A pre-emption of the region is in progress (R338). -/
def State.regionStopping (s : State) (r : Nat) : Bool :=
  s.cores.any fun q => q.2.phase == .stopping .preempt && q.2.theJob.region == r

/-- A saved tile of the region waits to be handed out again: no new tile of the region goes before it (R320, R337). -/
def State.savedWaits (s : State) (r : Nat) : Bool :=
  (List.range 32).any fun l => (s.layer l).tiles.any fun a =>
    match find s.saves (saveKey (l / 8) a) with
    | some c => c.susp.isNone && c.theJob.region == r
    | none => false

/-- The least number of a list. -/
def leastOf (l : List Nat) : Option Nat := l.foldl (fun m x => match m with | some a => some (min a x) | none => some x) none

/-- The ordinal that walker `j` of an operator takes next: the least that has come back, or the next new one (R328, R338). -/
def Oper.nextOf (o : Oper) (j : Nat) : Nat := (leastOf (o.back.filter fun n => n % o.layers.length == j)).getD (o.next.getD j 0)

/-- Walker `j` has taken its next ordinal. -/
def Oper.taken (o : Oper) (j : Nat) : Oper :=
  let n := o.nextOf j
  if o.back.contains n then { o with back := o.back.erase n, open_ := o.open_ + 1 }
  else { o with next := o.next.set j (n + o.layers.length), open_ := o.open_ + 1 }

/-- The new tile of an operator that a layer's walker would hand out next. -/
def State.newTile (s : State) (l col : Nat) (o : Oper) : Option Tile :=
  let j := o.layers.findIdx (· == l)
  let awake := o.layers.all fun y => (s.column (y / 8)).pairReady (y % 8)
  if o.ready ∧ o.layers.contains l ∧ o.nextOf j < o.total ∧ awake ∧ !s.held col o ∧ !s.suspended o.region ∧
      !s.malformed o.region ∧ !s.regionStopping o.region ∧ !s.savedWaits o.region ∧ s.budgetsAllow o.region o.granules then
    some { region := o.region, area := none, key := (col, o.idx, o.seq), age := o.age, prio := s.prio o.region, group := groupCores o.roles }
  else none

/-- A saved tile that a layer's walker may hand out again (R320, R337, R381). -/
def State.savedTile (s : State) (l a : Nat) : Option Tile :=
  match find s.saves (saveKey (l / 8) a) with
  | none => none
  | some c =>
    let j := c.theJob
    if c.susp.isSome ∨ s.malformed j.region ∨ s.regionStopping j.region ∨ !(s.column (l / 8)).pairReady (l % 8) then none
    else match j.kind with
      | .operator col idx seq =>
        match (s.column col).opers.find? fun o => o.idx == idx && o.seq == seq with
        | some o =>
          if s.budgetsAllow j.region c.alloc.length then
            some { region := j.region, area := some a, key := (col, idx, seq), age := o.age, prio := s.prio j.region
                   group := groupCores o.roles }
          else none
        | none => none
      | _ =>
        if s.granulesAllow j.region c.alloc.length then
          some { region := j.region, area := some a, key := (l / 8, 0, 0), age := 0, prio := 7, group := layerCores l }
        else none

/-- Ready tiles of a layer, saved ones first. -/
def State.readyTiles (s : State) (l : Nat) : List Tile :=
  (s.layer l).tiles.filterMap (s.savedTile l) ++ s.allOpers.filterMap fun p => s.newTile l p.1 p.2

/-- The core takes a new job: it is reported free (R129). -/
def State.coreFree (s : State) (k : Nat) : Bool :=
  let c := s.core k
  c.phase == .idle && c.job.isNone && !c.debug && c.freeAt ≤ s.time.toNat

/-- Free cores of a layer's group. -/
def State.freeOf (s : State) (l : Nat) (group : List Nat) : List Nat :=
  (layerCores l).filter fun k => group.contains k && s.coreFree k

/-- The region is below its floor in the current window (R336). -/
def State.belowFloor (s : State) (r : Nat) : Bool :=
  let u := look (0, 0) s.floorUse r
  let before := fun g => s.prio r < s.prio g || s.prio g == s.prio r && g ≤ r
  let sum := (s.regionIds.filter before).foldl (fun n g => n + s.floorShare g) 0
  sum ≤ 256 && u.1 * 256 < s.floorShare r * u.2

/-- Regions of the tiles of highest priority, with that priority. -/
def topRegions (ts : List Tile) : Nat × List Nat :=
  let top := (ts.map (·.prio)).foldl max 0
  (top, ((ts.filter fun t => t.prio == top).map (·.region)).eraseDups)

/-- The next region of a turn: the one in turn while it has hand-outs left, else the next in index, wrapping. -/
def nextTurn (turn : Option (Nat × Nat)) (weight : Nat → Nat) (rs : List Nat) : Option (Nat × Nat) :=
  match turn with
  | some (r, n) =>
    if rs.contains r ∧ n < weight r then some (r, n + 1)
    else match leastOf (rs.filter (r < ·)) with
      | some g => some (g, 1)
      | none => (leastOf rs).map fun g => (g, 1)
  | none => (leastOf rs).map fun g => (g, 1)

/-- The region whose tile a walker hands out (R335), and its turns after that. -/
def State.chooseRegion (s : State) (l : Nat) (ts : List Tile) : Option (Nat × List (Nat × (Nat × Nat))) :=
  let y := s.layer l
  match leastOf (topRegions (ts.filter fun t => s.belowFloor t.region)).2 with
  | some r => some (r, y.turn)
  | none =>
    let (p, top) := topRegions ts
    (nextTurn (find y.turn p) s.weight top).map fun t => (t.1, set y.turn p t)

/-- The tile that goes first: a saved one before any new one, and of these the oldest operator's (R320, R335). -/
def pickTile (ts : List Tile) : Option Tile :=
  let saved := ts.filter fun t => t.area.isSome
  (if saved = [] then ts else saved).foldl
    (fun m t => match m with | some a => if t.age < a.age then some t else some a | none => some t) none

/-- The turn of a region none of whose tiles is ready any more passes on (R335). -/
def State.passTurns (s : State) (l : Nat) : State :=
  if (s.layer l).turn = [] then s
  else
    let ts := s.readyTiles l
    s.modLayer l fun y => { y with
      turn := y.turn.map fun t => if ts.any fun x => x.prio == t.1 && x.region == t.2.1 then t else (t.1, t.2.1, 256) }

/-- The first free core at or after the start index, wrapping (R328). -/
def pickCore (start : Nat) (ks : List Nat) : Option Nat :=
  match ks.find? fun k => start ≤ k % 32 with
  | some k => some k
  | none => ks.head?

/-- A tile reaches its core: a saved one is to be restored, a new one starts. -/
def State.handTile (s : State) (l k : Nat) (t : Tile) : State :=
  let s : State := { s with reached := set s.reached k { before := s.core k, layer := l, area := t.area } }
  match t.area with
  | some a =>
    let saved := look {} s.saves (saveKey (l / 8) a)
    let s := s.modLayer l fun y => { y with tiles := y.tiles.filter (· != a) }
    s.modCore k fun c => { c with phase := .restoring saved.pool a, job := saved.job }
  | none =>
    let (col, idx, seq) := t.key
    match (s.column col).opers.find? fun o => o.idx == idx && o.seq == seq with
    | none => s
    | some o =>
      let j := o.layers.findIdx (· == l)
      let n := o.nextOf j
      let s := s.modColumn col fun c => { c with
        opers := c.opers.map fun p => if p.idx = idx ∧ p.seq = seq then p.taken j else p }
      s.startJob k { kind := .operator col idx seq, region := o.region, code := o.code, hline := o.hline
                     roles := o.roles, handles := o.handles, indices := o.indices n, ordinal := n } false

/-- A walker hands a ready tile to a free core. -/
def execTileHandOut (layer : Nat) (s : State) : Host.Outcome State Fault Refusal :=
  let no : Host.Outcome State Fault Refusal := .refused (.notEnabled "TILE_HAND_OUT")
  let ts := (s.readyTiles layer).filter fun t => s.freeOf layer t.group != []
  if 32 ≤ layer then no
  else match s.chooseRegion layer ts with
    | none => no
    | some (r, turn) =>
      match pickTile (ts.filter fun t => t.region == r) with
      | none => no
      | some t =>
        match pickCore (s.layer layer).start (s.freeOf layer t.group) with
        | none => no
        | some k => .next ((s.modLayer layer fun y => { y with turn := turn, start := (k % 32 + 1) % 18 }).handTile layer k t)

/-! ### Pre-emption (R336, R337) -/

/-- Cores of the groups of a region's operators. -/
def State.regionCores (s : State) (r : Nat) : List Nat :=
  ((s.allOpers.filter fun p => p.2.region == r).flatMap fun p => groupCores p.2.roles).eraseDups

/-- The region has a ready tile and finds no core of its groups free. -/
def State.starved (s : State) (r : Nat) : Bool :=
  (List.range 32).any (fun l => (s.readyTiles l).any fun t => t.region == r) && (s.regionCores r).all fun k => !s.coreFree k

/-- The core whose job gives way to a region: of the lowest priority among regions not below their floor, the most
recently started; strictly below the region's priority where `strict`. -/
def State.victimFor (s : State) (r : Nat) (strict : Bool) : Option Nat :=
  let ks := (s.regionCores r).filter fun k =>
    let g := (s.core k).theJob.region
    s.canPreempt k && !s.belowFloor g && (!strict || s.jobPrio (s.core k).theJob < s.prio r)
  ks.foldl (fun m k => match m with
    | none => some k
    | some a =>
      let pa := s.jobPrio (s.core a).theJob
      let pk := s.jobPrio (s.core k).theJob
      if pk < pa ∨ (pk = pa ∧ (s.core a).theJob.start < (s.core k).theJob.start) then some k else some a) none

/-- A region for which a pre-emption is due names this victim. -/
def State.preemptFor (s : State) (r k : Nat) : Bool :=
  s.starved r && !((s.regionCores r).any fun q => (s.core q).phase == .stopping .preempt) &&
    ((s.belowFloor r && s.victimFor r false == some k) || (s.preempts r && s.victimFor r true == some k))

/-- PREEMPTION (R337): The control plane pre-empts a lower-priority job to serve a floor or preempt region. -/
def execPreemption (core : Nat) (s : State) : Host.Outcome State Fault Refusal :=
  if s.regionIds.any fun r => s.preemptFor r core then .next (s.preempt core)
  else .refused (.notEnabled "PREEMPTION")

/-! ### The end of an operator (R234, R333) -/

/-- Every job has ended and every write of them is performed at .pkg. -/
def State.operDone (s : State) (o : Oper) : Bool :=
  o.ready && o.open_ == 0 && o.back == [] && ((o.total == 0) || o.next.all fun n => o.total ≤ n) &&
    (o.total == 0 || o.layers != []) && s.transit.all fun f => !o.layers.contains (layerOf f.core)

/-- Who an operator is to a shadow that it waits to publish. -/
def operCloser (col idx : Nat) : Nat := 4096 + 1024 * col + idx

/-- Shadows that an operator publishes at its end (R323). -/
def State.operPubs (s : State) (o : Oper) : List Nat :=
  if bitsOf o.flags 3 1 = 1 then o.writes.filter fun h =>
    handleClass h == 0 && s.tensorValid h && (s.tensor h).info.shadow else []

/-- OPERATOR_END (R234): After all jobs retire and writes are performed, shadows are published and done rises. It publishes
as pubv does (R323): while a write into a shadow is not performed it admits no more, and a pubv that waits goes first. -/
def execOperatorEnd (col idx : Nat) (s : State) : Host.Outcome State Fault Refusal :=
  let no : Host.Outcome State Fault Refusal := .refused (.notEnabled "OPERATOR_END")
  match (s.column col).opers.find? fun o => o.idx == idx && s.operDone o with
  | none => no
  | some o =>
    let pubs := s.operPubs o
    let me := operCloser col idx
    let fresh := pubs.filter fun h => (s.tensor h).closing.isNone && s.admitted h
    if fresh != [] then
      .next (fresh.foldl (fun s h => s.modTensor h fun t => { t with closing := some me }) s)
    else if pubs.any fun h => s.admitted h || (s.tensor h).closing.any (· != me) then no
    else
      let s := pubs.foldl State.publish s
      let s := o.pinned.foldl State.pinDown s
      let s := s.modStream col idx fun st => { st with done := st.done + 1 }
      .next (s.modColumn col fun c => { c with opers := c.opers.filter fun p => !(p.idx == idx && p.seq == o.seq) })

end Sys2Proof.Machine
end

