-- ==== Sys2Proof/Machine/Areas.lean ====
section
/-! DEFINITION. The context area: the bytes that a stop writes and that a resume reads (R207, R372 to R375, R382). The
manual fixes the offset of each item; where it does not fix the place of a part within its item, the place is the
model's choice (DESIGN CHOICE, unsafe: log entry 40). -/
namespace Sys2Proof.Machine

/-! ### The frame (R368, R374, R375) -/

/-- A transfer record's 64 bytes (R207). -/
def TransferRec.bytes (r : TransferRec) : List Byte :=
  leBytes 2 r.seq ++ leBytes 1 r.cause ++ leBytes 1 (strmCode r.strm + 4 * r.engine) ++ leBytes 4 r.handle ++
    leBytes 4 r.block ++ leBytes 4 0 ++ (List.range 6).flatMap (fun i => leBytes 4 (r.coords.getD i 0)) ++
    leBytes 8 r.remaining ++ leBytes 8 r.delivered ++ leBytes 8 r.detail

/-- FINFO of a cause that a transfer record carries. -/
def TransferRec.finfo (r : TransferRec) (chain : Nat) : W64 :=
  match r.mask with
  | some m => BitVec.ofNat 64 m
  | none => if r.cause = 0x28 then BitVec.ofNat 64 chain else BitVec.ofNat 64 (leNat (r.bytes.take 8))

/-- Every cause of a stop: those raised at once, then those of faulted transfers, each in the order in which they arose. -/
def CoreSt.causes (c : CoreSt) : List Raised :=
  c.raised ++ (c.recs.filter fun r => r.cause != 0).map fun r =>
    { cause := r.cause, strm := some r.strm, finfo := r.finfo c.chain.length }

/-- The cause of highest priority, the first of several alike (R368). -/
def topCause : List Raised → Option Raised
  | [] => none
  | x :: r => some (r.foldl (fun m y => if causePriority y.cause < causePriority m.cause then y else m) x)

/-- The chain that a frame holds: that of a RECIPE_DEPTH of this stop (R374). -/
def CoreSt.depthChain (c : CoreSt) : List Nat := if c.causes.any fun r => r.cause == 0x28 then c.chain else []

/-- Kind of a fault stop: 1 for the traps. -/
def causeKind (cause : Nat) : Nat := if cause = 0x39 ∨ cause = 0x3A ∨ cause = 0x3B ∨ cause = 0x38 then 1 else 0

/-- Records of a stop: of the faulted transfers in order, then of the suspended ones. -/
def CoreSt.records (c : CoreSt) : List TransferRec :=
  (c.recs ++ c.cmds.filterMap fun m => match m.stage with
    | .stopped r => if r.cause = 0 then some r else none
    | _ => none).take 64

/-- Recorded line address of a stream (R66, R374). -/
def StreamSt.fline (t : StreamSt) : W64 := if t.past then 0 else t.pc.form

/-- The frame header; a handler's depth and the causes of failed handlers are written later. -/
def CoreSt.frameHeader (c : CoreSt) (k : Nat) (kind : StopKind) : List Byte :=
  let top := match kind with | .fault => topCause c.causes | _ => none
  let cause := match top with | some r => r.cause | none => 0
  let fstream := match top with | some { strm := some x, .. } => strmCode x | _ => 3
  let code := match kind with | .fault => causeKind cause | .preempt => 2 | .suspend => 3
  let mask := match kind with | .fault => c.causes.foldl (fun m r => m ||| 2 ^ r.cause) 0 | _ => 0
  let skip := c.l.skip.toNat + 2 * c.c.skip.toNat + 4 * c.s.skip.toNat
  [cause, fstream, code, 0, 0, c.records.length, c.depthChain.length, skip].map (BitVec.ofNat 8) ++ leBytes 8 mask ++
    leBytes 8 (match top with | some r => r.finfo.toNat | none => 0) ++
    allStrms.flatMap (fun x => leBytes 8 (c.strm x).fline.toNat) ++ allStrms.flatMap (fun x => leBytes 4 (c.strm x).pend.toNat) ++
    leBytes 4 c.theJob.region ++ leBytes 8 0 ++ leBytes 2 k

/-! ### Items (R373) -/

/-- A queue's head and tail. -/
def queuePtr {α : Type} (q : Queue α) (cap : Nat) : List Byte := leBytes 2 q.head ++ leBytes 2 (q.tail cap)

/-- A memory with a queue's entries of `n` bytes written, each at its index, from `base` upward. -/
def Memory.setQueue (m : Memory) (base n cap : Nat) (q : Queue (List Byte)) : Memory :=
  ((List.range q.items.length).zip q.items).foldl (fun m e => m.setBytes (base + n * ((q.head + e.1) % cap)) e.2) m

/-- Entries of `n` bytes read back between a head and a tail. -/
def queueOf (a : Memory) (ptr base n cap : Nat) : Queue (List Byte) :=
  let h := a.num ptr 2
  let len := (a.num (ptr + 2) 2 + 2 * cap - h % (2 * cap)) % (2 * cap)
  { head := h % (2 * cap), items := (List.range len).map fun i => a.bytes (base + n * ((h + i) % cap)) n }

/-- A queue with its entries taken through `f`. -/
def Queue.map {α β : Type} (f : α → β) (q : Queue α) : Queue β := { head := q.head, items := q.items.map f }

/-- Queue classes in the order of the command slots, and their slots. -/
def slotClasses : List (Nat × Nat) := [(0, 16), (1, 8), (2, 8), (3, 4)]

/-- Markers of a command's class that stand before it. -/
def Cmd.marksBefore (m : Cmd) (marks : List (Nat × Nat)) : Nat := (marks.filter fun k => k.1 == m.cls && k.2 ≤ m.seq).length

/-- A command slot: word, operands, descriptor and the markers of its class that stand before it. -/
def Cmd.slot (m : Cmd) (marks : List (Nat × Nat)) : List Byte :=
  leBytes 4 ((encode m.instr).getD 0).toNat ++ leBytes 4 0 ++ leBytes 8 m.a.toNat ++ leBytes 8 m.b.toNat ++ leBytes 8 0 ++
    (List.range 64).map (fun i => m.desc.getD i 0) ++
    leBytes 1 (m.marksBefore marks) ++ List.replicate 31 0

/-- The slots of one class of a stream, with its markers. -/
def StreamSt.slots (t : StreamSt) (marks : List (Nat × Nat)) (cls n : Nat) : List Byte :=
  let bs := (t.queueOf cls).take n |>.flatMap fun m => m.slot marks
  bs ++ List.replicate (128 * n - bs.length) 0

/-- Destination set of a broadcast, one bit for each core of a column. -/
def Bulk.destMask (b : Bulk) : Nat := b.dests.foldl (fun n k => n ||| 2 ^ (18 * pairOf k + k % 32)) 0

def Bulk.bytes (b : Bulk) : List Byte :=
  leBytes 1 b.tok ++ leBytes 1 b.buf.toNat ++ leBytes 2 b.seq ++ leBytes 4 b.beat ++ leBytes 8 b.off ++ leBytes 8 b.len ++
    leBytes 4 b.region ++ leBytes 18 b.destMask ++ List.replicate 18 0

/-- Tiles of a region that a walker holds ready: saved ones, and those left of its operators (R382). -/
def State.readyCount (s : State) (l r : Nat) : Nat :=
  ((s.layer l).tiles.filterMap (s.savedTile l)).foldl (fun n t => if t.region = r then n + 1 else n) 0 +
    s.allOpers.foldl (fun n p =>
      let o := p.2
      if o.region = r ∧ o.ready ∧ o.layers.contains l ∧ !s.held p.1 o then
        let j := o.layers.length
        n + (o.total + j - 1 - o.next.getD (o.layers.findIdx (· == l)) 0) / max 1 j +
          (o.back.filter fun i => i % j == o.layers.findIdx (· == l)).length
      else n) 0

/-- The scheduler state words (R382). -/
def State.schedWords (s : State) (k : Nat) (c : CoreSt) : List Byte :=
  let j := c.theJob
  let at_ : Nat × Nat := match j.kind with
    | .operator col idx _ => (idx + 1024 * col, (s.opStream col idx).pos.toNat)
    | _ => (0, 0)
  let jobs := (s.running.filter fun q => colOf q.1 == colOf k && q.2.isOperator && s.isWithin q.2.theJob.region j.region).length
  [(c.timerAt s.time).toNat, j.timer.toNat,
    c.l.issued % 2 ^ 21 + 2 ^ 21 * (c.c.issued % 2 ^ 21) + 2 ^ 42 * (c.s.issued % 2 ^ 21),
    at_.1 + 2 ^ 32 * (j.ordinal % 2 ^ 32), at_.2, jobs % 2 ^ 16 + 2 ^ 16 * (s.readyCount (layerOf k) j.region % 2 ^ 32), j.bytes,
    0].flatMap (leBytes 8)

/-- Registers of one stream, s0 to s31. -/
def StreamSt.regBytes (t : StreamSt) : List Byte := (List.range 32).flatMap fun n => leBytes 8 (t.reg n).toNat

/-- Control registers of one stream, 64 bytes. -/
def StreamSt.ctlBytes (t : StreamSt) : List Byte :=
  (List.range 4).flatMap (fun n => leBytes 4 (t.loopCtr n).toNat) ++ leBytes 8 t.evflag.toNat ++ leBytes 8 t.srctr.toNat ++
    leBytes 1 t.buftag.toNat ++ leBytes 1 t.rmode.toNat ++ leBytes 6 t.rqf.toNat ++ leBytes 8 t.watchStart.toNat ++
    leBytes 16 t.watchLen.toNat

/-- Granule states, two bits each (R187). -/
def CoreSt.allocNum (c : CoreSt) : Nat := c.alloc.foldl (fun n g => n + g.2 % 4 * 4 ^ g.1) 0

/-- Items of the area below the queues' entries, each with its offset. -/
def State.areaItems (s : State) (k : Nat) (c : CoreSt) (kind : StopKind) : List (Nat × List Byte) :=
  let x := fun (f : StreamSt → List Byte) => allStrms.flatMap fun y => f (c.strm y)
  [(0, c.frameHeader k kind),
    (0x100, (List.range 4).flatMap (fun q => queuePtr (c.dqueue q) 16) ++
      (List.range 2).flatMap (fun q => queuePtr (c.oqueue q) 16) ++ queuePtr c.sq 256 ++ queuePtr c.bq 64 ++
      (List.range 6).flatMap (fun f => queuePtr (c.tokens f) 32) ++
      allStrms.flatMap (fun y => (List.range 4).flatMap fun q =>
        leBytes 1 ((c.liveMarks y).filter fun m => m.1 == q).length) ++
      x fun t => (List.range 4).flatMap fun q => leBytes 1 (t.queueOf q).length),
    (0x200, x StreamSt.regBytes), (0x500, x StreamSt.ctlBytes),
    (0x600, leBytes 1 c.vwin.toNat ++ leBytes 1 c.fmtbase.toNat ++ leBytes 6 c.fmtlc.toNat ++
      (List.range 8).flatMap (fun n => leBytes 8 (look 0 c.tshape n).toNat) ++ leBytes 8 c.leaseSaved ++
      leBytes 8 c.heldRec.toNat ++ leBytes 8 c.culptr.toNat ++ leBytes 8 c.culhw.toNat ++ leBytes 8 c.cullw.toNat ++
      leBytes 8 c.culten.toNat ++ leBytes 8 c.culMove.toNat ++
      (List.range 8).flatMap fun n => leBytes 8 (look 0 c.masks n).toNat),
    (0x700, leBytes 8 c.srseed.toNat ++ leBytes 8 c.timercmp.toNat ++ leBytes 8 c.guard.toNat ++ c.pins.flatMap (leBytes 4)),
    (0x800, s.schedWords k c), (0x900, c.depthChain.flatMap (leBytes 4)),
    (0xA00, c.dyn.flatMap fun d => leBytes 4 (d.1 + 2 ^ 14 * d.2)),
    (0xC00, (List.range 64).flatMap fun n => leBytes 8 (look 0 c.fmtRows n).toNat),
    (0x1000, c.records.flatMap TransferRec.bytes), (0x2000, allStrms.flatMap fun y => slotClasses.flatMap fun q =>
      (c.strm y).slots (c.liveMarks y) q.1 q.2),
    (0x6000, leBytes 4096 c.allocNum), (0x7000, (c.bulk.take 4).flatMap Bulk.bytes), (0x7100, c.heldScales),
    (0x16100, leBytes 8 (((List.range c.bq.items.length).zip c.bq.items).foldl
      (fun n e => n + (if e.2 then 2 ^ ((c.bq.head + e.1) % 64) else 0)) 0))]

/-- A memory with the entries of a core's queues of bytes written. -/
def CoreSt.areaQueues (c : CoreSt) (m : Memory) : Memory :=
  let m := (List.range 4).foldl (fun m q => m.setQueue (0x10000 + 4096 * q) 256 16 (c.dqueue q)) m
  let m := (List.range 2).foldl (fun m q => m.setQueue (0x14000 + 4096 * q) 256 16 (c.oqueue q)) m
  let m := m.setQueue 0x16000 1 256 (c.sq.map fun b => [b])
  (List.range 6).foldl (fun m f => m.setQueue (0x16200 + 64 * f) 2 32 ((c.tokens f).map fun v => leBytes 2 v.toNat)) m

/-- The area of core `k` as a stop of a kind leaves it. -/
def State.areaImage (s : State) (k : Nat) (c : CoreSt) (kind : StopKind) : Memory :=
  let m := c.areaQueues ((s.areaItems k c kind).foldl (fun m i => m.setBytes i.1 i.2) [])
  (((m.splice 0x20000 0x20000 c.tiles).splice 0x40000 0x20000 c.acc).splice 0x60000 0x40000 c.ring).splice 0x100000
    0x100000 c.scratch

/-! ### The pool (R372) -/

def areaSize : Nat := 2 ^ 21

/-- Writes an area, block by block. -/
def State.writeArea (s : State) (h i : Nat) (m : Memory) : State :=
  (List.range 32).foldl (fun s b =>
    let s := (s.prepare h (32 * i + b) false).getD s
    s.setFrameRange (dLoc ((s.tensor h).block (32 * i + b))) 65536 (m.slice (65536 * b) 65536)) s

/-- The bytes of an area. -/
def State.readArea (s : State) (h i : Nat) : Memory :=
  (List.range 32).flatMap fun b =>
    (s.frameRange (dLoc ((s.tensor h).block (32 * i + b))) 65536).map fun e => (e.1 + 65536 * b, e.2)

/-- One byte of the frame of an area. -/
def State.setFrameItem (s : State) (h i off : Nat) (v : Nat) : State := s.deviceWrite h (areaSize * i + off) [BitVec.ofNat 8 v]

/-! ### What a resume reads (R379) -/

/-- A stream as the area gives it. -/
def StreamSt.restored (t : StreamSt) (a : Memory) (n : Nat) : StreamSt :=
  let ctl := 0x500 + 64 * n
  let watch := BitVec.ofNat 19 (a.num (ctl + 48) 4)
  { t with
    regs := (List.range 31).filterMap fun i =>
      let v := BitVec.ofNat 64 (a.num (0x200 + 256 * n + 8 * (i + 1)) 8)
      if v = 0 then none else some (i + 1, v)
    pend := BitVec.ofNat 32 (a.num (0x30 + 4 * n) 4) &&& 0xFFFFFFFE
    pc := pcOf (a.num (0x18 + 8 * n) 8), past := false
    lc := (List.range 4).map fun i => (i, BitVec.ofNat 32 (a.num (ctl + 4 * i) 4))
    evflag := a.num (ctl + 16) 1 % 2 == 1 || watch != 0
    srctr := BitVec.ofNat 64 (a.num (ctl + 24) 8), buftag := a.byte (ctl + 32)
    rmode := BitVec.ofNat 3 (a.num (ctl + 33) 1), rqf := BitVec.ofNat 5 (a.num (ctl + 34) 1)
    watchStart := BitVec.ofNat 18 (a.num (ctl + 40) 4), watchLen := watch
    dog := 0, wait := none, arrived := false, stopped := false, ran := none, fetched := none, heard := false
    issued :=
      let n := bitsOf (a.num 0x810 8) (21 * n) 21
      if n = t.issued % 2 ^ 21 then t.issued else n
    skip := bitsOf (a.num 7 1) n 1 == 1 }

/-- An unaccepted command as its slot gives it. -/
def Cmd.restored (m : Cmd) (a : Memory) (slot : Nat) : Cmd :=
  let i := match decode (BitVec.ofNat 32 (a.num slot 4)) with | .instr i => i | .reject _ => m.instr
  ({ m with instr := i, tok := if i = m.instr then m.tok else (scalars i).getLastD m.tok
            a := BitVec.ofNat 64 (a.num (slot + 8) 8), b := BitVec.ofNat 64 (a.num (slot + 16) 8)
            desc := a.bytes (slot + 32) 64 } : Cmd).widen

/-- First slot of a class of a stream. -/
def slotBase (n cls : Nat) : Nat := 0x2000 + 4608 * n + 128 * (if cls = 0 then 0 else if cls = 1 then 16 else if cls = 2 then 24 else 32)

/-- The instruction is an engine command. -/
def engineCommand : Instr → Bool
  | .cpy .. | .cpyq .. | .gth .. | .coll .. | .nmc .. | .dec .. => true
  | _ => false

/-- A command that the area alone gives, number `seq` of its stream; none where its slot holds no command of the class. -/
def newCmd (a : Memory) (n cls slot seq time : Nat) : Option Cmd :=
  match decode (BitVec.ofNat 32 (a.num slot 4)) with
  | .instr i =>
    let m := ({ instr := i, tok := (scalars i).getLastD 0, strm := allStrms.getD n .L, seq := seq, at_ := time } : Cmd)
    if engineCommand i && m.cls == cls then some (m.restored a slot) else none
  | .reject _ => none

/-- The markers of a class as the area gives them: before each queued command, and after the last. -/
def marksRestored (l : List Cmd) (cls total next slot : Nat) (a : Memory) : List (Nat × Nat) :=
  let cum := (List.range l.length).map fun i => a.num (slot + 128 * i + 96) 1
  let own := ((0 :: cum).zip cum).zip l |>.flatMap fun e => List.replicate (e.1.2 - e.1.1) (cls, e.2.seq)
  own ++ List.replicate (total - own.length) (cls, next)

/-- The command queues of a stream: as many commands as the occupancies name, and the markers among them; what the area
leaves as it was saved stays as it was. -/
def StreamSt.queuesRestored (t : StreamSt) (live : List (Nat × Nat)) (a : Memory) (n time : Nat) : StreamSt :=
  (List.range 4).foldl (fun t q =>
    let occ := min (a.num (0x144 + 4 * n + q) 1) ((slotClasses.getD q (0, 0)).2)
    let total := min 15 (a.num (0x138 + 4 * n + q) 1)
    let slot := slotBase n q
    let old := ((List.range (t.queueOf q).length).zip (t.queueOf q)).take occ |>.map fun e => e.2.restored a (slot + 128 * e.1)
    let more := (List.range (occ - old.length)).filterMap fun i =>
      newCmd a n q (slot + 128 * (old.length + i)) (t.seq + i) time
    let l := old ++ more
    let same := more = [] ∧ (live.filter fun k => k.1 == q).length = total ∧
      ((List.range l.length).zip l).all fun e => e.2.marksBefore live == a.num (slot + 128 * e.1 + 96) 1
    let t := { t.setQueue q l with seq := t.seq + more.length }
    if same then t
    else { t with marks := (t.marks.filter fun k => k.1 != q) ++ marksRestored l q total t.seq slot a }) t

/-- Handles that a command's descriptor holds, from its first byte on. -/
def Cmd.handleSlots (m : Cmd) : Nat :=
  match m.instr with
  | .cpy .. => 4
  | .coll .. | .dec .. => 2
  | .nmc .. => 3
  | _ => 1

/-- The command with tensor `h` where its record named `old` (R379). -/
def Cmd.rehandled (m : Cmd) (old h : Nat) : Cmd :=
  if h = old then m
  else { m with desc := ((List.range m.handleSlots).flatMap fun i => leBytes 4 (if m.h i = old then h else m.h i)) ++
                  m.desc.drop (4 * m.handleSlots) }

/-- The unit of a transfer from which a record has it go on: the one whose coordinates, bytes delivered or remaining
extent it names, whichever of them is not as the stop wrote it in `r` (R379; DEDUCED, unsafe: log entry 39). -/
def Cmd.unitFrom (m : Cmd) (s : State) (c : CoreSt) (r : TransferRec) (coords : List Nat) (remaining delivered : Nat) : Nat :=
  let w := max 1 (m.unitBits s)
  if coords ≠ r.coords then ((List.range m.total).find? fun u => m.coordsAt c u == coords).getD m.pos
  else if delivered ≠ r.delivered then delivered * 8 / w
  else if remaining ≠ r.remaining then m.total - remaining * 8 / w
  else m.pos

/-- A faulted or suspended command goes on from its record as the area has it (R208, R379): on the tensor that it names; a
transfer at the first element not delivered, an nmc at the granule whose first element the record names, a coll after the
bytes delivered, a dec at the frame that the coordinates name in its output. One that failed at its acceptance passes those
checks first (R279, R281). -/
def Cmd.resumed (m : Cmd) (s : State) (c : CoreSt) (a : Memory) : Cmd :=
  let j := c.theJob
  match m.stage with
  | .stopped old =>
    let m := { m.remapped s with
      stage := if m.refused then .queued else .walk, pos := m.pos - m.buffer.length, buffer := [] }
    let mine := ((List.range (min 64 (a.num 5 1))).map fun i => 0x1000 + 64 * i).find? fun r =>
      a.num r 2 == m.seq % 2 ^ 16 && a.num (r + 3) 1 % 4 == strmCode m.strm
    match mine with
    | none => m
    | some r =>
      let delivered := a.num (r + 48) 8
      let coords := (List.range 6).map fun i => a.num (r + 16 + 4 * i) 4
      let m := m.rehandled old.handle (a.num (r + 4) 4)
      match m.instr with
      | .nmc .. =>
        let n := (a.num (r + 16) 4 * fmtWidth (s.tensor (m.h 0)).info.fmt.toNat / 8 - m.num 24 8) / 4096
        { m with outcomes := m.outcomes.take n ++ List.replicate (n - m.outcomes.length) 1, moved := delivered, pos := n }
      | .coll _ _ _ op _ =>
        if delivered = (m.extentBytes s j).2 then m
        else { m with pos := delivered / max 1 (m.num 24 4) +
                (if (op = 1 ∨ op = 2) ∧ delivered ≠ 0 then (m.members j).members.length - 1 else 0) }
      | .dec _ _ _ _ layout =>
        let f := if layout = 1 then 2 * coords.getD 3 0 + coords.getD 0 0 / 768 else coords.getD 3 0
        if coords = old.coords ∨ a.num (r + 4) 4 ≠ m.h 1 then m
        else { m with pos := f - (m.num 20 4 + m.b.toNat) % 2 ^ 32 }
      | _ => { m with pos := m.unitFrom s c old coords (a.num (r + 40) 8) delivered }
  | _ => m

/-- A broadcast as the area gives it. -/
def Bulk.restored (b : Bulk) (a : Memory) (col at_ : Nat) : Bulk :=
  { b with
    tok := a.num at_ 1 % 32, buf := a.byte (at_ + 1), beat := a.num (at_ + 4) 4, off := a.num (at_ + 8) 8
    len := a.num (at_ + 16) 8, region := a.num (at_ + 24) 4
    dests := (coresOfColumn col).filter fun k => bitsOf (a.num (at_ + 28) 18) (18 * pairOf k + k % 32) 1 == 1 }

/-- The bulk queue as the area gives it: the slots that hold a broadcast with beats left (R373). -/
def CoreSt.bulkRestored (c : CoreSt) (a : Memory) (col time : Nat) : List Bulk :=
  ((List.range 4).map fun i =>
    ((c.bulk[i]?).getD { nth := c.bulkCount + i, at_ := time, entered := c.entered + i } : Bulk).restored a col (0x7000 + 64 * i)).filter
      fun b => 512 * b.beat < b.len

/-- Bits of the guard record and of the held-command record that are not reserved (R167, R190). -/
def guardMask : W64 := 0xFFFF03F801FFFFFF
def heldRecMask : W64 := 0x00FFFF00000000FF

/-- The resumed job asks for the bench: it held the lease, or a command of it is held at a chunk (R178, R184). -/
def CoreSt.wantsLease (c : CoreSt) (a : Memory) : Bool := bitsOf (a.num 0x648 1) 7 1 == 1 || c.theJob.held

/-- The saved job with every item as the area then stands, on a core `now`. The lease, the chunk move and the
commands go on by themselves. DEDUCED, unsafe: log entry 39. -/
def CoreSt.restored (c now : CoreSt) (s : State) (col : Nat) (area : Memory) : CoreSt :=
  CoreSt.readBeats <|
  let a := area.window 0 0x18000
  let st := fun x => ((c.strm x).queuesRestored (c.liveMarks x) a (strmCode x) s.time.toNat).restored a (strmCode x)
  let sameVf := now.ran && now.lastVf == c.theJob.vf
  let culptr := a.num 0x658 8
  let region := a.num 0x3C 4
  { c with
    l := st .L, c := st .C, s := st .S
    masks := (List.range 8).map fun n => (n, BitVec.ofNat 64 (a.num (0x680 + 8 * n) 8))
    tiles := area.slice 0x20000 0x20000, acc := area.slice 0x40000 0x20000, ring := area.slice 0x60000 0x40000
    scratch := area.slice 0x100000 0x100000
    vwin := BitVec.ofNat 3 (a.num 0x600 1), fmtbase := BitVec.ofNat 6 (a.num 0x601 1), fmtlc := BitVec.ofNat 2 (a.num 0x602 1)
    tshape := (List.range 8).map fun n => (n, BitVec.ofNat 64 (a.num (0x608 + 8 * n) 8) &&& tshapeMask)
    held := false, left := BitVec.ofNat 7 (a.num 0x648 1), leaseGot := c.leaseGot
    leaseReq := if c.wantsLease a then some (BitVec.ofNat 7 (a.num 0x648 1)) else none
    regain := if c.wantsLease a then some (a.byte 0x648) else none
    heldRec := BitVec.ofNat 64 (a.num 0x650 8) &&& heldRecMask, heldScales := a.bytes 0x7100 (min 128 (a.num 0x655 1))
    culTop := BitVec.ofNat 18 culptr, culBase := BitVec.ofNat 18 (culptr / 2 ^ 18), culSeq := BitVec.ofNat 20 (culptr / 2 ^ 36)
    culhw := BitVec.ofNat 18 (a.num 0x660 4), cullw := BitVec.ofNat 18 (a.num 0x668 4)
    culHandle := BitVec.ofNat 32 (a.num 0x670 4), culChunks := BitVec.ofNat 32 (a.num 0x674 4)
    culMove := BitVec.ofNat 2 (a.num 0x678 1), culRec := none
    srseed := BitVec.ofNat 64 (a.num 0x700 8)
    timer := now.timer
    timercmp := if now.timercmpSet then now.timercmp else BitVec.ofNat 64 (a.num 0x708 8)
    timerDue := now.timerDue.or c.timerDue, timercmpSet := false
    region := BitVec.ofNat 32 region, hscratch := now.hscratch
    hm := false, code := 0, fstream := 0
    alloc := (a.slice 0x6000 4096).flatMap fun e => (List.range 4).filterMap fun i =>
      let v := bitsOf e.2.toNat (2 * i) 2
      if v = 0 then none else some (4 * e.1 + i, v)
    dyn := (List.range 64).filterMap fun i =>
      let v := a.num (0xA00 + 4 * i) 4
      if v = 0 then none else some (bitsOf v 0 14, bitsOf v 14 14)
    guard := BitVec.ofNat 64 (a.num 0x710 8) &&& guardMask, btc := now.btc
    dq := (List.range 4).map fun q => (q, queueOf a (0x100 + 4 * q) (0x10000 + 4096 * q) 256 16)
    oq := (List.range 2).map fun q => (q, queueOf a (0x110 + 4 * q) (0x14000 + 4096 * q) 256 16)
    sq := (queueOf a 0x118 0x16000 1 256).map fun e => e.headD 0
    bq :=
      let h := a.num 0x11C 2
      { head := h % 128, items := (List.range ((a.num 0x11E 2 + 128 - h % 128) % 128)).map fun i =>
          bitsOf (a.num 0x16100 8) ((h + i) % 64) 1 == 1 }
    tk := (List.range 6).map fun f =>
      (f, (queueOf a (0x120 + 4 * f) (0x16200 + 64 * f) 2 32).map fun e => BitVec.ofNat 16 (leNat e))
    fmtRows := (List.range 64).map fun n => (n, BitVec.ofNat 64 (a.num (0xC00 + 8 * n) 8))
    bulk := c.bulkRestored a col s.time.toNat, bulkCount := c.bulkCount + 4
    cmds := c.cmds.map fun m => m.resumed s c a
    pins := (List.range 16).filterMap fun i => let h := a.num (0x718 + 4 * i) 4; if h = 0 then none else some h
    phase := .running
    job := c.job.map fun j => { j with
      region := region, timer := BitVec.ofNat 64 (a.num 0x808 8), bytes := a.num 0x830 8
      ordinal :=
        let n := a.num 0x81C 4
        if n = j.ordinal % 2 ^ 32 then j.ordinal else n }
    depth := 0, raised := [], recs := [], susp := none, begun := false, leaving := none, allocRan := none
    fframe := now.fframe, flineL := now.flineL, flineC := now.flineC, flineS := now.flineS, finfo := now.finfo
    freeAt := now.freeAt
    ctr := now.ctr.forJob sameVf, ctrWas := now.ctrWas.forJob sameVf, debug := now.debug, debugReq := now.debugReq, traceBits := now.traceBits, ran := true
    lastRegion := region, lastVf := c.theJob.vf }

end Sys2Proof.Machine
end

