-- ==== Sys2Proof/Machine/Stops.lean ====
section
/-! DEFINITION. Stopping a core, entering and leaving a handler, escalation, resume and kill (R81, R99, R105, R135, R208,
R369 to R372, R376 to R382). -/
namespace Sys2Proof.Machine

/-! ### What stays pending at a stop (R105, R280) -/

/-- The command has moved no byte. -/
def Cmd.unmoved (m : Cmd) : Bool :=
  m.pos == 0 && m.moved == 0 && m.flying == 0 && m.outcomes == [] && (m.stage == .queued || m.stage == .walk)

/-- The command is suspended at its next undelivered entry, with a record of cause 0. -/
def State.suspendCmd (s : State) (k : Nat) (m : Cmd) : Cmd :=
  let m := { m with pos := m.pos - m.buffer.length, buffer := [] }
  let block := match s.baseOf (m.h 0) false with
    | .inl (h, v) => (match s.placeAt k m h v m.pos with | .inl p => p.block | .inr _ => 0)
    | .inr _ => 0
  { m with stage := .stopped (m.record s k (m.h 0) block { cause := 0 }) }

/-- Accepted commands that have moved nothing and that the range checker, or the order of their stream's writes (R227),
holds behind a command that stays or is not accepted. -/
def CoreSt.heldUp (c : CoreSt) (held : List Cmd) : List Cmd :=
  let queued := allStrms.flatMap fun x => (c.strm x).queued
  c.cmds.filter fun m => m.unmoved &&
    ((queued ++ c.cmds.filter Cmd.isStopped ++ held).any (fun a => a.blocks m) ||
      (queued ++ held).any fun a => a.strm == m.strm && a.seq < m.seq && a.writes)

/-- Commands whose acceptance a stop undoes (R105). -/
def CoreSt.undone (c : CoreSt) : List Cmd := (List.range c.cmds.length).foldl (fun h _ => c.heldUp h) []

/-- A core with every transfer suspended that cannot go on (R105); an earlier one's suspension, or the acceptance of an
earlier one that is undone, may hold up a later one. -/
def State.suspendFeeds (s : State) (k : Nat) : CoreSt :=
  (List.range (s.core k).cmds.length).foldl (fun c _ =>
    let undone := c.undone
    { c with cmds := c.cmds.map fun m => if c.fullFeed undone m (m.nextEntry s).length then s.suspendCmd k m else m })
    (s.core k)

/-- The command as it stood before its acceptance; a coll keeps its group. -/
def Cmd.unaccepted (m : Cmd) : Cmd :=
  ({ m with
    stage := .queued, acc := 0, targets := [], kv := [], shared := [], pinned := [], refused := false, index := [], sent := 0
    checked := false, stale := false, run := 0, verdict := {} } : Cmd).widen

/-- The undone commands return to the heads of their queues. -/
def CoreSt.returnCmds (c : CoreSt) : CoreSt :=
  let back := c.undone
  let c := allStrms.foldl (fun c x => c.modStrm x fun t => (List.range 4).foldl (fun t q =>
    t.setQueue q (((back.filter fun m => m.strm == x && m.cls == q).map Cmd.unaccepted) ++ t.queueOf q)) t) c
  { c with cmds := c.cmds.filter fun m => !back.contains m }

/-- Steps 1 to 3 of R369 are done: what is accepted has completed but for what stays pending, every crossbar instruction
has completed (R166), the stack queues are empty, no packet, beat, write or stamp of the core is on its way (the job may
go on on another core, R232) and no beat to it (R257), and no chunk moves. -/
def State.stopSettled (s : State) (k : Nat) (c : CoreSt) : Bool :=
  c.cmds.all (fun m => m.flying == 0 && (m.isStopped || c.undone.contains m)) && (c.culMove == 0 || c.culRec.isSome) &&
    c.ctr.lwc == 0 && allStrms.all (fun x => !s.scopePending k x) &&
    ((s.column (colOf k)).flying.all fun f => f.beat.all fun b => b.core != k && !b.dests.contains k) &&
    s.transit.all fun f => f.core != k

/-! ### Saving a job (R369 step 4, R372, R381) -/

/-- What a stop keeps besides the bytes of the area. -/
def CoreSt.kept (c : CoreSt) (kind : StopKind) : CoreSt :=
  { c with
    raised := [], recs := [], chain := if c.failed.isSome then c.chain else [], written := [], begun := false
    ctr := {}, ctrWas := {}, debug := false, debugReq := false
    traceBits := 0, leaseReq := none, regain := none, allocRan := none
    susp := match kind with | .fault => none | _ => c.susp }

/-- A stream without a job: its registers stay (R90), and its commands and packets have gone with the job. -/
def StreamSt.vacated (t : StreamSt) : StreamSt :=
  { t with
    stackq := [], dray := [], coach := [], near := [], decode := [], dog := 0, wait := none, arrived := false
    stopped := false, ran := none, skip := false, fetched := none }

/-- A core without a job: every register and queue stays as it stands until the next job start or resume; the commands,
the pins and what belongs to the stop itself have gone with the job. -/
def CoreSt.vacated (c : CoreSt) : CoreSt :=
  { c with
    l := c.l.vacated, c := c.c.vacated, s := c.s.vacated, bulk := [], casts := [], cmds := [], pins := [], leaseReq := none
    leaseGot := false, regain := none, leaving := none, culMove := 0, culLeave := none, culPend := none, culRec := none
    timerDue := none, hm := false, code := 0, fstream := 0, raised := [], recs := [], chain := [], susp := none
    failed := none, depth := 0, phase := .idle, job := none, begun := false, shown := none }

/-- A vacated core that still belongs to a stopped job: a timer event stays with it (R371). -/
def CoreSt.waiting (c : CoreSt) (p : Phase) (job : Option Job) : CoreSt :=
  { c.vacated with phase := p, job := job, timerDue := c.timerDue }

/-- A pubv of the core that waits no longer closes its shadow: it is unexecuted. -/
def State.unclose (s : State) (k : Nat) : State :=
  { s with tensors := s.tensors.map fun t =>
      (t.1, if t.2.closing.map (· / 4) = some k then { t.2 with closing := none } else t.2) }

/-- The job of core `k`, as `c` holds it, goes into an area. -/
def State.saveJob (s : State) (k : Nat) (c : CoreSt) (kind : StopKind) (area : Nat) : State :=
  let s := c.undone.foldl State.unpinCmd s
  let c := c.returnCmds
  let pool := (s.column (colOf k)).poolHandle
  let image := s.areaImage k c kind
  let c := { c with pool := pool }
  let s := ((((s.bankEnergy k c.theJob.region).releaseLease k).unclose k).modCore k fun d => { d with pool := pool })
  let s := { s with saves := set s.saves (saveKey (colOf k) area) (c.kept kind) }
  s.writeArea pool area image

/-- The job that an area holds. -/
def State.savedJob (s : State) (k area : Nat) : Option Job := (look {} s.saves (saveKey (colOf k) area)).job

/-! ### Handlers and escalation (R377) -/

/-- The region whose handler runs, none where the stop goes to the management plane, and the depth: a region that passes
a stop on, or has no handler, gives way to its parent. DEDUCED, safe: log entry 63. -/
def State.handlerRegion (s : State) : Nat → Nat → Nat → Option Nat × Nat
  | 0, _, depth => (none, min depth 7)
  | n + 1, g, depth =>
    if g = noRegion ∨ 7 < depth then (none, min depth 7)
    else if s.escalates g ∨ s.hcode g = 0 then
      if s.parent g = noRegion then (none, depth) else s.handlerRegion n (s.parent g) (depth + 1)
    else (some g, depth)

/-- The management plane takes the stop, which has come to a depth. -/
def State.toManagement (s : State) (k depth : Nat) : State :=
  let job := s.savedJob k (faultArea k)
  let s := s.setFrameItem (s.core k).pool (faultArea k) 4 depth
  let s := s.modCore k fun c => { c.waiting .escalated job with timercmpSet := false }
  let s := s.log (.escalated k)
  match (job.getD {}).kind with
  | .operator col idx _ => s.modStream col idx fun x => { x with status := 4 }
  | _ => s

/-- A region's handler starts on a stopped core, at a depth or above it. -/
def State.enterHandler (s : State) (k g depth : Nat) : State :=
  match s.handlerRegion 9 g depth with
  | (none, depth) => s.toManagement k depth
  | (some g, depth) =>
    let area := faultArea k
    let pool := (s.core k).pool
    let num := fun off n => s.imageNum pool (areaSize * area + off) n
    let region := ((s.savedJob k area).getD {}).region
    let fr := [num 0 1, num 1 1, num 0x10 8, num 0x18 8, num 0x20 8, num 0x28 8]
    let s := s.setFrameItem pool area 4 depth
    let s := s.startJob k { kind := .handler, region := g, code := s.hcode g, hline := s.hline g } true
    s.modCore k fun c => { c with
      code := BitVec.ofNat 8 (if depth = 0 then fr.getD 0 0 else 0x3F), fstream := BitVec.ofNat 2 (fr.getD 1 0)
      fframe := BitVec.ofNat 32 pool, finfo := BitVec.ofNat 64 (fr.getD 2 0), flineL := BitVec.ofNat 64 (fr.getD 3 0)
      flineC := BitVec.ofNat 64 (fr.getD 4 0), flineS := BitVec.ofNat 64 (fr.getD 5 0)
      region := BitVec.ofNat 32 region, depth := depth, timercmpSet := false }

/-- The handler is entered, unless a debug stop waits: it then applies first (R400). -/
def State.enterOrHold (s : State) (k g depth : Nat) : State :=
  if (s.core k).debugReq then
    let job := s.savedJob k (faultArea k)
    s.modCore k fun c =>
      { (c.waiting (.entering g depth) job).marked with debug := true, debugReq := false, timer := c.timerAt s.time }
  else s.enterHandler k g depth

/-- A handler's state is discarded: its energy goes to its region (R384), its pins and its attachment end with it; CULPTR
and CULTEN keep their values until a job start, a resume or a detachment (R3, R92). -/
def State.dropHandler (s : State) (k : Nat) : State :=
  let c := s.core k
  let s := c.cmds.foldl State.unpinCmd (c.pins.foldl State.pinDown (s.bankEnergy k c.theJob.region))
  (if c.culHandle = 0 then s else s.pinDown c.culHandle.toNat).releaseLease k

/-- A handler has failed with a cause, or escalates with cause 0: the frame goes to the parent of its region. -/
def State.handlerFailed (s : State) (k cause : Nat) : State :=
  let c := s.core k
  let pool := c.pool
  let s := (s.dropHandler k).unclose k
  let s := s.setFrameItem pool (faultArea k) (0x40 + c.depth) cause
  s.enterOrHold k (s.parent c.theJob.region) (c.depth + 1)

/-! ### CORE_STOP (R369) -/

/-- The area of a column's pool for a stop: a pre-emption takes one that it holds, a suspension one that no pre-emption
holds (R372). -/
def State.stopArea (s : State) (col : Nat) (kind : StopKind) : Option Nat :=
  if kind = .preempt ∨ s.preempting col < (s.freeAreas col).length then (s.freeAreas col).head? else none

/-- CORE_STOP (R369): A core stops all streams, completes in-flight work and saves its context area, not yet in the ac in
which its job has reached it (R338). -/
def execCoreStop (core : Nat) (s : State) : Host.Outcome State Fault Refusal :=
  let no : Host.Outcome State Fault Refusal := .refused (.notEnabled "CORE_STOP")
  match (s.core core).phase with
  | .stopping kind =>
    let c := s.suspendFeeds core
    if c.debug ∨ (find s.reached core).isSome ∨ !s.stopSettled core c then no
    else if c.hm then .next (s.handlerFailed core (match topCause c.causes with | some r => r.cause | none => 0))
    else match kind with
      | .fault =>
        if s.areaThere (colOf core) (faultArea core) then
          .next ((s.saveJob core c kind (faultArea core)).enterOrHold core c.theJob.region 0)
        else no
      | _ =>
        match s.stopArea (colOf core) kind with
        | none => no
        | some a =>
          .next (((s.saveJob core c kind a).modLayer (layerOf core) fun y => { y with tiles := y.tiles ++ [a] }).modCore core
            fun c => if c.debugReq then
                { c.vacated.marked with debug := true, debugReq := false, timer := c.timerAt s.time, shown := some (c.pool, a) }
              else c.vacated)
  | _ => no

/-! ### RESUME (R379) and kill (R380) -/

/-- The job in an area as a core would take it up. -/
def State.restoredJob (s : State) (k pool area : Nat) : CoreSt :=
  (look {} s.saves (saveKey (colOf k) area)).restored (s.core k) s (colOf k) (s.readArea pool area)

/-- The area no longer holds a job. -/
def State.freeSave (s : State) (k area : Nat) : State := { s with saves := erase s.saves (saveKey (colOf k) area) }

/-- The core owns the cullet tensor that its job has attached (R381). -/
def State.ownCullet (s : State) (k : Nat) : State :=
  let h := (s.core k).culHandle.toNat
  if h = 0 then s else s.setFrame (dLoc ((s.tensor h).block 0)) 16 (leBytes 4 k)

/-- RESUME (R379): The core restores a context area and each stream continues at its line address. -/
def execResume (core : Nat) (s : State) : Host.Outcome State Fault Refusal :=
  match (s.core core).phase with
  | .restoring pool area =>
    if (s.core core).debug ∨ (find s.saves (saveKey (colOf core) area)).isNone ∨ (find s.reached core).isSome then .refused (.notEnabled "RESUME")
    else .next ((((s.setCore core { s.restoredJob core pool area with leaseAt := s.time.toNat }).freeSave core area).ownCullet
      core).markEnergy core)
  | _ => .refused (.notEnabled "RESUME")

/-- The stopped job of a core is killed: its faulted and suspended transfers are dropped. The core's own registers stand
aside until the kill is over, for only a resume takes those of the area (R90, R92). -/
def State.killSaved (s : State) (k : Nat) : State :=
  let area := faultArea k
  let c := s.restoredJob k (s.core k).pool area
  let s := c.cmds.foldl State.unpinCmd s
  let c := { c with cmds := [], culMove := 0, leaseReq := none, regain := none }
  let s := { s with asides := set s.asides k ((s.core k).vacated) }
  (((s.setCore k c).freeSave k area).beginKill k).finishKill k

/-- The stopped job of a core is to be resumed. -/
def State.resumeSaved (s : State) (k : Nat) : State :=
  let job := s.savedJob k (faultArea k)
  s.modCore k fun c => c.waiting (.restoring c.pool (faultArea k)) job

/-! ### eret (R135, R378) -/

/-- Every command, packet, crossbar instruction and write of the handler has completed. Once its other streams stand, a
command that feeds a full queue, or is held behind one, does not complete, and goes with the handler's state (R105, R135). -/
def State.handlerQuiet (s : State) (k : Nat) : Bool :=
  let c := if (s.core k).leaving.isSome then s.suspendFeeds k else s.core k
  allStrms.all (fun x => (c.strm x).queued == []) &&
    c.cmds.all (fun m => m.flying == 0 && (m.isStopped || c.undone.contains m)) && c.ctr.lwc == 0 && c.bulk == [] && c.casts == [] && c.culMove == 0 && allStrms.all (fun x => !s.scopePending k x) &&
    s.transit.all fun f => f.core != k

/-- The action byte of a core's frame. -/
def State.frameAction (s : State) (k : Nat) : Nat :=
  s.imageNum (s.core k).pool (areaSize * faultArea k + 3) 1

/-- The handler ends as its frame directs. -/
def State.leaveHandler (s : State) (k : Nat) : State :=
  match s.frameAction k with
  | 0 => (s.dropHandler k).resumeSaved k
  | 1 => (s.dropHandler k).killSaved k
  | _ => s.handlerFailed k 0

/-- eret (R135): Ends handler mode and resumes, kills or escalates the interrupted job as the frame directs. While it waits
for the handler's work, the handler's other streams stand at their boundaries. -/
def execEret (s : State) : Host.Outcome State Fault Refusal :=
  if !coreValid s.who then .fault .noSuchCore
  else if !(s.core s.who).canIssue s.strm then .fault .notRunning
  else match attempt .eret s fun s =>
      if !s.handlerQuiet s.who then .wait .engine (s.modCore s.who fun c => { c with leaving := some s.strm })
      else if 2 < s.frameAction s.who then .fault 0x23 (BitVec.ofNat 64 (s.frameAction s.who))
      else .stay s with
    | .stay t => .next ((t.issued .eret t.who t.strm).leaveHandler t.who)
    | r => .next (finish .eret s s.who s.strm r)

/-- The management plane resumes (0) or kills (1) an escalated job. -/
def execMgmtEretOrder (core : Nat) (action : BitVec 8) (s : State) : Host.Outcome State Fault Refusal :=
  let no : Host.Outcome State Fault Refusal := .refused (.notEnabled "MGMT_ERET_ORDER")
  let s' := s.setFrameItem (s.core core).pool (faultArea core) 3 action.toNat
  if (s.core core).phase ≠ .escalated ∨ (s.core core).debug then no
  else match action.toNat with
    | 0 => .next (s'.resumeSaved core)
    | 1 => .next (s'.killSaved core)
    | _ => no

/-! ### Causes of no instruction of their own (R81, R99, R371) -/

/-- The core runs a job, or is stopping it. -/
def CoreSt.takesTimer (c : CoreSt) : Bool :=
  match c.phase with | .running | .draining | .stopping _ => true | _ => false

/-- A timer event is taken: the core runs its job outside handler mode; in a stop in progress it joins the stop (R370).
DEDUCED, unsafe: log entry 60. -/
def execTimerTrap (core : Nat) (s : State) : Host.Outcome State Fault Refusal :=
  let c := s.core core
  match c.timerDue with
  | some v =>
    if c.job.isSome ∧ !c.hm ∧ !c.debug ∧ c.takesTimer then
      .next ((s.setCore core { c with timerDue := none }).raise core none 0x38 v)
    else .refused (.notEnabled "TIMER_TRAP")
  | none => .refused (.notEnabled "TIMER_TRAP")

/-- A word that is no instruction. -/
def execIllegalOp (w : BitVec 32) (s : State) : Host.Outcome State Fault Refusal :=
  issue (.illegalOp w) s fun _ => .fault 0x01 (instrFinfo (.illegalOp w))

end Sys2Proof.Machine
end

