-- ==== Sys2Proof/Machine/Links.lean ====
section
/-! DEFINITION. The receive side of the optical links: flits, lanes, drops, replay, links that go down; and the flit times of
the transmit side (R405 to R411, R384). -/
namespace Sys2Proof.Machine

/-- Firmware runs: the package is neither off nor in minimal mode, in which no slice link is trained and CXL.mem does not
answer (R423, R425). -/
def Mgmt.running (m : Mgmt) : Bool :=
  match m.boot with
  | .firmware _ | .handed => true
  | .off | .minimal => false

/-- Receive lane `n` of a link, by its number in the package. -/
def laneKey (link n : Nat) : Nat := 8 * link + n
def State.lane (s : State) (k : Nat) : Lane := look {} s.lanes k
def State.modLane (s : State) (k : Nat) (f : Lane → Lane) : State := { s with lanes := set s.lanes k (f (s.lane k)) }

/-- Active receive lanes of a link, ascending (R406). -/
def Link.active (l : Link) : List Nat := (List.range 8).filter fun n => l.out != some n

/-- Lane that carries byte `i` of a flit (R406). -/
def Link.laneOf (l : Link) (i : Nat) : Nat := l.active.getD (i % l.active.length) 0

/-- A drop or hand back takes effect from the flit that it names on (R408). -/
def State.laneChange (s : State) (k : Nat) : State :=
  match (s.link k).pending with
  | some (n, true, at_) =>
    if (s.link k).expect < at_ then s
    else (s.modLink k fun l => { l with out := some n, pending := none }).modLane (laneKey k n) fun a =>
      { a with drops := a.drops + 1 }
  | some (n, false, at_) =>
    if (s.link k).expect < at_ then s
    else (s.modLink k fun l => { l with out := none, pending := none }).modLane (laneKey k n) fun a =>
      { a with handbacks := a.handbacks + 1, recent := [] }
  | none => s

/-- Bits in which two bytes differ. -/
def byteDiff (a b : Byte) : Nat := ((List.range 8).filter fun i => (a ^^^ b).getLsbD i).length

/-- What FEC corrected is charged to the lanes that carried it (R384, R408). -/
def State.chargeLanes (s : State) (k : Nat) (sent fixed : List Byte) (at_ : List Nat) : State :=
  let l := s.link k
  l.active.foldl (fun s n =>
    let mine := at_.filter fun i => i < 256 && l.laneOf i == n
    let bits := mine.foldl (fun a i => a + byteDiff (sent.getD i 0) (fixed.getD i 0)) 0
    s.modLane (laneKey k n) fun a => { a with
      corrected := a.corrected + BitVec.ofNat 48 bits
      recent := (a.recent.filter fun e => l.received < e.1 + 4096) ++
        (if mine = [] then [] else [(l.received, mine.length)]) }) s

/-- The receiver asks for the drop of a lane that has crossed LTHR: the request names the flit 4 beyond the last accepted
(R408). -/
def Link.askDrop (l : Link) : Link :=
  match l.crossed with
  | some n =>
    if l.out.isSome ∨ l.pending.isSome then l
    else { l with crossed := none, pending := some (n, true, l.expect + 3)
                  lreq := BitVec.ofNat 16 (2 ^ 13 * n + 2 ^ 11 + (l.expect + 3) % 2 ^ 11) }
  | none => l

/-- A lane whose byte errors exceed LTHR, where no lane is out or about to be (R408). -/
def State.crossing (s : State) (k : Nat) : Option Nat :=
  let l := s.link k
  if l.out.isSome ∨ l.pending.isSome then none
  else l.active.find? fun n => s.mgmt.lthr.toNat < (s.lane (laneKey k n)).recent.foldl (fun a e => a + e.2) 0

/-- A link goes down: what waits on it, and what its peer has not acknowledged, goes over the peer's other link (R409,
R410). -/
def State.linkDown (s : State) (k : Nat) : State :=
  let left := (s.link k).replay.filter (fun f => f.kind != 0) ++ (s.link k).waiting
  let s := (s.modLink k fun l => { l with down := true, replay := [], again := [], waiting := [] }).log (.linkDown k)
  s.modLink (Nat.xor k 1) fun l => { l with waiting := left ++ l.waiting }

/-- The lane that is out of the transmit side once what the peer has asked for stands. -/
def Link.txGoal (l : Link) : Option Nat :=
  match l.txPending with
  | some (n, drop, _) => if drop then some n else none
  | none => l.txOut

/-- A lane request of the peer for the transmit side: it stands from the flit that it names on, or from the next where that
one has gone. A drop of a second lane would leave fewer than 7 (R406, R408, R409).
DEDUCED, unsafe: log entry 51. -/
def State.takeRequest (s : State) (k : Nat) (r : Nat) : State :=
  let l := s.link k
  let n := bitsOf r 13 3
  let ahead := (bitsOf r 0 11 + 2 ^ 11 - l.txNext % 2 ^ 11) % 2 ^ 11
  let at_ := l.txNext + (if ahead < 2 ^ 10 then ahead else 0)
  match bitsOf r 11 2, l.txGoal with
  | 1, none => s.modLink k fun l => { l with txOut := none, txPending := some (n, true, at_) }
  | 1, some o => if o = n then s else s.linkDown k
  | 2, some o => if o = n then s.modLink k fun l => { l with txOut := some n, txPending := some (n, false, at_) } else s
  | _, _ => s

/-- The peer has received intact every flit up to an index (R406). -/
def Link.acknowledged (l : Link) (ack : Nat) : Link :=
  let left := fun (e : TxFlit) => decide ((e.idx + 2 ^ 11 - ack - 1) % 2 ^ 11 < 2 ^ 10)
  { l with replay := l.replay.filter left, again := l.again.filter left }

/-- A write of another package into an HBM frame that this package lends it: it leaves the frame's column as a local
package-scope write (R237, R187). -/
def State.farWrite (s : State) (w : Nat × Nat × List Byte) : State :=
  let j := s.locColumn 0 w.1
  let v := vcBump (s.column j).vc j
  let s := (s.modColumn j fun c => { c with vc := v }).setFrame w.1 w.2.1 w.2.2
  { s with transit := s.transit ++ ((List.range 4).filter (· != j)).map fun d =>
      { frm := j, dest := d, vec := v, core := noCore : Flight } }

/-- Writes that one flit can bring: into HBM frames, of no more bytes than a payload. -/
def farWritesOk (brings : List (Nat × Nat × List Byte)) : Bool :=
  (brings.all fun w => locTier w.1 == 2 && w.1 < 2 ^ 64 && w.2.1 + w.2.2.length ≤ 65536) &&
    (brings.foldl (fun n w => n + w.2.2.length) 0 ≤ flitPayload)

/-- A flit in sequence is accepted: acknowledgement, lane request and payload, with the writes that it `brings` (R406, R407).
DEDUCED, unsafe: log entry 51. -/
def State.acceptFlit (s : State) (k : Nat) (f : List Byte) (brings : List (Nat × Nat × List Byte)) : State :=
  let s := if leNat (f.take 2) % 4 = 0 then s else brings.foldl State.farWrite s
  let s := s.modLink k fun l => ({ l.acknowledged (leNat ((f.drop 4).take 2) % 2 ^ 11) with
    expect := l.expect + 1
    delivered := l.delivered ++ (if leNat (f.take 2) % 4 = 0 then [] else (f.drop 8).take flitPayload) } : Link).askDrop
  s.takeRequest k (leNat ((f.drop 6).take 2))

/-- Byte positions in which two flits differ. -/
def flitErrors (a b : List Byte) : List Nat := (List.range 256).filter fun i => a.getD i 0 != b.getD i 0

/-- The flit is a codeword of RS(256, 232) (R406). -/
def isCodeword (f : List Byte) : Bool := f.length == 256 && f.drop 232 == leBytes 24 (Config.rsCheck (f.take 232)).toNat

/-- What FEC makes of a flit `got` where the peer has sent `sent`: it corrects up to 12 byte errors (R406). -/
def fecDecode (sent got : List Byte) : Option (List Byte × List Nat) :=
  if isCodeword sent && (flitErrors sent got).length ≤ 12 then some (sent, flitErrors sent got) else Config.rsDecode got

/-- A flit arrives on a trained link: it is corrected, discarded or delivered in sequence (R237, R406 to R409). -/
def execFlitReceive (link : Nat) (flit : FlitIn) (s : State) : Host.Outcome State Fault Refusal :=
  if !s.lit link ∨ !(s.link link).trained ∨ (s.link link).down ∨ flit.got.length ≠ 256 ∨ !farWritesOk flit.brings then
    .refused (.notEnabled "FLIT_RECEIVE")
  else
    let s := (s.laneChange link).modLink link fun l => { l with
      received := l.received + 1, bad := l.bad.filter fun n => l.received + 1 < n + 256 }
    match fecDecode flit.sent flit.got with
    | none =>
      let s := s.modLink link fun l => { l with uncorrectable := l.uncorrectable + 1, bad := l.bad ++ [l.received] }
      .next (if 16 < (s.link link).bad.length then s.linkDown link else s)
    | some (f, at_) =>
      let s := s.chargeLanes link flit.got f at_
      let s := if at_ = [] then s else s.modLink link fun l => { l with corrected := l.corrected + 1 }
      let due := s.crossing link
      let s := if leNat ((f.drop 2).take 2) % 2 ^ 11 = (s.link link).expect % 2 ^ 11 then s.acceptFlit link f flit.brings else s
      .next (s.modLink link fun l => { l with crossed := if l.crossed.isSome || l.pending.isSome then l.crossed else due })

/-- A dropped lane that has passed 65,536 test flits with no byte error is to be handed back (R408). -/
def execLaneHandBack (link : LaneTest) (s : State) : Host.Outcome State Fault Refusal :=
  match (s.link link.link).out with
  | some n =>
    if (s.link link.link).pending.isSome ∨ (s.link link.link).down ∨ link.clean < 65536 then
      .refused (.notEnabled "LANE_HAND_BACK")
    else .next (s.modLink link.link fun l => { l with
      pending := some (n, false, l.expect + 3)
      lreq := BitVec.ofNat 16 (2 ^ 13 * n + 2 * 2 ^ 11 + (l.expect + 3) % 2 ^ 11) })
  | none => .refused (.notEnabled "LANE_HAND_BACK")

/-- A link as its training leaves it: up, with every lane in and nothing on its way (R409). -/
def Link.retrained (l : Link) : Link :=
  { l with
    down := false, trained := true, expect := 0, bad := [], out := none, crossed := none, pending := none, lreq := 0
    txOut := none, txPending := none, txNext := 0, waiting := [], replay := [], again := [], frameAt := 0, frameUse := []
    sent := [] }

/-- The runtime trains a link (R409, R410, R423). -/
def execLinkRetrain (link : Nat) (s : State) : Host.Outcome State Fault Refusal :=
  if !s.lit link ∨ !s.mgmt.running then .refused (.notEnabled "LINK_RETRAIN")
  else .next (s.modLink link Link.retrained)

/-- Flits of a frame that a region owns, or that no region does (R411). -/
def State.frameShare (s : State) : Option Nat → Nat
  | some r => s.linkShare r
  | none => 256 - s.regionIds.foldl (fun n r => n + s.linkShare r) 0

/-- Every link that is up carries one flit in 8 ac (R407, R411). -/
def State.linkTick (s : State) : State :=
  if s.time.toNat % 8 ≠ 0 then s
  else (s.links.filter fun p => s.lit p.1 && p.2.trained && !p.2.down).foldl (fun s p =>
    ({ s with freeCtr := s.freeCtr + flitPayload } : State).modLink p.1 fun l =>
      l.flitTime s.time.toNat s.freeCtr s.frameShare) s

end Sys2Proof.Machine
end

