-- ==== Sys2Proof/Machine/HostIO.lean ====
section
/-! DEFINITION. What the host and the Hyrel runtime do: CXL.mem accesses, and reads and writes through CXL.io of the registers,
records and tables of the package (R89, R198, R213, R243, R318, R321, R322, R329, R341 to R344, R372, R384, R416 to R418).
The addresses that CXL.io gives to these items are outside the manual: an item is named, and its record is given in the
manual's layout. -/
namespace Sys2Proof.Machine

def State.reply (s : State) (status : Nat) (data : List Byte) : State :=
  { s with mgmt := { s.mgmt with reply := { status := status, data := data } } }

/-! ### CXL.mem (R417) -/

/-- Frames of one block. -/
def blockFrames (d : BitVec 256) : List Nat :=
  let own := fun l => if dTrl d then [l, l + 1] else [l]
  own (dLoc d) ++ (if dShst d = 3 then own (dShloc d) else [])

/-- The frame belongs to a block whose host bit is 1. DEDUCED, unsafe: log entry 53. -/
def State.hostFrame (s : State) (loc : Nat) : Bool :=
  s.tensors.any fun t => t.2.blocks.any fun b => dget b.2 21 1 == 1 && (blockFrames b.2).contains loc

/-- An access to `n` bytes of a frame of HBM or far DRAM: a read answers with the bytes, or with ones; a write lands, or is
dropped and logged. -/
def execCxlMemHostAccess (loc off n : Nat) (write : Option (List Byte)) (s : State) : Host.Outcome State Fault Refusal :=
  if !s.mgmt.running ∨ (locTier loc ≠ 2 ∧ locTier loc ≠ 3) ∨ 2 ^ 64 ≤ loc ∨ 65536 < off + n ∨ write.any (fun b => b.length != n) then
    .refused (.notEnabled "CXL_MEM_HOST_ACCESS")
  else match write, s.hostFrame loc with
    | none, true => .next (s.reply 0 (s.frameBytes loc off n))
    | none, false => .next (s.reply 0 (List.replicate n 0xFF))
    | some b, true => .next ((s.setFrame loc off b).reply 0 [])
    | some _, false => .next ((s.log (.hostWriteDropped loc)).reply 0 [])

/-! ### Who may write what (R396, R418) -/

/-- The tensor's region has the effective virtual function `v`, or there is no such tensor. -/
def State.tensorOf (s : State) (v h : Nat) : Bool := !s.tensorValid h || s.vf (s.tensor h).info.region == v

/-- What a virtual function reads: the records of its regions, streams and tensors, its hotness, and the energy of its
regions (R396, R418). -/
def State.vfReads (s : State) (v : Nat) : RuntimeRead → Bool
  | .region idx | .regionEnergy idx => s.vf idx == v
  | .opStream col idx => s.streamUsed col idx && s.vf (s.opStream col idx).region == v
  | .tensorRecord h | .dims h | .recipeList h | .descriptor h _ | .bytes h _ _ => s.tensorValid h && s.tensorOf v h
  | .view h => s.tensorValid (viewOf (s.viewRec h)).base && s.tensorOf v (viewOf (s.viewRec h)).base
  | .hotness _ vf _ => vf == v
  | .regionBase | .cost .. | .step _ | .coreEnergy _ | .vc _ | .laneCounters _ | .linkCounters _ | .lthr | .sliceRank
  | .contextPool _ | .trctl _ | .bootFail | .bootReason => false

/-- A virtual function reaches the records of its regions, streams and tensors, and its own counters. -/
def State.vfReaches (s : State) (v : Nat) : RuntimeItem → Bool
  | .region idx _ => s.vf idx == v
  | .streamCreate col idx _ _ region =>
    s.vf region == v && (!s.streamUsed col idx || s.vf (s.opStream col idx).region == v)
  | .streamStatus col idx _ | .streamHead col idx _ => s.streamUsed col idx && s.vf (s.opStream col idx).region == v
  | .tensorRecord h r => s.vf (rcbField r 0 4) == v && s.tensorOf v h
  | .tensorDestroy h | .dims h _ | .recipeList h _ | .descriptor h _ _ | .bytes h _ _ => s.tensorValid h && s.tensorOf v h
  | .view h r => s.tensorOf v (rcbField r 0 4) && s.tensorOf v (viewOf (s.viewRec h)).base
  | .hotness _ vf _ _ _ => vf == v
  | .regionEnergy idx _ => s.vf idx == v
  | .read what => s.vfReads v what
  | .slicePackages _ | .regionBase _ | .cost .. | .step .. | .coreEnergy .. | .laneCounters .. | .linkCounters .. | .lthr _ | .sliceRank _ | .contextPool ..
  | .bootFlash _ | .lentFrames .. | .viewTable .. => false

/-! ### Records as the runtime writes them -/

/-- A residency record from its 64 bytes (R341). -/
def recordOf (b : BitVec 512) : TensorRec :=
  let f := rcbField b
  { region := f 0 4, ver := BitVec.ofNat 32 (f 4 4), state := f 8 1 % 16, shadow := bitsOf (f 8 1) 4 1 == 1
    recipe := bitsOf (f 8 1) 5 1 == 1, curl := BitVec.ofNat 8 (f 9 1), shl := BitVec.ofNat 8 (f 10 1)
    fmt := BitVec.ofNat 6 (f 11 1), pin := BitVec.ofNat 16 (f 12 2), ratio := BitVec.ofNat 16 (f 14 2)
    size := BitVec.ofNat 64 (f 16 8), dims := BitVec.ofNat 32 (f 24 4), rlimit := BitVec.ofNat 32 (f 28 4)
    rline := BitVec.ofNat 24 (f 32 3), inputs := f 35 1 % 16, rcode := BitVec.ofNat 32 (f 36 4)
    rlist := BitVec.ofNat 32 (f 40 4), rcost := BitVec.ofNat 32 (f 44 4), cursor := BitVec.ofNat 64 (f 48 8)
    nextuse := BitVec.ofNat 64 (f 56 8) }

/-- A tensor with a dims record: all its six extents and strides (R343). -/
def Tensor.withDims (t : Tensor) (r : BitVec 768) : Tensor :=
  let f := fun byte n => bitsOf r.toNat (8 * byte) (8 * n)
  let d := f 0 1
  { t with
    dimCount := d
    extents := (List.range 6).map fun i => f (8 + 4 * i) 4
    strides := (List.range 6).map fun i => f (32 + 8 * i) 8
    mapOff := BitVec.ofNat 64 (f 80 8) }

/-- A tensor with a recipe input list: all its seven entries (R343). -/
def Tensor.withInputs (t : Tensor) (r : BitVec 512) : Tensor :=
  { t with inputs := (List.range 7).map fun i => (rcbField r (8 + 8 * i) 4, rcbField r (12 + 8 * i) 4) }

/-- Bytes of a tensor's current storage; tier-6 blocks are given storage first. -/
def State.runtimeBytes (s : State) (h off : Nat) (bs : List Byte) : State :=
  let first := off / 65536
  let s := (List.range ((off + bs.length + 65535) / 65536 - first)).foldl
    (fun s i => (s.prepare h (first + i) false).getD s) s
  s.setImage h off bs

/-- A column's cost register (R344). -/
def Column.withCost (c : Column) (which : Nat) (v : BitVec 32) : Column :=
  match which with
  | 0 => { c with crSpillFar := v }
  | 1 => { c with crSpillNeigh := v }
  | 2 => { c with crComp := v }
  | 3 => { c with crCompMin := v.truncate 16 }
  | 4 => { c with crDrop := v.truncate 8 }
  | _ => c

/-- Cached records that a runtime write to bytes of a tensor meets are invalidated (R317). -/
def State.uncache (s : State) (h off n : Nat) : State :=
  let met := fun (p : Span) => p.handle == h && p.off < off + n && off < p.off + p.bytes.length
  { s with layers := s.layers.map fun y => (y.1, { y.2 with cache := y.2.cache.filter fun e => !e.any met }) }

/-- The region table has a new base: each block keeps its place in memory (R318). Bits 5:0 of a base are taken as 0 (DESIGN
CHOICE, unsafe: log entry 54). -/
def State.moveTable (s : State) (b : W64) : State :=
  let b := b &&& 0xFFFFFFFFFFFFFFC0
  let at_ := fun (e : Nat × BitVec 512) => ((e.1 + (2 ^ 64 + s.regionBase.toNat - b.toNat) / 64) % 2 ^ 58, e.2)
  { s with regionBase := b, regions := s.regions.map at_, regionsNext := s.regionsNext.map at_ }

/-- A residency record as 64 bytes (R341). -/
def TensorRec.bytes (r : TensorRec) : List Byte :=
  leBytes 4 r.region ++ leBytes 4 r.ver.toNat ++
    leBytes 1 (r.state + 16 * r.shadow.toNat + 32 * r.recipe.toNat) ++ leBytes 1 r.curl.toNat ++ leBytes 1 r.shl.toNat ++
    leBytes 1 r.fmt.toNat ++ leBytes 2 r.pin.toNat ++ leBytes 2 r.ratio.toNat ++ leBytes 8 r.size.toNat ++
    leBytes 4 r.dims.toNat ++ leBytes 4 r.rlimit.toNat ++ leBytes 4 (r.rline.toNat + 2 ^ 24 * r.inputs) ++
    leBytes 4 r.rcode.toNat ++ leBytes 4 r.rlist.toNat ++ leBytes 4 r.rcost.toNat ++ leBytes 8 r.cursor.toNat ++
    leBytes 8 r.nextuse.toNat

/-- A dims record as 96 bytes (R343). -/
def Tensor.dimsBytes (t : Tensor) : List Byte :=
  leBytes 8 t.dimCount ++ ((List.range 6).flatMap fun i => leBytes 4 (t.extents.getD i 0)) ++
    ((List.range 6).flatMap fun i => leBytes 8 (t.strides.getD i 0)) ++ leBytes 8 t.mapOff.toNat ++ leBytes 8 0

/-- A recipe input list as 64 bytes (R343). -/
def Tensor.inputBytes (t : Tensor) : List Byte :=
  leBytes 8 0 ++ (List.range 7).flatMap fun i => leBytes 4 (t.inputs.getD i (0, 0)).1 ++ leBytes 4 (t.inputs.getD i (0, 0)).2

/-- An operator stream descriptor as 128 bytes (R321). -/
def OpStream.bytes (o : OpStream) : List Byte :=
  leBytes 4 o.ring ++ leBytes 1 o.cap ++ leBytes 1 o.status ++ leBytes 6 0 ++ leBytes 4 o.region ++ leBytes 16 0 ++
    leBytes 8 o.head.toNat ++ leBytes 8 o.done.toNat ++ leBytes 8 o.pos.toNat ++ leBytes 8 o.errseq.toNat ++
    leBytes 8 o.tail.toNat ++ leBytes 56 0

/-- The bytes that a read through CXL.io answers with: a record in its layout, a number in the bytes that hold it. -/
def State.runtimeRead (s : State) : RuntimeRead → List Byte
  | .region idx => leBytes 64 (s.rcb idx).toNat
  | .regionBase => leBytes 8 s.regionBase.toNat
  | .opStream col idx => (s.opStream col idx).bytes
  | .tensorRecord h => (s.tensor h).info.bytes
  | .dims h => (s.tensor h).dimsBytes
  | .recipeList h => (s.tensor h).inputBytes
  | .descriptor h b => leBytes 32 ((s.tensor h).block b).toNat
  | .view h => leBytes 64 (s.viewRec h).toNat
  | .bytes h off n => s.imageBytes h off n
  | .cost col which =>
    let c := s.column (col % 4)
    match which with
    | 0 => leBytes 4 c.crSpillFar.toNat
    | 1 => leBytes 4 c.crSpillNeigh.toNat
    | 2 => leBytes 4 c.crComp.toNat
    | 3 => leBytes 2 c.crCompMin.toNat
    | 4 => leBytes 1 c.crDrop.toNat
    | 5 => leBytes 1 c.depthMax.toNat
    | n => leBytes 2 (if n % 2 = 0 then c.wmLo.getD ((n - 6) / 2) 0 else c.wmHi.getD ((n - 6) / 2) 0)
  | .step g => leBytes 4 (look 0 s.steps g).toNat
  | .hotness col vf buf =>
    let e := look (0, 0) (s.column (col % 4)).hotness (256 * (vf % 8) + buf % 256)
    leBytes 6 e.1.toNat ++ leBytes 6 e.2.toNat
  | .regionEnergy idx => leBytes 8 (look 0 s.regionEnergy idx).toNat
  | .coreEnergy k => leBytes 6 (if coreValid k then (s.energyOf k).toNat else 0)
  | .vc col => (List.range 4).flatMap fun j => leBytes 6 ((s.column (col % 4)).vc.getD j 0)
  | .laneCounters n =>
    let l := s.lane n
    leBytes 6 l.corrected.toNat ++ leBytes 6 l.drops.toNat ++ leBytes 6 l.handbacks.toNat
  | .linkCounters n =>
    let l := s.link n
    leBytes 6 l.corrected.toNat ++ leBytes 6 l.uncorrectable.toNat ++ leBytes 6 l.txCorrected.toNat ++
      leBytes 6 l.txUncorrectable.toNat
  | .lthr => leBytes 2 s.mgmt.lthr.toNat
  | .sliceRank => leBytes 2 s.mgmt.sliceRank
  | .contextPool col => leBytes 4 (s.column (col % 4)).poolHandle ++ leBytes 4 (s.column (col % 4)).poolAreas
  | .trctl layer => leBytes 8 (s.layer layer).trctl.toNat
  | .bootFail => leBytes 1 s.mgmt.bootfail.toNat
  | .bootReason => leBytes 1 s.mgmt.bootreason.toNat

/-- One access of the runtime: a write, or a read that leaves its answer. -/
def State.runtimeWrite (s : State) : RuntimeItem → State
  | .read what => s.reply 0 (s.runtimeRead what)
  | .slicePackages n => if 1 ≤ n ∧ n ≤ 512 then { s with mgmt := { s.mgmt with packages := n } } else s
  | .region idx b => if maxRegions ≤ idx then s else { s with regionsNext := set s.regionsNext idx b }
  | .regionBase b => s.moveTable b
  | .streamCreate col idx ring cap region =>
    if 4 ≤ col ∨ 1024 ≤ idx ∨ cap < 4 ∨ 20 < cap then s
    else s.modColumn col fun c => { c with streams := set c.streams idx { ring := ring, cap := cap, region := region } }
  | .streamStatus col idx v => if s.streamUsed col idx then s.modStream col idx fun x => { x with status := v % 256 } else s
  | .streamHead col idx v => if s.streamUsed col idx then s.modStream col idx fun x => { x with head := v } else s
  | .tensorRecord h r => if handleClass h = 2 ∨ h % 2 ^ 28 = 0 ∨ 2 ^ 32 ≤ h then s else s.setInfo h fun _ => recordOf r
  | .tensorDestroy h => { s.invalidate h fun _ => true with tensors := erase s.tensors h }
  | .dims h r => s.modTensor h fun t => t.withDims r
  | .recipeList h r => s.modTensor h fun t => t.withInputs r
  | .descriptor h b d => s.modTensor h fun t => t.setBlock b d
  | .view h r =>
    let t := (s.column (handleHome h)).viewTable
    if handleClass h ≠ 2 ∨ h % 2 ^ 28 = 0 ∨ maxViews ≤ h % 2 ^ 28 then s
    else if t = 0 then ({ s with views := set s.views h r } : State).strideKept
    else if s.tensorValid t then (s.runtimeBytes t (64 * (h % 2 ^ 28)) (leBytes 64 r.toNat)).strideKept
    else s
  | .cost col which v => s.modColumn (col % 4) fun c => c.withCost which v
  | .step g v => { s with steps := set s.steps g v }
  | .hotness col vf buf b n =>
    s.modColumn (col % 4) fun c => { c with hotness := set c.hotness (256 * (vf % 8) + buf % 256) (b, n) }
  | .regionEnergy idx v => { s with regionEnergy := set s.regionEnergy idx v }
  | .coreEnergy k v => if coreValid k then s.writeEnergy k v else s
  | .laneCounters n a b c => s.modLane n fun l => { l with corrected := a, drops := b, handbacks := c }
  | .linkCounters n a b c d =>
    s.modLink n fun l => { l with corrected := a, uncorrectable := b, txCorrected := c, txUncorrectable := d }
  | .lthr v => { s with mgmt := { s.mgmt with lthr := v } }
  | .sliceRank v => if v < 512 then { s with mgmt := { s.mgmt with sliceRank := v } } else s
  | .contextPool col h n =>
    if 144 ≤ n ∧ n ≤ 4096 then s.modColumn (col % 4) fun c => { c with poolHandle := h, poolAreas := n } else s
  | .bytes h off bs => if s.tensorValid h then ((s.runtimeBytes h off bs).uncache h off bs.length).strideKept else s
  | .bootFlash image => { s with mgmt := { s.mgmt with flash := some image, verified := false } }
  | .lentFrames col n => s.modColumn (col % 4) fun c => { c with lent := n }
  | .viewTable col h => if handleClass h = 0 then s.modColumn (col % 4) fun c => { c with viewTable := h } else s

/-- What comes of an access that a virtual function may not make. -/
def State.unreached (s : State) : RuntimeItem → State
  | .read _ => s.reply 1 []
  | _ => s

/-- The device answers this access: in minimal mode only the physical function's write of boot flash and its reads of
BOOTFAIL and BOOTREASON (R425). -/
def State.answers (s : State) (item : RuntimeItem) : Bool :=
  match s.mgmt.boot with
  | .firmware _ | .handed => true
  | .minimal => (match item with | .bootFlash _ | .read .bootFail | .read .bootReason => true | _ => false)
  | .off => false

/-- An access through CXL.io by the physical function (none) or a virtual function; a write that a virtual function may not
make changes nothing, and such a read answers with no bytes and status 1 (R396, R418).
DESIGN CHOICE, unsafe: log entry 54. -/
def execRuntimeRegisterWrite (fn : Option (BitVec 3)) (item : RuntimeItem) (s : State) : Host.Outcome State Fault Refusal :=
  if !s.answers item then .refused (.notEnabled "RUNTIME_REGISTER_WRITE")
  else match fn with
    | none => .next (s.runtimeWrite item)
    | some v => .next (if s.vfReaches v.toNat item then s.runtimeWrite item else s.unreached item)

/-! ### Watermarks and depth (R344) -/

/-- WM_LO beside WM_HI. The register cannot hold a value below a WM_HI of 0: what it then holds is a free value. -/
def State.fixLow (s : State) (col tier : Nat) : State :=
  let c := s.column col
  let hi := c.wmHi.getD tier 0
  let lo := c.wmLo.getD tier 0
  if lo < hi then s
  else if hi = 0 then
    let (b, s) := s.drawBytes 2
    s.modColumn col fun c => { c with wmLo := c.wmLo.set tier (leNat b) }
  else s.modColumn col fun c => { c with wmLo := c.wmLo.set tier (hi - 1) }

/-- WATERMARK_WRITE (R344): A watermark write that would leave WM_LO at or above WM_HI sets WM_LO to WM_HI minus 1. -/
def execWatermarkWrite (col tier : Nat) (hi : Bool) (v : BitVec 16) (s : State) : Host.Outcome State Fault Refusal :=
  if 4 ≤ col ∨ 4 ≤ tier ∨ !s.mgmt.running then .refused (.notEnabled "WATERMARK_WRITE")
  else .next ((s.modColumn col fun c =>
    if hi then { c with wmHi := c.wmHi.set tier v.toNat } else { c with wmLo := c.wmLo.set tier v.toNat }).fixLow col tier)

/-- RECIPE_DEPTH_MAX_WRITE (R344): Writes RECIPE_DEPTH_MAX, ignoring 0 or values above 8. -/
def execRecipeDepthMaxWrite (col : Nat) (v : BitVec 8) (s : State) : Host.Outcome State Fault Refusal :=
  if 4 ≤ col ∨ !s.mgmt.running then .refused (.notEnabled "RECIPE_DEPTH_MAX_WRITE")
  else if v.toNat = 0 ∨ 8 < v.toNat then .next s
  else .next (s.modColumn col fun c => { c with depthMax := BitVec.ofNat 4 v.toNat })

/-! ### The column-cache partition (R213) -/

/-- Tensors with storage in SRAM frames of a column that a partition size takes away.
DEDUCED, unsafe: log entry 55. -/
def State.inTheWay (s : State) (col units : Nat) : List Nat :=
  (s.tensors.filter fun t => t.2.locs.any fun l =>
    locTier l == 1 && bitsOf l 18 2 == col && 24576 - 2048 * units ≤ bitsOf l 0 15).map (·.1)

/-- The tensor can be moved out of the way now. -/
def State.movable (s : State) (h : Nat) : Bool :=
  let t := s.tensor h
  let i := t.info
  1 ≤ i.state && i.state ≤ 6 && i.pin == 0 && s.inFlight h == 0 && !i.shadow &&
    t.blocks.all fun b => dget b.2 22 1 == 0 && dget b.2 21 1 == 0

/-- A partition size that waits takes effect once its frames are free; until then the engine moves to HBM what stands
there and can be moved. -/
def State.settlePartition (s : State) (col : Nat) : State :=
  match (s.column col).cacheNext with
  | none => s
  | some u =>
    match s.inTheWay col u with
    | [] => s.modColumn col fun c => { c with cacheUnits := u, cacheNext := none, cache := [] }
    | hs => hs.foldl (fun s h => if s.movable h then s.beginAction h (.move 2 0 col) else s) s

/-- PARTITION_SIZE_SET (R213): Changes a column-cache partition after vacating and writing back. -/
def execPartitionSizeSet (col units : Nat) (s : State) : Host.Outcome State Fault Refusal :=
  if 4 ≤ col ∨ 8 < units ∨ !s.mgmt.running then .refused (.notEnabled "PARTITION_SIZE_SET")
  else .next ((s.modColumn col fun c => { c with cacheNext := some units }).settlePartition col)

end Sys2Proof.Machine
end

