-- ==== Sys2Proof/Machine/Debug.lean ====
section
/-! DEFINITION. Debug stops, the debug address space and the trace unit (R265, R383, R397 to R404). -/
namespace Sys2Proof.Machine

/-! ### Debug stops (R397, R400) -/

/-- A debug stop reaches a core: one in a stop of R369 is held once that stop has completed. -/
def CoreSt.debugStop (c : CoreSt) (time : W64) : CoreSt :=
  if c.debug then c
  else match c.phase with
    | .stopping _ | .draining => { c with debugReq := true }
    | _ => { c.marked with debug := true, timer := c.timerAt time }

def State.debugStopAll (s : State) (ks : List Nat) : State :=
  (ks.filter coreValid).foldl (fun s k => s.modCore k fun c => c.debugStop s.time) s

/-- The core goes on: TIMER restarts, a lease that the stop took is asked for again (R184), and a handler that the stop held
back is entered. -/
def State.debugRelease (s : State) (k : Nat) : State :=
  let c := s.core k
  if !c.debug then s.setCore k { c with debugReq := false }
  else
    let s := s.setCore k { c with debug := false, debugReq := false, timer := c.timer - s.time, shown := none }
    match c.phase with
    | .entering g depth => s.enterHandler k g depth
    | .running | .draining => s.modCore k fun c => c.askAgain s.time.toNat
    | _ => s

/-- DEBUG_STOP_REQUEST (R397): The management plane stops a set of cores at one ac. -/
def execDebugStopRequest (set : List Nat) (s : State) : Host.Outcome State Fault Refusal := .next (s.debugStopAll set)

/-- DEBUG_RELEASE (R399): Releases debug-stopped cores and restarts TIMER. -/
def execDebugRelease (set : List Nat) (s : State) : Host.Outcome State Fault Refusal :=
  .next ((set.filter coreValid).foldl State.debugRelease s)

/-! ### The trace unit (R402 to R404) -/

def trEnable (v : W64) : Bool := v.getLsbD 5
def trTrig (v : W64) : Bool := v.getLsbD 16
def trMode (v : W64) : Nat := bitsOf v.toNat 6 2
def trPost (v : W64) : Nat := bitsOf v.toNat 48 16
def trCore (v : W64) : Nat := bitsOf v.toNat 0 5

/-- Bits of TRCTL that are not reserved. -/
def trctlMask : W64 := 0xFFFF0000000300FF

/-- The recording has reached its end. -/
def Layer.traceOver (y : Layer) : Bool :=
  match trMode y.trctl with
  | 0 => 65536 ≤ y.traceAt
  | 1 => trTrig y.trctl && trPost y.trctl ≤ y.tracePost
  | _ => false

/-- A write of TRCTL: one that enables starts from the first entry. -/
def Layer.writeTrctl (y : Layer) (v : W64) : Layer :=
  let y := { y with trctl := v &&& trctlMask }
  if trEnable v then { y with traceAt := 0, tracePost := 0 } else y

/-- TRCTL_WRITE (R402): A trace control write starts or restarts recording. -/
def execTrctlWrite (layer : Nat) (v : BitVec 64) (s : State) : Host.Outcome State Fault Refusal :=
  if 32 ≤ layer then .refused (.notEnabled "TRCTL_WRITE") else .next (s.modLayer layer fun y => y.writeTrctl v)

/-- TRACE_END (R403): Recording ends after its count and sets done. -/
def execTraceEnd (layer : Nat) (s : State) : Host.Outcome State Fault Refusal :=
  let y := s.layer layer
  if trEnable y.trctl ∧ y.traceOver then
    .next (s.modLayer layer fun y => { y with trctl := (y.trctl &&& 0xFFFFFFFFFFFFFFDF) ||| 0x20000 })
  else .refused (.notEnabled "TRACE_END")

/-- A BREAK on the traced core triggers the trace unit (R402). -/
def State.traceBreak (s : State) (k : Nat) : State :=
  let v := (s.layer (layerOf k)).trctl
  if trEnable v ∧ trCore v = k % 32 then s.modLayer (layerOf k) fun y => { y with trctl := y.trctl ||| 0x10000 } else s

/-- Stall class of a stream that waits (R404). -/
def waitClass : Option Wait → Nat
  | none => 1
  | some (.dog 6 _) => 4
  | some (.dog 11 _) | some (.dog 12 _) => 3
  | some (.dog ..) => 2
  | some .lease | some .power => 4
  | some .crossbar => 5
  | some .event | some .fence | some .stackQueue | some .bulkQueue | some .boundary => 6
  | some .cullet | some (.push _) | some .pop | some .engine | some .others => 2

/-- A stream's field of a trace entry (R404). -/
def CoreSt.traceStrm (c : CoreSt) (x : Strm) : Nat :=
  let t := c.strm x
  let at_ := fun (p : Pc) => 2 ^ 4 * p.line.toNat + p.slot.toNat
  match t.ran with
  | some p => 2 ^ 31 + at_ p
  | none => at_ t.pc + 2 ^ 28 * (if t.arrived then 0 else if c.canIssue x then waitClass t.wait else 7)

/-- The trace entry of a core for this ac. -/
def CoreSt.traceEntry (c : CoreSt) : BitVec 128 :=
  BitVec.ofNat 128 (2 ^ 96 * c.traceStrm .S + 2 ^ 64 * c.traceStrm .C + 2 ^ 32 * c.traceStrm .L + c.traceBits +
    2 ^ 3 * (if c.ctr.lwc = 0 then 0 else 1) + 2 * c.held.toNat)

/-- The layer's trace unit records the ac that ends (R403). -/
def State.traceLayer (s : State) (l : Nat) : State :=
  let y := s.layer l
  if !trEnable y.trctl ∨ y.traceOver ∨ 1 < trMode y.trctl ∨ 18 ≤ trCore y.trctl then s
  else
    let e := (s.core (32 * l + trCore y.trctl)).traceEntry
    s.modLayer l fun y => { y with
      trace := set y.trace (y.traceAt % 65536) e, traceAt := y.traceAt + 1
      tracePost := if trTrig y.trctl then y.tracePost + 1 else y.tracePost }

/-! ### The debug address space (R401) -/

/-- What a debug access finds at an address. -/
inductive DebugItem where
  /-- An item of the context-area layout of a core. -/
  | area (core off : Nat)
  /-- BKPT0 to BKPT3 are 0 to 3, WATCH0 and WATCH1 are 4 and 5. -/
  | comparator (core n : Nat)
  | trctl (layer : Nat)
  | traceEntry (layer i half : Nat)
  /-- A replica, or the storage, of a layer: column, layer identifier, offset. -/
  | replica (col layer off : Nat)
  | storage (col pair off : Nat)
  | base (col off : Nat)
  | absent
  deriving DecidableEq, Repr, Inhabited

def debugItem (addr : Nat) : DebugItem :=
  let col := bitsOf addr 46 2
  let pair := bitsOf addr 43 3
  let unit := bitsOf addr 38 5
  let off := bitsOf addr 0 38
  let core := 256 * col + 32 * pair + unit
  if bitsOf addr 48 16 ≠ 0 ∨ off % 8 ≠ 0 then .absent
  else if unit < 18 then
    if off < 0x200000 then .area core off
    else if off < 0x200020 then .comparator core ((off - 0x200000) / 8)
    else if off = 0x200040 ∨ off = 0x200048 then .comparator core (4 + (off - 0x200040) / 8)
    else .absent
  else match unit with
    | 24 =>
      if off = 0 then .trctl (8 * col + pair)
      else if 0x100000 ≤ off ∧ off < 0x200000 then .traceEntry (8 * col + pair) ((off - 0x100000) / 16) (off / 8 % 2)
      else .absent
    | 25 => if off < 0x40000 then .replica col (2 * pair + 1) off else .absent
    | 26 => if off < 0x40000 then .replica col (2 * pair + 2) off else .absent
    | 27 => if off < 65536 * 24576 then .storage col pair off else .absent
    | 31 => if off < 0x40000 then .base col off else .absent
    | _ => .absent

/-- Bits of a comparator that are not reserved (R383). -/
def comparatorMask (n : Nat) : W64 := if n < 4 then 0x00000000FFFFFFFF else 0xFFFFFF00000FFFFF

/-- The value of a comparator as last written. -/
def CoreSt.comparator (c : CoreSt) (n : Nat) : W64 :=
  match c.ctr.late.reverse.find? fun e => e.2.1 == n with
  | some e => e.2.2
  | none => if n < 4 then (look 0 c.ctr.bkpt n).zeroExtend 64 else look 0 c.ctr.watch (n - 4)

/-- A comparator takes a value. -/
def CoreSt.setComparator (c : CoreSt) (n : Nat) (v : W64) : CoreSt :=
  if n < 4 then { c with ctr := { c.ctr with bkpt := set c.ctr.bkpt n (v.truncate 32) } }
  else { c with ctr := { c.ctr with watch := set c.ctr.watch (n - 4) v } }

/-- Comparators whose ac has come take effect. -/
def CoreSt.lateWrites (c : CoreSt) (time : Nat) : CoreSt :=
  if c.ctr.late = [] then c
  else
    let due := c.ctr.late.filter fun e => e.1 ≤ time
    due.foldl (fun c e => c.setComparator e.2.1 e.2.2)
      { c with ctr := { c.ctr with late := c.ctr.late.filter fun e => time < e.1 } }

/-! ### Context areas through the debug address space (R399, R400) -/

/-- The pool and area that hold the stopped job of a core, if one does: also those of a pre-emption or suspension after which
a debug stop holds the core (R400). -/
def State.stoppedArea (s : State) (k : Nat) : Option (Nat × Nat) :=
  let c := s.core k
  match c.phase with
  | .entering .. | .escalated => some (c.pool, faultArea k)
  | .restoring pool a => some (pool, a)
  | _ => c.shown.filter fun p => (find s.saves (saveKey (colOf k) p.2)).isSome

/-- The registers of core `k` itself: those that stand aside while a stopped job of it is being killed. -/
def State.ownCore (s : State) (k : Nat) : CoreSt := (find s.asides k).getD (s.core k)

/-- The context area of a debug-stopped core: as saved, or as a stop would now write it.
DEDUCED, unsafe: log entry 59. -/
def State.debugImage (s : State) (k : Nat) : Memory :=
  match s.stoppedArea k with
  | some (h, a) => s.readArea h a
  | none => s.areaImage k (s.ownCore k) .fault

/-- Queue entries that a word of the area holds: whether it is one, and whether any entry of it is in its queue. -/
def entryPresent (m : Memory) (off : Nat) : Bool :=
  let within := fun (ptr idx cap : Nat) =>
    let h := m.num ptr 2 % (2 * cap)
    let n := (m.num (ptr + 2) 2 + 2 * cap - h) % (2 * cap)
    (idx + 2 * cap - h) % cap < n
  if 0x10000 ≤ off ∧ off < 0x16000 then
    let q := (off - 0x10000) / 4096
    within (0x100 + 4 * q) ((off - 0x10000) % 4096 / 256) 16
  else if 0x16000 ≤ off ∧ off < 0x16100 then (List.range 8).any fun i => within 0x118 (off - 0x16000 + i) 256
  else if off = 0x16100 then (List.range 64).any fun i => within 0x11C i 64
  else if 0x16200 ≤ off ∧ off < 0x16380 then
    let f := (off - 0x16200) / 64
    (List.range 4).any fun i => within (0x120 + 4 * f) ((off - 0x16200) % 64 / 2 + i) 32
  else true

/-- A stream as the area then gives it; what the area does not hold stays. -/
def StreamSt.poked (old new : StreamSt) (m : Memory) (n : Nat) : StreamSt :=
  let keep := old.past && m.num (0x18 + 8 * n) 8 == 0
  { new with
    pc := if keep then old.pc else new.pc, past := keep, evflag := m.num (0x510 + 64 * n) 1 % 2 == 1
    dog := old.dog, wait := old.wait, arrived := old.arrived, stopped := old.stopped, ran := old.ran, heard := old.heard
    fetched := if keep ∨ new.pc = old.pc then old.fetched else none }

/-- A debug-stopped core after a write to an item of its area. It holds no bench (R184): LEASECNT is what it asks for on
release. -/
def CoreSt.poked (c : CoreSt) (s : State) (col : Nat) (m : Memory) : CoreSt :=
  let r := c.restored c s col m
  { r with
    l := c.l.poked r.l m 0, c := c.c.poked r.c m 1, s := c.s.poked r.s m 2
    held := false, left := 0, leaseReq := none, leaving := c.leaving
    regain := if bitsOf (m.num 0x648 1) 7 1 = 1 then some (m.byte 0x648) else none
    ctr := c.ctr, ctrWas := c.ctrWas, bulkCount := c.bulkCount
    allocRan := c.allocRan, begun := c.begun, chain := c.chain, timercmp := BitVec.ofNat 64 (m.num 0x708 8)
    timerDue := c.timerDue, timercmpSet := c.timercmpSet, region := if c.hm then c.region else r.region
    hm := c.hm, code := c.code, fstream := c.fstream, btc := c.btc, cmds := c.cmds, culRec := c.culRec, phase := c.phase
    depth := c.depth, raised := c.raised, recs := c.recs, susp := c.susp, ran := c.ran, lastRegion := c.lastRegion
    lastVf := c.lastVf }

/-! ### Reads and writes -/

def dbgOk : Nat := 0
def dbgStale : Nat := 1
def dbgWoken : Nat := 2
def dbgOff : Nat := 3
def dbgNoent : Nat := 4
def dbgBusy : Nat := 5

/-- A reply of one word. -/
def State.word (s : State) (status v : Nat) : State := s.reply status (leBytes 8 v)

/-- Bytes of SRAM storage: of the SRAM tier, or of the column cache's partition after it (R213). -/
def State.sramBytes (s : State) (col pair off : Nat) : List Byte :=
  let f := off / 65536
  let tier := 24576 - 2048 * (s.column col).cacheUnits
  if f < tier then s.frameBytes (2 ^ 61 + 2 ^ 18 * col + 2 ^ 15 * pair + f) (off % 65536) 8
  else s.cacheImage col pair (off - 65536 * tier) 8

/-- The layer pair that holds an item, as column and pair; none for the base die and for no item. -/
def DebugItem.pair : DebugItem → Option (Nat × Nat)
  | .area k _ | .comparator k _ => some (colOf k, pairOf k)
  | .trctl l | .traceEntry l _ _ => some (l / 8, l % 8)
  | .replica col y _ => some (col, (y - 1) / 2)
  | .storage col pair _ => some (col, pair)
  | .base .. | .absent => none

/-- Power of the pair that holds an item: 0 awake, 1 retention, 2 gated (R244). -/
def State.itemPower (s : State) (it : DebugItem) : Nat :=
  match it.pair with
  | some (c, p) => (s.column c).pairPower p
  | none => 0

/-- DEBUG_READ (R401): Reads one 8-byte debug item with a status code. A gated pair answers with the pattern of R265, and
storage of a pair in retention is raised for the access. -/
def execDebugRead (addr : BitVec 64) (s : State) : Host.Outcome State Fault Refusal :=
  let it := debugItem addr.toNat
  let good := if s.itemPower it = 1 then dbgWoken else dbgOk
  if s.itemPower it = 2 then .next (s.word dbgOff 0xDEADDEADDEADDEAD)
  else match it with
    | .area k off =>
      if !(s.core k).debug then .next (s.word dbgBusy 0)
      else
        let m := s.debugImage k
        .next (if entryPresent m off then s.reply good (m.bytes off 8) else s.word dbgNoent 0)
    | .comparator k n => .next (s.word good ((s.core k).comparator n).toNat)
    | .trctl l => .next (s.word good (s.layer l).trctl.toNat)
    | .traceEntry l i h =>
      if trEnable (s.layer l).trctl then .next (s.word dbgBusy 0)
      else .next (s.word good (bitsOf (look 0 (s.layer l).trace i).toNat (64 * h) 64))
    | .replica col y off =>
      .next (s.reply (if (s.column col).isStale y then dbgStale else good) ((s.column col).seg.bytes off 8))
    | .storage col pair off =>
      .next (s.reply good (s.sramBytes col pair off))
    | .base col off => .next (s.reply dbgOk ((s.column col).seg.bytes off 8))
    | .absent => .next (s.word dbgNoent 0)

/-- A write to an item of the area of a debug-stopped core. -/
def State.pokeArea (s : State) (k off : Nat) (bs : List Byte) : State :=
  match s.stoppedArea k with
  | some (h, a) => s.deviceWrite h (areaSize * a + off) bs
  | none =>
    let s := s.parkLease k
    let c := (s.ownCore k).poked s (colOf k) ((s.debugImage k).setBytes off bs)
    if (find s.asides k).isSome then { s with asides := set s.asides k c } else s.setCore k c

/-- DEBUG_WRITE (R401): Writes one 8-byte debug item or breakpoint. -/
def execDebugWrite (addr v : BitVec 64) (s : State) : Host.Outcome State Fault Refusal :=
  match debugItem addr.toNat with
  | .area k off =>
    if !(s.core k).debug then .next (s.word dbgBusy 0)
    else if entryPresent (s.debugImage k) off then .next ((s.pokeArea k off (leBytes 8 v.toNat)).word dbgOk 0)
    else .next (s.word dbgNoent 0)
  | .comparator k n =>
    .next ((s.modCore k fun c => { c with ctr := { c.ctr with late := c.ctr.late ++ [(s.time.toNat + 2, n, v &&& comparatorMask n)] } }).word
      dbgOk 0)
  | .trctl l => .next ((s.modLayer l fun y => y.writeTrctl v).word dbgOk 0)
  | .traceEntry .. | .replica .. | .storage .. | .base .. | .absent => .next (s.word dbgNoent 0)

end Sys2Proof.Machine
end

