-- ==== Sys2Proof/Machine/Signature.lean ====
section
/-! DEFINITION. Boot verification's arithmetic: SHA-384 (FIPS 180-4) and ECDSA over brainpoolP384r1 (RFC 5639), the standards
that R424 names. PRESUMED, unsafe: log entry 91. -/
namespace Sys2Proof.Machine

/-! ### SHA-384 -/

/-- Bytes as one number, the first the most significant. -/
def beNat (b : List Byte) : Nat := b.foldl (fun n x => 256 * n + x.toNat) 0

/-- The low `n` bytes of a number, the most significant first. -/
def beBytes (n v : Nat) : List Byte := (leBytes n v).reverse

/-- Round constants: the first 64 bits of the fractional parts of the cube roots of the first 80 primes. -/
def shaK0 : List W64 := [
  0x428A2F98D728AE22, 0x7137449123EF65CD, 0xB5C0FBCFEC4D3B2F, 0xE9B5DBA58189DBBC,
  0x3956C25BF348B538, 0x59F111F1B605D019, 0x923F82A4AF194F9B, 0xAB1C5ED5DA6D8118,
  0xD807AA98A3030242, 0x12835B0145706FBE, 0x243185BE4EE4B28C, 0x550C7DC3D5FFB4E2,
  0x72BE5D74F27B896F, 0x80DEB1FE3B1696B1, 0x9BDC06A725C71235, 0xC19BF174CF692694,
  0xE49B69C19EF14AD2, 0xEFBE4786384F25E3, 0x0FC19DC68B8CD5B5, 0x240CA1CC77AC9C65]
/-- Round constants 20 to 39. -/
def shaK1 : List W64 := [
  0x2DE92C6F592B0275, 0x4A7484AA6EA6E483, 0x5CB0A9DCBD41FBD4, 0x76F988DA831153B5,
  0x983E5152EE66DFAB, 0xA831C66D2DB43210, 0xB00327C898FB213F, 0xBF597FC7BEEF0EE4,
  0xC6E00BF33DA88FC2, 0xD5A79147930AA725, 0x06CA6351E003826F, 0x142929670A0E6E70,
  0x27B70A8546D22FFC, 0x2E1B21385C26C926, 0x4D2C6DFC5AC42AED, 0x53380D139D95B3DF,
  0x650A73548BAF63DE, 0x766A0ABB3C77B2A8, 0x81C2C92E47EDAEE6, 0x92722C851482353B]
/-- Round constants 40 to 59. -/
def shaK2 : List W64 := [
  0xA2BFE8A14CF10364, 0xA81A664BBC423001, 0xC24B8B70D0F89791, 0xC76C51A30654BE30,
  0xD192E819D6EF5218, 0xD69906245565A910, 0xF40E35855771202A, 0x106AA07032BBD1B8,
  0x19A4C116B8D2D0C8, 0x1E376C085141AB53, 0x2748774CDF8EEB99, 0x34B0BCB5E19B48A8,
  0x391C0CB3C5C95A63, 0x4ED8AA4AE3418ACB, 0x5B9CCA4F7763E373, 0x682E6FF3D6B2B8A3,
  0x748F82EE5DEFB2FC, 0x78A5636F43172F60, 0x84C87814A1F0AB72, 0x8CC702081A6439EC]
/-- Round constants 60 to 79. -/
def shaK3 : List W64 := [
  0x90BEFFFA23631E28, 0xA4506CEBDE82BDE9, 0xBEF9A3F7B2C67915, 0xC67178F2E372532B,
  0xCA273ECEEA26619C, 0xD186B8C721C0C207, 0xEADA7DD6CDE0EB1E, 0xF57D4F7FEE6ED178,
  0x06F067AA72176FBA, 0x0A637DC5A2C898A6, 0x113F9804BEF90DAE, 0x1B710B35131C471B,
  0x28DB77F523047D84, 0x32CAAB7B40C72493, 0x3C9EBE0A15C9BEBC, 0x431D67C49C100D4C,
  0x4CC5D4BECB3E42B6, 0x597F299CFC657E2A, 0x5FCB6FAB3AD6FAEC, 0x6C44198C4A475817]

/-- The initial hash value of SHA-384. -/
def shaStart : List W64 := [
  0xCBBB9D5DC1059ED8, 0x629A292A367CD507, 0x9159015A3070DD17, 0x152FECD8F70E5939,
  0x67332667FFC00B31, 0x8EB44A8768581511, 0xDB0C2E0D64F98FA7, 0x47B5481DBEFA4FA4]

/-- The message schedule's next word, from the 16 before it. -/
def shaNext (w : List W64) : W64 :=
  let a := w.getD 1 0
  let b := w.getD 14 0
  (b.rotateRight 19 ^^^ b.rotateRight 61 ^^^ (b >>> 6)) + w.getD 9 0 +
    (a.rotateRight 1 ^^^ a.rotateRight 8 ^^^ (a >>> 7)) + w.getD 0 0

/-- One round on the eight working words. -/
def shaRound (v : List W64) (k w : W64) : List W64 :=
  let at_ := fun i => v.getD i 0
  let e := at_ 4
  let a := at_ 0
  let t1 := at_ 7 + (e.rotateRight 14 ^^^ e.rotateRight 18 ^^^ e.rotateRight 41) + ((e &&& at_ 5) ^^^ (~~~e &&& at_ 6)) + k + w
  let t2 := (a.rotateRight 28 ^^^ a.rotateRight 34 ^^^ a.rotateRight 39) +
    ((a &&& at_ 1) ^^^ (a &&& at_ 2) ^^^ (at_ 1 &&& at_ 2))
  [t1 + t2, a, at_ 1, at_ 2, at_ 3 + t1, e, at_ 5, at_ 6]

/-- One 128-byte block. -/
def shaBlock (h : List W64) (b : List Byte) : List W64 :=
  let w := (List.range 16).map fun i => BitVec.ofNat 64 (beNat ((b.drop (8 * i)).take 8))
  let (v, _) := (shaK0 ++ shaK1 ++ shaK2 ++ shaK3).foldl
    (fun s k => (shaRound s.1 k (s.2.getD 0 0), s.2.drop 1 ++ [shaNext s.2])) (h, w)
  (h.zip v).map fun p => p.1 + p.2

/-- A message padded to whole blocks: a one bit, zeros, and the length in bits. -/
def shaPad (m : List Byte) : List Byte :=
  m ++ 0x80 :: List.replicate ((239 - m.length % 128) % 128) 0 ++ beBytes 16 (8 * m.length)

/-- SHA-384 of a message, its first byte the most significant. -/
def sha384 (m : List Byte) : BitVec 384 :=
  let b := shaPad m
  let h := (List.range (b.length / 128)).foldl (fun h i => shaBlock h ((b.drop (128 * i)).take 128)) shaStart
  BitVec.ofNat 384 ((h.take 6).foldl (fun n x => 2 ^ 64 * n + x.toNat) 0)

/-! ### brainpoolP384r1: y^2 = x^3 + a x + b modulo p, base point of prime order q -/

def curveP : Nat :=
  0x8CB91E82A3386D280F5D6F7E50E641DF152F7109ED5456B412B1DA197FB71123ACD3A729901D1A71874700133107EC53
def curveA : Nat :=
  0x7BC382C63D8C150C3C72080ACE05AFA0C2BEA28E4FB22787139165EFBA91F90F8AA5814A503AD4EB04A8C7DD22CE2826
def curveB : Nat :=
  0x04A8C7DD22CE28268B39B55416F0447C2FB77DE107DCD2A62E880EA53EEB62D57CB4390295DBC9943AB78696FA504C11
def curveQ : Nat :=
  0x8CB91E82A3386D280F5D6F7E50E641DF152F7109ED5456B31F166E6CAC0425A7CF3AB6AF6B7FC3103B883202E9046565
def curveG : Nat × Nat :=
  (0x1D1C64F068CF45FFA2A63A81B7C13F6B8847A3E77EF14FE3DB7FCAFE0CBD10E8E826E03436D646AAEF87B2E247D4AF1E,
   0x8ABE1D7520F9C2A45CB1EB8E95CFD55262B70B29FEEC5864E19C054FF99129280E4646217791811142820341263C5315)

/-- b^e modulo m, for an exponent of 384 bits. -/
def powMod (b e m : Nat) : Nat :=
  ((List.range 384).foldl (fun (s : Nat × Nat) i => (if e.testBit i then s.1 * s.2 % m else s.1, s.2 * s.2 % m))
    (1, b % m)).1

/-- Inverse modulo a prime of 384 bits. -/
def invMod (a m : Nat) : Nat := powMod a (m - 2) m

/-- a - b modulo p. -/
def subP (a b : Nat) : Nat := (a + curveP - b % curveP) % curveP

/-- A point of the curve; none is the point at infinity. -/
abbrev Point := Option (Nat × Nat)

/-- The point lies on the curve. -/
def onCurve (x y : Nat) : Bool :=
  x < curveP && y < curveP && y * y % curveP == (x * x % curveP * x + curveA * x + curveB) % curveP

/-- Sum of two points. -/
def addPoint : Point → Point → Point
  | none, q => q
  | p, none => p
  | some (x1, y1), some (x2, y2) =>
    if x1 = x2 ∧ (y1 + y2) % curveP = 0 then none
    else
      let slope := if x1 = x2 then (3 * x1 * x1 + curveA) % curveP * invMod (2 * y1) curveP % curveP
        else subP y2 y1 * invMod (subP x2 x1) curveP % curveP
      let x := subP (slope * slope) (x1 + x2)
      some (x, subP (slope * subP x1 x) y1)

/-- A multiple of a point, by a number of 384 bits. -/
def mulPoint (n : Nat) (p : Point) : Point :=
  ((List.range 384).foldl (fun (s : Point × Point) i =>
    (if n.testBit i then addPoint s.1 s.2 else s.1, addPoint s.2 s.2)) (none, p)).1

/-- An ECDSA signature (r, s), with SHA-384, over a message under an uncompressed public key is valid. -/
def signatureValid (m key r s : List Byte) : Bool :=
  let x := beNat ((key.drop 1).take 48)
  let y := beNat (key.drop 49)
  let r := beNat r
  let s := beNat s
  if key.length ≠ 97 ∨ key.head? ≠ some 4 ∨ !onCurve x y ∨ r = 0 ∨ curveQ ≤ r ∨ s = 0 ∨ curveQ ≤ s then false
  else
    let w := invMod s curveQ
    let u := (sha384 m).toNat * w % curveQ
    let v := r * w % curveQ
    match addPoint (mulPoint u (some curveG)) (mulPoint v (some (x, y))) with
    | some (x, _) => x % curveQ == r
    | none => false

end Sys2Proof.Machine
end

