-- ==== Sys2Proof/Machine/Management.lean ====
section
/-! DEFINITION. The management plane: start-up, boot verification, attestation, power grants and thermal limits (R422 to
R430). -/
namespace Sys2Proof.Machine

/-! ### Start-up (R422 to R425) -/

/-- SVN fuses that are set. -/
def Mgmt.fuses (m : Mgmt) : W64 := Config.svnAtManufacture ||| m.svn

/-- Number of set bits. -/
def popcount (v : Nat) : Nat := ((List.range 64).filter fun i => v.testBit i).length

def Mgmt.image (m : Mgmt) : List Byte := m.flash.getD Config.bootImage

/-- Bytes [lo, lo + n) of a list. -/
def part (b : List Byte) (lo n : Nat) : List Byte := (b.drop lo).take n

/-- The body of a firmware image (R424). -/
def imageBody (b : List Byte) : List Byte := part b 256 (leNat (part b 8 4))

/-- The reason code for which the ROM refuses the image in boot flash, or none (R424, R425). -/
def Mgmt.refusal (m : Mgmt) : Option Nat :=
  let b := m.image
  if b.length < 256 ∨ leNat (part b 0 4) ≠ 0x46524A4F ∨ leNat (part b 253 3) ≠ 0 then some 0x01
  else if sha384 (part b 60 97) ≠ Config.keyHash then some 0x02
  else if leNat (part b 4 4) < popcount m.fuses.toNat then some 0x03
  else if (sha384 (imageBody b)).toNat ≠ beNat (part b 12 48) ∨
      !signatureValid (part b 0 60) (part b 60 97) (part b 157 48) (part b 205 48) then some 0x04
  else none

/-- ac from time `t` to the end of its management cycle of 5 ns, which is 4.25 ac (R9). -/
def cycleLeft (t : Nat) : Nat := (17 * (4 * t / 17 + 1) + 3) / 4 - t

/-- A start that fails at time `t` (R422, R425). -/
def Mgmt.failed (m : Mgmt) (t reason : Nat) : Mgmt :=
  { m with bootfail := if m.bootfail = 3 then 3 else m.bootfail + 1, bootreason := BitVec.ofNat 8 reason
           failedNow := cycleLeft t }

/-- What every reset keeps. -/
def Mgmt.kept (m : Mgmt) (boot : BootMode) (verified : Bool) : Mgmt :=
  { boot := boot, bootfail := m.bootfail, bootreason := m.bootreason, failedNow := m.failedNow, svn := m.svn, flash := m.flash
    loaded := m.flash, verified := verified }

/-- The package with every register and table at its reset value; the model's own schedule and counter go on. -/
def State.cleared (s : State) (m : Mgmt) : State := { agenda := s.agenda, freeCtr := s.freeCtr, mgmt := m }

/-- Every replica of a column is stale: no start-up resync has run (R245). -/
def staleLayers : List (Nat × Bool) := (List.range 16).map fun i => (i + 1, true)

/-- Columns of a package that has not started. -/
def unstartedColumns : List (Nat × Column) := (List.range 4).map fun c => (c, { stale := staleLayers })

/-- Columns in minimal mode, which powers pair 0 of column 0 alone (R425). -/
def minimalColumns : List (Nat × Column) :=
  (List.range 4).map fun c =>
    (c, { stale := staleLayers, power := ((List.range 8).filter fun p => c != 0 || p != 0).map fun p => (p, 2) })

/-- A start that has failed: every table at its reset value, and no replica fresh (R245, R425). -/
def State.failedStart (s : State) (reason : Nat) : State :=
  { s.cleared ((s.mgmt.failed s.time.toNat reason).kept .off false) with columns := unstartedColumns }

/-- A reset: minimal mode after three failures, else the stages of R423. DESIGN CHOICE, safe: log entry 58. -/
def State.startUp (s : State) : State :=
  let m := s.mgmt
  if m.bootfail = 3 then { s.cleared (m.kept .minimal false) with columns := minimalColumns }
  else
    let (n, s) := s.draw
    if !Config.startUpGood n then s.failedStart 0x06
    else match m.refusal with
      | some r => s.failedStart r
      | none => s.cleared (m.kept (.firmware 0) true)

/-- RESET (R423): Start-up runs boot stages or enters minimal mode after three failures. -/
def execReset (s : State) : Host.Outcome State Fault Refusal := .next s.startUp

/-- ac in 2 s (R9, R423). -/
def bootLimit : Nat := 1700000000

/-- Firmware has run for 2 s without BOOTOK (R423). -/
def State.bootOver (s : State) : Bool :=
  match s.mgmt.boot with
  | .firmware at_ => at_ + bootLimit ≤ s.time.toNat
  | _ => false

/-- BOOTOK (R423): Firmware writes BOOTOK, clearing BOOTFAIL; one in the management cycle of a failed start comes second
(R425). -/
def execBootok (s : State) : Host.Outcome State Fault Refusal :=
  if 0 < s.mgmt.failedNow then .next { s with mgmt := { s.mgmt with bootfail := 0 } }
  else if s.mgmt.running ∧ !s.bootOver then .next { s with mgmt := { s.mgmt with boot := .handed, bootfail := 0 } }
  else .refused (.notEnabled "BOOTOK")

/-- The management watchdog resets the package, and the start counts as failed (R423). -/
def State.watchdogReset (s : State) : State := ({ s with mgmt := s.mgmt.failed s.time.toNat 0x05 } : State).startUp

/-- BOOT_WATCHDOG_EXPIRY (R423): No BOOTOK within 2 s resets the package as a failed start. -/
def execBootWatchdogExpiry (s : State) : Host.Outcome State Fault Refusal :=
  if s.bootOver then .next s.watchdogReset else .refused (.notEnabled "BOOT_WATCHDOG_EXPIRY")

/-- The physical function writes BOOTFAIL := 0 (R422). -/
def execBootfailClear (s : State) : Host.Outcome State Fault Refusal :=
  .next { s with mgmt := { s.mgmt with bootfail := 0 } }

/-- AUXILIARY_POWER_LOSS (R422): Loss of the 12 V auxiliary power clears BOOTFAIL and BOOTREASON, which are otherwise
kept through every reset. -/
def execAuxiliaryPowerLoss (s : State) : Host.Outcome State Fault Refusal :=
  .next { s with mgmt := { s.mgmt with bootfail := 0, bootreason := 0 } }

/-- FIRMWARE_FUSE_BURN (R422): Firmware burns SVN fuses after a verified update, raising the least accepted security
version. -/
def execFirmwareFuseBurn (bits : BitVec 64) (s : State) : Host.Outcome State Fault Refusal :=
  if s.mgmt.running && s.mgmt.verified then
    .next { s with mgmt := { s.mgmt with svn := s.mgmt.svn ||| bits, verified := false } }
  else .refused (.notEnabled "FIRMWARE_FUSE_BURN")

/-! ### Attestation (R426): reply status 0 is the response, 1 is ERROR -/

def spdmNo (name : String) : Host.Outcome State Fault Refusal := .refused (.notEnabled name)

/-- The responder answers: the mailbox is that of a powered package. -/
def State.spdm (s : State) (name : String) (f : State → State) : Host.Outcome State Fault Refusal :=
  if s.mgmt.boot = .off then spdmNo name else .next (f s)

def State.spdmError (s : State) : State := s.reply 1 []

/-- A response whose data the SPDM standard shapes: request `n` of R426's list. PRESUMED, unsafe: log entry 57. -/
def State.spdmAnswer (s : State) (n : Nat) (ask : List Byte) (f : SpdmState → SpdmState) : State :=
  let (c, s) := s.draw
  let s := s.reply 0 (Config.spdm c n ask)
  { s with mgmt := { s.mgmt with spdm := f s.mgmt.spdm } }

/-- GET_VERSION: the one version is 1.3; a new exchange begins. -/
def execGetVersion (s : State) : Host.Outcome State Fault Refusal :=
  s.spdm "GET_VERSION" fun s =>
    let s := s.reply 0 [0x13]
    { s with mgmt := { s.mgmt with spdm := { versioned := true } } }

/-- GET_CAPABILITIES (R426): SPDM request answered with capabilities. -/
def execGetCapabilities (s : State) : Host.Outcome State Fault Refusal :=
  s.spdm "GET_CAPABILITIES" fun s => s.spdmAnswer 1 [] fun p => { p with capable := true }

/-- An algorithm that the responder offers. -/
def SpdmAlg.offered : SpdmAlg → Bool
  | .ecdsaP384 | .sha384 | .secp384r1 | .aes256gcm | .keySchedule => true
  | .other _ => false

/-- NEGOTIATE_ALGORITHMS (R426): SPDM negotiation offering only the listed algorithms, else ERROR. -/
def execNegotiateAlgorithms (offer : List SpdmAlg) (s : State) : Host.Outcome State Fault Refusal :=
  s.spdm "NEGOTIATE_ALGORITHMS" fun s =>
    if offer.any SpdmAlg.offered then
      let s := s.spdmAnswer 2 [] fun p => { p with negotiated := true }
      { s with mgmt := { s.mgmt with reply := { s.mgmt.reply with algs := offer.filter SpdmAlg.offered } } }
    else
      let s := s.spdmError
      { s with mgmt := { s.mgmt with spdm := { s.mgmt.spdm with negotiated := false, keyed := false, session := false } } }

/-- GET_DIGESTS (R426): SPDM request for certificate digests. -/
def execGetDigests (s : State) : Host.Outcome State Fault Refusal :=
  s.spdm "GET_DIGESTS" fun s => s.spdmAnswer 3 [] id

/-- Slot 0 alone holds a chain. -/
def execGetCertificate (slot : Nat) (s : State) : Host.Outcome State Fault Refusal :=
  s.spdm "GET_CERTIFICATE" fun s => if slot = 0 then s.spdmAnswer 4 [] id else s.spdmError

/-- CHALLENGE (R426): SPDM challenge signed with the identity key. -/
def execChallenge (nonce : List Byte) (s : State) : Host.Outcome State Fault Refusal :=
  s.spdm "CHALLENGE" fun s => s.spdmAnswer 5 nonce id

/-- Measurements 1 to 3: the ROM's digest, the firmware body's digest, the SVN fuse count. -/
def execGetMeasurements (index : Nat) (s : State) : Host.Outcome State Fault Refusal :=
  s.spdm "GET_MEASUREMENTS" fun s =>
    match index with
    | 1 => s.reply 0 (beBytes 48 Config.romDigest.toNat)
    | 2 => s.reply 0 (beBytes 48 (sha384 (imageBody (s.mgmt.loaded.getD Config.bootImage))).toNat)
    | 3 => s.reply 0 (leBytes 8 (popcount s.mgmt.fuses.toNat))
    | _ => s.spdmError

/-- KEY_EXCHANGE: a session needs negotiated algorithms. -/
def execKeyExchange (share : List Byte) (s : State) : Host.Outcome State Fault Refusal :=
  s.spdm "KEY_EXCHANGE" fun s =>
    if s.mgmt.spdm.negotiated then s.spdmAnswer 7 share fun p => { p with keyed := true } else s.spdmError

/-- FINISH (R426): SPDM FINISH establishing the session. -/
def execFinish (verify : List Byte) (s : State) : Host.Outcome State Fault Refusal :=
  s.spdm "FINISH" fun s =>
    if s.mgmt.spdm.keyed && Config.finishValid verify then s.spdmAnswer 8 verify fun p => { p with session := true }
    else s.spdmError

/-! ### Power (R427, R429, R430) -/

/-- Rails: compute, SRAM, base logic, optics, HBM, far DRAM. -/
def startUpGrant (rail : Nat) : Nat := [150, 30, 50, 20, 40, 10].getD rail 0

/-- The current, in 0.1 A and 16 bits, that a power in mW is at the nominal voltage of a rail (R422, R427). -/
def railCurrent (rail power : Nat) : Nat := 10 * power / Config.millivolts rail % 2 ^ 16

/-- The grant of a class of a column on a rail, in 0.1 A. -/
def State.grantOf (s : State) (col cls rail : Nat) : Nat :=
  look (if cls = 0 then railCurrent rail (1000 * startUpGrant rail) else 0) (s.column col).grant (6 * cls + rail)

/-- Firmware writes LIMIT. The manual states no effect of a value outside 1,200 to 6,000: LIMIT is then a free value.
DESIGN CHOICE, safe: log entry 35. -/
def execLimitWrite (watts : BitVec 16) (s : State) : Host.Outcome State Fault Refusal :=
  if !s.mgmt.running then .refused (.notEnabled "LIMIT_WRITE")
  else if 1200 ≤ watts.toNat ∧ watts.toNat ≤ 6000 then .next { s with mgmt := { s.mgmt with limit := watts } }
  else
    let (b, s) := s.drawBytes 2
    .next { s with mgmt := { s.mgmt with limit := BitVec.ofNat 16 (leNat b) } }

/-- Power by 30 column + 6 class + rail, in mW. -/
abbrev Power := List (Nat × Nat)

def addPower (m : Power) (k v : Nat) : Power := set m k (look 0 m k + v)

/-- Gives to each entry of a list what it asks while some is left: what was given, and what is left. -/
def fillPower (left : Nat) : Power → Power × Nat
  | [] => ([], left)
  | (k, v) :: r =>
    let g := min v left
    let (m, l) := fillPower (left - g) r
    ((k, g) :: m, l)

/-- Step 2 of R427: each region draws on its share of the remainder. Demands stand by region. -/
def shareStep (share : Nat → Nat) (rest : Nat) (demand : Nat → Power) : List Nat → Nat → Power × Power × Nat
  | [], left => ([], [], left)
  | r :: rs, left =>
    let part := min left (share r * rest / 256)
    let (got, spare) := fillPower part (demand r)
    let unmet := ((demand r).zip got).map fun e => (e.1.1, e.1.2 - e.2.2)
    let (g, u, l) := shareStep share rest demand rs (left - (part - spare))
    (got ++ g, unmet ++ u, l)

/-- Step 3: the remainder in proportion to unmet demand. -/
def restStep (left : Nat) (unmet : Power) : Power :=
  let all := unmet.foldl (fun n e => n + e.2) 0
  if all = 0 then [] else unmet.map fun e => (e.1, min e.2 (left * e.2 / all))

/-- Power granted for the next window under a limit in W, in mW by 30 column + 6 class + rail. `accepted` gives the power
that accepted work asks for in those places; `demand` that of running jobs by 120 region + place. DEDUCED, unsafe: log
entry 56. -/
def State.powerGrant (s : State) (limit : Nat) (accepted demand : Power) : Power :=
  let (first, rest) := fillPower (1000 * limit) accepted
  let of := fun r => (demand.filter fun e => e.1 / 120 == r).map fun e => (e.1 % 120, e.2)
  let (second, unmet, left) := shareStep s.powerShare rest of (demand.map (·.1 / 120)).eraseDups rest
  (first ++ second ++ restStep left unmet).foldl (fun m e => addPower m e.1 e.2) []

/-- Work whose current step 1 of R427 grants, by 30 column + 6 class: accepted transfers, those that the range checker holds
and the chunk moves of the cullet stack among them, issued matrix commands, stack-bus slots on their way, resyncs. -/
def State.acceptedWork (s : State) : List Nat :=
  (s.cores.flatMap fun p =>
    p.2.cmds.map (fun m => 30 * colOf p.1 + 6 * (m.cls + 1)) ++
      (if p.2.culMove ≠ 0 then [30 * colOf p.1 + 6] else []) ++
      (if p.2.theJob.held then [30 * colOf p.1] else [])) ++
    s.columns.flatMap fun c => c.2.flying.map (fun _ => 30 * c.1) ++ (if c.2.resync.isSome then [30 * c.1] else [])

/-- Running jobs, by 120 region + 30 column. -/
def State.jobWork (s : State) : List Nat :=
  (s.cores.filter fun p => p.2.job.isSome).map fun p => 120 * p.2.theJob.region + 30 * colOf p.1

/-- What pieces of work ask for on each rail: the powers that are known of them, in mW, six to a piece, and else free values,
from counter `c` on. -/
def workPowers (known : List Nat) (c : Nat) (work : List Nat) : Power :=
  (work.zip (List.range work.length)).foldl (fun m w =>
    (List.range 6).foldl (fun m r =>
      addPower m (w.1 + r) (known.getD (6 * w.2 + r) (Config.workPower (c + 6 * w.2 + r)))) m) []

/-- Power of a column on a rail, over its classes. -/
def columnPower (m : Power) (col rail : Nat) : Nat :=
  (List.range 5).foldl (fun n u => n + look 0 m (30 * col + 6 * u + rail)) 0

/-- Powers granted, by 30 column + 6 class + rail, where the compute grant of each hot column is half (R429). -/
def State.cooled (s : State) (grants : Power) : Power :=
  (List.range 4).foldl (fun m col =>
    if (s.column col).thermal then set m (30 * col) (look 0 m (30 * col) / 2) else m) grants

/-- A grant as current. -/
def Column.takeGrant (c : Column) (power : Nat → Nat → Option Nat) : Column :=
  { c with
    thermal := false
    grant := (List.range 5).flatMap fun u => (List.range 6).filterMap fun r =>
      (power u r).map fun p => (6 * u + r, railCurrent r p) }

/-- ac in a grant window of 1 us (R9, R427). -/
def grantWindow : Nat := 850

/-- A window begins for which no grants have been formed (R27). -/
def State.grantDue (s : State) : Bool := s.time.toNat % grantWindow == 0 && s.mgmt.granted != some s.time.toNat

/-- The arbiter forms the grants of a window: under LIMIT in the order of R427, and the start-up grant until LIMIT is
written. A hot column has half its compute grant (R429). A column whose demand is above its grant on a rail throttles in
the window (R340). What is known of the powers of accepted work and of running jobs comes as arguments (log entry 94). -/
def State.grantPower (s : State) (accepted demand : List Nat) : State :=
  let limit := s.mgmt.limit.toNat
  let work := s.acceptedWork
  let jobs := s.jobWork
  let asked := workPowers accepted s.freeCtr work
  let demand := workPowers demand (s.freeCtr + 6 * work.length) jobs
  let grants := s.cooled (if limit = 0 then (List.range 24).map fun i => (30 * (i / 6) + i % 6, 1000 * startUpGrant (i % 6))
    else s.powerGrant limit asked demand)
  let wants := demand.foldl (fun m e => addPower m (e.1 % 120) e.2) asked
  let s : State := { s with
    freeCtr := s.freeCtr + 6 * (work.length + jobs.length), mgmt := { s.mgmt with granted := some s.time.toNat } }
  (List.range 4).foldl (fun s col => s.modColumn col fun c =>
    { c.takeGrant (fun u r => if limit = 0 ∧ u ≠ 0 then none else some (look 0 grants (30 * col + 6 * u + r))) with
      limited := (List.range 6).any fun r => columnPower grants col r < columnPower wants col r }) s

/-- POWER_GRANT_WINDOW (R427): The arbiter forms grants for the next 1 us window. They take effect at the window's boundary,
once for each (R27). -/
def execPowerGrantWindow (accepted demand : List Nat) (s : State) : Host.Outcome State Fault Refusal :=
  if s.grantDue then .next (s.grantPower accepted demand) else .refused (.notEnabled "POWER_GRANT_WINDOW")

/-- What the management plane does as an ac begins: a start that has run out of time has failed (R423). -/
def State.mgmtTick (s : State) : State := if s.bootOver then s.watchdogReset else s

def sensorOk (col pair sensor : Nat) : Bool := col < 4 && pair < 8 && sensor < 4

/-- THERMAL_HIGH (R429): A sensor at 105 C halves the column's compute grant. -/
def execThermalHigh (col pair sensor : Nat) (s : State) : Host.Outcome State Fault Refusal :=
  if sensorOk col pair sensor then .next (s.modColumn col fun c => { c with thermal := true })
  else .refused (.notEnabled "THERMAL_HIGH")

/-- THERMAL_CRITICAL (R429): A sensor at 115 C debug-stops the column and reports to the host; at 105 C or more, it halves
the column's compute grant too. -/
def execThermalCritical (col pair sensor : Nat) (s : State) : Host.Outcome State Fault Refusal :=
  if sensorOk col pair sensor then .next (((s.debugStopAll (coresOfColumn col)).log (.thermal col pair sensor)).modColumn col fun c => { c with thermal := true })
  else .refused (.notEnabled "THERMAL_CRITICAL")

/-- RAIL_OUT_OF_TOLERANCE (R430): A rail out of tolerance stops every core. -/
def execRailOutOfTolerance (rail : Nat) (s : State) : Host.Outcome State Fault Refusal :=
  if rail < 6 then .next ((s.debugStopAll allCores).log (.rail rail)) else .refused (.notEnabled "RAIL_OUT_OF_TOLERANCE")

end Sys2Proof.Machine
end

