-- ==== Sys2Proof/Machine/Dispatch.lean ====
section
/-! DEFINITION. What each instruction and each event does: one arm per row of the table of operations. -/
namespace Sys2Proof.Machine

/-- The dispatch of one step (R78, R81, and the table of operations). -/
def exec (i : Instr) (s : State) : Host.Outcome State Fault Refusal :=
  match i with
  | .add rd ra rb => Sys2Proof.Machine.execAdd rd ra rb s
  | .sub rd ra rb => Sys2Proof.Machine.execSub rd ra rb s
  | .and rd ra rb => Sys2Proof.Machine.execAnd rd ra rb s
  | .or rd ra rb => Sys2Proof.Machine.execOr rd ra rb s
  | .xor rd ra rb => Sys2Proof.Machine.execXor rd ra rb s
  | .sll rd ra rb => Sys2Proof.Machine.execSll rd ra rb s
  | .srl rd ra rb => Sys2Proof.Machine.execSrl rd ra rb s
  | .sra rd ra rb => Sys2Proof.Machine.execSra rd ra rb s
  | .min rd ra rb => Sys2Proof.Machine.execMin rd ra rb s
  | .max rd ra rb => Sys2Proof.Machine.execMax rd ra rb s
  | .minu rd ra rb => Sys2Proof.Machine.execMinu rd ra rb s
  | .maxu rd ra rb => Sys2Proof.Machine.execMaxu rd ra rb s
  | .slt rd ra rb => Sys2Proof.Machine.execSlt rd ra rb s
  | .sltu rd ra rb => Sys2Proof.Machine.execSltu rd ra rb s
  | .seq rd ra rb => Sys2Proof.Machine.execSeq rd ra rb s
  | .mov rd ra => Sys2Proof.Machine.execMov rd ra s
  | .clz rd ra => Sys2Proof.Machine.execClz rd ra s
  | .ctz rd ra => Sys2Proof.Machine.execCtz rd ra s
  | .popc rd ra => Sys2Proof.Machine.execPopc rd ra s
  | .mul rd ra rb => Sys2Proof.Machine.execMul rd ra rb s
  | .mulh rd ra rb => Sys2Proof.Machine.execMulh rd ra rb s
  | .mulhu rd ra rb => Sys2Proof.Machine.execMulhu rd ra rb s
  | .div rd ra rb => Sys2Proof.Machine.execDiv rd ra rb s
  | .divu rd ra rb => Sys2Proof.Machine.execDivu rd ra rb s
  | .rem rd ra rb => Sys2Proof.Machine.execRem rd ra rb s
  | .remu rd ra rb => Sys2Proof.Machine.execRemu rd ra rb s
  | .mad rd ra rb rc => Sys2Proof.Machine.execMad rd ra rb rc s
  | .sel rd ra rb rc => Sys2Proof.Machine.execSel rd ra rb rc s
  | .clamp rd ra rb rc => Sys2Proof.Machine.execClamp rd ra rb rc s
  | .addi rd ra imm => Sys2Proof.Machine.execAddi rd ra imm s
  | .andi rd ra imm => Sys2Proof.Machine.execAndi rd ra imm s
  | .ori rd ra imm => Sys2Proof.Machine.execOri rd ra imm s
  | .xori rd ra imm => Sys2Proof.Machine.execXori rd ra imm s
  | .slti rd ra imm => Sys2Proof.Machine.execSlti rd ra imm s
  | .slli rd ra pos => Sys2Proof.Machine.execSlli rd ra pos s
  | .srli rd ra pos => Sys2Proof.Machine.execSrli rd ra pos s
  | .srai rd ra pos => Sys2Proof.Machine.execSrai rd ra pos s
  | .bfx rd ra pos wm1 => Sys2Proof.Machine.execBfx rd ra pos wm1 s
  | .bfi rd ra pos wm1 => Sys2Proof.Machine.execBfi rd ra pos wm1 s
  | .li rd imm => Sys2Proof.Machine.execLi rd imm s
  | .lui rd h imm => Sys2Proof.Machine.execLui rd h imm s
  | .fadd rd ra rb rm => Sys2Proof.Machine.execFadd rd ra rb rm s
  | .fsub rd ra rb rm => Sys2Proof.Machine.execFsub rd ra rb rm s
  | .fmul rd ra rb rm => Sys2Proof.Machine.execFmul rd ra rb rm s
  | .ffma rd ra rb rc rm => Sys2Proof.Machine.execFfma rd ra rb rc rm s
  | .fmin rd ra rb => Sys2Proof.Machine.execFmin rd ra rb s
  | .fmax rd ra rb => Sys2Proof.Machine.execFmax rd ra rb s
  | .frcp rd ra rm => Sys2Proof.Machine.execFrcp rd ra rm s
  | .fcmp rd ra rb cond => Sys2Proof.Machine.execFcmp rd ra rb cond s
  | .fcvt rd ra dst src rm sat => Sys2Proof.Machine.execFcvt rd ra dst src rm sat s
  | .br cond ra rb off slot => Sys2Proof.Machine.execBr cond ra rb off slot s
  | .jmp off slot => Sys2Proof.Machine.execJmp off slot s
  | .call off slot => Sys2Proof.Machine.execCall off slot s
  | .jmpr ra => Sys2Proof.Machine.execJmpr ra s
  | .ret => Sys2Proof.Machine.execRet s
  | .loop lc ra off slot => Sys2Proof.Machine.execLoop lc ra off slot s
  | .brq p off slot => Sys2Proof.Machine.execBrq p off slot s
  | .rdv => Sys2Proof.Machine.execRdv s
  | .nop => Sys2Proof.Machine.execNop s
  | .wfe => Sys2Proof.Machine.execWfe s
  | .sev => Sys2Proof.Machine.execSev s
  | .trap code => Sys2Proof.Machine.execTrap code s
  | .eret => Sys2Proof.Machine.execEret s
  | .ld rd ra size order imm => Sys2Proof.Machine.execLd rd ra size order imm s
  | .st rs ra size order imm => Sys2Proof.Machine.execSt rs ra size order imm s
  | .amoAdd rd ra rb w => Sys2Proof.Machine.execAmoAdd rd ra rb w s
  | .amoMin rd ra rb w => Sys2Proof.Machine.execAmoMin rd ra rb w s
  | .amoMax rd ra rb w => Sys2Proof.Machine.execAmoMax rd ra rb w s
  | .amoAnd rd ra rb w => Sys2Proof.Machine.execAmoAnd rd ra rb w s
  | .amoOr rd ra rb w => Sys2Proof.Machine.execAmoOr rd ra rb w s
  | .amoXor rd ra rb w => Sys2Proof.Machine.execAmoXor rd ra rb w s
  | .amoSwap rd ra rb w => Sys2Proof.Machine.execAmoSwap rd ra rb w s
  | .cas rd ra rb rc w => Sys2Proof.Machine.execCas rd ra rb rc w s
  | .fence scope => Sys2Proof.Machine.execFence scope s
  | .spal rd ra => Sys2Proof.Machine.execSpal rd ra s
  | .spfree ra => Sys2Proof.Machine.execSpfree ra s
  | .lds rd ra size imm => Sys2Proof.Machine.execLds rd ra size imm s
  | .sts rs ra size imm => Sys2Proof.Machine.execSts rs ra size imm s
  | .amosAdd rd ra rb w => Sys2Proof.Machine.execAmosAdd rd ra rb w s
  | .amosMin rd ra rb w => Sys2Proof.Machine.execAmosMin rd ra rb w s
  | .amosMax rd ra rb w => Sys2Proof.Machine.execAmosMax rd ra rb w s
  | .amosAnd rd ra rb w => Sys2Proof.Machine.execAmosAnd rd ra rb w s
  | .amosOr rd ra rb w => Sys2Proof.Machine.execAmosOr rd ra rb w s
  | .amosXor rd ra rb w => Sys2Proof.Machine.execAmosXor rd ra rb w s
  | .amosSwap rd ra rb w => Sys2Proof.Machine.execAmosSwap rd ra rb w s
  | .cass rd ra rb rc w => Sys2Proof.Machine.execCass rd ra rb rc w s
  | .sbcast rd ra rb rc => Sys2Proof.Machine.execSbcast rd ra rb rc s
  | .swatch ra rb => Sys2Proof.Machine.execSwatch ra rb s
  | .slotq rd ra => Sys2Proof.Machine.execSlotq rd ra s
  | .vadd vd va vb mk => Sys2Proof.Machine.execVadd vd va vb mk s
  | .vsub vd va vb mk => Sys2Proof.Machine.execVsub vd va vb mk s
  | .vmul vd va vb mk => Sys2Proof.Machine.execVmul vd va vb mk s
  | .vmin vd va vb mk => Sys2Proof.Machine.execVmin vd va vb mk s
  | .vmax vd va vb mk => Sys2Proof.Machine.execVmax vd va vb mk s
  | .vabs vd va mk => Sys2Proof.Machine.execVabs vd va mk s
  | .vneg vd va mk => Sys2Proof.Machine.execVneg vd va mk s
  | .vfma vd va vb vc ty => Sys2Proof.Machine.execVfma vd va vb vc ty s
  | .vaddPacked vd va vb mk ty => Sys2Proof.Machine.execVaddPacked vd va vb mk ty s
  | .vsubPacked vd va vb mk ty => Sys2Proof.Machine.execVsubPacked vd va vb mk ty s
  | .vmulPacked vd va vb mk ty => Sys2Proof.Machine.execVmulPacked vd va vb mk ty s
  | .vminPacked vd va vb mk ty => Sys2Proof.Machine.execVminPacked vd va vb mk ty s
  | .vmaxPacked vd va vb mk ty => Sys2Proof.Machine.execVmaxPacked vd va vb mk ty s
  | .vabsPacked vd va mk ty => Sys2Proof.Machine.execVabsPacked vd va mk ty s
  | .vnegPacked vd va mk ty => Sys2Proof.Machine.execVnegPacked vd va mk ty s
  | .vexp2 vd va mk => Sys2Proof.Machine.execVexp2 vd va mk s
  | .vlog2 vd va mk => Sys2Proof.Machine.execVlog2 vd va mk s
  | .vrcp vd va mk => Sys2Proof.Machine.execVrcp vd va mk s
  | .vrsq vd va mk => Sys2Proof.Machine.execVrsq vd va mk s
  | .vtanh vd va mk => Sys2Proof.Machine.execVtanh vd va mk s
  | .vsigm vd va mk => Sys2Proof.Machine.execVsigm vd va mk s
  | .vcmp md va vb mk cond ty => Sys2Proof.Machine.execVcmp md va vb mk cond ty s
  | .vsel vd va vb sel => Sys2Proof.Machine.execVsel vd va vb sel s
  | .vand vd va vb mk => Sys2Proof.Machine.execVand vd va vb mk s
  | .vor vd va vb mk => Sys2Proof.Machine.execVor vd va vb mk s
  | .vxor vd va vb mk => Sys2Proof.Machine.execVxor vd va vb mk s
  | .vshl vd va vb mk => Sys2Proof.Machine.execVshl vd va vb mk s
  | .vshr vd va vb mk => Sys2Proof.Machine.execVshr vd va vb mk s
  | .vsra vd va vb mk => Sys2Proof.Machine.execVsra vd va vb mk s
  | .viadd vd va vb mk => Sys2Proof.Machine.execViadd vd va vb mk s
  | .visub vd va vb mk => Sys2Proof.Machine.execVisub vd va vb mk s
  | .vimul vd va vb mk => Sys2Proof.Machine.execVimul vd va vb mk s
  | .vcvt vd va fmt dir rm sat part => Sys2Proof.Machine.execVcvt vd va fmt dir rm sat part s
  | .vquant vd va vs fmt => Sys2Proof.Machine.execVquant vd va vs fmt s
  | .vdeq vd va vs fmt => Sys2Proof.Machine.execVdeq vd va vs fmt s
  | .vhad vd va mn norm sign => Sys2Proof.Machine.execVhad vd va mn norm sign s
  | .vperm vd va vb mk => Sys2Proof.Machine.execVperm vd va vb mk s
  | .vrot vd va imm mk => Sys2Proof.Machine.execVrot vd va imm mk s
  | .vbcast vd ra mk => Sys2Proof.Machine.execVbcast vd ra mk s
  | .vreds vd va mk ty => Sys2Proof.Machine.execVreds vd va mk ty s
  | .vredx vd va mk ty => Sys2Proof.Machine.execVredx vd va mk ty s
  | .vscan vd va mk ty => Sys2Proof.Machine.execVscan vd va mk ty s
  | .vld vd ra imm => Sys2Proof.Machine.execVld vd ra imm s
  | .vst vd ra imm => Sys2Proof.Machine.execVst vd ra imm s
  | .vgth vd ra vi imm => Sys2Proof.Machine.execVgth vd ra vi imm s
  | .vsct vd ra vi imm => Sys2Proof.Machine.execVsct vd ra vi imm s
  | .vins vd ra lane => Sys2Proof.Machine.execVins vd ra lane s
  | .vext rd va lane => Sys2Proof.Machine.execVext rd va lane s
  | .vwin acc => Sys2Proof.Machine.execVwin acc s
  | .vpack vd va vb mk => Sys2Proof.Machine.execVpack vd va vb mk s
  | .vunpk vd va mk => Sys2Proof.Machine.execVunpk vd va mk s
  | .mand md ma mb => Sys2Proof.Machine.execMand md ma mb s
  | .mor md ma mb => Sys2Proof.Machine.execMor md ma mb s
  | .mnot md ma => Sys2Proof.Machine.execMnot md ma s
  | .mpop ma rs => Sys2Proof.Machine.execMpop ma rs s
  | .vsortk vd va vb mk => Sys2Proof.Machine.execVsortk vd va vb mk s
  | .vrng vd mk => Sys2Proof.Machine.execVrng vd mk s
  | .tshape tile ra => Sys2Proof.Machine.execTshape tile ra s
  | .tzero tile => Sys2Proof.Machine.execTzero tile s
  | .tpop tile q => Sys2Proof.Machine.execTpop tile q s
  | .tld tile ra imm => Sys2Proof.Machine.execTld tile ra imm s
  | .tst tile ra imm => Sys2Proof.Machine.execTst tile ra imm s
  | .mma acc ta tb => Sys2Proof.Machine.execMma acc ta tb s
  | .mmas acc ta tb => Sys2Proof.Machine.execMmas acc ta tb s
  | .mmat acc ta tb => Sys2Proof.Machine.execMmat acc ta tb s
  | .azero acc => Sys2Proof.Machine.execAzero acc s
  | .ald acc ra imm => Sys2Proof.Machine.execAld acc ra imm s
  | .ast acc ra imm => Sys2Proof.Machine.execAst acc ra imm s
  | .atr ad asrc => Sys2Proof.Machine.execAtr ad asrc s
  | .lease n => Sys2Proof.Machine.execLease n s
  | .unlease => Sys2Proof.Machine.execUnlease s
  | .fmtsel k => Sys2Proof.Machine.execFmtsel k s
  | .qpushDq n ra => Sys2Proof.Machine.execQpushDq n ra s
  | .qpushOq n vs => Sys2Proof.Machine.execQpushOq n vs s
  | .qpopDq n vd => Sys2Proof.Machine.execQpopDq n vd s
  | .qpopOq n ra => Sys2Proof.Machine.execQpopOq n ra s
  | .qstat q rd => Sys2Proof.Machine.execQstat q rd s
  | .bqpush ra => Sys2Proof.Machine.execBqpush ra s
  | .tksend fifo ra => Sys2Proof.Machine.execTksend fifo ra s
  | .tkrecv fifo rd => Sys2Proof.Machine.execTkrecv fifo rd s
  | .sqpush ra n => Sys2Proof.Machine.execSqpush ra n s
  | .mark mask => Sys2Proof.Machine.execMark mask s
  | .joinm => Sys2Proof.Machine.execJoinm s
  | .cpy tok ra rb dir dq red byte nd => Sys2Proof.Machine.execCpy tok ra rb dir dq red byte nd s
  | .cpyq tok ra rb byte => Sys2Proof.Machine.execCpyq tok ra rb byte s
  | .gth tok ra rb dqdir dq => Sys2Proof.Machine.execGth tok ra rb dqdir dq s
  | .coll tok ra rb op rop => Sys2Proof.Machine.execColl tok ra rb op rop s
  | .nmc tok ra rb mom => Sys2Proof.Machine.execNmc tok ra rb mom s
  | .dec tok ra rb codec layout => Sys2Proof.Machine.execDec tok ra rb codec layout s
  | .tref rd ra => Sys2Proof.Machine.execTref rd ra s
  | .tunpin ra => Sys2Proof.Machine.execTunpin ra s
  | .thint ra rb => Sys2Proof.Machine.execThint ra rb s
  | .tnewv rd ra rb => Sys2Proof.Machine.execTnewv rd ra rb s
  | .tnewvZero rd ra rb => Sys2Proof.Machine.execTnewvZero rd ra rb s
  | .pubv rd ra => Sys2Proof.Machine.execPubv rd ra s
  | .tinfo rd ra rb => Sys2Proof.Machine.execTinfo rd ra rb s
  | .useadv rd ra => Sys2Proof.Machine.execUseadv rd ra s
  | .kvalloc rd ra rb => Sys2Proof.Machine.execKvalloc rd ra rb s
  | .kvmap rd ra rb => Sys2Proof.Machine.execKvmap rd ra rb s
  | .kvshare rd ra rb rc => Sys2Proof.Machine.execKvshare rd ra rb rc s
  | .kvfree rd ra rb => Sys2Proof.Machine.execKvfree rd ra rb s
  | .radd vd va vb => Sys2Proof.Machine.execRadd vd va vb s
  | .rsub vd va vb => Sys2Proof.Machine.execRsub vd va vb s
  | .rmul vd va vb => Sys2Proof.Machine.execRmul vd va vb s
  | .rmulUndo vd va vb => Sys2Proof.Machine.execRmulUndo vd va vb s
  | .rshr vd va k => Sys2Proof.Machine.execRshr vd va k s
  | .rshrUndo vd va k => Sys2Proof.Machine.execRshrUndo vd va k s
  | .rlrelu vd va vb => Sys2Proof.Machine.execRlrelu vd va vb s
  | .rlreluUndo vd va vb => Sys2Proof.Machine.execRlreluUndo vd va vb s
  | .rnrw vd va fmt => Sys2Proof.Machine.execRnrw vd va fmt s
  | .rnrwUndo vd va fmt => Sys2Proof.Machine.execRnrwUndo vd va fmt s
  | .cmark imm => Sys2Proof.Machine.execCmark imm s
  | .cchk imm => Sys2Proof.Machine.execCchk imm s
  | .catt ra => Sys2Proof.Machine.execCatt ra s
  | .cdepth rd => Sys2Proof.Machine.execCdepth rd s
  | .rdcnt rd ra imm => Sys2Proof.Machine.execRdcnt rd ra imm s
  | .cntsel ra imm => Sys2Proof.Machine.execCntsel ra imm s
  | .cntclr imm => Sys2Proof.Machine.execCntclr imm s
  | .rdtime rd => Sys2Proof.Machine.execRdtime rd s
  | .waitc imm => Sys2Proof.Machine.execWaitc imm s
  | .bufsel imm => Sys2Proof.Machine.execBufsel imm s
  | .psnap rd => Sys2Proof.Machine.execPsnap rd s
  | .getc reg creg => Sys2Proof.Machine.execGetc reg creg s
  | .setc reg creg => Sys2Proof.Machine.execSetc reg creg s
  | .launch rd ra rb => Sys2Proof.Machine.execLaunch rd ra rb s
  | .binv ra rb => Sys2Proof.Machine.execBinv ra rb s
  | .slotset ra rb => Sys2Proof.Machine.execSlotset ra rb s
  | .illegalOp w => Sys2Proof.Machine.execIllegalOp w s
  | .crossbarInstructionCompletion core => Sys2Proof.Machine.execCrossbarInstructionCompletion core s
  | .hostTailWrite col idx tail => Sys2Proof.Machine.execHostTailWrite col idx tail s
  | .operatorRecordStart col idx => Sys2Proof.Machine.execOperatorRecordStart col idx s
  | .operatorEnd col idx => Sys2Proof.Machine.execOperatorEnd col idx s
  | .tileHandOut layer => Sys2Proof.Machine.execTileHandOut layer s
  | .jobRetirement core => Sys2Proof.Machine.execJobRetirement core s
  | .preemption core => Sys2Proof.Machine.execPreemption core s
  | .coreStop core => Sys2Proof.Machine.execCoreStop core s
  | .resume core => Sys2Proof.Machine.execResume core s
  | .mgmtEretOrder core action => Sys2Proof.Machine.execMgmtEretOrder core action s
  | .timerTrap core => Sys2Proof.Machine.execTimerTrap core s
  | .queueDeadlock core strm => Sys2Proof.Machine.execQueueDeadlock core strm s
  | .engineCommandAcceptance eng => Sys2Proof.Machine.execEngineCommandAcceptance eng s
  | .rangeHoldRelease core strm seq => Sys2Proof.Machine.execRangeHoldRelease core strm seq s
  | .engineQueuePush core strm seq => Sys2Proof.Machine.execEngineQueuePush core strm seq s
  | .engineCommandCompletion core strm seq => Sys2Proof.Machine.execEngineCommandCompletion core strm seq s
  | .transferFault core strm seq => Sys2Proof.Machine.execTransferFault core strm seq s
  | .translationWalk core strm seq => Sys2Proof.Machine.execTranslationWalk core strm seq s
  | .writeApply col n => Sys2Proof.Machine.execWriteApply col n s
  | .readServe core strm seq => Sys2Proof.Machine.execReadServe core strm seq s
  | .benchLeaseGrant bench => Sys2Proof.Machine.execBenchLeaseGrant bench s
  | .heldChunkScaleArrival core => Sys2Proof.Machine.execHeldChunkScaleArrival core s
  | .stackRoundBoundary col sleep => Sys2Proof.Machine.execStackRoundBoundary col sleep s
  | .stackSlot col => Sys2Proof.Machine.execStackSlot col s
  | .stackSlotApply col => Sys2Proof.Machine.execStackSlotApply col s
  | .resyncEnd col => Sys2Proof.Machine.execResyncEnd col s
  | .layerPairWakeDone col pair => Sys2Proof.Machine.execLayerPairWakeDone col pair s
  | .powerGrantWindow accepted demand => Sys2Proof.Machine.execPowerGrantWindow accepted demand s
  | .thermalHigh col pair sensor => Sys2Proof.Machine.execThermalHigh col pair sensor s
  | .thermalCritical col pair sensor => Sys2Proof.Machine.execThermalCritical col pair sensor s
  | .railOutOfTolerance rail => Sys2Proof.Machine.execRailOutOfTolerance rail s
  | .evictionEvaluation col tier => Sys2Proof.Machine.execEvictionEvaluation col tier s
  | .residencyActionDone handle => Sys2Proof.Machine.execResidencyActionDone handle s
  | .residencyActionStop handle => Sys2Proof.Machine.execResidencyActionStop handle s
  | .rebuild handle depth => Sys2Proof.Machine.execRebuild handle depth s
  | .recipeJobStart handle => Sys2Proof.Machine.execRecipeJobStart handle s
  | .recipeCoreTimeout handle => Sys2Proof.Machine.execRecipeCoreTimeout handle s
  | .recipeLimitKill core => Sys2Proof.Machine.execRecipeLimitKill core s
  | .rebuildComplete handle => Sys2Proof.Machine.execRebuildComplete handle s
  | .culletSpillStart core => Sys2Proof.Machine.execCulletSpillStart core s
  | .culletSpillDone core => Sys2Proof.Machine.execCulletSpillDone core s
  | .culletRefillStart core => Sys2Proof.Machine.execCulletRefillStart core s
  | .culletRefillDone core => Sys2Proof.Machine.execCulletRefillDone core s
  | .flitReceive link flit => Sys2Proof.Machine.execFlitReceive link flit s
  | .laneHandBack link => Sys2Proof.Machine.execLaneHandBack link s
  | .linkRetrain link => Sys2Proof.Machine.execLinkRetrain link s
  | .cxlMemHostAccess loc off n write => Sys2Proof.Machine.execCxlMemHostAccess loc off n write s
  | .runtimeRegisterWrite fn item => Sys2Proof.Machine.execRuntimeRegisterWrite fn item s
  | .watermarkWrite col tier hi v => Sys2Proof.Machine.execWatermarkWrite col tier hi v s
  | .recipeDepthMaxWrite col v => Sys2Proof.Machine.execRecipeDepthMaxWrite col v s
  | .partitionSizeSet col units => Sys2Proof.Machine.execPartitionSizeSet col units s
  | .limitWrite watts => Sys2Proof.Machine.execLimitWrite watts s
  | .bootfailClear => Sys2Proof.Machine.execBootfailClear s
  | .reset => Sys2Proof.Machine.execReset s
  | .bootok => Sys2Proof.Machine.execBootok s
  | .bootWatchdogExpiry => Sys2Proof.Machine.execBootWatchdogExpiry s
  | .getVersion => Sys2Proof.Machine.execGetVersion s
  | .getCapabilities => Sys2Proof.Machine.execGetCapabilities s
  | .negotiateAlgorithms offer => Sys2Proof.Machine.execNegotiateAlgorithms offer s
  | .getDigests => Sys2Proof.Machine.execGetDigests s
  | .getCertificate slot => Sys2Proof.Machine.execGetCertificate slot s
  | .challenge nonce => Sys2Proof.Machine.execChallenge nonce s
  | .getMeasurements index => Sys2Proof.Machine.execGetMeasurements index s
  | .keyExchange share => Sys2Proof.Machine.execKeyExchange share s
  | .finish verify => Sys2Proof.Machine.execFinish verify s
  | .debugStopRequest set => Sys2Proof.Machine.execDebugStopRequest set s
  | .debugRelease set => Sys2Proof.Machine.execDebugRelease set s
  | .debugRead addr => Sys2Proof.Machine.execDebugRead addr s
  | .debugWrite addr v => Sys2Proof.Machine.execDebugWrite addr v s
  | .trctlWrite layer v => Sys2Proof.Machine.execTrctlWrite layer v s
  | .traceEnd layer => Sys2Proof.Machine.execTraceEnd layer s
  | .auxiliaryPowerLoss => Sys2Proof.Machine.execAuxiliaryPowerLoss s
  | .firmwareFuseBurn bits => Sys2Proof.Machine.execFirmwareFuseBurn bits s

end Sys2Proof.Machine
end

