-- ==== Sys2Proof/Machine/Fetch.lean ====
section
/-! DEFINITION. Fetching a stream's next instruction, and the placing of one instruction for a first step (R62 to R67,
R81, R82, R383). -/
namespace Sys2Proof.Machine

/-- Stream `x` of core `k` has the line of its program counter, fetched as one unit when the stream enters it (R67). -/
def State.fetchLine (s : State) (k : Nat) (x : Strm) : State :=
  s.modStrm k x fun t =>
    if t.fetched.any (fun f => f.1 == t.pc.line.toNat) then t
    else { t with fetched := some (t.pc.line.toNat, s.lineWords k t.pc.line.toNat) }

/-- The checks of R66 made when stream `x` of core `k` fetches: the cause's detail, or none. An entry word that names slot
0, a slot above its line's count, or a line outside the kernel faults here too, with the entry as its line address (R66
has no row for a first fetch after job start; DEDUCED, unsafe: log entry 36). -/
def State.fetchFault (s : State) (k : Nat) (x : Strm) : Option W64 :=
  let c := s.core k
  let t := c.strm x
  let j := c.theJob
  let w := s.lineWord k x t.pc.line.toNat 0
  if t.past ∨ foreignLine w x ∨ !j.hasLine t.pc.line.toNat ∨ t.pc.slot = 0 ∨ linkCount w < t.pc.slot.toNat then
    some t.pc.form
  else none

/-- The enabled breakpoint that matches the stream's next instruction (R383). -/
def CoreSt.breakAt (c : CoreSt) (x : Strm) : Option Nat :=
  let t := c.strm x
  if t.skip then none
  else (List.range 4).find? fun n =>
    let b := (look 0 c.ctr.bkpt n).toNat
    bitsOf b 28 1 == 1 && bitsOf b (31 - strmCode x) 1 == 1 && bitsOf b 0 28 == t.pc.form.toNat

/-- The word at the program counter of a stream. -/
def State.wordAt (s : State) (k : Nat) (x : Strm) : W32 :=
  let p := ((s.core k).strm x).pc
  BitVec.ofNat 32 (s.lineWord k x p.line.toNat p.slot.toNat)

/-- One stream of one core, which has its line, runs its next instruction. -/
def State.runLine (s : State) (k : Nat) (x : Strm) : Host.Outcome State Fault Refusal :=
  match s.fetchFault k x with
  | some f => .next (s.raise k (some x) 0x02 f)
  | none =>
    match (s.core k).breakAt x with
    | some n => .next ((s.traceBreak k).raise k (some x) 0x3A (BitVec.ofNat 64 n))
    | none =>
      let w := s.wordAt k x
      let s := { s with who := k, strm := x }
      match decode w with
      | .instr i => exec i s
      | .reject .queueForm => .next (s.raise k (some x) 0x03 (w.zeroExtend 64))
      | .reject _ => exec (.illegalOp w) s

/-- The stream may issue, and its job's tile has not reached the core in this ac (R338). -/
def State.mayIssue (s : State) (k : Nat) (x : Strm) : Bool := (s.core k).canIssue x && (find s.reached k).isNone

/-- One stream of one core fetches and runs its next instruction; one whose watchdog count has reached its limit raises
QUEUE_DEADLOCK instead (R270). -/
def State.runStream (s : State) (k : Nat) (x : Strm) : Host.Outcome State Fault Refusal :=
  if !coreValid k then .fault .noSuchCore
  else if !s.mayIssue k x then .fault .notRunning
  else if (s.dogLimit k x).isSome then execQueueDeadlock k x s
  else (s.fetchLine k x).runLine k x

/-! ### A first instruction -/

/-- The stream that is given a placed instruction: the first of L, C, S that may run it. -/
def placedStream (nbits w : Nat) : Strm :=
  match decodeTableWord nbits w with
  | some i => if permitted i .L then .L else if permitted i .C then .C else .S
  | none => .L

/-- Handle and location of the code image that stands for a loaded program (DESIGN CHOICE, safe: log entry 4). -/
def placedHandle : Nat := 1
def placedLoc : Nat := 2 ^ 61

/-- The image: a header-class line, then a line of the stream whose slot 1 holds the word. -/
def placedImage (x : Strm) (w : Nat) : List Byte :=
  leBytes 4 (2 ^ 30 * 3 + 2 ^ 26 * 15 + 2 ^ 24) ++ List.replicate 60 0 ++
    leBytes 4 (2 ^ 30 * strmCode x + 2 ^ 26 * 15 + 2 ^ 24) ++ leBytes 4 w

def placedTensor : Tensor :=
  { info := { state := 1, size := 65536 }, dimCount := 1, extents := [65536], strides := [1],
    blocks := [(0, BitVec.ofNat 256 (2 ^ 64 * placedLoc + 2 ^ 17))] }

/-- The streams of the placed job stand at line 1, slot 1. -/
def placedCore (c : CoreSt) : CoreSt :=
  let at_ := fun (t : StreamSt) => { t with pc := ⟨1, 1⟩, fetched := none }
  { c with
    l := at_ c.l, c := at_ c.c, s := at_ c.s
    job := some { code := placedHandle, hline := 0, len := 2 }, phase := .running }

/-- `s` with a job on core 0 of column 0 whose next instruction is the word, and that instruction as the next move. -/
def State.placeWord (s : State) (nbits w : Nat) : State :=
  let x := placedStream nbits w
  { s with
    agenda := [.stream 0 x]
    cores := set s.cores 0 (placedCore (s.core 0))
    tensors := set s.tensors placedHandle placedTensor
    store := s.store.setBytes (65536 * placedLoc) (placedImage x (w % 2 ^ nbits)) }

end Sys2Proof.Machine
end

