-- ==== Sys2Proof/Machine/Clock.lean ====
section
/-! DEFINITION. The arithmetic clock, and the order in which the default schedule lets streams and units move
(DESIGN CHOICE, unsafe: log entry 2). -/
namespace Sys2Proof.Machine

/-! ### What passes in one ac, core by core -/

/-- TIMERCMP is that of the core's job: a core that a saved job has reached still holds the value of an earlier one, except
where the job comes back from its own fault area (R99, R372). -/
def CoreSt.ownTimer (c : CoreSt) : Bool := match c.phase with | .restoring _ area => decide (area < 144) | _ => true

/-- TIMER becomes equal to TIMERCMP in this ac (R99). -/
def CoreSt.timerTick (c : CoreSt) (time : W64) : CoreSt :=
  if c.job.isSome ∧ c.ownTimer ∧ !c.debug ∧ c.timercmp ≠ 0 ∧ c.timerAt time = c.timercmp then { c with timerDue := some c.timercmp }
  else c

/-- A stream spends the ac in a watchdog wait (R269, R270). -/
def CoreSt.inDog (c : CoreSt) (x : Strm) : Bool :=
  c.canIssue x && (match (c.strm x).wait with | some (.dog ..) => true | _ => false)

/-- Watchdog counts rise, and what the trace shows of the ac is over. -/
def CoreSt.strmTick (c : CoreSt) : CoreSt :=
  { allStrms.foldl (fun c x =>
      let dog := c.inDog x
      c.modStrm x fun t => { t with dog := if dog then t.dog + 1 else t.dog, ran := none, heard := false }) c with
    traceBits := 0, written := [], begun := false }

/-- The core runs a job in this ac (R388). -/
def CoreSt.runs (c : CoreSt) : Bool :=
  c.job.isSome && !c.debug &&
    (match c.phase with | .running | .draining | .stopping _ => true | _ => false)

/-- The performance counters of time (R388). -/
def State.countTick (s : State) (k : Nat) : State :=
  let c := s.core k
  if c.ctr.pmcsel = [] then s
  else
    let s := if c.runs then s.count k 1 1 none else s
    let s := if c.leaseReq.isSome then s.count k 6 1 none else s
    let s := if c.c.wait = some .power ∧ c.canIssue .C then s.count k 14 1 none else s
    allStrms.foldl (fun s x => if c.inDog x then s.count k 5 1 (some x) else s) s

/-- Commands of a stream, and broadcasts of L, on whose token `n` it waits, as order of entry and buffer; any of them
where `n` is none. -/
def CoreSt.tokenCmds (c : CoreSt) (x : Strm) (n : Option Nat) : List (Nat × Byte) :=
  let hit := fun tok => n == none || n == some tok
  ((c.incomplete x).filter fun m => hit m.tok).map (fun m => (m.entered, m.buf)) ++
    (if x = .L then ((c.bulk ++ c.casts).filter fun b => hit b.tok).map fun b => (b.entered, b.buf) else [])

/-- Commands that feed a queue of the core. -/
def CoreSt.feedCmds (c : CoreSt) (q : Nat) : List (Nat × Byte) :=
  (allStrms.flatMap c.incomplete |>.filter fun m => m.feeds == some q).map fun m => (m.entered, m.buf)

/-- Commands that one stream's wait is charged to (R395). -/
def State.waitCmds (s : State) (k : Nat) (x : Strm) : List (Nat × Byte) :=
  let c := s.core k
  if !c.canIssue x then []
  else match (c.strm x).wait with
    | some (.dog 2 q) => c.feedCmds q
    | some (.dog 6 _) => c.feedCmds 4
    | some (.dog 11 n) =>
      match decode (s.wordAt k x) with
      | .instr .rdv => c.tokenCmds x none
      | _ => c.tokenCmds x (some n)
    | _ => []

/-- The oldest of some commands. -/
def oldestCmd : List (Nat × Byte) → Option Byte
  | [] => none
  | m :: r => some (r.foldl (fun a b => if b.1 < a.1 then b else a) m).2

/-- Stall ac of the hotness counters. -/
def State.heatTick (s : State) (k : Nat) : State :=
  allStrms.foldl (fun s x => match oldestCmd (s.waitCmds k x) with
    | some buf => s.heat (colOf k) (s.vf (s.core k).theJob.region) buf 0 1
    | none => s) s

/-- A wait at which a stream rests while its core drains: on a queue, a token, an event, a lease or a fence (R208), or in a
tensor instruction, at which R360 lets the core stop (DEDUCED, unsafe: log entry 37). -/
def Wait.rests : Wait → Bool
  | .dog .. | .event | .lease | .fence | .stackQueue | .bulkQueue | .engine => true
  | .crossbar | .power | .cullet | .pop | .boundary | .others | .push _ => false

/-- A stream would wait on, as it does: running it changes nothing but its wait (R208). -/
def State.stillWaits (s : State) (k : Nat) (x : Strm) : Bool :=
  let plain := fun (t : State) =>
    ({ t with who := k, strm := x } : State).modStrm k x fun y => { y with wait := none, dog := 0, fetched := none }
  match s.runStream k x with
  | .next t => ((t.core k).strm x).wait.any Wait.rests && plain t == plain s
  | _ => false

/-- A core whose other streams all wait stops: of a fault, or of a suspension (R208, R356). -/
def State.drainTick (s : State) (k : Nat) : State :=
  let c := s.core k
  let failing := c.cmds.any fun m => match m.stage with | .failed _ => true | _ => false
  if c.phase ≠ .draining ∨ c.debug ∨ failing then s
  else if allStrms.all fun x => !c.canIssue x || s.stillWaits k x then
    let kind : StopKind := if c.raised = [] ∧ c.recs = [] then .suspend else .fault
    s.setCore k { c.marked with phase := .stopping kind }
  else s

/-- A core that stops, also for a debug stop, has run its matrix command to its end, or to a held chunk, and its bench is
free (R184, R185). -/
def State.stopTick (s : State) (k : Nat) : State :=
  let c := s.core k
  let stops := match c.phase with | .stopping _ => true | _ => c.debug
  if stops && !c.begun then s.parkLease k else s

/-- One core in one ac: `s` holds the time after it. -/
def State.coreTick (s : State) (k : Nat) : State :=
  let s := (s.stopTick k).modCore k fun c => ((c.timerTick s.time).strmTick).lateWrites s.time.toNat
  ((s.drainTick k).attachJob k).finishKill k

/-! ### The package -/

/-- ac in a window of floor shares: 1 ms (R336). -/
def floorWindow : Nat := 850000

/-- What the regions with a floor have had and were offered in this ac. -/
def State.floorTick (s : State) : State :=
  let rs := s.regionIds.filter fun r => s.floorShare r != 0
  let s := if s.time.toNat % floorWindow = 0 then { s with floorUse := [] } else s
  rs.foldl (fun s r =>
    let u := look (0, 0) s.floorUse r
    let had := (s.running.filter fun q => q.2.theJob.region == r && q.2.runs).length
    { s with floorUse := set s.floorUse r (u.1 + had, u.2 + (s.regionCores r).length) }) s

/-- The benches of the cores that ask for a lease. -/
def State.askedBenches (s : State) : List Nat := ((s.cores.filter (·.2.leaseReq.isSome)).map fun p => benchOf p.1).eraseDups

/-- A stream that waits in a wfe whose flag has been set in this ac completes it in the ac (R131), and so does a lease
that is granted (R183). -/
def State.wakeWaiters (s : State) : State :=
  s.cores.foldl (fun s p => allStrms.foldl (fun s x =>
    let t := (s.core p.1).strm x
    if (t.wait = some .event ∧ t.evflag = true ∨ t.wait = some .lease ∧ (s.core p.1).leaseGot = true) ∧ t.ran = none ∧ coreValid p.1 = true ∧ s.mayIssue p.1 x = true then
      (match s.runStream p.1 x with
        | .next u => u
        | _ => s)
    else s) s) s

/-- What ends with an ac: queue pointers move (R267), counters stand as the next ac reads them (R386), broadcasts have read
their next beats (R257), tiles stay with the cores that they have reached (R338), region control blocks take what was
written (R28), and turns without a ready tile pass on (R335). -/
def State.closeAc (s : State) : State :=
  let s : State := { s with
    cores := s.cores.map fun p =>
      (p.1, { p.2.settleQueues.readBeats with allocRan := none, snapRan := none, ctr := p.2.ctr.settled, ctrWas := p.2.ctr.settled })
    columns := s.columns.map fun p => (p.1, { p.2 with vcWas := p.2.vc })
    mgmt := { s.mgmt with failedNow := s.mgmt.failedNow - 1 }, reached := [], regions := s.regionsNext.foldl (fun m e => set m e.1 e.2) s.regions, regionsNext := [] }
  (s.layers.map (·.1)).foldl State.passTurns s.strideKept

/-- Pairs whose time to leave their power state is over have left it (R428). -/
def State.wakeDue (s : State) : State :=
  { s with columns := s.columns.map fun c =>
      let due := c.2.wakeAsked.filter fun q => q.2 ≤ s.time.toNat
      if due = [] then c
      else (c.1, { c.2 with wakeAsked := c.2.wakeAsked.filter fun q => s.time.toNat < q.2
                            powerNext := c.2.powerNext ++ due.map fun q => (q.1, 0) }) }

/-- Engines take commands again, and every 1,024 ac each partition is due for its evaluation (R348, R436). -/
def State.openAc (s : State) : State :=
  let due := s.time.toNat % 1024 = 0
  let s : State := { s with columns := s.columns.map fun c => (c.1, { c.2 with took := [] }) }
  if due then (List.range 4).foldl (fun s c => s.modColumn c fun c => { c with evalDue := [0, 1, 2, 3] }) s else s

/-- The banks of a core serve one granule each in the ac, and what its classes lose is counted (R188, R388, R392). -/
def State.bankTick (s : State) (k : Nat) : State :=
  let (c, n) := (s.core k).bankTick
  if (s.core k).banks = [] then s else if n = 0 then s.setCore k c else (s.setCore k c).count k 7 n none

/-- One ac passes (R9). A window's grants are formed in its first ac at the latest (R427), and each stack bus has its slot in
every ac (R21). -/
def State.tick (s : State) : State :=
  let s := if s.grantDue then s.grantPower [] [] else s
  let s := (List.range 4).foldl State.busCloses s
  let s := s.askedBenches.foldl State.leaseTick s
  let s := (s.cores.map (·.1)).foldl State.bankTick s.wakeWaiters
  let s := (s.layers.map (·.1)).foldl State.traceLayer s
  let s := (s.cores.map (·.1)).foldl (fun s k => (s.countTick k).heatTick k) s
  let s := (List.range 4).foldl State.busOpens { s.closeAc with time := s.time + 1 }
  let s := (s.cores.map (·.1)).foldl State.coreTick s.openAc
  (List.range 4).foldl State.settlePartition s.wakeDue.floorTick.linkTick |>.mgmtTick

/-- Power throttling withholds the issue of the stream's next instruction in this ac (R340). -/
def State.withheld (s : State) (k : Nat) (x : Strm) : Bool :=
  (s.column (colOf k)).limited && (match decode (s.wordAt k x) with
    | .instr i => (issueLevel i).any (s.limits k)
    | .reject _ => false)

/-- The stream has its turn: it may issue, has issued nothing in this ac, and power throttling does not withhold it (R107,
R340). -/
def State.hasTurn (s : State) (k : Nat) (x : Strm) : Bool :=
  coreValid k && s.mayIssue k x && ((s.core k).strm x).ran.isNone && !s.withheld k x

/-- One move of the agenda. A stream that has no turn, and an event that cannot happen, is passed over. -/
def State.runMove (s : State) (m : Move) : Host.Outcome State Fault Refusal :=
  match m with
  | .stream k x => if s.hasTurn k x then s.runStream k x else .next s
  | .event e =>
    match exec e s with
    | .refused (.notEnabled _) => .next s
    | o => o
  | .tick => .next s.tick

/-! ### The default schedule -/

/-- Streams that can issue, by COREID and then L, C, S. -/
def State.runnable (s : State) : List (Nat × Strm) :=
  s.cores.flatMap fun p => (allStrms.filter (s.hasTurn p.1)).map fun x => (p.1, x)

/-- What an event of a unit answers. -/
abbrev Happening := State → Host.Outcome State Fault Refusal

/-- Events of one accepted command. -/
def cmdEvents (k : Nat) (m : Cmd) : List Happening :=
  [execTransferFault k m.strm m.seq, execRangeHoldRelease k m.strm m.seq, execTranslationWalk k m.strm m.seq,
    execReadServe k m.strm m.seq, execEngineQueuePush k m.strm m.seq, execEngineCommandCompletion k m.strm m.seq]

/-- Events of one core. -/
def coreEvents (p : Nat × CoreSt) : List Happening :=
  let k := p.1
  [execTimerTrap k, execQueueDeadlock k .L, execQueueDeadlock k .C, execQueueDeadlock k .S, execRecipeLimitKill k,
    execCoreStop k, execResume k, execJobRetirement k, execCrossbarInstructionCompletion k, execBenchLeaseGrant (benchOf k),
    execHeldChunkScaleArrival k, execCulletSpillStart k, execCulletSpillDone k, execCulletRefillStart k,
    execCulletRefillDone k] ++ p.2.cmds.flatMap (cmdEvents k)

/-- Engines of the columns that have cores at work. -/
def State.engines (s : State) : List Engine :=
  (s.cores.map fun p => colOf p.1).eraseDups.flatMap fun c =>
    (List.range 8).map (.dray c) ++ [.coach c 0, .coach c 1, .near c, .decode c]

/-- Dropped tensors that are reached for, with the depth of their rebuild, and rebuilds in progress. -/
def State.rebuildCalls (s : State) : List (Nat × Nat) :=
  let asked := (s.cores ++ s.saves).flatMap (fun q =>
      (match q.2.susp with | some h => [h] | none => []) ++ q.2.cmds.filterMap fun m => match m.stage with
        | .rebuild h _ => some h
        | _ => none) ++
    s.allOpers.flatMap fun o => o.2.await
  s.allRebuilds.flatMap (fun r => [(r.handle, r.depth)] ++ (r.todo.take 1).map fun h => (h, r.depth + 1)) ++
    asked.eraseDups.map fun h => (h, 1)

/-- Events of a column's units. -/
def columnEvents (col : Nat) (c : Column) : List Happening :=
  [execStackSlotApply col, execResyncEnd col, execStackRoundBoundary col [], execStackSlot col] ++
    c.wakeAsked.map (fun q => execLayerPairWakeDone col q.1) ++
    c.streams.flatMap (fun x => [execOperatorEnd col x.1, execOperatorRecordStart col x.1]) ++
    (List.range 4).map (execEvictionEvaluation col) ++
    c.moving.flatMap (fun m => [execResidencyActionStop m.handle, execResidencyActionDone m.handle]) ++
    c.rebuilds.flatMap fun r => [execRebuildComplete r.handle, execRecipeJobStart r.handle, execRecipeCoreTimeout r.handle]

/-- Events the units may perform by themselves, in the order in which the default schedule tries them. -/
def State.candidates (s : State) : List Happening :=
  (List.range 5).flatMap (fun c => (List.range (s.transit.filter fun f => f.dest == c).length).map (execWriteApply c)) ++
    s.cores.flatMap coreEvents ++ s.engines.map execEngineCommandAcceptance ++
    (List.range 4).flatMap (fun c => columnEvents c (s.column c)) ++ s.rebuildCalls.map (fun r => execRebuild r.1 r.2) ++
    (List.range 32).map execTileHandOut ++ s.cores.map (fun p => execPreemption p.1) ++
    s.layers.map (fun y => execTraceEnd y.1) ++ [execBootWatchdogExpiry, execPowerGrantWindow [] []]

/-- The first candidate that can happen. -/
def State.firstEvent (s : State) : List Happening → Option State
  | [] => none
  | e :: es => match e s with
    | .next t => some t
    | _ => s.firstEvent es

/-- Place of a stream in the order of a round. -/
def roundPlace (p : Nat × Strm) : Nat := 3 * p.1 + strmCode p.2

/-- The default schedule: what stack-bus slots have brought (R250), each stream that has its turn, then the units' events,
then the clock. -/
def State.defaultStep (s : State) : Host.Outcome State Fault Refusal :=
  match s.firstEvent (((List.range 4).filter s.scopeDue).map execStackSlotApply) with
  | some t => .next t
  | none =>
    match s.runnable.find? fun p => s.turn ≤ roundPlace p with
    | some p => ({ s with turn := roundPlace p + 1 } : State).runStream p.1 p.2
    | none =>
      match s.firstEvent s.candidates with
      | some t => .next t
      | none => .next { s.tick with turn := 0 }

end Sys2Proof.Machine
end

