-- ==== Sys2Proof/Safety.lean ====
section
/-! DEFINITION. What counts as a safe run, and the words in which the statements speak: when an instruction may take its
own effect, what its completion adds, and what stays as it was. -/
namespace Sys2Proof.Machine

/-! ### The invariant of every step -/

/-- Every memory of a core is in its canonical form. -/
def CoreSt.memWf (c : CoreSt) : Bool := c.acc.wf && c.tiles.wf && c.scratch.wf && c.ring.wf

def Column.memWf (c : Column) : Bool := c.seg.wf

/-- A write on its way carries a memory in its canonical form. -/
def Flight.memWf (f : Flight) : Bool := f.write.all fun w => w.fill.all fun p => p.2.wf

/-- Every memory of the cores that stand aside, and of those as they stood before a hand-out, is in its canonical form. -/
def State.asideWf (s : State) : Bool :=
  s.asides.all (fun p => p.2.memWf) && s.reached.all fun p => p.2.before.memWf

/-- Every memory of the package, and every one on its way, is in its canonical form. -/
def State.memWf (s : State) : Bool :=
  (s.store.wf && s.cores.all (fun p => p.2.memWf) && s.saves.all (fun p => p.2.memWf) &&
    s.columns.all (fun p => p.2.memWf) && s.transit.all Flight.memWf) && s.asideWf

/-! ### The issue of an instruction -/

/-- The stream may issue at all: its core is enabled and runs a job, and nothing holds the stream (R15, R369). -/
def State.live (s : State) : Bool := coreValid s.who && (s.core s.who).canIssue s.strm

/-- The instruction in hand may take its own effect: its stream may issue, its word passes R81 in that stream and mode,
no resume waits for the lease (R184), and no scalar register it names is pending (R103). -/
def State.ready (s : State) (i : Instr) : Bool :=
  s.live && i.wf && permitted i s.strm && (!privileged i || (s.core s.who).hm) &&
    !((s.core s.who).regain.isSome && s.strm == .C) && (firstPending i s.cur).isNone

/-- The instruction in hand has taken its effect, `t`, and its stream goes on in sequence (R63, R107). -/
def State.completed (s : State) (i : Instr) (t : State) : State := (t.issued i s.who s.strm).advance s.who s.strm

/-- As `completed`, where the effect is one on the issuing core. -/
def State.completedCore (s : State) (i : Instr) (f : CoreSt → CoreSt) : State :=
  s.completed i (s.setCore s.who (f (s.core s.who)))

/-- As `completed`, where the effect is one on the issuing stream's registers. -/
def State.completedStrm (s : State) (i : Instr) (f : StreamSt → StreamSt) : State := s.completed i (s.modCur f)

/-- As `completed`, where the effect is that s[rd] takes a value. -/
def State.completedReg (s : State) (i : Instr) (rd : BitVec 5) (v : W64) : State :=
  s.completedStrm i fun t => t.setReg rd.toNat v

/-- The instruction in hand has taken its effect, `t`, and its stream goes on at `p`. -/
def State.completedAt (s : State) (i : Instr) (t : State) (p : Pc) : State :=
  (t.issued i s.who s.strm).setPc s.who s.strm (some p)

/-! ### What an access of the issuing stream finds -/

/-- No watch of the issuing core meets a scratchpad access (R383). -/
def State.unwatched (s : State) (ps : List (Nat × Nat)) : Bool :=
  ((s.core s.who).watchHit false false ps).isNone && ((s.core s.who).watchHit false true ps).isNone

/-- No watch of the issuing core meets a stack-scope access (R383). -/
def State.scopeUnwatched (s : State) (ps : List (Nat × Nat)) : Bool :=
  ((s.core s.who).watchHit true false ps).isNone && ((s.core s.who).watchHit true true ps).isNone

/-- An access of `n` bytes at `ea` lies in the scratchpad, aligned, and is not watched (R156, R192). -/
def State.spOk (s : State) (ea n align : Nat) : Bool := (scratchFault ea n align).isNone && s.unwatched [(ea, n)]

/-! ### What stays as it was -/

/-- Two cores agree in every memory. -/
def CoreSt.sameMem (c d : CoreSt) : Prop := d.acc = c.acc ∧ d.tiles = c.tiles ∧ d.scratch = c.scratch ∧ d.ring = c.ring

/-- Two states agree in everything outside the cores. -/
def State.sameOutside (s t : State) : Prop := { t with cores := s.cores } = s

/-- Two states agree in every core but `k`. -/
def State.sameOthers (s t : State) (k : Nat) : Prop := ∀ j, j ≠ k → t.core j = s.core j

end Sys2Proof.Machine
end

