-- ==== Sys2Proof/Certificates/Slice0/Obligations.lean ====
section
/-! DEFINITION. The statements about the model, and the tables of results that they use. The tables are written from the
rules of the spec, beside the meanings. -/
namespace Sys2Proof.Machine

/-! ### Results of the scalar instructions (R108 to R118) -/

/-- Number of zero bits above the highest one bit of `n` bits. -/
def leadingZeros (n : Nat) (a : W64) : Nat := ((List.range n).takeWhile fun i => !a.getLsbD (n - 1 - i)).length

/-- Number of zero bits below the lowest one bit of `n` bits. -/
def trailingZeros (n : Nat) (a : W64) : Nat := ((List.range n).takeWhile fun i => !a.getLsbD i).length

/-- Number of one bits. -/
def oneBits (a : W64) : Nat := ((List.range 64).filter a.getLsbD).length

/-- The value that an instruction of majors 0x01 to 0x03 writes, from the values a, b, c of the registers ra, rb, rc it
names: R108, R109, R110, R111. -/
def registerResult (i : Instr) (a b c : W64) : Option W64 :=
  match i with
  | .add .. => some (a + b)
  | .sub .. => some (a - b)
  | .and .. => some (a &&& b)
  | .or .. => some (a ||| b)
  | .xor .. => some (a ^^^ b)
  | .sll .. => some (a <<< (b.toNat % 64))
  | .srl .. => some (a >>> (b.toNat % 64))
  | .sra .. => some (a.sshiftRight (b.toNat % 64))
  | .min .. => some (if b.slt a then b else a)
  | .max .. => some (if a.slt b then b else a)
  | .minu .. => some (if b.ult a then b else a)
  | .maxu .. => some (if a.ult b then b else a)
  | .slt .. => some (if a.slt b then 1 else 0)
  | .sltu .. => some (if a.ult b then 1 else 0)
  | .seq .. => some (if a = b then 1 else 0)
  | .mov .. => some a
  | .clz .. => some (BitVec.ofNat 64 (leadingZeros 64 a))
  | .ctz .. => some (BitVec.ofNat 64 (trailingZeros 64 a))
  | .popc .. => some (BitVec.ofNat 64 (oneBits a))
  | .mul .. => some (a * b)
  | .mulh .. => some (((a.signExtend 128 * b.signExtend 128) >>> 64).truncate 64)
  | .mulhu .. => some (((a.zeroExtend 128 * b.zeroExtend 128) >>> 64).truncate 64)
  | .div .. => some (if b = 0 then BitVec.allOnes 64 else BitVec.sdiv a b)
  | .divu .. => some (if b = 0 then BitVec.allOnes 64 else BitVec.udiv a b)
  | .rem .. => some (if b = 0 then a else BitVec.srem a b)
  | .remu .. => some (if b = 0 then a else BitVec.umod a b)
  | .mad .. => some (a * b + c)
  | .sel .. => some (if c = 0 then b else a)
  | .clamp .. => some (let m := if a.slt b then b else a; if c.slt m then c else m)
  | _ => none

/-- The registers rd, ra, rb, rc that an instruction of majors 0x01 to 0x03 names; 0 where it names none. -/
def registerFields (i : Instr) : BitVec 5 × BitVec 5 × BitVec 5 × BitVec 5 :=
  match i with
  | .add rd ra rb | .sub rd ra rb | .and rd ra rb | .or rd ra rb | .xor rd ra rb | .sll rd ra rb | .srl rd ra rb
  | .sra rd ra rb | .min rd ra rb | .max rd ra rb | .minu rd ra rb | .maxu rd ra rb | .slt rd ra rb | .sltu rd ra rb
  | .seq rd ra rb | .mul rd ra rb | .mulh rd ra rb | .mulhu rd ra rb | .div rd ra rb | .divu rd ra rb | .rem rd ra rb
  | .remu rd ra rb => (rd, ra, rb, 0)
  | .mov rd ra | .clz rd ra | .ctz rd ra | .popc rd ra => (rd, ra, 0, 0)
  | .mad rd ra rb rc | .sel rd ra rb rc | .clamp rd ra rb rc => (rd, ra, rb, rc)
  | _ => (0, 0, 0, 0)

/-- The register that an instruction of majors 0x04 to 0x0A writes, and its value, from the registers `v` of the stream:
R112, R113, R114. -/
def immediateResult (i : Instr) (v : BitVec 5 → W64) : Option (BitVec 5 × W64) :=
  match i with
  | .addi rd ra imm => some (rd, v ra + imm.signExtend 64)
  | .andi rd ra imm => some (rd, v ra &&& imm.zeroExtend 64)
  | .ori rd ra imm => some (rd, v ra ||| imm.zeroExtend 64)
  | .xori rd ra imm => some (rd, v ra ^^^ imm.zeroExtend 64)
  | .slti rd ra imm => some (rd, if (v ra).slt (imm.signExtend 64) then 1 else 0)
  | .slli rd ra pos => some (rd, v ra <<< pos.toNat)
  | .srli rd ra pos => some (rd, v ra >>> pos.toNat)
  | .srai rd ra pos => some (rd, (v ra).sshiftRight pos.toNat)
  | .bfx rd ra pos wm1 => some (rd, (v ra >>> pos.toNat) &&& BitVec.ofNat 64 (2 ^ (wm1.toNat + 1) - 1))
  | .bfi rd ra pos wm1 =>
    let field := BitVec.ofNat 64 (2 ^ (wm1.toNat + 1) - 1) <<< pos.toNat
    some (rd, (v rd &&& ~~~field) ||| ((v ra <<< pos.toNat) &&& field))
  | .li rd imm => some (rd, imm.signExtend 64)
  | .lui rd h imm =>
    some (rd, (v rd &&& ~~~((0xFFFF : W64) <<< (16 * h.toNat))) ||| (imm.zeroExtend 64 <<< (16 * h.toNat)))
  | _ => none

/-- The fp32 code that an instruction of major 0x0C that rounds writes, from its operands x, y, z and rb of R42, with its
destination and rounding mode: R50, R115. -/
def roundResult (i : Instr) (v : BitVec 5 → W64) (rb : Nat) : Option (BitVec 5 × BitVec 3 × Nat) :=
  let x := fun r => (v r).toNat % 2 ^ 32
  match i with
  | .fadd rd ra rb' rm => some (rd, rm, fpAdd 0 rm.toNat rb (x ra) (x rb'))
  | .fsub rd ra rb' rm => some (rd, rm, fpSub 0 rm.toNat rb (x ra) (x rb'))
  | .fmul rd ra rb' rm => some (rd, rm, fpMul 0 rm.toNat rb (x ra) (x rb'))
  | .ffma rd ra rb' rc rm => some (rd, rm, fpFma 0 rm.toNat rb (x ra) (x rb') (x rc))
  | .frcp rd ra rm => some (rd, rm, roundArith 0 rm.toNat rb (rcpNum (decodeNum 0 0 (x ra))))
  | _ => none

end Sys2Proof.Machine

open Sys2Proof Sys2Proof.Machine

/-! ## Scalar instructions -/

/-- R108 to R111: every instruction of majors 0x01 to 0x03 completes wherever it may issue, and its one effect is that
s[rd] takes the value of the table; a destination of s0 is discarded by the register write (R90). -/
def Obligations.RegisterForms : Prop :=
  ∀ (s : State) (i : Instr) (v : W64),
    s.ready i = true →
    registerResult i (s.cur.val (registerFields i).2.1) (s.cur.val (registerFields i).2.2.1)
      (s.cur.val (registerFields i).2.2.2) = some v →
    exec i s = .next (s.completedReg i (registerFields i).1 v)

/-- R110: division never faults, wherever it may issue; and where the quotient is not defined, or does not fit, the results
are those of the table. -/
def Obligations.DivisionCorners : Prop :=
  ∀ (s : State) (rd ra rb : BitVec 5),
    let a := s.cur.val ra
    let b := s.cur.val rb
    (∀ i, i = .div rd ra rb ∨ i = .divu rd ra rb ∨ i = .rem rd ra rb ∨ i = .remu rd ra rb → s.ready i = true →
      ∃ v, exec i s = .next (s.completedReg i rd v)) ∧
    (b = 0 →
      (s.ready (.div rd ra rb) = true → exec (.div rd ra rb) s = .next (s.completedReg (.div rd ra rb) rd 0xFFFFFFFFFFFFFFFF)) ∧
      (s.ready (.divu rd ra rb) = true → exec (.divu rd ra rb) s = .next (s.completedReg (.divu rd ra rb) rd 0xFFFFFFFFFFFFFFFF)) ∧
      (s.ready (.rem rd ra rb) = true → exec (.rem rd ra rb) s = .next (s.completedReg (.rem rd ra rb) rd a)) ∧
      (s.ready (.remu rd ra rb) = true → exec (.remu rd ra rb) s = .next (s.completedReg (.remu rd ra rb) rd a))) ∧
    (a = 0x8000000000000000 → b = 0xFFFFFFFFFFFFFFFF →
      (s.ready (.div rd ra rb) = true → exec (.div rd ra rb) s = .next (s.completedReg (.div rd ra rb) rd 0x8000000000000000)) ∧
      (s.ready (.rem rd ra rb) = true → exec (.rem rd ra rb) s = .next (s.completedReg (.rem rd ra rb) rd 0)))

/-- R112 to R114: every immediate form completes wherever it may issue, with the value of the table in s[rd]. -/
def Obligations.ImmediateForms : Prop :=
  ∀ (s : State) (i : Instr) (rd : BitVec 5) (v : W64),
    s.ready i = true → immediateResult i s.cur.val = some (rd, v) → exec i s = .next (s.completedReg i rd v)

/-- R115, R116: the fp32 instructions complete. fadd, fsub, fmul, ffma and frcp round once in the named mode; in mode sr
(code 4) they draw rb from SRSEED and SRCTR of the stream, element 0, and SRCTR advances by 1. fmin, fmax and fcmp round
nothing.
R118, R36: fcvt converts between any two formats of R31, with RQF as the fraction width of rq32; with an RQF above 24
and rq32 named it raises RANGE with RQF as FINFO. -/
def Obligations.FloatForms : Prop :=
  ((∀ (s : State) (i : Instr) (rd : BitVec 5) (rm : BitVec 3) (v : Nat),
    let c := s.core s.who
    let rb := if rm = 4 then
        rbStream (c.seen 0x00A s.strm c.srseed).toNat (c.strm s.strm).srctr.toNat 0 (strmCode s.strm) else 0
    s.ready i = true → roundResult i s.cur.val rb = some (rd, rm, v) →
    exec i s = .next (s.completedStrm i fun t =>
      { t.setReg rd.toNat (BitVec.ofNat 64 v) with srctr := if rm = 4 then t.srctr + 1 else t.srctr })) ∧
  ∀ (s : State) (rd ra rb : BitVec 5) (cond : BitVec 3),
    let a := (s.cur.val ra).toNat % 2 ^ 32
    let b := (s.cur.val rb).toNat % 2 ^ 32
    (s.ready (.fmin rd ra rb) = true →
      exec (.fmin rd ra rb) s = .next (s.completedReg (.fmin rd ra rb) rd (BitVec.ofNat 64 (fpMin 0 a b)))) ∧
    (s.ready (.fmax rd ra rb) = true →
      exec (.fmax rd ra rb) s = .next (s.completedReg (.fmax rd ra rb) rd (BitVec.ofNat 64 (fpMax 0 a b)))) ∧
    (s.ready (.fcmp rd ra rb cond) = true →
      exec (.fcmp rd ra rb cond) s = .next (s.completedReg (.fcmp rd ra rb cond) rd
        (if fpCond cond.toNat (decodeNum 0 0 a) (decodeNum 0 0 b) then 1 else 0)))) ∧
  (∀ (s : State) (rd ra : BitVec 5) (dst src : BitVec 6) (rm : BitVec 3) (sat : BitVec 1),
    let i : Instr := .fcvt rd ra dst src rm sat
    let q := s.cur.rqf
    s.ready i = true →
    ((dst = 0x0B ∨ src = 0x0B) ∧ 24 < q.toNat →
      exec i s = .next (s.raise s.who (some s.strm) 0x23 (q.zeroExtend 64))) ∧
    (¬((dst = 0x0B ∨ src = 0x0B) ∧ 24 < q.toNat) →
      let c := s.core s.who
      let rb := if rm = 4 then
          rbStream (c.seen 0x00A s.strm c.srseed).toNat (c.strm s.strm).srctr.toNat 0 (strmCode s.strm) else 0
      let x := decodeNum q.toNat src.toNat ((s.cur.val ra).toNat % 2 ^ fmtWidth src.toNat)
      let y := (convert q.toNat x dst.toNat rm.toNat (sat == 1) rb).code
      exec i s = .next (s.completedStrm i fun t =>
        { t.setReg rd.toNat (if dst = 0x08 ∨ dst = 0x0A ∨ dst = 0x0B then BitVec.ofInt 64 (sint (fmtWidth dst.toNat) y)
            else BitVec.ofNat 64 y)
          with srctr := if rm = 4 then t.srctr + 1 else t.srctr })))

/-! ## Control flow, rendezvous and events -/

/-- R119, R120, R122 and R66: a branch that is not taken goes on in sequence; a taken branch, jmp, jmpr and ret go on at
their target where it passes R66, and raise ILLEGAL_LINE with the target as FINFO where it does not.
R64, R66: jmpr and ret of a register with a bit above bit 27 set raise ILLEGAL_LINE with the register as FINFO, where the
target passes the rows of R66 before it.
R119: the branch conditions, 0 eq, 1 ne, 2 lt, 3 ge, 4 ltu, 5 geu; a branch whose condition fails has no effect but
to go on in sequence.
R121: call goes on at its target with the PC form of its successor in s31, or 0 where the chain ends; with a target
that fails R66 nothing is written and ILLEGAL_LINE is raised.
A transfer to a line that the stream may not execute at all (another stream's, of count 0, with bit 25) completes, and its
fetch reports it, also where the register of jmpr or ret has a bit above bit 27: the model's reading of the order of R66's
rows (DEDUCED, unsafe: log entry 70). -/
def Obligations.Jumps : Prop :=
  (∀ (s : State) (i : Instr) (p : Pc),
    s.ready i = true →
    (match i with
      | .br cond ra rb off slot =>
        brTaken cond.toNat (s.cur.val ra) (s.cur.val rb) = true ∧
          p = ⟨BitVec.ofInt 24 (s.cur.pc.line.toNat + off.toInt), slot⟩
      | .jmp off slot => p = ⟨BitVec.ofInt 24 (s.cur.pc.line.toNat + off.toInt), slot⟩
      | .jmpr ra => s.cur.val ra = p.form
      | .ret => s.cur.reg 31 = p.form
      | _ => False) →
    (s.targetOk s.who s.strm p = true → exec i s = .next (s.completedAt i s p)) ∧
      (s.targetOk s.who s.strm p = false → exec i s = .next (s.raise s.who (some s.strm) 0x02 p.form))) ∧
  (∀ (s : State) (i : Instr) (v : W64),
    let p : Pc := ⟨BitVec.ofNat 24 (v.toNat / 16), BitVec.ofNat 4 v.toNat⟩
    s.ready i = true → (∃ ra, i = .jmpr ra ∧ s.cur.val ra = v) ∨ (i = .ret ∧ s.cur.reg 31 = v) → 2 ^ 28 ≤ v.toNat →
    (s.targetOk s.who s.strm p = false → exec i s = .next (s.raise s.who (some s.strm) 0x02 p.form)) ∧
    (s.targetOk s.who s.strm p = true →
      (foreignLine (s.enteredWord s.who s.strm p) s.strm = false →
        exec i s = .next (s.raise s.who (some s.strm) 0x02 v)) ∧
      (foreignLine (s.enteredWord s.who s.strm p) s.strm = true →
        exec i s = .next (s.completedAt i s p)))) ∧
  (∀ (s : State) (cond : BitVec 3) (ra rb : BitVec 5) (off : BitVec 9) (slot : BitVec 4),
    let a := s.cur.val ra
    let b := s.cur.val rb
    s.ready (.br cond ra rb off slot) = true →
    (brTaken cond.toNat a b = true ↔
      (cond = 0 ∧ a = b) ∨ (cond = 1 ∧ a ≠ b) ∨ (cond = 2 ∧ a.toInt < b.toInt) ∨ (cond = 3 ∧ b.toInt ≤ a.toInt) ∨
        (cond = 4 ∧ a.toNat < b.toNat) ∨ (cond = 5 ∧ b.toNat ≤ a.toNat)) ∧
    (brTaken cond.toNat a b = false →
      exec (.br cond ra rb off slot) s = .next (s.completed (.br cond ra rb off slot) s))) ∧
  (∀ (s : State) (off : BitVec 22) (slot : BitVec 4),
    let i : Instr := .call off slot
    let p : Pc := ⟨BitVec.ofInt 24 (s.cur.pc.line.toNat + off.toInt), slot⟩
    let link := match s.successor s.who s.strm s.cur.pc with | some q => q.form | none => 0
    s.ready i = true →
    (s.targetOk s.who s.strm p = true → exec i s = .next (s.completedAt i (s.modCur fun t => t.setReg 31 link) p)) ∧
      (s.targetOk s.who s.strm p = false → exec i s = .next (s.raise s.who (some s.strm) 0x02 p.form)))

/-- R124: loop counts lc[k] up while it stays below s[ra][31:0] and goes on at its target; else it sets lc[k] to 0, counts
a hardware-loop exit with a snapshot (R393), and goes on in sequence; where a later stream has taken a snapshot in the ac it
waits for the next one (log entry 2). With a target that fails R66 lc[k] is unchanged.
R126, R267: brq waits, as a watchdog wait, where bq holds no bit that was pushed before this ac; else it pops one bit and
branches where the bit equals pol. With a target that fails R66 the bit stays at the head.
The number 0 of that watchdog wait is the model's reading of R269 (DEDUCED, unsafe: log entry 19). -/
def Obligations.LoopAndBrq : Prop :=
  (∀ (s : State) (k : BitVec 2) (ra : BitVec 5) (off : BitVec 9) (slot : BitVec 4),
    let i : Instr := .loop k ra off slot
    let n : W32 := s.cur.loopCtr k.toNat + 1
    let bound : W32 := (s.cur.val ra).truncate 32
    let p : Pc := ⟨BitVec.ofInt 24 (s.cur.pc.line.toNat + off.toInt), slot⟩
    s.ready i = true →
    (n.toNat < bound.toNat → s.targetOk s.who s.strm p = true →
      exec i s = .next (s.completedAt i (s.modCur fun t => { t with lc := set t.lc k.toNat n }) p)) ∧
    (n.toNat < bound.toNat → s.targetOk s.who s.strm p = false →
      exec i s = .next (s.raise s.who (some s.strm) 0x02 p.form)) ∧
    (bound.toNat ≤ n.toNat → (s.core s.who).snapLate s.strm = true → exec i s = .next (s.modCur fun t => t.waits .others)) ∧
    (bound.toNat ≤ n.toNat → (s.core s.who).snapLate s.strm = false →
      exec i s = .next (s.completed i ((s.modCur fun t => { t with lc := set t.lc k.toNat 0 }).loopExit s.who s.strm)))) ∧
  (∀ (s : State) (pol : BitVec 1) (off : BitVec 9) (slot : BitVec 4),
    let i : Instr := .brq pol off slot
    let p : Pc := ⟨BitVec.ofInt 24 (s.cur.pc.line.toNat + off.toInt), slot⟩
    let popped := s.modCore s.who fun c => { c with bq := c.bq.drop1 64 }
    s.ready i = true →
    ((s.core s.who).bq.ready = [] → exec i s = .next (s.modCur fun t => t.waits (.dog 8 0))) ∧
    ∀ bit rest, (s.core s.who).bq.ready = bit :: rest →
      (bit ≠ (pol == 1) → exec i s = .next (s.completed i popped)) ∧
      (bit = (pol == 1) → s.targetOk s.who s.strm p = true → exec i s = .next (s.completedAt i popped p)) ∧
      (bit = (pol == 1) → s.targetOk s.who s.strm p = false → exec i s = .next (s.raise s.who (some s.strm) 0x02 p.form)))

/-- R127, R130, R132, R134 and nop: nop has no effect; sev waits until its stream's earlier accesses are performed, and then
sets EVFLAG of the two other streams of its core alone, but of none whose wfe has taken an event in this ac; wfe waits
until its stream's EVFLAG is 1, and then clears it; trap completes and raises TRAP with its code as FINFO; rdv arrives
when no register of its stream is pending and no command without a token is incomplete. -/
def Obligations.Events : Prop :=
  ∀ (s : State) (code : BitVec 16),
    (s.ready .nop = true → exec .nop s = .next (s.completed .nop s)) ∧
    (s.ready .sev = true → s.fencePassed s.who s.strm = false → exec .sev s = .next (s.modCur fun t => t.waits .fence)) ∧
    (s.ready .sev = true → s.fencePassed s.who s.strm = true → exec .sev s = .next (s.completedCore .sev fun c =>
      { c with
        l := { c.l with evflag := c.l.evflag || (decide (s.strm ≠ .L) && !c.l.heard) }
        c := { c.c with evflag := c.c.evflag || (decide (s.strm ≠ .C) && !c.c.heard) }
        s := { c.s with evflag := c.s.evflag || (decide (s.strm ≠ .S) && !c.s.heard) } })) ∧
    (s.ready .wfe = true → s.cur.evflag = true →
      exec .wfe s = .next (s.completedStrm .wfe fun t => { t with evflag := false, heard := true })) ∧
    (s.ready .wfe = true → s.cur.evflag = false → exec .wfe s = .next (s.modCur fun t => t.waits .event)) ∧
    (s.ready (.trap code) = true → exec (.trap code) s =
      .next ((s.completed (.trap code) s).raise s.who (some s.strm) 0x39 (code.zeroExtend 64))) ∧
    (s.ready .rdv = true → s.cur.anyPending = none → (s.core s.who).untokened s.strm = false →
      exec .rdv s = .next ((s.modCur fun t => { t with arrived := true }).issued .rdv s.who s.strm))

/-- R135, R378: eret waits until every command, packet and write of its handler has completed, but for a command that feeds a
full queue or waits behind one, which R105 excepts and which goes with the handler's state; the handler's other streams stand
still meanwhile; then the frame's action
byte ends the handler: 0 resumes the stopped job, 1 kills it, 2 escalates; above 2 it raises RANGE. -/
def Obligations.Eret : Prop :=
  ∀ (s : State),
    s.ready .eret = true →
    (s.handlerQuiet s.who = false →
      exec .eret s = .next ((s.modCore s.who fun c => { c with leaving := some s.strm }).modCur fun t => t.waits .engine) ∧
        ∀ x, x ≠ s.strm → (((s.modCore s.who fun c => { c with leaving := some s.strm }).modCur
          fun t => t.waits .engine).core s.who).canIssue x = false) ∧
    (s.handlerQuiet s.who = true →
      let t := s.issued .eret s.who s.strm
      (s.frameAction s.who = 0 → exec .eret s = .next ((t.dropHandler s.who).resumeSaved s.who)) ∧
      (s.frameAction s.who = 1 → exec .eret s = .next ((t.dropHandler s.who).killSaved s.who)) ∧
      (s.frameAction s.who = 2 → exec .eret s = .next (t.handlerFailed s.who 0)) ∧
      (2 < s.frameAction s.who →
        exec .eret s = .next (s.raise s.who (some s.strm) 0x23 (BitVec.ofNat 64 (s.frameAction s.who)))))

/-! ## Decode faults, stalls and the taking of an exception -/

/-- The privileged instructions of R80: setc of TIMER, TIMERCMP and HSCRATCH among them (R94). -/
def isPrivileged (i : Instr) : Bool :=
  match i with
  | .eret | .binv _ _ | .slotset _ _ => true
  | .setc _ c => c == 0x105 || c == 0x106 || c == 0x109
  | _ => false

/-- R80, in the order of R82: an instruction that its stream may run and that R80 names raises PRIV outside handler mode,
and no effect of it happens; no other instruction needs the mode. -/
def Obligations.Privileged : Prop :=
  (∀ (s : State) (i : Instr),
    s.live = true → i.wf = true → permitted i s.strm = true → i.isEvent = false → isPrivileged i = true →
    (s.core s.who).hm = false →
    exec i s = .next (s.raise s.who (some s.strm) 0x04 (((encode i).getD 0).zeroExtend 64))) ∧
  ∀ i, privileged i = isPrivileged i

/-- R81, R82: a word that is no instruction raises ILLEGAL_OP in its stream, with the word as FINFO, whatever it is.
R81, R82: an instruction in a stream that R78 or R79 does not permit raises STREAM_MISMATCH before any effect. -/
def Obligations.DecodeChecks : Prop :=
  (∀ (s : State) (w : BitVec 32),
    s.live = true → exec (.illegalOp w) s = .next (s.raise s.who (some s.strm) 0x01 (w.zeroExtend 64))) ∧
  (∀ (s : State) (i : Instr),
    s.live = true → i.wf = true → i.isEvent = false → permitted i s.strm = false →
    exec i s = .next (s.raise s.who (some s.strm) 0x03 (((encode i).getD 0).zeroExtend 64)))

/-- R103, R270: an instruction that names a pending register changes nothing but its stream's wait, a watchdog wait on a
token. -/
def Obligations.PendingStall : Prop :=
  ∀ (s : State) (i : Instr) (n : Nat),
    s.live = true → i.wf = true → i.isEvent = false → permitted i s.strm = true →
    (privileged i = true → (s.core s.who).hm = true) → ¬((s.core s.who).regain.isSome = true ∧ s.strm = .C) →
    firstPending i s.cur = some n →
    exec i s = .next (s.modCur fun t => t.waits (.dog 11 n))

/-- R82, R369, R370: taking a precise fault adds the cause, with its stream and FINFO, to the core's causes, stops the
stream, and begins the stop of a running core or joins the one in progress; every register, every memory, every queue and
every other core stay as they are. -/
def Obligations.Raise : Prop :=
  ∀ (s : State) (k : Nat) (x : Strm) (cause : Nat) (finfo : W64),
    let c := s.core k
    let t := s.raise k (some x) cause finfo
    let d := t.core k
    s.sameOutside t ∧ s.sameOthers t k ∧ c.sameMem d ∧
    d.raised = c.raised ++ [Raised.mk cause (some x) finfo] ∧
    d.strm x = { c.strm x with stopped := true } ∧ (∀ y, y ≠ x → d.strm y = c.strm y) ∧
    { d with l := c.l, c := c.c, s := c.s, raised := c.raised, phase := c.phase, traceBits := c.traceBits,
             begun := c.begun } = c ∧
    (c.phase = .running ∨ c.phase = .draining → d.phase = .stopping .fault ∧ d.begun = true) ∧
    (∀ kind, c.phase = .stopping kind → d.phase = .stopping .fault ∧ d.begun = c.begun)

/-- R377: a handler is entered with STATUS.hm set, the frame's code, stream, line addresses and FINFO in its registers, the
frame's handle in FFRAME, REGION the stopped job's, and the handler region's code and header line as its job. Where that
header can be read and gives no operand slot a register, each stream starts at the header's entry for it. -/
def Obligations.HandlerEntry : Prop :=
  ∀ (s : State) (k g depth g' d' : Nat),
    let pool := (s.core k).pool
    let num := fun off n => s.imageNum pool (areaSize * faultArea k + off) n
    let u := s.setFrameItem pool (faultArea k) 4 d'
    s.handlerRegion 9 g depth = (some g', d') →
    let c := (s.enterHandler k g depth).core k
    c.hm = true ∧ c.depth = d' ∧ c.fframe = BitVec.ofNat 32 pool ∧
      c.code = BitVec.ofNat 8 (if d' = 0 then num 0 1 else 0x3F) ∧ c.fstream = BitVec.ofNat 2 (num 1 1) ∧
      c.finfo = BitVec.ofNat 64 (num 0x10 8) ∧ c.flineL = BitVec.ofNat 64 (num 0x18 8) ∧
      c.flineC = BitVec.ofNat 64 (num 0x20 8) ∧ c.flineS = BitVec.ofNat 64 (num 0x28 8) ∧
      c.region = BitVec.ofNat 32 ((s.savedJob k (faultArea k)).getD {}).region ∧
      c.theJob.kind = .handler ∧ c.theJob.region = g' ∧ c.theJob.code = u.hcode g' ∧ c.theJob.hline = u.hline g' ∧
      ∀ h, u.readHeader (u.hcode g') (u.hline g') = some h → (∀ i, i < 8 → (h.slots.getD i (0, 0)).2 = 0) →
        ∀ x, (c.strm x).pc = h.entries.getD (strmCode x) {}

/-- R63, R67, R107, R388: what completion adds to an effect `t` of the issuing stream: in every other core and outside the
cores nothing; in its core the stream's program counter and fetched line, its wait and issue marks, the counters that
count the issue and the trace bits, and nothing else. Each pmc rises by 1 for each event that it selects: an instruction
of the stream, one of the vector port, one that draws *rb*; a pmc that cntclr names, or cntsel has set, is 0 where the
job's virtual function owns it (R389). -/
def Obligations.CompletionFrame : Prop :=
  ∀ (s t : State) (i : Instr),
    let k := s.who
    let x := s.strm
    let u := s.completed i t
    let c := t.core k
    let d := u.core k
    t.sameOutside u ∧ t.sameOthers u k ∧
    { d with l := c.l, c := c.c, s := c.s, ctr := c.ctr, traceBits := c.traceBits } = c ∧
    { d.ctr with pmc := c.ctr.pmc } = c.ctr ∧
    (∀ n : Nat,
      let counts := fun ev y => (c.ctr.pmcsel.filter fun p => p.1 == n && t.pmcCounts c p.2.toNat ev y).length
      let named := n < 16 ∧ ((∃ r m, i = .cntsel r m ∧ m.toNat = n) ∨ ∃ m, i = .cntclr m ∧ m.toNat = n) ∧
        bitsOf (look 0 c.ctr.pmcsel n).toNat 29 3 = t.vf c.theJob.region
      (named → look 0 d.ctr.pmc n = 0) ∧
      (¬named → look 0 d.ctr.pmc n = look 0 c.ctr.pmc n + BitVec.ofNat 48 (counts 2 (some x) +
        (if vectorPort i = true then counts 4 none else 0) + if draws i c = true then counts 15 (some x) else 0))) ∧
    (∀ y, y ≠ x → d.strm y = c.strm y) ∧
    { d.strm x with pc := (c.strm x).pc, past := (c.strm x).past, wait := (c.strm x).wait, dog := (c.strm x).dog,
                    issued := (c.strm x).issued, ran := (c.strm x).ran, skip := (c.strm x).skip
                    fetched := (c.strm x).fetched } = c.strm x ∧
    (d.strm x).wait = none ∧ (d.strm x).dog = 0 ∧ (d.strm x).issued = (c.strm x).issued + 1 ∧
    (match t.successor k x (c.strm x).pc with
      | some p => (d.strm x).pc = p ∧ (d.strm x).past = (c.strm x).past ∧ (d.strm x).fetched =
          if p.line = (c.strm x).pc.line ∧ p.slot = (c.strm x).pc.slot + 1 then (c.strm x).fetched else some (p.line.toNat, t.lineWords k p.line.toNat)
      | none => (d.strm x).pc = (c.strm x).pc ∧ (d.strm x).past = true ∧ (d.strm x).fetched = (c.strm x).fetched)

/-! ## Control registers -/

/-- R101, R94: getc writes the register as it stands, or zero where only a handler may read it; setc writes the register's
fields. R100: what another stream's setc has written in this ac getc does not see, and of two streams' writes of one ac the
later stream's remains. -/
def Obligations.GetcSetc : Prop :=
  ∀ (s : State) (r : BitVec 5) (n : BitVec 12),
    let c := s.core s.who
    (s.ready (.getc r n) = true → find c.written n.toNat = none →
      exec (.getc r n) s = .next (s.completedReg (.getc r n) r
        (if cregHandlerRead n.toNat = true ∧ c.hm = false then 0 else c.creg s.who s.strm s.time n.toNat))) ∧
    (s.ready (.setc r n) = true → cregShared n.toNat = false → c.setcBad n.toNat (s.cur.val r) = false →
      exec (.setc r n) s = .next (s.completedCore (.setc r n) fun c => c.setCreg s.strm s.time n.toNat (s.cur.val r))) ∧
    (s.ready (.setc r n) = true → cregShared n.toNat = true → find c.written n.toNat = none →
      exec (.setc r n) s = .next (s.completedCore (.setc r n) fun c =>
        { c.setCreg s.strm s.time n.toNat (s.cur.val r) with
          written := set c.written n.toNat ([strmCode s.strm], c.creg s.who s.strm s.time n.toNat) })) ∧
    (∀ ws was, find c.written n.toNat = some (ws, was) →
      (s.ready (.getc r n) = true → (cregHandlerRead n.toNat = true → c.hm = true) →
        exec (.getc r n) s = .next (s.completedReg (.getc r n) r
          (if strmCode s.strm ∈ ws then c.creg s.who s.strm s.time n.toNat else was))) ∧
      (s.ready (.setc r n) = true → cregShared n.toNat = true → c.setcBad n.toNat (s.cur.val r) = false →
        exec (.setc r n) s = .next (s.completedCore (.setc r n) fun c =>
          { (if ∃ y ∈ ws, strmCode s.strm < y then c else c.setCreg s.strm s.time n.toNat (s.cur.val r)) with
            written := set c.written n.toNat (strmCode s.strm :: ws, was) }))) ∧
    (s.ready (.setc r n) = true → c.setcBad n.toNat (s.cur.val r) = true →
      exec (.setc r n) s = .next (s.raise s.who (some s.strm) 0x23 (s.cur.val r)))

/-- R94, R101: what setc writes, getc of the same stream reads, on the bits that the register has. -/
def Obligations.ControlRegisterReadsBack : Prop :=
  ∀ (c : CoreSt) (x : Strm) (k : Nat) (time v : W64),
    let rd := fun n => (c.setCreg x time n v).creg k x time n
    rd 0x001 = v &&& 1 ∧ rd 0x002 = v ∧ rd 0x003 = v &&& 0xFF ∧ rd 0x004 = v &&& 0xFFFFFFFF ∧
    rd 0x005 = v &&& 0xFFFFFFFF ∧ rd 0x006 = v &&& 0xFFFFFFFF ∧ rd 0x007 = v &&& 0xFFFFFFFF ∧ rd 0x008 = v &&& 7 ∧
    rd 0x009 = v &&& 31 ∧ rd 0x00A = v ∧ rd 0x010 = v &&& 7 ∧ rd 0x011 = v &&& 63 ∧ rd 0x014 = v &&& 0x3FFFF ∧
    rd 0x015 = v &&& 0x3FFFF ∧ (c.debug = false → rd 0x105 = v) ∧ rd 0x106 = v ∧ rd 0x109 = v ∧
    ∀ n, 0x020 ≤ n → n ≤ 0x027 → rd n = v &&& 0xFFFF7F3F

/-! ## The scratchpad -/

/-- The bytes that a load-or-store instruction of R192 or R193 accesses: effective address, byte count. -/
def scratchAccess (i : Instr) (t : StreamSt) : Option (Nat × Nat) :=
  match i with
  | .ld _ ra size _ imm | .st _ ra size _ imm => some ((t.val ra + imm.signExtend 64).toNat, 2 ^ size.toNat)
  | .amoAdd _ ra _ w | .amoMin _ ra _ w | .amoMax _ ra _ w | .amoAnd _ ra _ w | .amoOr _ ra _ w | .amoXor _ ra _ w
  | .amoSwap _ ra _ w | .cas _ ra _ _ w => some ((t.val ra).toNat, if w = 1 then 8 else 4)
  | _ => none

/-- The number that an instruction of R192 or R193 stores over `old`, both of `n` bytes; none where it stores nothing. -/
def scratchStore (i : Instr) (t : StreamSt) (n old : Nat) : Option Nat :=
  let v := fun r : BitVec 5 => (t.val r).toNat % 2 ^ (8 * n)
  match i with
  | .st rs .. => some (v rs)
  | .amoAdd _ _ rb _ => some ((old + v rb) % 2 ^ (8 * n))
  | .amoMin _ _ rb _ => some (if sint (8 * n) old < sint (8 * n) (v rb) then old else v rb)
  | .amoMax _ _ rb _ => some (if sint (8 * n) old < sint (8 * n) (v rb) then v rb else old)
  | .amoAnd _ _ rb _ => some (old &&& v rb)
  | .amoOr _ _ rb _ => some (old ||| v rb)
  | .amoXor _ _ rb _ => some (old ^^^ v rb)
  | .amoSwap _ _ rb _ => some (v rb)
  | .cas _ _ rb rc _ => some (if old = v rb then v rc else old)
  | _ => none

/-- A store with release order (R192, R232). -/
def isRelease (i : Instr) : Bool :=
  match i with
  | .st _ _ _ order _ => order == 1
  | _ => false

/-- The scalar register that an instruction of R192 or R193 loads; s0 where it loads none. -/
def scratchLoad (i : Instr) : BitVec 5 :=
  match i with
  | .ld rd .. | .amoAdd rd .. | .amoMin rd .. | .amoMax rd .. | .amoAnd rd .. | .amoOr rd .. | .amoXor rd ..
  | .amoSwap rd .. | .cas rd .. => rd
  | _ => 0

/-- The first watch that an access of these instructions meets: a load, a store, or an atomic, which is both (R383). -/
def scratchWatch (i : Instr) (c : CoreSt) (ps : List (Nat × Nat)) : Option W64 :=
  match i with
  | .ld .. => c.watchHit false false ps
  | .st .. => c.watchHit false true ps
  | _ => (c.watchHit false true ps).or (c.watchHit false false ps)

/-- R192, R193, R190, R383: a load, store or atomic inside the scratchpad, aligned, completes: it writes the old value,
zero-extended, into its destination, the new value into its bytes, and the guard record where it touches a guard granule; one
that a watch meets completes and raises WATCH. A store with release order waits at its instruction until its stream's earlier
accesses are performed (R232; that it waits there, and so never merges: DESIGN CHOICE, unsafe, log entry 71).
R156, R192: outside the scratchpad an access of these instructions raises SCRATCH_RANGE, else unaligned MISALIGN, with
the address as FINFO, and no byte moves. -/
def Obligations.ScratchAccess : Prop :=
  (∀ (s : State) (i : Instr) (ea n : Nat),
    s.ready i = true → scratchAccess i s.cur = some (ea, n) → ea + n ≤ 2 ^ 20 → ea % n = 0 →
    (isRelease i = true → s.fencePassed s.who s.strm = true) →
    let old := (s.core s.who).scratch.num ea n
    let store := scratchStore i s.cur n old
    let done := s.completedCore i fun c =>
      ((match store with
        | some v => ({ c with scratch := c.scratch.setNum ea n v } : CoreSt)
        | none => c).modStrm s.strm fun t => t.setReg (scratchLoad i).toNat (BitVec.ofNat 64 old)).touch
          [(ea, n)] (strmCode s.strm) (strmCode s.strm) (strmPort s.strm) store.isSome
    (scratchWatch i (s.core s.who) [(ea, n)] = none → exec i s = .next done) ∧
    ∀ w, scratchWatch i (s.core s.who) [(ea, n)] = some w → exec i s = .next (done.raise s.who (some s.strm) 0x3B w)) ∧
  (∀ (s : State) (i : Instr) (ea n : Nat),
    s.ready i = true → scratchAccess i s.cur = some (ea, n) →
    (2 ^ 20 < ea + n → exec i s = .next (s.raise s.who (some s.strm) 0x09 (BitVec.ofNat 64 (ea % 2 ^ 63)))) ∧
    (ea + n ≤ 2 ^ 20 → ea % n ≠ 0 → exec i s = .next (s.raise s.who (some s.strm) 0x0A (BitVec.ofNat 64 (ea % 2 ^ 63)))) ∧
    (ea + n ≤ 2 ^ 20 → ea % n = 0 → isRelease i = true → s.fencePassed s.who s.strm = false →
      exec i s = .next (s.modCur fun t => t.waits .fence)))

/-- The frame of R192 and R193 on memory: after a next state, every byte of the issuing core's scratchpad outside the
stored bytes, every byte of its other memories, and every memory outside the core read as before; the stored bytes hold
the stored number, least significant byte lowest (R7). -/
def Obligations.ScratchFrame : Prop :=
  ∀ (s t : State) (i : Instr) (ea n : Nat),
    scratchAccess i s.cur = some (ea, n) → s.ready i = true → s.spOk ea n n = true →
    (isRelease i = true → s.fencePassed s.who s.strm = true) → exec i s = .next t →
    let c := s.core s.who
    let d := t.core s.who
    s.sameOutside t ∧ s.sameOthers t s.who ∧ d.acc = c.acc ∧ d.tiles = c.tiles ∧ d.ring = c.ring ∧
    ∀ a, d.scratch.byte a =
      match scratchStore i s.cur n (c.scratch.num ea n) with
      | some v => if ea ≤ a ∧ a < ea + n then BitVec.ofNat 8 (v / 2 ^ (8 * (a - ea))) else c.scratch.byte a
      | none => c.scratch.byte a

/-- R194, R223: a fence waits while an access of its stream that it covers is not performed, one of scope .slice also while
an acknowledgement of an earlier write to another package is missing (R236), and else completes with no other effect. -/
def Obligations.Fence : Prop :=
  ∀ (s : State) (scope : BitVec 3),
    s.ready (.fence scope) = true →
    (s.fencePassed s.who s.strm = true → (scope = 4 → s.writesDone s.who s.strm = true) →
      exec (.fence scope) s = .next (s.completed (.fence scope) s)) ∧
    (s.fencePassed s.who s.strm = false ∨ (scope = 4 ∧ s.writesDone s.who s.strm = false) →
      exec (.fence scope) s = .next (s.modCur fun t => t.waits .fence))

/-- R195: spal answers −1 and changes nothing where its table is full or no run of free granules with free or guard
neighbours is long enough; else it takes the lowest such run, marks it and its guards, and answers its first byte. spfree
undoes an allocation that the table holds, and raises RANGE for any other offset. Of one ac's, that of an earlier stream
of L, C, S comes first: after one of a later stream the instruction waits for the next ac (that the moves of an ac may
come in any order: DESIGN CHOICE, log entry 2). -/
def Obligations.DynamicAllocation : Prop :=
  (∀ (s : State) (rd ra : BitVec 5),
    let i : Instr := .spal rd ra
    let c := s.core s.who
    let len := (s.cur.val ra).toNat
    let run := if c.dyn.length = 64 then none else ((List.range (16382 - len)).map (· + 1)).find? (c.fits len)
    s.ready i = true →
    (c.allocLate s.strm = true → exec i s = .next (s.modCur fun t => t.waits .others)) ∧
    (c.allocLate s.strm = false →
    (len = 0 ∨ 16382 < len → exec i s = .next (s.raise s.who (some s.strm) 0x23 (s.cur.val ra))) ∧
    (0 < len → len ≤ 16382 → run = none → exec i s = .next (s.completedCore i fun c =>
      ({ c with allocRan := some (strmCode s.strm) } : CoreSt).modStrm s.strm fun t => t.setReg rd.toNat 0xFFFFFFFFFFFFFFFF)) ∧
    ∀ f, 0 < len → len ≤ 16382 → run = some f →
      exec i s = .next (s.completedCore i fun c =>
        let c : CoreSt := { c with allocRan := some (strmCode s.strm) }
        ({ ((c.setGranules f len 2).setGranule (f - 1) 3).setGranule (f + len) 3 with
            dyn := c.dyn ++ [(f, len)] } : CoreSt).modStrm
          s.strm fun t => t.setReg rd.toNat (BitVec.ofNat 64 (64 * f))))) ∧
  ∀ (s : State) (ra : BitVec 5),
    let i : Instr := .spfree ra
    let c := s.core s.who
    let e := c.dyn.find? fun e => 64 * e.1 == (s.cur.val ra).toNat
    s.ready i = true →
    (c.allocLate s.strm = true → exec i s = .next (s.modCur fun t => t.waits .others)) ∧
    (c.allocLate s.strm = false →
    (e = none → exec i s = .next (s.raise s.who (some s.strm) 0x23 (s.cur.val ra))) ∧
    ∀ f len, e = some (f, len) →
      exec i s = .next (s.completedCore i fun c =>
        (((({ c with dyn := c.dyn.filter fun e => e.1 != f, allocRan := some (strmCode s.strm) } : CoreSt).setGranules f len 0).dropGuard
          (f - 1)).dropGuard (f + len))))

/-! ## Vector instructions -/

/-- What a lanewise instruction gives: destination, predicate (0 where it carries none), whether it rounds by RMODE, and
the value of lane j; `x`, `y` are the operands' lanes as 32-bit words. R140 to R147, R151, R155, R164, R299. -/
def laneResult (i : Instr) (c : CoreSt) : Option (BitVec 6 × BitVec 3 × Bool × (Nat → Nat)) :=
  let w := fun (v : BitVec 6) (j : Nat) => (BitVec.ofNat 32 (c.lane v j) : BitVec 32)
  let m := c.c.rmode.toNat
  let rb := fun e => if m = 4 then rbStream (c.seen 0x00A .C c.srseed).toNat c.c.srctr.toNat e 1 else 0
  let sp := fun f x => roundArith 0 (if m = 4 then 0 else m) 0 (f (decodeNum 0 0 x))
  let h := fun (x : BitVec 32) (n : Nat) => (x.toNat / 2 ^ (16 * n)) % 2 ^ 16
  let halves := fun (f : Nat → Nat) => f 0 % 2 ^ 16 + 2 ^ 16 * (f 1 % 2 ^ 16)
  let pf := fun (ty : BitVec 1) => if ty = 1 then 2 else 1
  match i with
  | .vadd vd va vb mk => some (vd, mk, true, fun j => fpAdd 0 m (rb j) (c.lane va j) (c.lane vb j))
  | .vsub vd va vb mk => some (vd, mk, true, fun j => fpSub 0 m (rb j) (c.lane va j) (c.lane vb j))
  | .vmul vd va vb mk => some (vd, mk, true, fun j => fpMul 0 m (rb j) (c.lane va j) (c.lane vb j))
  | .vmin vd va vb mk => some (vd, mk, false, fun j => fpMin 0 (c.lane va j) (c.lane vb j))
  | .vmax vd va vb mk => some (vd, mk, false, fun j => fpMax 0 (c.lane va j) (c.lane vb j))
  | .vabs vd va mk => some (vd, mk, false, fun j => (w va j &&& 0x7FFFFFFF).toNat)
  | .vneg vd va mk => some (vd, mk, false, fun j => (w va j ^^^ 0x80000000).toNat)
  | .vfma vd va vb vc ty => some (vd, 0, true, fun j =>
      if ty = 0 then fpFma 0 m (rb j) (c.lane va j) (c.lane vb j) (c.lane vc j)
      else halves fun n => fpFma ty.toNat m (rb (2 * j + n)) (h (w va j) n) (h (w vb j) n) (h (w vc j) n))
  | .vaddPacked vd va vb mk ty => some (vd, mk, true, fun j =>
      halves fun n => fpAdd (pf ty) m (rb (2 * j + n)) (h (w va j) n) (h (w vb j) n))
  | .vsubPacked vd va vb mk ty => some (vd, mk, true, fun j =>
      halves fun n => fpSub (pf ty) m (rb (2 * j + n)) (h (w va j) n) (h (w vb j) n))
  | .vmulPacked vd va vb mk ty => some (vd, mk, true, fun j =>
      halves fun n => fpMul (pf ty) m (rb (2 * j + n)) (h (w va j) n) (h (w vb j) n))
  | .vminPacked vd va vb mk ty => some (vd, mk, false, fun j =>
      halves fun n => fpMin (pf ty) (h (w va j) n) (h (w vb j) n))
  | .vmaxPacked vd va vb mk ty => some (vd, mk, false, fun j =>
      halves fun n => fpMax (pf ty) (h (w va j) n) (h (w vb j) n))
  | .vabsPacked vd va mk _ => some (vd, mk, false, fun j => (w va j &&& 0x7FFF7FFF).toNat)
  | .vnegPacked vd va mk _ => some (vd, mk, false, fun j => (w va j ^^^ 0x80008000).toNat)
  | .vexp2 vd va mk => some (vd, mk, false, fun j => sp exp2Num (c.lane va j))
  | .vlog2 vd va mk => some (vd, mk, false, fun j => sp log2Num (c.lane va j))
  | .vrcp vd va mk => some (vd, mk, false, fun j => sp rcpNum (c.lane va j))
  | .vrsq vd va mk => some (vd, mk, false, fun j => sp rsqNum (c.lane va j))
  | .vtanh vd va mk => some (vd, mk, false, fun j => tanh32 (c.lane va j))
  | .vsigm vd va mk => some (vd, mk, false, fun j => sigm (c.lane va j))
  | .vsel vd va vb sel => some (vd, 0, false, fun j => if (c.mask sel).getLsbD j then c.lane va j else c.lane vb j)
  | .vand vd va vb mk => some (vd, mk, false, fun j => (w va j &&& w vb j).toNat)
  | .vor vd va vb mk => some (vd, mk, false, fun j => (w va j ||| w vb j).toNat)
  | .vxor vd va vb mk => some (vd, mk, false, fun j => (w va j ^^^ w vb j).toNat)
  | .vshl vd va vb mk => some (vd, mk, false, fun j => (w va j <<< ((w vb j).toNat % 32)).toNat)
  | .vshr vd va vb mk => some (vd, mk, false, fun j => (w va j >>> ((w vb j).toNat % 32)).toNat)
  | .vsra vd va vb mk => some (vd, mk, false, fun j => ((w va j).sshiftRight ((w vb j).toNat % 32)).toNat)
  | .viadd vd va vb mk => some (vd, mk, false, fun j => (w va j + w vb j).toNat)
  | .visub vd va vb mk => some (vd, mk, false, fun j => (w va j - w vb j).toNat)
  | .vimul vd va vb mk => some (vd, mk, false, fun j => (w va j * w vb j).toNat)
  | .vdeq vd va vs fmt => some (vd, 0, false, fun j =>
      let n := 32 / fmtWidth fmt.toNat
      let code := c.lane va (j / n) / 2 ^ (fmtWidth fmt.toNat * (j % n)) % 2 ^ fmtWidth fmt.toNat
      let sc : Nat := c.lane vs 0 / 2 ^ (8 * (j / 32)) % 2 ^ 8
      if sc = 0xFF then 0x7FC00000
      else (convert 0 ((decodeNum 0 fmt.toNat code).scale ((sc : Int) - 127)) 0 0 false 0).code)
  | .vbcast vd ra mk => some (vd, mk, false, fun _ => ((c.c.val ra).truncate 32 : BitVec 32).toNat)
  | .vins vd ra lane => some (vd, 0, false, fun j =>
      if j = lane.toNat then ((c.c.val ra).truncate 32 : BitVec 32).toNat else c.lane vd j)
  | .vpack vd va vb mk => some (vd, mk, false, fun j =>
      let v := if j < 32 then va else vb
      h (w v (2 * (j % 32))) 0 + 2 ^ 16 * h (w v (2 * (j % 32) + 1)) 0)
  | .vunpk vd va mk => some (vd, mk, false, fun j => h (w va (j / 2)) (j % 2))
  | .radd vd va vb => some (vd, 0, false, fun j => (w va j + w vb j).toNat)
  | .rsub vd va vb => some (vd, 0, false, fun j => (w va j - w vb j).toNat)
  | _ => none

/-- R76, R136: a lanewise instruction completes: vd takes its value in each lane that the predicate names and keeps the
other lanes; where it rounds by RMODE and RMODE is sr, SRCTR advances by 1.
R76, R91, R136: the frame of a lanewise instruction: after its next state each lane of vd that the predicate does not
name reads as before, and so do every byte of the accumulators outside the row of vd, every other memory, every mask and
everything outside the core. -/
def Obligations.LaneForms : Prop :=
  (∀ (s : State) (i : Instr) (vd : BitVec 6) (mk : BitVec 3) (rounds : Bool) (f : Nat → Nat),
    let c := s.core s.who
    s.ready i = true → laneResult i c = some (vd, mk, rounds, f) →
    exec i s = .next (s.completedCore i fun c =>
      (c.setRow vd ((List.range 64).map fun j => if mk = 0 ∨ (c.mask mk).getLsbD j then f j else c.lane vd j)).drawn
        (rounds && c.c.rmode == 4))) ∧
  (∀ (s t : State) (i : Instr) (vd : BitVec 6) (mk : BitVec 3) (rounds : Bool) (f : Nat → Nat),
    let c := s.core s.who
    let d := t.core s.who
    s.ready i = true → laneResult i c = some (vd, mk, rounds, f) → exec i s = .next t →
    s.sameOutside t ∧ s.sameOthers t s.who ∧ d.scratch = c.scratch ∧ d.tiles = c.tiles ∧ d.ring = c.ring ∧
    d.masks = c.masks ∧ d.vwin = c.vwin ∧
    (∀ j, j < 64 → ¬(mk = 0 ∨ (c.mask mk).getLsbD j = true) → d.lane vd j = c.lane vd j) ∧
    (∀ j, j < 64 → mk = 0 ∨ (c.mask mk).getLsbD j = true → d.lane vd j = f j % 2 ^ 32) ∧
    ∀ a, ¬(16384 * c.vwin.toNat + 256 * vd.toNat ≤ a ∧ a < 16384 * c.vwin.toNat + 256 * vd.toNat + 256) →
      d.acc.byte a = c.acc.byte a)

/-- The 64 lanes that an instruction that writes one whole row gives: R148, R150, R152, R153, R160 to R163. The fourth
part is whether SRCTR advances. -/
def rowResult (i : Instr) (c : CoreSt) : Option (BitVec 6 × List Nat × Bool) :=
  let on := fun (mk : BitVec 3) j => decide (mk = 0 ∨ (c.mask mk).getLsbD j)
  let keep := fun (mk : BitVec 3) (vd : BitVec 6) (f : Nat → Nat) =>
    (List.range 64).map fun j => if on mk j then f j else c.lane vd j
  match i with
  | .vperm vd va vb mk => some (vd, keep mk vd fun j => c.lane va (c.lane vb j % 64), false)
  | .vrot vd va imm mk => some (vd, keep mk vd fun j => c.lane va ((j + imm.toNat) % 64), false)
  | .vhad vd va mn norm sign =>
    let x := (List.range 64).map fun j =>
      if sign = 1 ∧ (c.mask mn).getLsbD j then c.lane va j ^^^ 2 ^ 31 else c.lane va j
    let y := hadStage (hadStage (hadStage (hadStage (hadStage x 1) 2) 4) 8) 16
    some (vd, if norm = 1 then y.map fun v => fpMul 0 0 0 v 0x3E3504F3 else y, false)
  | .vreds vd va mk ty =>
    let x := (List.range 64).map fun j => if on mk j then c.lane va j else sumIdentity ty.toNat
    some (vd, List.replicate 64 (treeReduce (sumOp ty.toNat) 0 x), false)
  | .vredx vd va mk ty =>
    let x := (List.range 64).map fun j => if on mk j then some (c.lane va j) else none
    some (vd, List.replicate 64 ((treeReduce (maxSome ty.toNat) none x).getD (maxEmpty ty.toNat)), false)
  | .vscan vd va mk ty =>
    some (vd, scanFrom ty.toNat (sumIdentity ty.toNat)
      ((List.range 64).map fun j => if on mk j then some (c.lane va j) else none), false)
  | .vrng vd mk =>
    let sd := (c.seen 0x00A .C c.srseed).toNat
    let ct := c.c.srctr.toNat
    some (vd, keep mk vd fun j => philox ct (ct / 2 ^ 32) j 1 sd (sd / 2 ^ 32), true)
  | _ => none

/-- The lanes that a permute takes, by lane (R153). -/
def permuteLanes (i : Instr) (c : CoreSt) : List Nat :=
  match i with
  | .vperm _ _ vb _ => (List.range 64).map fun j => c.lane vb j % 64
  | .vrot _ _ imm _ => (List.range 64).map fun j => (j + imm.toNat) % 64
  | _ => []

/-- R148, R150, R152, R153, R154, R160 to R163: the whole-row instructions complete. vperm and vrot count in LWC, and wait
while it is 32; they ask the crossbar, as the requester permute, for banks that are free values (DESIGN CHOICE, safe: log
entry 96). vcvt with rq32 and RQF above 24 raises RANGE.
R145, R164, R165: compares, mask operations, vext and vwin complete with these results. -/
def Obligations.RowForms : Prop :=
  ((∀ (s : State) (i : Instr) (vd : BitVec 6) (row : List Nat) (draws : Bool),
    s.ready i = true → rowResult i (s.core s.who) = some (vd, row, draws) →
    let xbar : Bool := (match i with | .vperm .. | .vrot .. => true | _ => false)
    (xbar = false ∨ (s.core s.who).ctr.lwc < 32 →
      exec i s = .next (s.completedCore i fun c =>
        let d := (({ c with ctr := { c.ctr with lwc := if xbar then c.ctr.lwc + 1 else c.ctr.lwc } } : CoreSt).setRow vd row).drawn draws
        if xbar then d.askCrossbar (permuteLanes i c) else d)) ∧
    (xbar = true → 32 ≤ (s.core s.who).ctr.lwc → exec i s = .next (s.modCur fun t => t.waits .crossbar))) ∧
  (∀ (s : State) (vd va fmt : BitVec 6) (dir : BitVec 1) (rm : BitVec 3) (sat : BitVec 1) (part : BitVec 3),
    let i : Instr := .vcvt vd va fmt dir rm sat part
    let q := (s.core s.who).c.rqf
    s.ready i = true →
    (fmt = 0x0B → 24 < q.toNat → exec i s = .next (s.raise s.who (some s.strm) 0x23 (q.zeroExtend 64))) ∧
    (¬(fmt = 0x0B ∧ 24 < q.toNat) →
      exec i s = .next (s.completedCore i fun c => (c.setRow vd ((List.range 64).map fun j =>
        cvtLane q.toNat fmt.toNat dir.toNat rm.toNat (sat == 1) part.toNat
          (if rm = 4 then rbStream (c.seen 0x00A .C c.srseed).toNat c.c.srctr.toNat j 1 else 0) (c.lane vd j)
          (c.lane va j))).drawn (rm == 4)))) ∧
  (∀ (s : State) (vd va vs fmt : BitVec 6),
    let i : Instr := .vquant vd va vs fmt
    s.ready i = true →
    exec i s = .next (s.completedCore i fun c =>
      let x := (List.range 64).map fun j => decodeNum 0 0 (c.lane va j)
      let p := quantBlock fmt.toNat (x.take 32)
      let q := quantBlock fmt.toNat (x.drop 32)
      let c1 := c.setRow vd (packLanes (fmtWidth fmt.toNat) (p.codes ++ q.codes))
      c1.setRow vs ([p.scale + 2 ^ 8 * q.scale, amaxCode p.amax, amaxCode q.amax, p.sat + q.sat] ++
        (if vs = vd then c1.row vs else c.row vs).drop 4))) ∧
  ∀ (s : State) (vd va vb : BitVec 6) (mk : BitVec 3),
    let i : Instr := .vsortk vd va vb mk
    s.ready i = true →
    exec i s = .next (s.completedCore i fun c =>
      let all := (List.range 64).map fun j => (c.on mk j, decodeNum 0 0 (c.lane va j), c.lane vb j)
      c.setRow vd (((((all.filter (·.1)).map (·.2)).foldl (fun l e => sortInsert e l) []).map (·.2)) ++
        (all.filter (!·.1)).map (·.2.2)))) ∧
  (∀ (s : State) (md ma mb mk cond : BitVec 3) (va vb lane : BitVec 6) (ty : BitVec 2) (rd : BitVec 5),
    let c := s.core s.who
    let mask := fun (i : Instr) (v : W64) => s.ready i = true →
      exec i s = .next (s.completedCore i fun c => { c with masks := set c.masks md.toNat v })
    let reg := fun (i : Instr) (v : W64) => s.ready i = true → exec i s = .next (s.completedReg i rd v)
    mask (.vcmp md va vb mk cond ty) (maskOf fun j =>
      c.on mk j && laneCond cond.toNat ty.toNat (c.lane va j) (c.lane vb j)) ∧
    mask (.mand md ma mb) (c.mask ma &&& c.mask mb) ∧ mask (.mor md ma mb) (c.mask ma ||| c.mask mb) ∧
    mask (.mnot md ma) (~~~(c.mask ma)) ∧ reg (.mpop ma rd) (BitVec.ofNat 64 (oneBits (c.mask ma))) ∧
    reg (.vext rd va lane) (BitVec.ofNat 64 (c.lane va lane.toNat)) ∧
    (s.ready (.vwin md) = true → exec (.vwin md) s = .next (s.completedCore (.vwin md) fun c => { c with vwin := md })))

/-- One transfer between the scratchpad and a row: its lanes' addresses, its accesses (first byte, length), whether the
crossbar carries it and whether it stores, its requester class (R190), and the core with its effect. -/
structure RowMove where
  lanes : List Nat
  ps : List (Nat × Nat)
  xbar : Bool
  store : Bool
  req : Nat
  core : CoreSt

/-- What vld, vst, vgth and vsct do: R154, R155, R157. -/
def rowMove (i : Instr) (c : CoreSt) : Option RowMove :=
  let ea := fun (ra : BitVec 5) (imm : BitVec 7) => (c.c.val ra + imm.signExtend 64 * 256).toNat
  let es := fun (ra : BitVec 5) (vi : BitVec 6) (imm : BitVec 7) =>
    (List.range 64).map fun j => (ea ra imm + c.lane vi j) % 2 ^ 64
  let row := fun (v : BitVec 6) => 16384 * c.vwin.toNat + 256 * v.toNat
  let words := fun (es : List Nat) => es.map fun e => (e, 4)
  let take : CoreSt := { c with ctr := { c.ctr with lwc := c.ctr.lwc + 1 } }
  match i with
  | .vld v ra imm => some {
      lanes := (List.range 64).map fun j => ea ra imm + 4 * j, ps := [(ea ra imm, 256)], xbar := true, store := false, req := 1
      core := { take with acc := c.acc.setBytes (row v) (c.scratch.bytes (ea ra imm) 256) } }
  | .vst v ra imm => some {
      lanes := (List.range 64).map fun j => ea ra imm + 4 * j, ps := [(ea ra imm, 256)], xbar := false, store := true, req := 1
      core := { c with scratch := c.scratch.setBytes (ea ra imm) (c.acc.bytes (row v) 256) } }
  | .vgth v ra vi imm => some {
      lanes := es ra vi imm, ps := words (es ra vi imm), xbar := true, store := false, req := 1
      core := take.setRow v ((es ra vi imm).map fun e => c.scratch.num e 4) }
  | .vsct v ra vi imm => some {
      lanes := es ra vi imm, ps := words (es ra vi imm), xbar := true, store := true, req := 6
      core := { take with
        scratch := ((es ra vi imm).zip (c.row v)).foldl (fun m p => m.setNum p.1 4 p.2) c.scratch } }
  | _ => none

/-- R154 to R158, R190, R383: vld, vst, vgth and vsct complete on lanes in range and aligned, those that the crossbar
carries while LWC is below 32, with these rows and bytes; the access is recorded where it touches a guard granule, and
one that a watch meets completes and raises WATCH. Where LWC is 32 a crossbar instruction waits. A lane outside the
scratchpad raises SCRATCH_RANGE, else an unaligned one MISALIGN, with the lowest failing lane's offset as FINFO, and
nothing moves. -/
def Obligations.RowTransfers : Prop :=
  ∀ (s : State) (i : Instr) (m : RowMove),
    let c := s.core s.who
    let done := s.completedCore i fun _ => m.core.touch m.ps 1 m.req (if m.xbar then 4 else 2) m.store
    s.ready i = true → rowMove i c = some m →
    (lanesFault m.lanes = none → m.xbar = false ∨ c.ctr.lwc < 32 →
      (c.watchHit false m.store m.ps = none → exec i s = .next done) ∧
      ∀ w, c.watchHit false m.store m.ps = some w → exec i s = .next (done.raise s.who (some s.strm) 0x3B w)) ∧
    (lanesFault m.lanes = none → m.xbar = true → 32 ≤ c.ctr.lwc →
      exec i s = .next (s.modCur fun t => t.waits .crossbar)) ∧
    ∀ cause a, lanesFault m.lanes = some (cause, a) →
      exec i s = .next (s.raise s.who (some s.strm) cause (BitVec.ofNat 64 (a % 2 ^ 63)))

/-! ## Tiles, the bench and the accumulators -/

/-- R96, R169 to R172, R180, R181, R383: the tile and accumulator instructions complete on legal shapes and rows, and on
addresses in range and aligned; one that a watch meets completes and raises WATCH. tld, tst, ald and ast outside the
scratchpad raise SCRATCH_RANGE, else unaligned MISALIGN, with the address as FINFO. ast to rq32 with RQF above 24 raises
RANGE.
R169, R171, R173, R375: tld and tst of an illegal shape raise TILE_SHAPE with the tile in FINFO; ast with a bad row raises
it with the row, whatever its RQF and its address (the order of those checks: DEDUCED, unsafe, log entry 18). -/
def Obligations.TileForms : Prop :=
  (∀ (s : State) (t : BitVec 3) (ra : BitVec 5) (imm : BitVec 14) (k : BitVec 2) (a : BitVec 3),
    let c := s.core s.who
    let ea := (s.cur.val ra + imm.zeroExtend 64 * 64).toNat
    let sh := c.shape t
    let r := fmtRowOf c.fmtWord
    let on := fun (i : Instr) (p : Bool) (f : CoreSt → CoreSt) =>
      s.ready i = true → p = true → exec i s = .next (s.completedCore i f)
    let mem := fun (i : Instr) (p : Bool) (n : Nat) (store : Bool) (f : CoreSt → CoreSt) =>
      s.ready i = true → p = true →
      let done := s.completedCore i fun c => (f c).touch [(ea, n)] 1 1 2 store
      let fault := fun cause => exec i s = .next (s.raise s.who (some s.strm) cause (BitVec.ofNat 64 (ea % 2 ^ 63)))
      (ea + n ≤ 2 ^ 20 → ea % 64 = 0 →
        (c.watchHit false store [(ea, n)] = none → exec i s = .next done) ∧
        ∀ w, c.watchHit false store [(ea, n)] = some w → exec i s = .next (done.raise s.who (some s.strm) 0x3B w)) ∧
      (2 ^ 20 < ea + n → fault 0x09) ∧ (ea + n ≤ 2 ^ 20 → ea % 64 ≠ 0 → fault 0x0A)
    on (.tshape t ra) true (fun c => { c with tshape := set c.tshape t.toNat (s.cur.val ra &&& 0xFFFF7F3F) }) ∧
    on (.tzero t) true (fun c => { c with tiles := c.tiles.clear (16384 * t.toNat) 16384 }) ∧
    on (.fmtsel k) true (fun c => { c with fmtlc := k }) ∧
    on (.azero a) true (fun c => { c with acc := c.acc.clear (16384 * a.toNat) 16384 }) ∧
    on (.atr a t) true (fun c => { c with acc := c.acc.setBytes (16384 * a.toNat) ((List.range 4096).flatMap fun e =>
      c.acc.bytes (16384 * t.toNat + 256 * (e % 64) + 4 * (e / 64)) 4) }) ∧
    mem (.tld t ra imm) sh.legal sh.bytes false (fun c =>
      { c with tiles := c.tiles.setBytes (16384 * t.toNat) (c.scratch.bytes ea sh.bytes) }) ∧
    mem (.tst t ra imm) sh.legal sh.bytes true (fun c =>
      { c with scratch := c.scratch.setBytes ea (c.tiles.bytes (16384 * t.toNat) sh.bytes) }) ∧
    mem (.ald a ra imm) true 16384 false (fun c =>
      { c with acc := c.acc.setBytes (16384 * a.toNat) (c.scratch.bytes ea 16384) }) ∧
    mem (.ast a ra imm) (fmtRowOk c.fmtWord && !(r.out == 0x0B && decide (24 < c.c.rqf.toNat)))
      (512 * fmtWidth r.out + (if fmtWidth r.out ≤ 8 then 32 else 0)) true (fun c =>
        ({ c with scratch := c.scratch.setBytes ea (c.astBytes a r) } : CoreSt).drawn (r.rm == 4)) ∧
    (s.ready (.ast a ra imm) = true → fmtRowOk c.fmtWord = true → r.out = 0x0B → 24 < c.c.rqf.toNat →
      exec (.ast a ra imm) s = .next (s.raise s.who (some s.strm) 0x23 (c.c.rqf.zeroExtend 64)))) ∧
  (∀ (s : State) (t : BitVec 3) (ra : BitVec 5) (imm : BitVec 14),
    let c := s.core s.who
    let bad := BitVec.ofNat 64 (2 ^ 7 + 2 ^ 8 * t.toNat)
    ((c.shape t).legal = false → s.ready (.tld t ra imm) = true →
      exec (.tld t ra imm) s = .next (s.raise s.who (some s.strm) 0x1B bad)) ∧
    ((c.shape t).legal = false → s.ready (.tst t ra imm) = true →
      exec (.tst t ra imm) s = .next (s.raise s.who (some s.strm) 0x1B bad)) ∧
    (fmtRowOk c.fmtWord = false → s.ready (.ast t ra imm) = true →
      exec (.ast t ra imm) s = .next (s.raise s.who (some s.strm) 0x1B (BitVec.ofNat 64 (c.rowIndex + 2 ^ 6)))))

/-- An fp32 element after one chunk with the exact products `ps` (R55): NaN, infinities, and else the sum of the products,
each truncated to 40 bits below the largest, added and rounded to nearest even. -/
def chunkRule (acc : Nat) (ps : List Machine.Num) : Nat :=
  let all := decodeNum 0 0 acc :: ps
  let tops := ps.filterMap fun p => match p with | .fin _ (m + 1) e => some (log2Mag (m + 1) e) | _ => none
  if all.any Machine.Num.isNan || (all.contains (.inf false) && all.contains (.inf true)) then 0x7FC00000
  else if all.contains (.inf false) then 0x7F800000
  else if all.contains (.inf true) then 0xFF800000
  else match tops.max? with
    | none => acc
    | some top =>
      let sum := (ps.map (inUnits (top - 40))).sum
      if sum = 0 then acc else roundArith 0 0 0 (addNum 0 (decodeNum 0 0 acc) (.ofInt sum (top - 40)))

/-- An operand's element under its scale: `scales` is the command's part of sq, in the order of R176, and `b` names operand
B (R51). -/
def scaledElem (x : Mat) (scales : List Nat) (b : Bool) (r k : Nat) (v : Machine.Num) : Machine.Num :=
  let code := scales.getD (k / x.bk * (x.scalesA + x.scalesB) + (if b then x.scalesA else 0) + r / x.bj) 0
  if x.row.scaled b.toNat then (if code = 0xFF then .qnan else v.scale ((code : Int) - 127)) else v

/-- Elements (m, k) of A and (k, n) of B as R174 reads the tiles. -/
def elemA (c : CoreSt) (x : Mat) (scales : List Nat) (m k : Nat) : Machine.Num :=
  scaledElem x scales false m k (decodeNum 0 x.row.a (c.tileCode x.ta x.sa m k))
def elemB (c : CoreSt) (x : Mat) (scales : List Nat) (n k : Nat) : Machine.Num :=
  scaledElem x scales true n k (decodeNum 0 x.row.b (if x.trans then c.tileCode x.tb x.sb k n else c.tileCode x.tb x.sb n k))

/-- Element (m, n) of the accumulator after chunks `lo` to `hi` - 1 of a matrix command that finds `old` there: in increasing
K, by R55 or, for integer rows, modulo 2^32 by R56. -/
def benchPart (c : CoreSt) (x : Mat) (scales : List Nat) (lo hi old m n : Nat) : Nat :=
  ((List.range hi).drop lo).foldl (fun acc j =>
    let ks := (List.range x.k).filter fun k => k / x.kc == j
    if x.row.acc = 1 then
      wrap 32 (acc + (ks.map fun k => (elemA c x scales m k).toInt * (elemB c x scales n k).toInt).sum)
    else chunkRule acc (ks.map fun k => mulNum (elemA c x scales m k) (elemB c x scales n k)) % 2 ^ 32) old

/-- After all of its chunks. -/
def benchElem (c : CoreSt) (x : Mat) (scales : List Nat) (old m n : Nat) : Nat := benchPart c x scales 0 x.chunks old m n

/-- Scales that the chunks of a command before `j` take (R176). -/
def scalesBefore (x : Mat) (j : Nat) : Nat := ((List.range j).map x.need).sum

/-- What R175 asks of tile A and of tile B. -/
def tileAFits (x : Mat) : Prop :=
  x.sa.fmt = x.row.a ∧ x.sa.legal = true ∧ x.m ≤ 64 ∧ 1 ≤ x.k ∧ x.k ≤ 16 * x.kc ∧
    (x.row.scaled 0 = true → x.k % x.bk = 0 ∧ x.m % x.bj = 0)
def tileBFits (x : Mat) : Prop :=
  x.sb.fmt = x.row.b ∧ x.sb.legal = true ∧ 1 ≤ x.n ∧ x.n ≤ 64 ∧ (if x.trans then x.sb.rows else x.sb.cols) = x.k ∧
    (x.row.scaled 1 = true → x.k % x.bk = 0 ∧ x.n % x.bj = 0)

/-- R173, R175 to R179, R182 to R185: a matrix command whose row and shapes pass raises LEASE_OVERRUN without a lease; on
a held lease it waits while the bench still runs its partner's last command or power throttling withholds its first chunk
(DESIGN CHOICE, safe: log entry 81), and else, with the scales of all its chunks in sq, it completes: element (m, n) of
its accumulator, for m below M and n below N, takes the value of R55 or R56; it takes its scales and one count of the
lease, the last of which frees the bench; of its core only the performance counters, the trace bits and the held-command
record can change besides, and no other byte of the accumulators, and nothing in another core. A row or a shape that fails
raises TILE_SHAPE with the row, and with the tile that fails, A before B; so does tpop of an illegal shape.
R178: a mmas whose scales run short holds its first chunk without them, with those it has taken, and waits on sq, or
raises STREAM_DESYNC where L has arrived; the chunks before it are in the accumulator; executed again it goes on at that
chunk.
R170: tpop on a legal shape takes the entries that it needs, in order: it completes where the queue holds them all; else
it takes what is there, counts it in the held-command record, and waits, as a watchdog wait that begins again when an
entry was taken. The order of a command's checks and the moment of its count of the lease are the model's reading
(DEDUCED, unsafe: log entries 18 and 17). -/
def Obligations.MatrixForms : Prop :=
  (∀ (s : State) (i : Instr) (d ta tb : BitVec 3) (trans scaled : Bool) (x : Mat),
    (i = .mma d ta tb ∧ trans = false ∧ scaled = false) ∨ (i = .mmas d ta tb ∧ trans = false ∧ scaled = true) ∨
      (i = .mmat d ta tb ∧ trans = true ∧ scaled = false) →
    let c := s.core s.who
    let scales := ((List.range x.chunks).map x.need).sum
    s.ready i = true → c.matrix ta tb trans scaled = .inl x → c.theJob.held = false →
    (c.held = false → exec i s = .next (s.raise s.who (some s.strm) 0x1A (BitVec.ofNat 64 c.left.toNat))) ∧
    (c.held = true → s.benchBusy s.who = true → exec i s = .next (s.modCur fun t => t.waits .lease)) ∧
    (c.held = true → s.benchBusy s.who = false → s.throttled s.who = true →
      exec i s = .next (s.modCur fun t => t.waits .power)) ∧
    (c.held = true → s.benchBusy s.who = false → s.throttled s.who = false → scales ≤ c.sq.ready.length →
      ∃ t, runMatrix s x d = .ok t ∧ exec i s = .next (s.completed i t) ∧
        let e := t.core s.who
        let taken := (c.sq.ready.take scales).map BitVec.toNat
        let base := 16384 * d.toNat
        e.left = c.left - 1 ∧ e.held = decide (c.left ≠ 1) ∧ e.sq.items = c.sq.items.drop scales ∧
        (∀ m n, m < x.m → n < x.n →
          e.acc.num (base + 256 * m + 4 * n) 4 = benchElem c x taken (c.acc.num (base + 256 * m + 4 * n) 4) m n) ∧
        (∀ a, ¬(a / 16384 = d.toNat ∧ a % 16384 / 256 < x.m ∧ a % 256 < 4 * x.n) → e.acc.byte a = c.acc.byte a) ∧
        { e with acc := c.acc, sq := c.sq, left := c.left, held := c.held, heldRec := c.heldRec
                 heldScales := c.heldScales, ctr := c.ctr, traceBits := c.traceBits } = c ∧
        e.heldRec = 0 ∧ e.heldScales = [] ∧ { e.ctr with pmc := c.ctr.pmc } = c.ctr ∧ t.sameOthers s s.who ∧
        { t with cores := s.cores } =
          if c.left = 1 then s.setBench (benchOf s.who) { s.bench (benchOf s.who) with holder := 0 } else s)) ∧
  (∀ (s : State) (i : Instr) (d ta tb : BitVec 3) (trans scaled : Bool),
    (i = .mma d ta tb ∧ trans = false ∧ scaled = false) ∨ (i = .mmas d ta tb ∧ trans = false ∧ scaled = true) ∨
      (i = .mmat d ta tb ∧ trans = true ∧ scaled = false) →
    let c := s.core s.who
    let x : Mat := { row := fmtRowOf c.fmtWord, ta := ta, tb := tb, trans := trans, sa := c.shape ta, sb := c.shape tb }
    let rowFits := fmtRowOk c.fmtWord = true ∧ (scaled = true ↔ x.row.mode ≠ 0)
    let shape := fun n => exec i s = .next (s.raise s.who (some s.strm) 0x1B (BitVec.ofNat 64 (c.rowIndex + n)))
    s.ready i = true →
    (¬rowFits → shape (2 ^ 6)) ∧ (rowFits → ¬tileAFits x → shape (2 ^ 7 + 2 ^ 8 * ta.toNat)) ∧
    (rowFits → tileAFits x → ¬tileBFits x → shape (2 ^ 7 + 2 ^ 8 * tb.toNat)) ∧
    (rowFits → tileAFits x → tileBFits x → c.matrix ta tb trans scaled = .inl x)) ∧
  (∀ (s : State) (d ta tb : BitVec 3) (x : Mat),
    let i : Instr := .mmas d ta tb
    let c := s.core s.who
    let going := c.theJob.held
    let j0 := if going then c.heldRec.toNat / 2 ^ 48 % 2 ^ 8 else 0
    let had := if going then c.heldScales.map BitVec.toNat else []
    let scales := List.replicate (scalesBefore x j0) 0 ++ had ++ c.sq.ready.map BitVec.toNat
    let base := 16384 * d.toNat
    let after := fun (e : CoreSt) (hi : Nat) =>
      (∀ m n, m < x.m → n < x.n → e.acc.num (base + 256 * m + 4 * n) 4 =
        benchPart c x scales j0 hi (c.acc.num (base + 256 * m + 4 * n) 4) m n) ∧
      (∀ a, ¬(a / 16384 = d.toNat ∧ a % 16384 / 256 < x.m ∧ a % 256 < 4 * x.n) → e.acc.byte a = c.acc.byte a) ∧
      e.tiles = c.tiles ∧ e.scratch = c.scratch ∧ e.ring = c.ring
    s.ready i = true → c.matrix ta tb false true = .inl x → s.benchBusy s.who = false →
    (going = true → j0 < x.chunks ∧ had.length < x.need j0) →
    (going = false → c.held = true ∧ s.throttled s.who = false) →
    (going = true → scalesBefore x x.chunks ≤ scales.length → ∃ t : State, exec i s = .next (s.completed i t) ∧
      after (t.core s.who) x.chunks ∧ (t.core s.who).heldRec = 0 ∧ (t.core s.who).theJob.held = false ∧
      (t.core s.who).sq.items = c.sq.items.drop (scalesBefore x x.chunks - scalesBefore x j0 - had.length)) ∧
    ∀ j, j0 ≤ j → j < x.chunks → scalesBefore x j ≤ scales.length → scales.length < scalesBefore x (j + 1) →
      ∃ t : State, exec i s = .next t ∧ after (t.core s.who) j ∧ (t.core s.who).theJob.held = c.job.isSome ∧
        (t.core s.who).heldRec = BitVec.ofNat 64 (2 ^ 48 * j + 2 ^ 40 * (scales.length - scalesBefore x j)) ∧
        (t.core s.who).heldScales = (scales.drop (scalesBefore x j)).map (BitVec.ofNat 8) ∧
        (t.core s.who).sq.items = c.sq.items.drop c.sq.ready.length ∧
        (c.l.arrived = false → ((t.core s.who).strm s.strm).wait = some (.dog 6 0)) ∧
        (c.l.arrived = true → ∃ v, Raised.mk 0x18 (some s.strm) v ∈ (t.core s.who).raised)) ∧
  (∀ (s : State) (t : BitVec 3) (q : BitVec 2),
    let i : Instr := .tpop t q
    let c := s.core s.who
    let sh := c.shape t
    (s.ready i = true → sh.legal = false →
      exec i s = .next (s.raise s.who (some s.strm) 0x1B (BitVec.ofNat 64 (2 ^ 7 + 2 ^ 8 * t.toNat)))) ∧
    let n := (sh.bytes + 255) / 256
    let e0 := c.heldRec.toNat % 256
    let got := c.popTile t.toNat q.toNat sh.bytes (n - e0) e0
    s.ready i = true → sh.legal = true →
    (n ≤ got.2 → exec i s = .next (s.completedCore i fun _ => { got.1 with heldRec := 0 })) ∧
    (got.2 < n →
      let c' := { got.1 with heldRec := BitVec.ofNat 64 got.2 }
      exec i s = .next ((s.setCore s.who (if got.2 = e0 then c' else c'.modStrm s.strm fun y => { y with wait := none })).modStrm
        s.who s.strm fun y => y.waits (.dog 2 q.toNat))))

/-- R182, R183: lease releases a held lease and asks for the bench, waits while the request stands, and goes on when it
has been granted; unlease releases. From the ac after a request on (those of one ac are decided at its end), a grant goes
to the core of a free bench that asks, and to the one that was not the last holder where both do; one that a resume asked
for is not one that a lease instruction awaits (R184). -/
def Obligations.Lease : Prop :=
  (∀ (s : State) (n : BitVec 7),
    let i : Instr := .lease n
    let c := s.core s.who
    (s.ready i = true → c.leaseGot = true →
      exec i s = .next (s.completedCore i fun c => { c with leaseGot := false })) ∧
    (s.ready i = true → c.leaseGot = false → c.leaseReq.isSome = true →
      exec i s = .next (s.modCur fun t => t.waits .lease)) ∧
    (s.ready i = true → c.leaseGot = false → c.leaseReq = none →
      exec i s = .next (((s.releaseLease s.who).modCore s.who fun c => { c with leaseReq := some n, leaseAt := s.time.toNat }).modStrm
        s.who s.strm fun t => t.waits .lease)) ∧
    (s.ready .unlease = true → exec .unlease s = .next (s.completed .unlease (s.releaseLease s.who)))) ∧
  ∀ (s : State) (b : Nat),
    let even := 32 * (b / 16) + 2 * (b % 16)
    let asks := fun k => (s.core k).leaseReq.isSome
    let won := fun k =>
      ((s.core k).leaseAt < s.time.toNat → exec (.benchLeaseGrant b) s = .next
        ((s.setBench b { holder := if k = even then 1 else 2, last := if k = even then 0 else 1 }).modCore k fun c =>
          { c with held := true, left := c.leaseReq.getD 0, leaseReq := none, regain := none
                   leaseGot := c.regain.isNone || c.leaseGot })) ∧
      (s.time.toNat ≤ (s.core k).leaseAt → exec (.benchLeaseGrant b) s = .refused (.notEnabled "BENCH_LEASE_GRANT"))
    (s.bench b).holder = 0 →
    (asks even = true → asks (even + 1) = false → won even) ∧ (asks even = false → asks (even + 1) = true → won (even + 1)) ∧
      (asks even = true → asks (even + 1) = true → won (if (s.bench b).last = 0 then even + 1 else even))

/-! ## Queues, tokens and markers -/

/-- R267, R273: qstat writes the head, tail and occupancy of any dq or oq, as they stood at the start of the ac, from any
stream; it waits for nothing and changes nothing else. -/
def Obligations.Qstat : Prop :=
  ∀ (s : State) (q : BitVec 3) (rd : BitVec 5),
    (∀ x, permitted (.qstat q rd) x = true) ∧
    (s.ready (.qstat q rd) = true →
      let c := s.core s.who
      let v : Queue (List Byte) := if q.toNat < 4 then look {} c.dq q.toNat else look {} c.oq (q.toNat - 4)
      let head := (v.head + 32 - v.popped % 32) % 32
      let n := v.items.length + v.popped - v.pushed
      exec (.qstat q rd) s = .next (s.completedReg (.qstat q rd) rd
        (BitVec.ofNat 64 (head + 2 ^ 8 * ((head + n) % 32) + 2 ^ 16 * n))))

/-- R266, R267, R271 to R274: pushes and pops complete where the queue had room or an entry at the start of the ac: dq and
oq hold 16 entries, bq 64, sq 256, a token FIFO 32; what is pushed or popped in an ac counts from the next. A push of dq
or sq also waits for transfers of its stream that have entries of the queue to push (R268).
R266 to R269: the same instructions wait, as watchdog waits of these kinds and numbers, where the queue is full or empty,
or is fed by a transfer of the stream.
R275 to R277: mark places a marker in each named queue where none of them holds 15, and else waits; joinm completes when
every marker of its stream has reached the head of its queue. Where R269 names no number of a kind of wait, the number is
the model's reading (DEDUCED, unsafe: log entry 19). -/
def Obligations.QueueForms : Prop :=
  ((∀ (s : State) (n : BitVec 2) (o : BitVec 1) (v : BitVec 6) (ra rd : BitVec 5) (f : BitVec 3) (k : BitVec 3),
    let c := s.core s.who
    let a := s.cur.val ra
    let row := 16384 * c.vwin.toNat + 256 * v.toNat
    let dq := look {} c.dq n.toNat
    let oq := look {} c.oq o.toNat
    let tk := look {} c.tk f.toNat
    let on := fun (i : Instr) (g : CoreSt → CoreSt) => exec i s = .next (s.completedCore i g)
    (s.ready (.qpushDq n ra) = true → scratchFault a.toNat 256 64 = none → c.feeding s.strm n.toNat = false →
      dq.items.length + dq.popped < 16 → on (.qpushDq n ra) fun c =>
        ({ c with dq := set c.dq n.toNat { dq with
            items := dq.items ++ [c.scratch.bytes a.toNat 256], pushed := dq.pushed + 1 } } : CoreSt).touch
          [(a.toNat, 256)] 0 0 0 false) ∧
    (s.ready (.qpushOq o v) = true → oq.items.length + oq.popped < 16 → on (.qpushOq o v) fun c =>
      { c with oq := set c.oq o.toNat { oq with items := oq.items ++ [c.acc.bytes row 256], pushed := oq.pushed + 1 } }) ∧
    (∀ e r, s.ready (.qpopDq n v) = true → dq.items = e :: r → dq.pushed ≤ r.length → on (.qpopDq n v) fun c =>
      { c with dq := set c.dq n.toNat { dq with head := (dq.head + 1) % 32, items := r, popped := dq.popped + 1 }
               acc := c.acc.setBytes row e }) ∧
    (∀ e r, s.ready (.qpopOq o ra) = true → scratchFault a.toNat 256 64 = none → oq.items = e :: r → oq.pushed ≤ r.length →
      on (.qpopOq o ra) fun c =>
        ({ c with oq := set c.oq o.toNat { oq with head := (oq.head + 1) % 32, items := r, popped := oq.popped + 1 }
                  scratch := c.scratch.setBytes a.toNat e } : CoreSt).touch [(a.toNat, 256)] 2 2 1 true) ∧
    (s.ready (.bqpush ra) = true → c.bq.items.length + c.bq.popped < 64 → on (.bqpush ra) fun c =>
      { c with bq := { c.bq with items := c.bq.items ++ [a.getLsbD 0], pushed := c.bq.pushed + 1 } }) ∧
    (s.ready (.tksend f ra) = true → tk.items.length + tk.popped < 32 → on (.tksend f ra) fun c =>
      { c with tk := set c.tk f.toNat { tk with items := tk.items ++ [a.truncate 16], pushed := tk.pushed + 1 } }) ∧
    (∀ e r, s.ready (.tkrecv f rd) = true → tk.items = e :: r → tk.pushed ≤ r.length → on (.tkrecv f rd) fun c =>
      ({ c with tk := set c.tk f.toNat { tk with head := (tk.head + 1) % 64, items := r, popped := tk.popped + 1 } } :
        CoreSt).modStrm s.strm fun t => t.setReg rd.toNat (e.zeroExtend 64)) ∧
    (s.ready (.sqpush ra k) = true → c.feeding s.strm 4 = false → c.sq.items.length + c.sq.popped + (k.toNat + 1) ≤ 256 →
      on (.sqpush ra k) fun c => { c with sq := { c.sq with
        items := c.sq.items ++ (List.range (k.toNat + 1)).map fun j => BitVec.ofNat 8 (a.toNat / 2 ^ (8 * j))
        pushed := c.sq.pushed + (k.toNat + 1) } })) ∧
  (∀ (s : State) (n : BitVec 2) (o : BitVec 1) (v : BitVec 6) (ra rd : BitVec 5) (f k : BitVec 3),
    let c := s.core s.who
    let waits := fun (i : Instr) (p : Prop) (kind num : Nat) =>
      s.ready i = true → p → exec i s = .next (s.modCur fun t => t.waits (.dog kind num))
    waits (.qpushDq n ra) (scratchFault (s.cur.val ra).toNat 256 64 = none ∧
      (c.feeding s.strm n.toNat = true ∨ (look {} c.dq n.toNat).hasRoom 16 1 = false)) 1 n.toNat ∧
    waits (.qpushOq o v) ((look {} c.oq o.toNat).hasRoom 16 1 = false) 3 (4 + o.toNat) ∧
    waits (.qpopDq n v) ((look {} c.dq n.toNat).ready = []) 2 n.toNat ∧
    waits (.qpopOq o ra) (scratchFault (s.cur.val ra).toNat 256 64 = none ∧ (look {} c.oq o.toNat).ready = []) 4
      (4 + o.toNat) ∧
    waits (.bqpush ra) (c.bq.hasRoom 64 1 = false) 7 0 ∧
    waits (.tksend f ra) ((look {} c.tk f.toNat).hasRoom 32 1 = false) 9 f.toNat ∧
    waits (.tkrecv f rd) ((look {} c.tk f.toNat).ready = []) 10 f.toNat ∧
    waits (.sqpush ra k) (c.feeding s.strm 4 = true ∨ c.sq.hasRoom 256 (k.toNat + 1) = false) 5 0 ∧
    waits .joinm (c.liveMarks s.strm ≠ []) 12 0)) ∧
  (∀ (s : State) (mask : BitVec 4),
    let c := s.core s.who
    let live := c.liveMarks s.strm
    let named := (List.range 4).filter mask.getLsbD
    (s.ready (.mark mask) = true → (∀ k ∈ named, (live.filter fun m => m.1 == k).length < 15) →
      ∃ ms, exec (.mark mask) s = .next (s.completedStrm (.mark mask) fun t => { t with marks := ms }) ∧
        ∀ m, m ∈ ms ↔ (m ∈ live ∨ (m.1 ∈ named ∧ m.2 = s.cur.seq)) ∧
          ∃ a ∈ c.incomplete s.strm, a.cls = m.1 ∧ a.seq < m.2) ∧
    (∀ k, s.ready (.mark mask) = true → (named.find? fun k => 15 ≤ (live.filter fun m => m.1 == k).length) = some k →
      exec (.mark mask) s = .next (s.modCur fun t => t.waits (.dog 13 k))) ∧
    (s.ready .joinm = true → live = [] → exec .joinm s = .next (s.completed .joinm s)))

/-! ## Stack scope -/

/-- R253, R254, R259, R260, R383: lds completes on an address in range and aligned that no packet of its stream overlaps,
and waits while one does, or while a slot's content is due in its column (R250); an lds or sts that a watch meets
completes and raises WATCH; outside the segment they raise SCRATCH_RANGE, else unaligned MISALIGN, with the address and
bit 63 as FINFO; sts enters the stream's stack queue where its owner has a packet-capable slot and the queue holds fewer
than 8, waits while it holds 8, and raises SLOT_NONE without a slot; swatch and slotq complete, or raise RANGE (which of
swatch's operands is its FINFO: DEDUCED, unsafe, log entry 33). -/
def Obligations.StackForms : Prop :=
  ∀ (s : State) (rd ra rb : BitVec 5) (size : BitVec 2) (imm : BitVec 12),
    let ea := (s.cur.val ra + imm.signExtend 64).toNat
    let n := 2 ^ size.toNat
    let col := s.column (colOf s.who)
    let region := (s.core s.who).theJob.region
    let owned := fun want => ((List.range 64).filter fun j =>
      slotOwned (col.slotEntry j) (layerId s.who) region && want (col.slotEntry j))
    let watched := fun (i : Instr) (store : Bool) (done : State) =>
      ((s.core s.who).watchHit true store [(ea, n)] = none → exec i s = .next done) ∧
      ∀ w, (s.core s.who).watchHit true store [(ea, n)] = some w → exec i s = .next (done.raise s.who (some s.strm) 0x3B w)
    let outside := fun (i : Instr) => s.ready i = true →
      let fault := fun cause => exec i s = .next (s.raise s.who (some s.strm) cause (BitVec.ofNat 64 (2 ^ 63 + ea % 2 ^ 63)))
      (2 ^ 18 < ea + n → fault 0x09) ∧ (ea + n ≤ 2 ^ 18 → ea % n ≠ 0 → fault 0x0A)
    (s.ready (.lds rd ra size imm) = true → ea + n ≤ 2 ^ 18 → ea % n = 0 → s.scopeBlocked s.who s.strm ea n = false →
      s.scopeDue (colOf s.who) = false →
      watched (.lds rd ra size imm) false (s.completedReg (.lds rd ra size imm) rd (BitVec.ofNat 64 (col.seg.num ea n)))) ∧
    outside (.lds rd ra size imm) ∧ outside (.sts rd ra size imm) ∧
    (s.ready (.lds rd ra size imm) = true → ea + n ≤ 2 ^ 18 → ea % n = 0 → s.scopeBlocked s.who s.strm ea n = true →
      exec (.lds rd ra size imm) s = .next (s.modCur fun t => t.waits .stackQueue)) ∧
    (s.ready (.lds rd ra size imm) = true → ea + n ≤ 2 ^ 18 → ea % n = 0 → s.scopeBlocked s.who s.strm ea n = false →
      s.scopeDue (colOf s.who) = true → exec (.lds rd ra size imm) s = .next (s.modCur fun t => t.waits .others)) ∧
    (s.ready (.sts rd ra size imm) = true → ea + n ≤ 2 ^ 18 → ea % n = 0 → owned slotPackets ≠ [] →
      8 ≤ s.cur.stackq.length → exec (.sts rd ra size imm) s = .next (s.modCur fun t => t.waits .stackQueue)) ∧
    (s.ready (.sts rd ra size imm) = true → ea + n ≤ 2 ^ 18 → ea % n = 0 → owned slotPackets ≠ [] →
      s.cur.stackq.length < 8 →
      watched (.sts rd ra size imm) true (s.completedStrm (.sts rd ra size imm) fun t => { t with
        stackq := t.stackq ++ [{ op := .write, ea := ea, n := n, v := (s.cur.val rd).toNat % 2 ^ (8 * n)
                                 issued := s.time.toNat, core := s.who, strm := s.strm, region := region
                                 after := if s.strm = .L then (s.core s.who).bulkCount else 0 }] })) ∧
    (s.ready (.sts rd ra size imm) = true → ea + n ≤ 2 ^ 18 → ea % n = 0 → owned slotPackets = [] →
      exec (.sts rd ra size imm) s =
        .next (s.raise s.who (some s.strm) 0x30 (BitVec.ofNat 64 (layerId s.who + 2 ^ 8)))) ∧
    (s.ready (.swatch ra rb) = true → (s.cur.val ra).toNat + (s.cur.val rb).toNat ≤ 2 ^ 18 →
      exec (.swatch ra rb) s = .next (s.completedStrm (.swatch ra rb) fun t => { t with
        watchStart := (s.cur.val ra).truncate 18, watchLen := (s.cur.val rb).truncate 19, watchFrom := s.time.toNat })) ∧
    (s.ready (.swatch ra rb) = true → 2 ^ 18 < (s.cur.val ra).toNat + (s.cur.val rb).toNat →
      exec (.swatch ra rb) s = .next (s.raise s.who (some s.strm) 0x23
        (if 2 ^ 18 < (s.cur.val ra).toNat then s.cur.val ra else s.cur.val rb))) ∧
    (s.ready (.slotq rd ra) = true →
      let put := fun v : W64 => exec (.slotq rd ra) s = .next (s.completedReg (.slotq rd ra) rd v)
      (s.cur.val ra = 0 → put (BitVec.ofNat 64 (owned slotPackets).length)) ∧
      (s.cur.val ra = 1 → put (BitVec.ofNat 64 (owned slotBulk).length)) ∧
      (s.cur.val ra = 2 → put (col.untilSlot s.time.toNat (owned slotPackets))) ∧
      (s.cur.val ra = 3 → put (col.round.zeroExtend 64)) ∧
      (s.cur.val ra = 4 → put (BitVec.ofNat 64 s.cur.stackq.length)) ∧
      (4 < (s.cur.val ra).toNat → exec (.slotq rd ra) s = .next (s.raise s.who (some s.strm) 0x23 (s.cur.val ra))))

/-- The packet operation of an atomic on stack scope, with rd, ra, rb and width: R255. -/
def scopeAtomic (i : Instr) (t : StreamSt) : Option (PacketOp × BitVec 5 × BitVec 5 × BitVec 5 × Nat) :=
  let n := fun w : BitVec 1 => if w = 1 then 8 else 4
  match i with
  | .amosAdd rd ra rb w => some (.amo 0 rd.toNat, rd, ra, rb, n w)
  | .amosMin rd ra rb w => some (.amo 1 rd.toNat, rd, ra, rb, n w)
  | .amosMax rd ra rb w => some (.amo 2 rd.toNat, rd, ra, rb, n w)
  | .amosAnd rd ra rb w => some (.amo 3 rd.toNat, rd, ra, rb, n w)
  | .amosOr rd ra rb w => some (.amo 4 rd.toNat, rd, ra, rb, n w)
  | .amosXor rd ra rb w => some (.amo 5 rd.toNat, rd, ra, rb, n w)
  | .amosSwap rd ra rb w => some (.amo 6 rd.toNat, rd, ra, rb, n w)
  | .cass rd ra rb rc w => some (.cas ((t.val rc).toNat % 2 ^ (8 * n w)) rd.toNat, rd, ra, rb, n w)
  | _ => none

/-- R255, R256: an atomic on stack scope enters the stream's stack queue, with its destination pending, where its owner has
a packet-capable slot, no guard touch is recorded and the queue holds fewer than 8; it raises WATCH as well where a watch
meets it (R383). An owner without such a slot raises SLOT_NONE with its layer and the kind required; a recorded guard
touch is reported as GUARD_TOUCH instead, and cleared; at a queue of 8 the stream waits. Outside the segment it raises
SCRATCH_RANGE, else unaligned MISALIGN, with the address and bit 63 as FINFO. -/
def Obligations.ScopeAtomics : Prop :=
  ∀ (s : State) (i : Instr) (op : PacketOp) (rd ra rb : BitVec 5) (n : Nat),
    let c := s.core s.who
    let ea := (s.cur.val ra).toNat
    let p : Packet := { op := op, ea := ea, n := n, v := (s.cur.val rb).toNat % 2 ^ (8 * n), issued := s.time.toNat
                        core := s.who, strm := s.strm, region := c.theJob.region
                        after := if s.strm = .L then c.bulkCount else 0 }
    s.ready i = true → scopeAtomic i s.cur = some (op, rd, ra, rb, n) →
    let fault := fun cause => exec i s = .next (s.raise s.who (some s.strm) cause (BitVec.ofNat 64 (2 ^ 63 + ea % 2 ^ 63)))
    (2 ^ 18 < ea + n → fault 0x09) ∧ (ea + n ≤ 2 ^ 18 → ea % n ≠ 0 → fault 0x0A) ∧
    (ea + n ≤ 2 ^ 18 → ea % n = 0 →
    let done := s.completedStrm i fun t => { t with stackq := t.stackq ++ [p] }.setPending rd.toNat
    let watch := (c.watchHit true true [(ea, n)]).or (c.watchHit true false [(ea, n)])
    (s.hasPacketSlot s.who = true → c.guard = 0 → s.cur.stackq.length < 8 →
      (watch = none → exec i s = .next done) ∧
      ∀ w, watch = some w → exec i s = .next (done.raise s.who (some s.strm) 0x3B w)) ∧
    (s.hasPacketSlot s.who = true → c.guard = 0 → 8 ≤ s.cur.stackq.length →
      exec i s = .next (s.modCur fun t => t.waits .stackQueue)) ∧
    (s.hasPacketSlot s.who = false →
      exec i s = .next (s.raise s.who (some s.strm) 0x30 (BitVec.ofNat 64 (layerId s.who + 2 ^ 8)))) ∧
    (s.hasPacketSlot s.who = true → c.guard ≠ 0 →
      exec i s = .next ((s.setCore s.who { c with guard := 0 }).raise s.who (some s.strm) 0x08 c.guard)))

/-- R257: sbcast enters the core's bulk queue, with its token pending, where its operands pass, its owner has a
bulk-capable slot, and the queue holds fewer than 4; with 4 held the stream waits. A bad length, a zero mask, a misaligned
offset, a range past the scratchpad, a mask bit without a role, a role that names no cores of the column, and an owner
without a bulk-capable slot raise their causes, in this order.
R246, R261: slotset of a sound entry that its region may own and has the budget for is pending at once, where no post of
a higher COREID of this ac stands for it; the instruction waits for the round boundary that applies it, and completes
there; any other raises RANGE. -/
def Obligations.SbcastAndSlotset : Prop :=
  (∀ (s : State) (rd ra rb rc : BitVec 5) (dests : List Nat),
    let c := s.core s.who
    let i : Instr := .sbcast rd ra rb rc
    let off := (s.cur.val ra).toNat
    let len := (s.cur.val rb).toNat
    let mask := (s.cur.val rc).toNat
    s.ready i = true → 0 < len → len % 64 = 0 → off % 64 = 0 → off + len ≤ 2 ^ 20 → 0 < mask →
    mask < 2 ^ c.theJob.roles.length → roleCores c.theJob.roles mask (colOf s.who) = some dests →
    (s.column (colOf s.who)).ownedSlots slotBulk (layerId s.who) c.theJob.region ≠ [] → c.bulk.length < 4 →
    exec i s = .next (s.completedCore i fun c =>
      ({ c with
          bulk := c.bulk ++ [{ tok := rd.toNat, off := off, len := len, dests := dests, region := c.theJob.region
                               buf := s.cur.buftag, seq := s.cur.seq, nth := c.bulkCount, at_ := s.time.toNat
                               entered := c.entered }]
          bulkCount := c.bulkCount + 1, entered := c.entered + 1 } : CoreSt).modStrm s.strm fun t =>
        { t.setPending rd.toNat with seq := t.seq + 1 })) ∧
  (∀ (s : State) (rd ra rb rc : BitVec 5),
    let c := s.core s.who
    let i : Instr := .sbcast rd ra rb rc
    let off := (s.cur.val ra).toNat
    let len := (s.cur.val rb).toNat
    let mask := (s.cur.val rc).toNat
    let fault := fun (cause : Nat) (v : W64) => exec i s = .next (s.raise s.who (some s.strm) cause v)
    let lenOk := 0 < len ∧ len % 64 = 0
    let inRoles := mask < 2 ^ c.theJob.roles.length
    let dests := roleCores c.theJob.roles mask (colOf s.who)
    let slots := (s.column (colOf s.who)).ownedSlots slotBulk (layerId s.who) c.theJob.region
    s.ready i = true →
    (¬lenOk → fault 0x23 (s.cur.val rb)) ∧ (lenOk → mask = 0 → fault 0x23 0) ∧
    (lenOk → mask ≠ 0 → off % 64 ≠ 0 → fault 0x0A (BitVec.ofNat 64 (off % 2 ^ 63))) ∧
    (lenOk → mask ≠ 0 → off % 64 = 0 →
      (2 ^ 20 < off + len → fault 0x09 (BitVec.ofNat 64 (off % 2 ^ 63))) ∧
      (off + len ≤ 2 ^ 20 →
        (¬inRoles → fault 0x23 (s.cur.val rc)) ∧ (inRoles → dests = none → fault 0x23 (s.cur.val rc)) ∧
        (inRoles → dests ≠ none →
          (slots = [] → fault 0x30 (BitVec.ofNat 64 (layerId s.who + 2 * 2 ^ 8))) ∧
          (slots ≠ [] → 4 ≤ c.bulk.length → exec i s = .next (s.modCur fun t => t.waits .bulkQueue)))))) ∧
  (∀ (s : State) (ra rb : BitVec 5),
    let i : Instr := .slotset ra rb
    let n := (s.cur.val ra).toNat
    let e := s.cur.val rb
    let col := s.column (colOf s.who)
    s.ready i = true →
    (s.cur.wait ≠ some .boundary → n < 64 → slotSound e = true →
      (slotKind e ≠ 0 → s.isWithin (slotRegion e) (s.core s.who).theJob.region = true ∧
        col.ownedAfter n e (slotRegion e) ≤ s.slotsBudget (slotRegion e)) →
      let was := find col.slotsPending n
      let keeps : Bool := was.any fun p => p.at_ == s.time.toNat && s.who < p.core
      exec i s = .next (((s.modColumn (colOf s.who) fun c =>
        if keeps then c else { c with slotsPending := set c.slotsPending n ⟨e, s.who, s.time.toNat⟩ }).modCore s.who
          fun c => { c with posted := true }).modStrm s.who s.strm fun t => t.waits .boundary)) ∧
    (s.cur.wait ≠ some .boundary → 64 ≤ n → exec i s = .next (s.raise s.who (some s.strm) 0x23 (s.cur.val ra))) ∧
    (s.cur.wait ≠ some .boundary → n < 64 → slotSound e = false ∨ (slotKind e ≠ 0 ∧
      (s.isWithin (slotRegion e) (s.core s.who).theJob.region = false ∨
        s.slotsBudget (slotRegion e) < col.ownedAfter n e (slotRegion e))) →
      exec i s = .next (s.raise s.who (some s.strm) 0x23 e)) ∧
    (s.cur.wait = some .boundary → (s.core s.who).posted = false → exec i s = .next (s.completed i s)) ∧
    (s.cur.wait = some .boundary → (s.core s.who).posted = true →
      exec i s = .next (s.modCur fun t => t.waits .boundary)))

/-! ## Engine commands -/

/-- The token, descriptor and second operand of an engine command. -/
def commandFields (i : Instr) : Option (BitVec 5 × BitVec 5 × BitVec 5) :=
  match i with
  | .cpy tok ra rb _ _ _ _ _ | .cpyq tok ra rb _ | .gth tok ra rb _ _ | .coll tok ra rb _ _ | .nmc tok ra rb _
  | .dec tok ra rb _ _ => some (tok, ra, rb)
  | _ => none

/-- R278, R279, R102, R281: an engine command whose descriptor lies in range, aligned, and passes its checks enters its
stream's queue of its class where there is room, with the descriptor as it stands, the operands' values, the stream's
BUFTAG and RQF and the ac, and its token becomes pending; the read of the descriptor may touch a guard granule. One that
fails a check raises its cause with the operand as FINFO.
R279: a descriptor outside the scratchpad raises SCRATCH_RANGE, and one that is not aligned to 64 bytes MISALIGN, with
the operand as FINFO; nothing is issued. With its queue full it waits, as a watchdog wait of its class's number (DEDUCED,
unsafe: log entry 19). -/
def Obligations.CommandIssue : Prop :=
  (∀ (s : State) (i : Instr) (tok ra rb : BitVec 5),
    let c := s.core s.who
    let off := (s.cur.val ra).toNat
    let m : Cmd := { instr := i, tok := tok.toNat, strm := s.strm, a := s.cur.val ra, b := s.cur.val rb
                     desc := c.scratch.bytes off 64, seq := s.cur.seq, entered := c.entered, at_ := s.time.toNat
                     buf := s.cur.buftag, rqf := s.cur.rqf.toNat }
    s.ready i = true → commandFields i = some (tok, ra, rb) → off + 64 ≤ 2 ^ 20 → off % 64 = 0 →
    (∀ e, m.issueFault c.theJob s.who s = some e → exec i s = .next (s.raise s.who (some s.strm) e (s.cur.val ra))) ∧
    (m.issueFault c.theJob s.who s = none → (s.cur.queueOf m.cls).length < classRoom m.cls → c.ranged < 32 →
      exec i s = .next (s.completedCore i fun c =>
        ({ c.modStrm s.strm fun t => { (t.setQueue m.cls (t.queueOf m.cls ++ [m.widen])).setPending tok.toNat with
            seq := t.seq + 1 } with entered := c.entered + 1 } : CoreSt).touch
          [(off, 64)] (strmCode s.strm) (strmCode s.strm) (strmPort s.strm) false)) ∧
    (m.issueFault c.theJob s.who s = none → classRoom m.cls ≤ (s.cur.queueOf m.cls).length ∨ 32 ≤ c.ranged →
      exec i s = .next (s.modCur fun t => t.waits (.dog 13 m.cls)))) ∧
  (∀ (s : State) (i : Instr) (tok ra rb : BitVec 5),
    let off := (s.cur.val ra).toNat
    s.ready i = true → commandFields i = some (tok, ra, rb) →
    (2 ^ 20 < off + 64 → exec i s = .next (s.raise s.who (some s.strm) 0x09 (s.cur.val ra))) ∧
    (off + 64 ≤ 2 ^ 20 → off % 64 ≠ 0 → exec i s = .next (s.raise s.who (some s.strm) 0x0A (s.cur.val ra))))

/-! ## Tensor instructions -/

/-- A tensor instruction may go on to its own effect on handle `h`: no command of its stream is queued, the handle is that
of s[ra], and R360 passes. -/
def tensorReady (s : State) (i : Instr) (ra : BitVec 5) (h : Nat) (classes : List Nat) : Prop :=
  s.ready i = true ∧ s.cur.queued = [] ∧ (s.cur.val ra).toNat % 2 ^ 32 = h ∧ s.tensorFault s.who h classes = none

/-- R360: the common checks, in their order: BLOCK_UNMAPPED for a handle without a valid record, RANGE for a class that the
instruction does not take, and PERM_DENIED with detail 4 for a tensor that is neither shared nor owned by the job's region
or one below it; before them the instruction waits while a command of its stream is queued. -/
def Obligations.TensorChecks : Prop :=
  ∀ (s : State) (rd ra rb rc : BitVec 5) (i : Instr),
    i = .tref rd ra ∨ i = .tunpin ra ∨ i = .thint ra rb ∨ i = .tnewv rd ra rb ∨ i = .tnewvZero rd ra rb ∨
      i = .pubv rd ra ∨ i = .kvalloc rd ra rb ∨ i = .kvmap rd ra rb ∨ i = .kvshare rd ra rb rc ∨ i = .kvfree rd ra rb →
    let h := (s.cur.val ra).toNat % 2 ^ 32
    let takes := match i with
      | .tref .. | .tunpin .. | .thint .. => [0, 1, 3]
      | .tnewv .. | .tnewvZero .. | .pubv .. => [0]
      | _ => [1]
    s.ready i = true →
    (s.cur.queued ≠ [] → exec i s = .next (s.modCur fun t => t.waits .engine)) ∧
    (s.cur.queued = [] → s.tensorValid h = false →
      exec i s = .next (s.raise s.who (some s.strm) 0x10 (BitVec.ofNat 64 h))) ∧
    (s.cur.queued = [] → s.tensorValid h = true → handleClass h ∉ takes →
      exec i s = .next (s.raise s.who (some s.strm) 0x23 (BitVec.ofNat 64 h))) ∧
    (s.cur.queued = [] → s.tensorValid h = true → handleClass h ∈ takes → dShared ((s.tensor h).block 0) = false →
      s.isWithin (s.tensor h).info.region (s.core s.who).theJob.region = false →
      exec i s = .next (s.raise s.who (some s.strm) 0x11 (BitVec.ofNat 64 (h + 2 ^ 56 * 4))))

/-- R361, R345, R356: tref of a tensor that is not dropped, moved or rebuilt pins it and reads its state. With 16 pins
held, or a pin count of 0xFFFF, it raises RANGE. At a dropped tensor, or one that another job rebuilds, the stream waits
and the running job stops to be suspended, in handler mode it waits alone; a failed rebuild of the tensor that the job was
suspended for is raised with its cause, and cleared (DEDUCED, unsafe: log entry 27). While a spill moves the tensor, or in
the job that rebuilds it, tref waits. tunpin lets a pin of its job go.
R362: thint with bit 3 sets nextuse to the greatest value; a legal tier begins a move where one is allowed and else
completes without effect; any other operand raises RANGE. -/
def Obligations.PinForms : Prop :=
  (∀ (s : State) (rd ra : BitVec 5) (h : Nat),
    (tensorReady s (.tref rd ra) ra h [0, 1, 3] → (s.core s.who).pins.length < 16 → (s.core s.who).rebuildFailed h = none →
      ((s.tensor h).info.state < 7 ∨ 9 < (s.tensor h).info.state) → (s.tensor h).info.pin ≠ 0xFFFF →
      let t := (s.pinUp h).modCore s.who fun c => { c with pins := c.pins ++ [h] }
      exec (.tref rd ra) s = .next (s.completed (.tref rd ra)
        (t.modCur fun y => y.setReg rd.toNat (BitVec.ofNat 64 (t.tensor h).info.word0))) ∧
      (t.tensor h).info.pin = (s.tensor h).info.pin + 1) ∧
    (tensorReady s (.tref rd ra) ra h [0, 1, 3] →
      let c := s.core s.who
      let state := (s.tensor h).info.state
      let absent := state = 7 ∨ (state = 9 ∧ c.access.rebuilds ≠ some h)
      let out := fun (cause : Nat) (v : W64) (s : State) =>
        exec (.tref rd ra) s = .next (s.raise s.who (some s.strm) cause v)
      (16 ≤ c.pins.length → out 0x23 (BitVec.ofNat 64 h) s) ∧
      (c.pins.length < 16 → absent → c.rebuildFailed h = none →
        let d := c.awaitRebuild h
        exec (.tref rd ra) s = .next ((s.setCore s.who d).modStrm s.who s.strm fun y => y.waits .engine) ∧
          d.susp = some (c.susp.getD h) ∧ (c.hm = false → c.phase = .running → d.phase = .stopping .suspend) ∧
          (c.hm = true → d.phase = c.phase)) ∧
      (∀ e, c.pins.length < 16 → c.rebuildFailed h = some e →
        exec (.tref rd ra) s =
          .next ((s.setCore s.who { c with failed := none }).raise s.who (some s.strm) e (c.rebuildInfo h e))) ∧
      (c.pins.length < 16 → c.rebuildFailed h = none → state = 8 ∨ (state = 9 ∧ c.access.rebuilds = some h) →
        exec (.tref rd ra) s = .next (s.modCur fun y => y.waits .engine)) ∧
      (c.pins.length < 16 → c.rebuildFailed h = none → state < 7 ∨ 9 < state → (s.tensor h).info.pin = 0xFFFF → out 0x23 (BitVec.ofNat 64 h) s)) ∧
    (tensorReady s (.tunpin ra) ra h [0, 1, 3] → h ∈ (s.core s.who).pins →
      exec (.tunpin ra) s = .next (s.completed (.tunpin ra)
        ((s.modCore s.who fun c => { c with pins := c.pins.erase h }).pinDown h))) ∧
    (tensorReady s (.tunpin ra) ra h [0, 1, 3] → h ∉ (s.core s.who).pins →
      exec (.tunpin ra) s = .next (s.raise s.who (some s.strm) 0x23 (BitVec.ofNat 64 h)))) ∧
  (∀ (s : State) (ra rb : BitVec 5) (h : Nat),
    let i : Instr := .thint ra rb
    let v := (s.cur.val rb).toNat
    let r := (s.tensor h).info
    let moves := r.pin = 0 ∧ 1 ≤ r.state ∧ r.state ≤ 6 ∧ (s.tensor h).tier.any (· != v) = true ∧
      (s.tensor h).blocks.all (fun b => dget b.2 22 1 == 0 && dget b.2 21 1 == 0) = true ∧
      s.takes (handleHome h) (v - 1) h = true
    tensorReady s i ra h [0, 1, 3] →
    (8 ≤ v → v < 16 → exec i s = .next (s.completed i (s.setInfo h fun r => { r with nextuse := 0xFFFFFFFFFFFFFFFF }))) ∧
    (1 ≤ v → v ≤ 3 → moves → exec i s = .next (s.completed i (s.beginAction h (.move v 0 (handleHome h))))) ∧
    (1 ≤ v → v ≤ 3 → ¬moves → exec i s = .next (s.completed i s)) ∧
    (v = 0 ∨ (4 ≤ v ∧ v < 8) ∨ 16 ≤ v → exec i s = .next (s.raise s.who (some s.strm) 0x23 (BitVec.ofNat 64 h))))

/-- R363, R364, R209: tnewv and tnewv.zero open a shadow with the exponent of s[rb] where none is open, and write the
version it will have; pubv publishes the open shadow once no admitted write is on its way, and writes the version; until
then it closes the shadow and waits, also while its own close stands; while another stream's stands it waits. Without write
permission tnewv raises PERM_DENIED with detail 2, and for an exponent of 256 or above, or 128, RANGE. Of one ac's
instructions on a tensor a lower COREID's comes first (R364).
R210, R364: publishing an open shadow of a tensor that does not move raises the version by 1, gives the current
version the shadow's exponent, closes the shadow, and makes the storage of each block that the shadow holds for itself
the current storage; a block that the shadow holds as zero reads as zero. -/
def Obligations.VersionForms : Prop :=
  (∀ (s : State) (rd ra rb : BitVec 5) (h : Nat),
    let t := s.tensor h
    let v := (s.cur.val rb).toNat
    let opened := fun (i : Instr) (zero : Bool) =>
      tensorReady s i ra h [0] → dget (t.block 0) 18 1 = 1 → v < 256 → v ≠ 128 →
      let u := if t.info.shadow = true then s else s.openShadow h zero (BitVec.ofNat 8 v)
      exec i s = .next (s.completed i (u.modCur fun y => y.setReg rd.toNat ((t.info.ver + 1).zeroExtend 64)))
    let me := 4 * s.who + strmCode s.strm
    let mine := t.closing = none ∨ t.closing = some me
    opened (.tnewv rd ra rb) false ∧ opened (.tnewvZero rd ra rb) true ∧
    (∀ i, i = .tnewv rd ra rb ∨ i = .tnewvZero rd ra rb → tensorReady s i ra h [0] →
      (dget (t.block 0) 18 1 = 0 →
        exec i s = .next (s.raise s.who (some s.strm) 0x11 (BitVec.ofNat 64 (h + 2 ^ 56 * 2)))) ∧
      (dget (t.block 0) 18 1 = 1 → 256 ≤ v ∨ v = 128 →
        exec i s = .next (s.raise s.who (some s.strm) 0x23 (BitVec.ofNat 64 h)))) ∧
    (tensorReady s (.pubv rd ra) ra h [0] → s.comesLate s.who h = true →
      exec (.pubv rd ra) s = .next (s.modCur fun y => y.waits .engine)) ∧
    (tensorReady s (.pubv rd ra) ra h [0] → s.comesLate s.who h = false → t.info.shadow = true → ¬mine →
      exec (.pubv rd ra) s = .next (s.modCur fun y => y.waits .engine)) ∧
    (tensorReady s (.pubv rd ra) ra h [0] → s.comesLate s.who h = false → t.info.shadow = true → mine →
      (s.admitted h = false →
        let u := (s.comes s.who h).publish h
        exec (.pubv rd ra) s = .next (s.completed (.pubv rd ra)
          (u.modCur fun y => y.setReg rd.toNat ((u.tensor h).info.ver.zeroExtend 64)))) ∧
      (s.admitted h = true → exec (.pubv rd ra) s = .next (((s.comes s.who h).modTensor h fun t =>
        { t with closing := some me }).modCur fun y => y.waits .engine))) ∧
    (tensorReady s (.pubv rd ra) ra h [0] → s.comesLate s.who h = false → t.info.shadow = false →
      exec (.pubv rd ra) s = .next (s.raise s.who (some s.strm) 0x23 (BitVec.ofNat 64 h)))) ∧
  (∀ (s : State) (h b : Nat) (d : BitVec 256),
    s.movingOf h = none → find (s.tensor h).blocks b = some d →
    let t := (s.publish h).tensor h
    t.info.ver = (s.tensor h).info.ver + 1 ∧ t.info.curl = (s.tensor h).info.shl ∧ t.info.shadow = false ∧
      t.closing = none ∧
      (dShst d = 3 → ∃ e, find t.blocks b = some e ∧ dLoc e = dShloc d ∧ dShst e = 0 ∧ dShloc e = 0) ∧
      (dShst d = 2 → ∃ e, find t.blocks b = some e ∧ locTier (dLoc e) = 6 ∧ dShst e = 0 ∧ dShloc e = 0) ∧
      (dShst d = 1 → ∃ e, find t.blocks b = some e ∧ dLoc e = dLoc d ∧ dShst e = 0 ∧ dShloc e = 0))

/-- R221, R367: the attention cache instructions. kvmap reads where a triple maps; kvalloc maps a new block in SRAM or HBM
to an unmapped triple, or raises NOSPACE (which frame and which number: DEDUCED, unsafe, log entry 26; in HBM only where
HBM has room too: DESIGN CHOICE, unsafe, log entry 102); kvshare maps a second triple to the block of the first; kvfree
unmaps one and writes the share count left. A triple of 2^40 or above, a share count of 0xFFFF to be shared, a mapped
triple to be mapped and an unmapped one to be read raise RANGE. Of one ac's instructions on a tensor a lower COREID's
comes first. -/
def Obligations.CacheForms : Prop :=
  ∀ (s : State) (rd ra rb rc : BitVec 5) (h : Nat),
    let t := s.tensor h
    let u := s.comes s.who h
    let key := (s.cur.val rb).toNat
    let key2 := (s.cur.val rc).toNat
    let put := fun (i : Instr) (u : State) (v : Nat) =>
      exec i s = .next (s.completed i (u.modCur fun y => y.setReg rd.toNat (BitVec.ofNat 64 v)))
    let fault := fun (i : Instr) (cause : Nat) => exec i s = .next (s.raise s.who (some s.strm) cause (BitVec.ofNat 64 h))
    let is := [Instr.kvmap rd ra rb, Instr.kvalloc rd ra rb, Instr.kvshare rd ra rb rc, Instr.kvfree rd ra rb]
    (∀ i ∈ is, tensorReady s i ra h [1] →
      (s.comesLate s.who h = true → exec i s = .next (s.modCur fun y => y.waits .engine)) ∧
      (s.comesLate s.who h = false → 2 ^ 40 ≤ key → fault i 0x23)) ∧
    (s.comesLate s.who h = false → key < 2 ^ 40 →
      (tensorReady s (.kvmap rd ra rb) ra h [1] →
        (find t.kv key = none → put (.kvmap rd ra rb) u 0) ∧
        ∀ b, find t.kv key = some b → put (.kvmap rd ra rb) u
          (1 + 2 * dTier (t.block b) + 2 ^ 4 * dget (t.block b) 3 1 + 2 ^ 16 * look 1 t.shares b)) ∧
      (tensorReady s (.kvalloc rd ra rb) ra h [1] →
        ((find t.kv key).isSome = true → fault (.kvalloc rd ra rb) 0x23) ∧
        (find t.kv key = none → u.allocateKv h t.newDesc = none → fault (.kvalloc rd ra rb) 0x2A) ∧
        (∀ l, u.allocateKv h t.newDesc = some l →
          let sram := u.belowHigh (handleHome h) 0 = true ∧
            u.budgetRoom (u.tensor h).info.region 0 (if dTrl t.newDesc then 2 else 1) = true ∧
            (u.freeFrame (handleHome h) 0 0 (dTrl t.newDesc)).isSome = true ∧ dget t.newDesc 22 1 ≠ 1
          locTier l = if sram then 1 else 2) ∧
        ∀ l, find t.kv key = none → u.allocateKv h t.newDesc = some l →
          ∃ w : State, put (.kvalloc rd ra rb) w 0 ∧ find (w.tensor h).kv key = some t.newBlock ∧
            dLoc ((w.tensor h).block t.newBlock) = l % 2 ^ 64 ∧ look 1 (w.tensor h).shares t.newBlock = 1 ∧
            w.cores = s.cores) ∧
      (tensorReady s (.kvshare rd ra rb rc) ra h [1] →
        (2 ^ 40 ≤ key2 ∨ find t.kv key = none ∨ (find t.kv key2).isSome = true → fault (.kvshare rd ra rb rc) 0x23) ∧
        (∀ b, key2 < 2 ^ 40 → find t.kv key2 = none → find t.kv key = some b → look 1 t.shares b = 0xFFFF →
          fault (.kvshare rd ra rb rc) 0x23) ∧
        ∀ b, key2 < 2 ^ 40 → find t.kv key2 = none → find t.kv key = some b → look 1 t.shares b ≠ 0xFFFF →
          put (.kvshare rd ra rb rc) (u.modTensor h fun t =>
            { t with kv := set t.kv key2 b, shares := set t.shares b (look 1 t.shares b + 1) }) (look 1 t.shares b + 1)) ∧
      (tensorReady s (.kvfree rd ra rb) ra h [1] →
        (find t.kv key = none → fault (.kvfree rd ra rb) 0x23) ∧
        ∀ b, find t.kv key = some b →
          put (.kvfree rd ra rb) ((u.modTensor h fun t =>
            { t with kv := erase t.kv key, shares := set t.shares b (look 1 t.shares b - 1) }).reap h)
              (look 1 t.shares b - 1)))

/-- R365, R360: tinfo writes 0 for a handle without a record; else it makes R360's checks and writes the word that its
selector names, 0 to 5, or raises RANGE for another selector; a chain depth above 15 is given as 15 (DESIGN CHOICE,
unsafe: log entry 99). R366: useadv waits while a command of its stream is queued; an operand outside 1 to 65,535 raises
RANGE; it advances the position of an operator job's stream and writes it, and writes 0 in any other job. R206: binv drops
the named copies of every translation cache and changes nothing else. R331: launch makes its checks in order; with a full
ring it writes −1, else it appends the record, takes the fast path of R332 where that applies, and writes the record's
sequence number. -/
def Obligations.InfoForms : Prop :=
  (∀ (s : State) (rd ra rb : BitVec 5),
    let i : Instr := .tinfo rd ra rb
    let h := (s.cur.val ra).toNat % 2 ^ 32
    let t := s.tensor h
    let r := t.info
    let put := fun (v : Nat) => exec i s = .next (s.completedReg i rd (BitVec.ofNat 64 v))
    let fault := fun (cause v : Nat) => exec i s = .next (s.raise s.who (some s.strm) cause (BitVec.ofNat 64 v))
    let sel := (s.cur.val rb).toNat
    s.ready i = true →
    (s.tensorValid h = false → put 0) ∧
    (s.tensorValid h = true →
      let mine := dShared (t.block 0) = true ∨ s.isWithin r.region (s.core s.who).theJob.region = true
      (handleClass h = 2 → fault 0x23 h) ∧
      (handleClass h ≠ 2 → ¬mine → fault 0x11 (h + 2 ^ 56 * 4)) ∧
      (handleClass h ≠ 2 → mine →
        (sel = 0 → put (r.state + 2 ^ 4 * r.shadow.toNat + 2 ^ 5 * r.recipe.toNat + 2 ^ 8 * r.curl.toNat +
          2 ^ 16 * r.shl.toNat + 2 ^ 24 * r.fmt.toNat + 2 ^ 32 * r.pin.toNat + 2 ^ 48 * r.ratio.toNat)) ∧
        (sel = 1 → put (r.ver.toNat + 2 ^ 32 * r.shadow.toNat)) ∧ (sel = 2 → put r.size.toNat) ∧
        (sel = 3 → put (s.dist h)) ∧ (sel = 4 → put r.nextuse.toNat) ∧
        (sel = 5 → put (min (s.chainDepth 16 h) 15 + 2 ^ 16 * (s.inFlight h % 2 ^ 16))) ∧ (5 < sel → fault 0x23 h)))) ∧
  (∀ (s : State) (rd ra : BitVec 5),
    let i : Instr := .useadv rd ra
    let k := (s.cur.val ra).toNat
    s.ready i = true →
    (s.cur.queued ≠ [] → exec i s = .next (s.modCur fun t => t.waits .engine)) ∧
    (s.cur.queued = [] → k = 0 ∨ 65535 < k → exec i s = .next (s.raise s.who (some s.strm) 0x23 (s.cur.val ra))) ∧
    (s.cur.queued = [] → 1 ≤ k → k ≤ 65535 →
      (∀ col idx seq, (s.core s.who).theJob.kind = .operator col idx seq →
        let p := (s.opStream col idx).pos + BitVec.ofNat 64 k
        exec i s = .next (s.completed i ((s.modStream col idx fun st => { st with pos := p }).modCur fun t =>
          t.setReg rd.toNat p))) ∧
      ((∀ col idx seq, (s.core s.who).theJob.kind ≠ .operator col idx seq) → exec i s = .next (s.completedReg i rd 0)))) ∧
  (∀ (s : State) (ra rb : BitVec 5),
    let h := (s.cur.val ra).toNat % 2 ^ 32
    let b := s.cur.val rb
    let u := s.invalidate h fun n => b == 0xFFFFFFFFFFFFFFFF || n == b.toNat
    (s.ready (.binv ra rb) = true → exec (.binv ra rb) s = .next (s.completed (.binv ra rb) u)) ∧ s.sameOutside u ∧
    ∀ k, { u.core k with btc := (s.core k).btc } = s.core k ∧
      ∀ e, e ∈ (u.core k).btc ↔ e ∈ (s.core k).btc ∧
        ¬(e.1 / 2 ^ 24 = h ∧ (b = 0xFFFFFFFFFFFFFFFF ∨ e.1 % 2 ^ 24 = b.toNat))) ∧
  (∀ (s : State) (rd ra rb : BitVec 5),
    let i : Instr := .launch rd ra rb
    let off := (s.cur.val ra).toNat
    let x := s.cur.val rb
    let col := x.toNat / 2 ^ 10
    let idx := x.toNat % 2 ^ 10
    let st := s.opStream col idx
    let fault := fun cause v => exec i s = .next (s.raise s.who (some s.strm) cause v)
    let sound := off + 128 ≤ 2 ^ 20 ∧ off % 64 = 0 ∧ x.toNat < 2 ^ 12 ∧ s.streamUsed col idx = true
    let mine := s.isWithin st.region (s.core s.who).theJob.region = true
    s.ready i = true →
    (2 ^ 20 < off + 128 → fault 0x09 x) ∧ (off + 128 ≤ 2 ^ 20 → off % 64 ≠ 0 → fault 0x0A x) ∧
    (off + 128 ≤ 2 ^ 20 → off % 64 = 0 → 2 ^ 12 ≤ x.toNat ∨ s.streamUsed col idx = false → fault 0x23 x) ∧
    (sound → ¬mine → fault 0x11 (x ||| BitVec.ofNat 64 (2 ^ 56 * 4))) ∧
    (sound → mine → (st.tail - st.done).toNat = 2 ^ st.cap →
      exec i s = .next (s.completedReg i rd 0xFFFFFFFFFFFFFFFF)) ∧
    (sound → mine → (st.tail - st.done).toNat ≠ 2 ^ st.cap →
      let bytes := (s.core s.who).scratch.bytes off 128
      let u := (((s.deviceWrite st.ring (128 * (st.tail.toNat % 2 ^ st.cap)) bytes).modCore s.who fun c =>
        c.touch [(off, 128)] (strmCode s.strm) (strmCode s.strm) (strmPort s.strm) false).modStream col idx fun st =>
          { st with tail := st.tail + 1 })
      exec i s = .next (s.completed i ((u.fastPath col idx).modCur fun t => t.setReg rd.toNat st.tail)) ∧
        (u.opStream col idx).tail = st.tail + 1))

/-! ## The cullet stack -/

/-- R294: a push of `z` bytes has room in the ring, a chunk being refilled counted. -/
def cullRoom (c : CoreSt) (z : Nat) : Prop :=
  c.culSeq ≠ 0xFFFFF ∧ c.occupancy + (if c.culMove = 2 then c.chunkLen else 0) + z ≤ 2 ^ 18 - 8

/-- R294, R296: the stops of a push of `z` bytes, in their order. -/
def pushStops (i : Instr) (s : State) (z : Nat) : Prop :=
  let c := s.core s.who
  let fault := fun (cause : Nat) => exec i s = .next (s.raise s.who (some s.strm) cause (BitVec.ofNat 64 z))
  (c.culSeq = 0xFFFFF → fault 0x23) ∧
  (c.culSeq ≠ 0xFFFFF → 2 ^ 18 - 8 < c.occupancy + (if c.culMove = 2 then c.chunkLen else 0) + z →
    (c.culHandle = 0 → fault 0x2A) ∧ (c.culHandle ≠ 0 → exec i s = .next (s.modCur fun t => t.waits (.push z))))

/-- R295, R296: the stops of an inspection of the top entry, in their order: an empty stack, an entry that is not whole in
the ring or is being spilled, an entry of another class, register, accumulator or parameter, and a header that fails its
own check. -/
def popStops (i : Instr) (s : State) (cls vreg : Nat) (acc param : Option Nat) : Prop :=
  let c := s.core s.who
  let fault := fun (cause v : Nat) => exec i s = .next (s.raise s.who (some s.strm) cause (BitVec.ofNat 64 v))
  let whole := c.occupancy - (if c.culMove = 1 then 65536 else 0)
  let h := leNat (ringBytes c.ring (c.culTop - 8).toNat 8)
  let absent := whole < 8 ∨ whole < 8 * hdrPw h + 8
  let other := hdrClass h ≠ cls ∨ hdrVreg h ≠ vreg ∨ (∃ a, acc = some a ∧ a ≠ hdrAcc h) ∨ ∃ p, param = some p ∧ p ≠ hdrParam h
  (c.culSeq = 0 → fault 0x21 0) ∧
  (c.culSeq ≠ 0 → absent → exec i s = .next (s.modCur fun t => t.waits .pop)) ∧
  (c.culSeq ≠ 0 → ¬absent → other → fault 0x20 h) ∧
  (c.culSeq ≠ 0 → ¬absent → ¬other →
    hdrClass h = 0 ∨ 5 < hdrClass h ∨ bitsOf h 16 2 ≠ 0 ∨ 32 < hdrPw h ∨ hdrSeq h ≠ (c.culSeq - 1).toNat → fault 0x22 64)

/-- The forward instruction's entry class, fraction width, payload width and parameter, its destination, and what it gives
per lane: result and remainder; none is RANGE. R300 to R303. -/
def forwardForm (i : Instr) (c : CoreSt) :
    Option ((Nat × Nat × Nat × Nat) × BitVec 6 × (Nat → Option (Nat × Nat))) :=
  let F := c.c.rqf.toNat
  let a := fun (v : BitVec 6) j => sint 32 (c.lane v j)
  let fixed := fun (p : Int) => let d := Int.fdiv p (2 ^ F)
    if -(2 ^ 31) ≤ d ∧ d < 2 ^ 31 then some (wrap 32 d, wrap F p) else none
  match i with
  | .rmul vd va vb => some ((1, F, F, 0), vd, fun j => if a vb j = 0 then none else fixed (a va j * a vb j))
  | .rshr vd va k => some ((2, k.toNat, k.toNat, 0), vd, fun j =>
      some (wrap 32 (Int.fdiv (a va j) (2 ^ k.toNat)), c.lane va j % 2 ^ k.toNat))
  | .rlrelu vd va vb => some ((4, F, F, 0), vd, fun j =>
      if a vb j ≤ 0 then none else if 0 ≤ a va j then some (wrap 32 (a va j), 0) else fixed (a va j * a vb j))
  | .rnrw vd va fmt => some ((3, 0, 16, fmt.toNat), vd, fun j =>
      let x := c.lane va j
      if fmt.toNat = 1 then some (x / 2 ^ 16, x % 2 ^ 16)
      else
        let y := (convert 0 (decodeNum 0 1 (x % 2 ^ 16)) fmt.toNat 1 true 0).code
        some (y, (x % 2 ^ 16) ^^^ (convert 0 (decodeNum 0 fmt.toNat y) 1 0 false 0).code))
  | _ => none

/-- The undo form's entry class, its source and destination, the parameter and fraction width it names, and the value that
it gives a lane from the header and the remainder; none is CULLET_CHECK. R300 to R303. -/
def undoForm (i : Instr) (c : CoreSt) :
    Option (Nat × BitVec 6 × BitVec 6 × Option Nat × Option Nat × (Nat → Nat → Nat → Option Nat)) :=
  let a := fun (v : BitVec 6) j => sint 32 (c.lane v j)
  let int32 := fun (x : Int) => decide (-(2 ^ 31) ≤ x ∧ x < 2 ^ 31)
  let quot := fun (y m : Int) (h rem : Nat) =>
    let p := y * 2 ^ hdrFrac h + rem
    if m = 0 ∨ Int.tmod p m ≠ 0 then none else some (Int.tdiv p m)
  match i with
  | .rmulUndo vd va vb => some (1, va, vd, none, none, fun h j rem =>
      match quot (a va j) (a vb j) h rem with
      | some x => if int32 x then some (wrap 32 x) else none
      | none => none)
  | .rshrUndo vd va k => some (2, va, vd, none, some k.toNat, fun _ j rem =>
      let y := a va j * 2 ^ k.toNat
      if int32 y then some (wrap 32 y ||| rem) else none)
  | .rlreluUndo vd va vb => some (4, va, vd, none, none, fun h j rem =>
      if a vb j ≤ 0 then none
      else if 0 ≤ a va j then (if rem = 0 then some (wrap 32 (a va j)) else none)
      else match quot (a va j) (a vb j) h rem with
        | some x => if x < 0 ∧ int32 x = true then some (wrap 32 x) else none
        | none => none)
  | .rnrwUndo vd va fmt => some (3, va, vd, some fmt.toNat, none, fun _ j rem =>
      let y := c.lane va j
      if fmt.toNat = 1 then some (2 ^ 16 * (y % 2 ^ 16) ||| rem)
      else some (rem ^^^ (convert 0 (decodeNum 0 fmt.toNat (y % 2 ^ 8)) 1 0 false 0).code))
  | _ => none

/-- R293, R294, R296, R300 to R304: a forward instruction with RQF at most 24 (for rmul and rlrelu), no lane in RANGE and
room for its entry completes: vd takes the results, and the ring the entry. RQF above 24 raises RANGE with FINFO 128, the
lowest lane that gives nothing RANGE with its number as FINFO; at the greatest depth the push raises RANGE, and without room
RESIDENCY_NOSPACE where no tensor is attached, and else waits.
R295, R296, R300 to R304: an undo form whose top entry is its own completes: the entry is popped and vd takes the values;
the lowest lane that gives nothing raises CULLET_CHECK, an empty stack CULLET_EMPTY, another's entry CULLET_ORDER, a header
that fails its own check CULLET_CHECK with FINFO 64 (the order where a header claims more than lies in the ring is DEDUCED,
log entry 86; the FINFO in cchk a DESIGN CHOICE, log entry 87); it waits for an entry that is not whole in the ring. -/
def Obligations.ReversibleForms : Prop :=
  (∀ (s : State) (i : Instr) (cls frac pw param : Nat) (vd : BitVec 6) (f : Nat → Option (Nat × Nat)),
    let c := s.core s.who
    s.ready i = true → forwardForm i c = some ((cls, frac, pw, param), vd, f) →
    (cls = 1 ∨ cls = 4 → 24 < c.c.rqf.toNat → exec i s = .next (s.raise s.who (some s.strm) 0x23 128)) ∧
    ((cls = 1 ∨ cls = 4 → c.c.rqf.toNat ≤ 24) →
    (∀ g : Nat → Nat × Nat, (∀ j, j < 64 → f j = some (g j)) → pushStops i s (8 * pw + 8) ∧ (cullRoom c (8 * pw + 8) →
      exec i s = .next (s.completedCore i fun c =>
        ({ c with
          ring := ringSplice c.ring c.culTop.toNat (8 * pw + 8) (cellsAt 0
            (leBytes (8 * pw) (packRem pw ((List.range 64).map fun j => (g j).2)) ++
              leBytes 8 (entryHeader c.culSeq.toNat cls vd.toNat c.vwin.toNat frac pw param)))
          culTop := c.culTop + BitVec.ofNat 18 (8 * pw + 8), culSeq := c.culSeq + 1 } : CoreSt).setRow vd
            ((List.range 64).map fun j => (g j).1)))) ∧
    (∀ j, j < 64 → f j = none → (∀ k, k < j → f k ≠ none) →
      exec i s = .next (s.raise s.who (some s.strm) 0x23 (BitVec.ofNat 64 j))))) ∧
  (∀ (s : State) (i : Instr) (cls : Nat) (va vd : BitVec 6) (param frac : Option Nat) (f : Nat → Nat → Nat → Option Nat),
    let c := s.core s.who
    s.ready i = true → undoForm i c = some (cls, va, vd, param, frac, f) →
    popStops i s cls va.toNat (some c.vwin.toNat) param ∧
    ∀ h, c.topEntry cls va.toNat (some c.vwin.toNat) param = .found h →
      (∀ n, frac = some n → hdrFrac h ≠ n → exec i s = .next (s.raise s.who (some s.strm) 0x20 (BitVec.ofNat 64 h))) ∧
      ((∀ n, frac = some n → hdrFrac h = n) →
      (∀ g : Nat → Nat, (∀ j, j < 64 → f h j (c.remOf h j) = some (g j)) →
        exec i s = .next (s.completedCore i fun c =>
          ({ c with culTop := c.culTop - BitVec.ofNat 18 (8 * hdrPw h + 8), culSeq := c.culSeq - 1 } : CoreSt).setRow vd
            ((List.range 64).map g))) ∧
      (∀ j, j < 64 → f h j (c.remOf h j) = none → (∀ k, k < j → f h k (c.remOf h k) ≠ none) →
        exec i s = .next (s.raise s.who (some s.strm) 0x22 (BitVec.ofNat 64 j)))))

/-- R305, R308, R310, R311: cmark pushes a marker, cchk pops one with its number, and raises CULLET_CHECK for another number;
both stop as R294 and R295 say. catt of handle 0 with nothing attached completes, as does catt of the handle that is attached
with no refill awaited, and waits while one is; catt with entries on the stack and nothing attached raises RANGE with its
operand. With another handle attached it waits until that one's detachment is done, whose writes leave where they may; then
nothing is attached, the pin let go, and catt of 0 completes. The attachment of another handle then completes where the
steps of R308 succeed with no refill to come, and else waits for it; a step of R308 that fails raises its cause, with the
detachment standing; a dropped tensor is waited for as tref does, and a failed rebuild of it raised and cleared (DEDUCED,
safe: log entries 27 and 43). -/
def Obligations.MarkerForms : Prop :=
  ∀ (s : State) (imm : BitVec 16) (ra : BitVec 5),
    let c := s.core s.who
    let h := (s.cur.val ra).toNat % 2 ^ 32
    (s.ready (.cmark imm) = true → cullRoom c 8 →
      exec (.cmark imm) s = .next (s.completedCore (.cmark imm) fun c => { c with
        ring := ringSplice c.ring c.culTop.toNat 8 (cellsAt 0 (leBytes 8 (entryHeader c.culSeq.toNat 5 0 0 0 0 imm.toNat)))
        culTop := c.culTop + 8, culSeq := c.culSeq + 1 })) ∧
    (s.ready (.cmark imm) = true → pushStops (.cmark imm) s 8) ∧
    (s.ready (.cchk imm) = true → popStops (.cchk imm) s 5 0 none none) ∧
    (∀ e, s.ready (.cchk imm) = true → c.topEntry 5 0 none none = .found e →
      (hdrParam e = imm.toNat → exec (.cchk imm) s = .next (s.completedCore (.cchk imm) fun c => { c with
        culTop := c.culTop - BitVec.ofNat 18 (8 * hdrPw e + 8), culSeq := c.culSeq - 1 })) ∧
      (hdrParam e ≠ imm.toNat → exec (.cchk imm) s =
        .next (s.raise s.who (some s.strm) 0x22 (BitVec.ofNat 64 (2 ^ 16 * hdrParam e))))) ∧
    (s.ready (.catt ra) = true → c.culSeq = 0 → c.culHandle = 0 → h = 0 → c.culLast = 0 →
      exec (.catt ra) s = .next (s.completed (.catt ra) s)) ∧
    (s.ready (.catt ra) = true → c.culHandle.toNat = h → h ≠ 0 → c.culLeave = none → c.culLast = 0 →
      exec (.catt ra) s = .next (s.completed (.catt ra) s)) ∧
    (s.ready (.catt ra) = true → c.culHandle = 0 → c.culSeq ≠ 0 →
      exec (.catt ra) s = .next (s.raise s.who (some s.strm) 0x23 (s.cur.val ra))) ∧
    (s.ready (.catt ra) = true →
      let i : Instr := .catt ra
      let waits := fun (u : State) => exec i s = .next (u.modStrm s.who s.strm fun t => t.waits .cullet)
      let v := (s.pinDown c.culHandle.toNat).unattach s.who
      let left := c.culMove = 0 ∧ ∃ w, c.culLeave = some w ∧ s.performed s.who w = true
      let leaving := c.culHandle ≠ 0 ∧ ¬(c.culHandle.toNat = h ∧ c.culLeave = none)
      (c.culHandle.toNat = h → h ≠ 0 → c.culLeave = none → c.culLast ≠ 0 → waits s) ∧
      (leaving → ¬left → waits ((s.beginDetach s.who).getD s) ∧
        ∀ t n, c.culMove = 0 → c.culLeave = none → s.startDetach s.who = (.done t, n) →
          s.beginDetach s.who = some t ∧ (t.core s.who).culLeave = some (t.column (colOf s.who)).vc) ∧
      (leaving → left → h = 0 → exec i s = .next (s.completed i v)) ∧
      (coreValid s.who = true → (v.core s.who).culHandle = 0 ∧ (v.core s.who).culSeq = 0 ∧ (v.core s.who).culTop = 0 ∧
        (v.core s.who).culBase = 0 ∧ (v.core s.who).culChunks = 0 ∧ (v.core s.who).culLeave = none) ∧
      ∀ u, h ≠ 0 → (c.culHandle = 0 ∧ c.culSeq = 0 ∧ u = s) ∨ (leaving ∧ left ∧ u = v) →
        let d := u.core s.who
        (∀ e, d.rebuildFailed h = some e → exec i s =
          .next ((u.setCore s.who { d with failed := none }).raise s.who (some s.strm) e (d.rebuildInfo h e))) ∧
        (d.rebuildFailed h = none → let a := u.attach s.who h
          (∀ t, a.2 = .done t →
            ((t.core s.who).culLast = 0 → exec i s = .next (s.completed i t)) ∧ ((t.core s.who).culLast ≠ 0 → waits t) ∧
            (coreValid s.who = true → (t.core s.who).culHandle = BitVec.ofNat 32 h ∧ (t.core s.who).culTop = 0 ∧
              (t.core s.who).culBase = 0)) ∧
          (a.2 = .wait → waits a.1) ∧ (a.2 = .dropped → waits (a.1.modCore s.who fun c => c.awaitRebuild h)) ∧
          (∀ x, a.2 = .bad x → exec i s = .next (a.1.raise s.who (some s.strm) x.cause (tensorInfo h x)))))

/-- R306: cdepth writes CULPTR.seq in [19:0], the on-core bytes in [37:20] and the chunks of the cullet tensor in [63:38];
it waits for nothing that is in progress. -/
def Obligations.Cdepth : Prop :=
  ∀ (s : State) (rd : BitVec 5),
    let c := s.core s.who
    s.ready (.cdepth rd) = true →
    exec (.cdepth rd) s = .next (s.completedReg (.cdepth rd) rd
      (c.culSeq.zeroExtend 64 ||| ((c.culTop - c.culBase).zeroExtend 64 <<< 20) ||| (c.culChunks.zeroExtend 64 <<< 38)))

/-! ## Counters -/

/-- The counter of index `n` of core `k` of R386, as it stood at the end of the ac before: none where the index names no
counter. -/
def counterAt (s : State) (k n : Nat) : Option Nat :=
  let r := (s.core k).ctrWas
  if n ≤ 0xF then some (if (look 0 r.pmcsel n).toNat / 2 ^ 29 % 8 = s.vf (s.core k).theJob.region then (look 0 r.pmc n).toNat else 0)
  else if n = 0x10 then some (r.lwc % 2 ^ 64)
  else if n = 0x11 then some r.snapptr.toNat
  else if n = 0x12 then some r.loopExits.toNat
  else if n = 0x13 then some (s.energyWas k).toNat
  else if 0x18 ≤ n ∧ n ≤ 0x1B then some ((s.column (colOf k)).vcWas.getD (n - 0x18) 0 % 2 ^ 64)
  else if 0x40 ≤ n ∧ n ≤ 0x4F then some (look 0 r.tags (n - 0x40)).toNat
  else if 0x100 ≤ n ∧ n ≤ 0x1FF then some (look 0 r.matrix (n - 0x100)).toNat
  else if 0x1000 ≤ n ∧ n ≤ 0x1FFF then some (look 0 (look [] r.snaps ((n - 0x1000) / 256)) ((n - 0x1000) % 256)).toNat
  else none

/-- R386: rdcnt writes the counter of index s[ra] plus imm13, and raises RANGE with the index where there is none. R387:
cntsel above 15, and reserved bits or an event that is none, raise RANGE; a region outside the job's raises PERM_DENIED;
else the selection is written with the job's virtual function and the counter is 0. R389: cntclr clears what its immediate
names, 0 to 18, whose counts of this ac are then discarded, and raises RANGE above. R390, R391: rdtime writes the time
base; waitc waits while LWC exceeds imm13; bufsel sets BUFTAG, and raises RANGE above 255. R393: psnap copies the conflict
matrix as it stood at the end of the ac before into the next snapshot slot, with its tag, and writes the count of
snapshots taken before; after a later stream's snapshot in the ac it waits for the next one (log entry 2). The FINFO of
cntsel's PERM_DENIED is the model's reading (DEDUCED, unsafe: log entry 33). -/
def Obligations.CounterForms : Prop :=
  ∀ (s : State) (rd ra : BitVec 5) (imm : BitVec 13),
    let c := s.core s.who
    let region := c.theJob.region
    let idx := s.cur.val ra + imm.zeroExtend 64
    let n := imm.toNat
    let v := (s.cur.val ra).toNat
    let on := fun (i : Instr) (f : CoreSt → CoreSt) => exec i s = .next (s.completedCore i f)
    let fault := fun (i : Instr) cause (f : W64) => exec i s = .next (s.raise s.who (some s.strm) cause f)
    (s.ready (.rdcnt rd ra imm) = true →
      (∀ w, counterAt s s.who idx.toNat = some w →
        exec (.rdcnt rd ra imm) s = .next (s.completedReg (.rdcnt rd ra imm) rd (BitVec.ofNat 64 w))) ∧
      (counterAt s s.who idx.toNat = none → fault (.rdcnt rd ra imm) 0x23 idx)) ∧
    (s.ready (.cntsel ra imm) = true →
      let sound := v / 2 ^ 21 % 2 ^ 8 = 0 ∧ v / 2 ^ 19 % 2 = 0 ∧ v / 2 ^ 8 % 2 ^ 8 = 0 ∧ v % 2 ^ 8 ≤ 15
      let mine := v / 2 ^ 32 = noRegion ∨ s.isWithin (v / 2 ^ 32) region = true
      (15 < n → fault (.cntsel ra imm) 0x23 (imm.zeroExtend 64)) ∧
      (n ≤ 15 → ¬sound → fault (.cntsel ra imm) 0x23 (s.cur.val ra)) ∧
      (n ≤ 15 → sound → ¬mine → fault (.cntsel ra imm) 0x11 (BitVec.ofNat 64 (2 ^ 56 * 4))) ∧
      (n ≤ 15 → sound → mine → on (.cntsel ra imm) fun c => { c with ctr := { c.ctr with
        pmcsel := set c.ctr.pmcsel n (BitVec.ofNat 64 (v - 2 ^ 29 * (v / 2 ^ 29 % 8) + 2 ^ 29 * s.vf region))
        pmc := set c.ctr.pmc n 0 } })) ∧
    (s.ready (.cntclr imm) = true →
      (n < 16 → (look 0 c.ctr.pmcsel n).toNat / 2 ^ 29 % 8 = s.vf region → on (.cntclr imm) fun c =>
        { c with ctr := { c.ctr with pmc := set c.ctr.pmc n 0, cleared := n :: c.ctr.cleared } }) ∧
      (n < 16 → (look 0 c.ctr.pmcsel n).toNat / 2 ^ 29 % 8 ≠ s.vf region →
        exec (.cntclr imm) s = .next (s.completed (.cntclr imm) s)) ∧
      (n = 16 → on (.cntclr imm) fun c => { c with ctr := { c.ctr with matrix := [], cleared := n :: c.ctr.cleared } }) ∧
      (n = 17 → on (.cntclr imm) fun c => { c with ctr := { c.ctr with
        snaps := [], tags := [], snapptr := 0, cleared := n :: c.ctr.cleared } }) ∧
      (n = 18 → on (.cntclr imm) fun c => { c with ctr := { c.ctr with loopExits := 0, cleared := n :: c.ctr.cleared } }) ∧
      (18 < n → fault (.cntclr imm) 0x23 (imm.zeroExtend 64))) ∧
    (s.ready (.rdtime rd) = true → exec (.rdtime rd) s = .next (s.completedReg (.rdtime rd) rd s.time)) ∧
    (s.ready (.waitc imm) = true →
      (c.ctr.lwc ≤ n → exec (.waitc imm) s = .next (s.completed (.waitc imm) s)) ∧
      (n < c.ctr.lwc → exec (.waitc imm) s = .next (s.modCur fun t => t.waits .crossbar))) ∧
    (s.ready (.bufsel imm) = true →
      (n ≤ 255 → exec (.bufsel imm) s = .next (s.completedStrm (.bufsel imm) fun t => { t with buftag := imm.truncate 8 })) ∧
      (255 < n → fault (.bufsel imm) 0x23 (imm.zeroExtend 64))) ∧
    (s.ready (.psnap rd) = true → (s.core s.who).snapLate s.strm = true →
      exec (.psnap rd) s = .next (s.modCur fun t => t.waits .others)) ∧
    (s.ready (.psnap rd) = true → (s.core s.who).snapLate s.strm = false → on (.psnap rd) fun c =>
      let slot := c.ctr.snapptr.toNat % 16
      let tag := 2 ^ 32 * (s.time.toNat % 2 ^ 32) + 2 ^ 28 * strmCode s.strm + s.cur.pc.form.toNat
      ({ c with snapRan := some (strmCode s.strm), ctr := { c.ctr with
          snaps := set c.ctr.snaps slot c.ctrWas.matrix, tags := set c.ctr.tags slot (BitVec.ofNat 64 tag)
          snapptr := c.ctr.snapptr + 1 } } : CoreSt).modStrm s.strm fun t =>
        t.setReg rd.toNat (c.ctr.snapptr.zeroExtend 64))

/-! ## Events -/

/-- R99, R154, R269, R336, R358, R381: the causes and orders that no instruction gives. A crossbar instruction's
completion lowers LWC; a timer event that is due raises TIMER_TRAP with TIMERCMP's value; a watchdog limit raises
QUEUE_DEADLOCK in every stream of the core that has reached it (all in one event: DEDUCED, unsafe, log entry 49); a
pre-emption that is due takes back the tiles of its region that have only just reached their cores (R338), and begins a
stop where the core's own is none of them; a recipe job past its limit is killed. A crossbar instruction that still waits
for a bank does not complete (R154, log entry 7). A job whose streams have all arrived raises what R128 finds left over,
or retires, a handler's too, whose interrupted job stays in its area (log entry 80). When a timer event falls in a stop or
in handler mode, log entry 60 says which trap it becomes (DEDUCED, unsafe). -/
def Obligations.CoreEvents : Prop :=
  ∀ (s : State) (k : Nat),
    let c := s.core k
    (0 < c.ctr.lwc → c.banks.any (fun e => e.1 / 256 == 4) = false → exec (.crossbarInstructionCompletion k) s =
      .next (s.setCore k { c with ctr := { c.ctr with lwc := c.ctr.lwc - 1 } })) ∧
    (c.banks.any (fun e => e.1 / 256 == 4) = true → exec (.crossbarInstructionCompletion k) s =
      .refused (.notEnabled "CROSSBAR_INSTRUCTION_COMPLETION")) ∧
    (∀ v, c.timerDue = some v → c.job.isSome = true → c.hm = false → c.debug = false →
      c.phase = .running ∨ c.phase = .draining ∨ (∃ kind, c.phase = .stopping kind) →
      exec (.timerTrap k) s = .next ((s.setCore k { c with timerDue := none }).raise k none 0x38 v)) ∧
    (∀ x v, s.dogLimit k x = some v → ∃ t : State, exec (.queueDeadlock k x) s = .next t ∧
      Raised.mk 0x19 (some x) (BitVec.ofNat 64 v) ∈ (t.core k).raised ∧ ((t.core k).strm x).stopped = true ∧
      ∀ y w, s.dogLimit k y = some w →
        Raised.mk 0x19 (some y) (BitVec.ofNat 64 w) ∈ (t.core k).raised ∧ ((t.core k).strm y).stopped = true) ∧
    (∀ r ∈ s.regionIds, s.preemptFor r k = true →
      let came := s.reached.filter fun q => (s.core q.1).theJob.region == c.theJob.region
      let back := came.foldl (fun s q => s.returnTile q.1 q.2) s
      (came = [] → find s.reached k = none →
        exec (.preemption k) s = .next (s.setCore k { c.marked with phase := .stopping .preempt })) ∧
      (find s.reached k = none →
        exec (.preemption k) s = .next (back.modCore k fun c => { c.marked with phase := .stopping .preempt })) ∧
      ∀ y, find s.reached k = some y → exec (.preemption k) s = .next back) ∧
    (∀ j, c.job = some j → c.hm = false → c.phase = .running ∨ c.phase = .draining → j.rlimit ≠ 0 →
      j.rlimit < c.l.issued + c.c.issued + c.s.issued →
      exec (.recipeLimitKill k) s = .next ((s.beginKill k).finishKill k)) ∧
    (∀ j, c.job = some j → c.phase = .running → c.debug = false → c.overLimit = false → c.l.arrived = true →
      c.c.arrived = true → c.s.arrived = true →
      (∀ d, c.retireFault = some d → exec (.jobRetirement k) s = .next (s.setCore k d)) ∧
      (c.retireFault = none → c.cmds = [] → (∀ x, s.scopePending k x = false) → c.culHandle = 0 →
        ∃ t : State, exec (.jobRetirement k) s = .next t ∧ (t.core k).phase = .idle ∧ (t.core k).job = none ∧
          (t.core k).hm = false ∧ (t.core k).alloc = [] ∧ (t.core k).dyn = [] ∧ (t.core k).pins = [] ∧
          (j.kind = .handler → t.saves = s.saves))) ∧
    (∀ acc ta tb, coreValid k = true → c.theJob.held = true → c.canIssue .C = true → c.c.wait = some (.dog 6 0) →
      c.sq.ready ≠ [] → decode (BitVec.ofNat 32 (s.lineWord k .C c.c.pc.line.toNat c.c.pc.slot.toNat)) = .instr (.mmas acc ta tb) →
      ∃ t : State, exec (.heldChunkScaleArrival k) s = .next t ∧
        exec (.mmas acc ta tb) { s with who := k, strm := .C } = .next t)

/-- R369, R372, R378 to R381: a settled stop saves its job in its area and enters the handler of a fault, or leaves the
saved job to the walker of its layer; RESUME takes a saved job up again; the management plane resumes or kills an
escalated job. -/
def Obligations.StopEvents : Prop :=
  ∀ (s : State) (k : Nat),
    let c := s.core k
    let d := s.suspendFeeds k
    (find s.reached k = none → d.debug = false → d.hm = false → s.stopSettled k d = true →
      (c.phase = .stopping .fault → s.areaThere (colOf k) (faultArea k) = true →
        exec (.coreStop k) s =
          .next ((s.saveJob k d .fault (faultArea k)).enterOrHold k d.theJob.region 0)) ∧
      (∀ kind a, c.phase = .stopping kind → kind ≠ .fault → s.stopArea (colOf k) kind = some a →
        ∃ t : State, exec (.coreStop k) s = .next t ∧ find t.saves (saveKey (colOf k) a) ≠ none ∧
          a ∈ (t.layer (layerOf k)).tiles ∧ (t.core k).job = none ∧ (t.core k).phase = .idle)) ∧
    (find s.reached k = none → d.debug = false → d.hm = true → s.stopSettled k d = true → ∀ kind r, c.phase = .stopping kind →
      topCause d.causes = some r → exec (.coreStop k) s = .next (s.handlerFailed k r.cause)) ∧
    (∀ pool a u, c.phase = .restoring pool a → c.debug = false → find s.saves (saveKey (colOf k) a) = some u → find s.reached k = none →
      exec (.resume k) s = .next ((((s.setCore k { s.restoredJob k pool a with leaseAt := s.time.toNat }).freeSave k
        a).ownCullet k).markEnergy k)) ∧
    (c.phase = .escalated → c.debug = false →
      (∃ t : State, exec (.mgmtEretOrder k 0) s = .next t ∧
        (t.core k).phase = .restoring c.pool (faultArea k)) ∧
      exec (.mgmtEretOrder k 1) s =
        .next ((s.setFrameItem c.pool (faultArea k) 3 1).killSaved k))

/-- R197, R200: core `k` may read block `b` of base tensor `h`, whose descriptor, as its transfers see it, is `d`: the
block is of the tensor, resident, readable by the job, well formed, of the record's width, and not moving. -/
def readableBlock (s : State) (k h b : Nat) (d : BitVec 256) : Prop :=
  let t := (s.tensor h).info
  let a := (s.core k).access
  s.tensorValid h = true ∧ b < 2 ^ 24 ∧ ((t.state ≠ 7 ∧ t.state ≠ 9) ∨ a.rebuilds = some h) ∧ dTier d ≠ 0 ∧
    (s.isPool h = true → a.hm = true) ∧ (dShared d = true ∨ s.isWithin t.region a.region = true) ∧ dget d 17 1 = 1 ∧
    descSound d = true ∧ (handleClass h = 3 → dTrl d = false) ∧ dMoving d = false ∧ fmtWidth (dFmt d) = fmtWidth t.fmt.toNat

/-- R104, R208, R238, R268, R279, R339, R436: an engine that has taken none in the ac takes the head of the first queue of
its rotation whose head may be accepted, where no cullet move is ready before it, and its pointer moves past that queue; a
coll matches its whole group first, each of whose commands then takes its place at the head of its queue, and one that names
a dropped tensor has its job suspended (R356, R412); a command that nothing holds back goes on to its walks; an entry enters
its queue in issue order while there is room; a drained command completes with its status word in its token; a failed check
becomes a transfer fault of its stream. A command that failed at its acceptance makes those checks again, and one whose
rebuild has failed takes its cause (R356). How a transfer is cut into walks, runs and serves is the model's choice (DESIGN
CHOICE, unsafe: log entry 14; of its acceptance, log entry 13).
R205, R229: the walk of a read whose block may be read takes a copy of the block's descriptor into the core's translation
cache, and the read waits, with the column's vector clock, to be served; no memory, no tensor and no register changes. A walk
of a cpy, cpyq or gth that no earlier write and no moving block holds back always goes on. A read is served once its serving
column covers that vector; its units then land in the scratchpad, each as the code that storage holds, or join the queue's
buffer, and no other byte of the scratchpad and nothing outside the core changes; a lost partner of the neighbour tier is
UNCORRECTABLE with detail 0xFF (R211). -/
def Obligations.EngineEvents : Prop :=
  (∀ (s : State) (eng : Engine) (d : Nat),
    let qs := engineQueues eng
    let p := look 0 (s.column (engineCol eng)).rotation (engineSlot eng)
    let q := fun d => qs.getD ((p + d) % qs.length) default
    let ready := fun d => if (q d).2.1 = .C then s.moveReady (q d).1 else s.acceptable (q d)
    engineValid eng = true → s.engineRoom eng = true → d < qs.length → (q d).2.1 ≠ .C → ready d = true →
    (∀ e, e < d → ready e = false) →
    ∀ m, s.headOf (q d) = some m →
    let accepts := fun (s : State) (m : Cmd) =>
      (s.acceptCmd (q d).1 (q d).2.1 m m.verdict).modColumn (engineCol eng) fun c => { c with
        rotation := set c.rotation (engineSlot eng) (((p + d) % qs.length + 1) % qs.length)
        took := engineSlot eng :: c.took }
    let coll : Prop := match m.instr with | .coll .. => True | _ => False
    let g := (s.collGroup (q d).1 m).getD []
    ((coll → m.group ≠ 0 ∧ s.collDropped (q d).1 m = none) →
      exec (.engineCommandAcceptance eng) s = .next (accepts s m)) ∧
    (∀ h, coll → m.group ≠ 0 → s.collDropped (q d).1 m = some h →
      exec (.engineCommandAcceptance eng) s = .next (s.modCore (q d).1 fun c => c.suspends .L h)) ∧
    (coll → m.group = 0 → (∀ k n, some (k, n) ∈ g → s.collDropped k n = none) →
      let u := s.matched (q d).1 m g
      exec (.engineCommandAcceptance eng) s = .next (match u.headOf (q d) with | some n => accepts u n | none => u) ∧
      ∃ id, id ≠ 0 ∧ ∀ j k n, g[j]? = some (some (k, n)) →
        (∀ i a b, g[i]? = some (some (a, b)) → a = k → i = j) →
        ∃ n' : Cmd, (u.core k).l.coach = n' :: (s.core k).l.coach.tail ∧ n'.group = id ∧ n'.place = j ∧ n'.instr = n.instr ∧
          n'.desc = n.desc ∧ n'.seq = n.seq ∧ n'.peers = g.map Option.isSome)) ∧
  ∀ (s : State) (k : Nat) (x : Strm) (seq : Nat) (m : Cmd),
    let c := s.core k
    c.cmd x seq = some m →
    (m.stage = .queued → c.heldBack m = false →
      (m.refused = false → exec (.rangeHoldRelease k x seq) s = .next (s.setCmd k { m with stage := .walk })) ∧
      (m.refused = true →
        let n := s.settled k m {}
        exec (.rangeHoldRelease k x seq) s =
          .next (s.setCmd k (if n.stage = .queued then { n with stage := .walk } else n)))) ∧
    (∀ q, m.stage = .push → m.feeds = some q →
      ((c.incomplete x).any fun a => a.stillFeeds q && a.seq < m.seq) = false →
      let bytes := m.nextEntry s
      (q = 4 → c.sq.items.length + c.sq.popped + bytes.length ≤ 256 →
        ∃ t : State, exec (.engineQueuePush k x seq) s = .next t ∧
        (t.core k).sq.items = c.sq.items ++ bytes ∧ s.sameOthers t k) ∧
      (q < 4 → (c.dqueue q).items.length + (c.dqueue q).popped < 16 → ∃ t : State, exec (.engineQueuePush k x seq) s = .next t ∧
        ((t.core k).dqueue q).items = (c.dqueue q).items ++ [bytes ++ List.replicate (256 - bytes.length) 0] ∧
        s.sameOthers t k)) ∧
    (m.stage = .drain → m.flying = 0 → vcCovers (s.column (colOf k)).vc m.vec = true →
      (∀ j, j < m.peers.length → ∀ a, s.collMember m.group j = some a → a.2.stage = .drain ∧ a.2.flying = 0) →
      ∃ t : State, exec (.engineCommandCompletion k x seq) s = .next t ∧
        ((c.strm x).isPending m.tok = true →
          ((t.core k).strm x).isPending m.tok = false ∧
          ((t.core k).strm x).reg m.tok = statusWord (m.status s).1 m.acc (m.status s).2)) ∧
    (∀ r, m.stage = .failed r → ∃ t : State, exec (.transferFault k x seq) s = .next t ∧
      (t.core k).recs = c.recs ++ [r] ∧ ((t.core k).strm r.strm).stopped = true ∧
      (c.phase = .running → (t.core k).phase = .draining) ∧
      (c.phase = .draining → (t.core k).phase = .stopping .fault)) ∧
    (∀ t, m.stage = .walk → s.walk k m = some t → exec (.translationWalk k x seq) s = .next t) ∧
    (∀ h b e, m.stage = .walk → m.doomed = some (h, b, e) →
      exec (.translationWalk k x seq) s = .next (s.failCmd k { m with doomed := none } h b { cause := e })) ∧
    (m.stage = .walk → m.doomed = none → s.writeOrder k m = false →
      (match m.instr with | .cpy .. | .cpyq .. | .gth .. => True | _ => False) →
      ((∀ e ∈ c.btc, dMoving e.2 = false) → (∀ h b, dMoving ((s.tensor h).block b) = false) →
        (m.dir = 1 → s.writesLate k m = false) → ∃ t : State, exec (.translationWalk k x seq) s = .next t) ∧
      ∀ h v p, m.dir ≠ 1 → (m.isGather = true → m.index ≠ []) → s.baseOf (m.h 0) false = .inl (h, v) →
        s.placeAt k m h v m.pos = .inl p →
        let seen := s.descAt k h p.block
        let d := s.descOf h seen
        readableBlock s k h p.block d → (∀ w, v = some w → w.kind = 3 → fmtMx (dFmt d) = true) →
        ∃ t n, exec (.translationWalk k x seq) s = .next t ∧ (t.core k).cmd x seq = some n ∧
          n.stage = .read (s.column (colOf k)).vc ∧ n.under = d ∧ n.pos = m.pos ∧ n.vec = m.vec ∧
          (t.core k).btc.find? (fun e => e.1 == btcKey h p.block) = some (btcKey h p.block, seen) ∧
          c.sameMem (t.core k) ∧ (∀ y, (t.core k).strm y = c.strm y) ∧ s.sameOthers t k ∧ t.store = s.store ∧
          t.tensors = s.tensors ∧ t.transit = s.transit) ∧
    (∀ vec, m.stage = .read vec →
      ((∀ h v p, s.baseOf (m.h 0) false = .inl (h, v) → s.placeAt k m h v m.pos = .inl p →
        vcCovers (s.column (s.locColumn (handleHome h) (dLoc m.under))).vc vec = true) →
        ∃ t : State, exec (.readServe k x seq) s = .next t) ∧
      ∀ h v p, s.baseOf (m.h 0) false = .inl (h, v) → s.placeAt k m h v m.pos = .inl p →
        let vc := (s.column (s.locColumn (handleHome h) (dLoc m.under))).vc
        let w := m.unitBits s
        let place := fun u => 8 * m.base + m.imageBit w u
        let code := fun u => match s.placeAt k m h v u with | .inl q => s.readCode m h v m.under q | .inr _ => 0
        vcCovers vc vec = true →
        (s.partnerLost k (dLoc m.under) = true → ∃ t n r, exec (.readServe k x seq) s = .next t ∧
          (t.core k).cmd x seq = some n ∧ n.stage = .failed r ∧ r.cause = 0x13 ∧ r.detail = 0xFF) ∧
        (s.partnerLost k (dLoc m.under) = false → (s.eccBad (dLoc m.under)).1 = false →
          (∀ u, m.pos ≤ u → u < m.pos + m.run → ∃ q, s.placeAt k m h v u = .inl q ∧ s.byteCheck m.under (q.bit / 8) = none) →
          ∃ t n, exec (.readServe k x seq) s = .next t ∧ (t.core k).cmd x seq = some n ∧ n.pos = m.pos + m.run ∧
            n.vec = vcJoin m.vec vc ∧ s.sameOthers t k ∧ t.store = s.store ∧ t.tensors = s.tensors ∧ t.transit = s.transit ∧
            (2 ≤ m.dir → c.sameMem (t.core k) ∧
              n.buffer = m.buffer ++ ((List.range m.run).map fun i => code (m.pos + i))) ∧
            (m.dir = 0 → n.stage = (if m.total ≤ m.pos + m.run then .drain else .walk) ∧
              (∀ a, (∀ u, m.pos ≤ u → u < m.pos + m.run → a < place u / 8 ∨ place u / 8 + max 1 (w / 8) ≤ a) →
                (t.core k).scratch.byte a = c.scratch.byte a) ∧
              (w ∈ [4, 8, 16, 32] → ∀ u, m.pos ≤ u → u < m.pos + m.run →
                (∀ o, m.pos ≤ o → o < m.pos + m.run → o ≠ u → place o + w ≤ place u ∨ place u + w ≤ place o) →
                spCode (t.core k).scratch (place u) w = code u % 2 ^ w))))

/-- The exact value that an element of a write gives the place of `old`: R239. -/
def landedNum (d : BitVec 256) (op : LandOp) (shift : Int) (rqf old code : Nat) : Machine.Num :=
  let y := (decodeNum rqf (dFmt d) code).scale shift
  match op with
  | .add => addNum 0 (decodeNum rqf (dFmt d) old) y
  | _ => y

/-- The code that it stores, at tensor bit offset `p`: R43, R44, R239; a `raw` write without an exponent stores its own
(R209). -/
def landedCode (d : BitVec 256) (op : LandOp) (shift : Int) (raw : Bool) (rqf p old code : Nat) : Nat :=
  let f := dFmt d
  let cv := (convert rqf (landedNum d op shift rqf old code) f (dget d 12 3) (dget d 15 1 == 1)
    (rbStore (dget d 192 64) (p / 4))).code
  match op with
  | .plain => if raw then code else cv
  | .add => cv
  | .max => fpMax f old cv
  | .min => fpMin f old cv

/-- Where a write is stored, a private copy apart: descriptor, location, shift L - Lw, and whether it carries no exponent;
none where its target version is not the open shadow's. R209, R238, R239. -/
def landsAt (s : State) (w : Landing) : Option (BitVec 256 × Nat × Int × Bool) :=
  let t := s.tensor w.handle
  let d := t.block w.block
  if handleClass w.handle = 0 then
    match w.target with
    | some v => if t.info.shadow = true ∧ t.info.ver.toNat + 1 = v then some (d, dShloc d, t.info.shl.toInt - w.lw, false)
        else none
    | none => some (d, dLoc d, t.info.curl.toInt - w.lw, false)
  else
    let d := s.descOf w.handle d
    some (d, dLoc d, 0, true)

/-- `s` with the elements and bytes of a write in a frame. -/
def landedBytes (s : State) (w : Landing) (op : LandOp) (d : BitVec 256) (loc : Nat) (shift : Int) (raw : Bool) : State :=
  let n := fmtWidth (dFmt d)
  let u := w.elems.foldl (fun u e => u.setFrameCode loc e.1 n
    (landedCode d op shift raw w.rqf (8 * 65536 * w.block + e.1) (s.frameCode loc e.1 n) e.2)) s
  let u := w.bytes.foldl (fun u b => u.setFrame loc b.1 [b.2]) u
  match w.fill with
  | some (r, m) => u.setFrameRange loc r m
  | none => u

/-- The storage of `t` is that of `s` with a write in the frame at `loc`: every byte of the frame, and, of the others, none
changes but in the trailer page after it. The trailer of the tile that one element lands in follows R434 and R240. -/
def storedAt (s t : State) (w : Landing) (op : LandOp) (d : BitVec 256) (loc : Nat) (shift : Int) (raw : Bool) : Prop :=
  let n := fmtWidth (dFmt d)
  let u := landedBytes s w op d loc shift raw
  (dTrl d = false → t.store = u.store) ∧
  ((∀ e ∈ w.elems, e.1 / 8 + max 1 (n / 8) ≤ 65536) → (∀ b ∈ w.bytes, b.1 < 65536) →
    (∀ r m, w.fill = some (r, m) → r ≤ 65536) → (∀ r b, w.trailer = some (r, b) → r < 64 ∧ b.length = 32) →
    (∀ a, a < 65536 → t.frameByte loc a = u.frameByte loc a) ∧
    (∀ l a, l ≠ loc → l ≠ loc + 1 → a < 65536 → t.frameByte l a = s.frameByte l a) ∧
    ∀ bit code i, dTrl d = true → raw = false → w.trailer = none → w.elems = [(bit, code)] → w.bytes = [] → w.fill = none →
      s.tileSlot loc (bit / 8192) = some i → locTier (loc + 1) ≠ 0 → locTier (loc + 1) ≠ 6 →
      let x := landedNum d op shift w.rqf (s.frameCode loc bit n) code
      let counts := landCounts w.rqf (dFmt d) (dget d 12 3)
        (rbStore (dget d 192 64) ((8 * 65536 * w.block + bit) / 4)) x
      let old := s.trailer loc i
      t.trailer loc i = leBytes 4 (amaxJoin (trNum old 0 4) [x]) ++
        leBytes 4 (min (trNum old 4 4 + (if counts then 1 else 0)) (2 ^ 32 - 1)) ++ (old.drop 8).take 8 ++
        leBytes 4 (crc32c (u.tileBytes loc i old)).toNat ++ old.drop 20)

/-- R228: a column applies a write or a stamp that carries V from column j when V[j] = VC[j] + 1 and V[k] ≤ VC[k] for
every other k; VC[j] becomes V[j], and the write or stamp is no longer on its way. Until then nothing is applied, nor a
write into a cache tensor that a core of a higher COREID has come to in this ac (R367).
R209, R239, R240, R434, R413: a write that is applied stores its elements' codes and its bytes in the frame of its block,
in the target version's shadow where it has one, and no other frame but the block's trailer page changes; the first
contribution of a reduction to a block of a destination overwrites, and the later ones reduce.
R221: a write to a cache block of share count above 1 goes to a private copy of it, which the triple is mapped to; where no
space is found nothing is stored and its command fails with RESIDENCY_NOSPACE.
R223, R236, R409: a write to another package is performed when that package acknowledges it, once its flits have gone; no
column's VC changes then; where both links to the package are down its command fails with UNCORRECTABLE, detail 0xFF. That
the acknowledgement is an event of its own, at any moment, is the model's choice (DESIGN CHOICE, unsafe: log entry 16). -/
def Obligations.WriteApply : Prop :=
  ∀ (s : State) (d n : Nat) (f : Flight),
    (s.transit.filter fun f => f.dest == d)[n]? = some f →
    let vc := (s.column d).vc
    let V := f.vec
    let j := f.frm
    let late := ∃ w, f.write = some w ∧ handleClass w.handle = 1 ∧ s.comesLate f.core w.handle = true
    let no := exec (.writeApply d n) s = .refused (.notEnabled "WRITE_APPLY")
    let rest : State := { s with transit := s.transit.erase f }
    -- A write that lands in `u`, whose storage is that of `s`.
    let lands := fun (u : State) (w : Landing) =>
      let t0 := u.tensor w.handle
      let held := look 1 t0.shares w.block
      let alone := handleClass w.handle ≠ 1 ∨ held = 0 ∨ (held = 1 ∧ w.shared = false)
      let got : Nat := ((w.contrib.bind fun c => u.inGroup c.1 c.2).map fun m => look 0 m.landed w.key).getD 0
      let op := if w.contrib ≠ none ∧ got = 0 then LandOp.plain else w.op
      let gone := fun t : State => (∀ m, (s.core f.core).cmd f.strm f.seq = some m →
        ∃ m', (t.core f.core).cmd f.strm f.seq = some m' ∧ m'.flying = m.flying - 1)
      (alone → ∃ t : State, exec (.writeApply d n) s = .next t ∧ t.transit = s.transit.erase f ∧ gone t ∧
        t.columns.map (fun c => (c.1, c.2.vc)) = u.columns.map (fun c => (c.1, c.2.vc)) ∧
        (landsAt s w = none → t.store = s.store) ∧
        (∀ b loc shift raw, landsAt s w = some (b, loc, shift, raw) → storedAt s t w op b loc shift raw) ∧
        ∀ c m, w.contrib = some c → u.inGroup c.1 c.2 = some m → ∃ m', t.inGroup c.1 c.2 = some m' ∧
          look 0 m'.landed w.key = look 0 m.landed w.key + 1) ∧
      (¬alone → find t0.blocks w.block ≠ none →
        let b := t0.block w.block
        (u.allocateKv w.handle b = none → ∃ t : State, exec (.writeApply d n) s = .next t ∧ t.store = s.store ∧ gone t ∧
          t.tensors = s.tensors ∧
          ∀ m, (u.core (f.owner.getD (f.core, f.seq)).1).cmd f.strm (f.owner.getD (f.core, f.seq)).2 = some m →
            ∃ m' r, (t.core (f.owner.getD (f.core, f.seq)).1).cmd f.strm (f.owner.getD (f.core, f.seq)).2 = some m' ∧
              m'.stage = .failed r ∧ r.cause = 0x2A) ∧
        ∀ loc, u.allocateKv w.handle b = some loc → loc < 2 ^ 64 →
          let c := u.copyFrames (dLoc b) loc (dTrl b)
          ∃ (t : State) (nb : Nat), exec (.writeApply d n) s = .next t ∧ gone t ∧ find t0.blocks nb = none ∧
            (t.tensor w.handle).block nb = dput b 64 64 loc ∧
            (∀ q, q ≠ nb → (t.tensor w.handle).block q = t0.block q) ∧
            (find t0.kv w.key = some w.block → find (t.tensor w.handle).kv w.key = some nb ∧
              look 1 (t.tensor w.handle).shares nb = 1 ∧ look 1 (t.tensor w.handle).shares w.block = held - 1) ∧
            (find t0.kv w.key ≠ some w.block → (t.tensor w.handle).kv = t0.kv) ∧
            storedAt c t { w with block := nb } op (dput b 64 64 loc) loc 0 true ∧
            ∀ a, a < 65536 → locTier loc ≠ 0 → locTier loc ≠ 6 → c.frameByte loc a = s.frameByte (dLoc b) a)
    (d ≠ otherPackage →
      ((∀ k, k < 4 → (k = j → V.getD k 0 = (vc.getD k 0 + 1) % 2 ^ 48) ∧ (k ≠ j → vcLe (V.getD k 0) (vc.getD k 0) = true)) →
        ¬late →
        let u := rest.modColumn d fun c => { c with vc := vc.set j (V.getD j 0) }
        (u.column d).vc = vc.set j (V.getD j 0) ∧ (f.write = none → exec (.writeApply d n) s = .next u) ∧
        ∀ w, f.write = some w →
          lands (if handleClass w.handle = 1 then (u.landedOne f).comes f.core w.handle else u.landedOne f) w) ∧
      (((∃ k, k < 4 ∧ ((k = j ∧ V.getD k 0 ≠ (vc.getD k 0 + 1) % 2 ^ 48) ∨ (k ≠ j ∧ vcLe (V.getD k 0) (vc.getD k 0) = false))) ∨
        late) → no)) ∧
    (d = otherPackage →
      let lost := ∃ p, f.far = some p ∧ s.peerLost p.rank = true
      let waits := ∃ p, f.far = some p ∧ s.onLink p = true
      (¬lost → waits → no) ∧
      (¬lost → ¬waits → (f.write = none → exec (.writeApply d n) s = .next (rest.landedOne f)) ∧
        ∀ w, f.write = some w → lands (rest.landedOne f) w) ∧
      (lost → f.strm = .C → no) ∧
      (lost → f.strm ≠ .C →
        let o := f.owner.getD (f.core, f.seq)
        ∃ t : State, exec (.writeApply d n) s = .next t ∧ t.columns = s.columns ∧ t.store = s.store ∧ t.tensors = s.tensors ∧
          (∀ g ∈ t.transit, ¬(g.dest = otherPackage ∧ g.strm = f.strm ∧ g.owner.getD (g.core, g.seq) = o)) ∧
          ∀ m, (s.core o.1).cmd f.strm o.2 = some m → (∀ r, m.stage ≠ .failed r ∧ m.stage ≠ .stopped r) →
            ∃ m' r, (t.core o.1).cmd f.strm o.2 = some m' ∧ m'.stage = .failed r ∧ r.cause = 0x13 ∧ r.detail = 0xFF))

/-- What a stack-scope packet leaves over `old`: R193, R255. -/
def packetNew (p : Packet) (old : Nat) : Nat :=
  let m := 2 ^ (8 * p.n)
  match p.op with
  | .write => p.v
  | .amo 0 _ => (old + p.v) % m
  | .amo 1 _ => if sint (8 * p.n) old < sint (8 * p.n) p.v then old else p.v
  | .amo 2 _ => if sint (8 * p.n) old < sint (8 * p.n) p.v then p.v else old
  | .amo 3 _ => old &&& p.v
  | .amo 4 _ => old ||| p.v
  | .amo 5 _ => old ^^^ p.v
  | .amo _ _ => p.v
  | .cas new _ => if old = p.v then new else old

/-- A segment after packets, in their order: R251. -/
def segmentAfter (m : Memory) (ps : List Packet) : Memory :=
  ps.foldl (fun m p => m.setNum p.ea p.n (packetNew p (m.num p.ea p.n))) m

/-- The register that a packet writes: R255. -/
def packetDest (p : Packet) : Option Nat :=
  match p.op with
  | .write => none
  | .amo _ rd | .cas _ rd => some rd

/-- Of two packets of different streams the one that R248 takes first. -/
def packetFirst (p q : Packet) : Prop :=
  p.issued < q.issued ∨ (p.issued = q.issued ∧ (p.core % 32 < q.core % 32 ∨
    (p.core % 32 = q.core % 32 ∧ strmCode p.strm < strmCode q.strm)))

/-- The layers that an entry is offered to, in the order of R247. -/
def slotOffer (c : Column) : List Nat :=
  let e := c.slotEntry c.slot
  if slotKind e = 0 then []
  else if slotLayer e ≠ 31 then [slotLayer e]
  else
    let last := look 15 c.slotUser c.slot
    [1, 3, 5, 7, 9, 11, 13, 15].filter (last < ·) ++ [1, 3, 5, 7, 9, 11, 13, 15].filter (· ≤ last)

/-- R246, R261 to R264: at a round boundary outside a resync the round count rises, and slotset entries that were pending
are applied and slot 0 is next, or a resync begins; inside one no pair changes its power (DESIGN CHOICE, unsafe: log entry
98); 516 ac after a resync began its replicas are fresh; a layer pair whose wake is done is awake from the next boundary.
R247, R248, R257, R258: a slot passes in one ac and takes content of the first offered layer of its entry that has some:
one beat of the oldest broadcast of the owner whose destinations all run, or up to 16 packets, of each stream those issued
before, in R248's order and behind no broadcast that they wait for; what is taken leaves its queue.
R250, R251, R255, R257, R259: a slot's load is applied 4 ac after it: the segment takes its packets in order, an atomic's
destination the old value, EVFLAG of a stream whose watch range a packet meets is set (but of one whose wfe has taken an
event in the ac: R131), a beat's bytes stand in its destinations, and the last beat writes the token. -/
def Obligations.StackEvents : Prop :=
  ∀ (s : State) (col : Nat),
    let c := s.column col
    let e := c.slotEntry c.slot
    (∀ sleep, col < 4 → 64 ≤ c.slot → c.slotAt ≤ s.time.toNat →
      ∃ t : State, exec (.stackRoundBoundary col sleep) s = .next t ∧ (t.column col).round = c.round + 1 ∧
        (0 < c.resyncLeft → (t.column col).resyncLeft = c.resyncLeft - 1 ∧ (t.column col).slotAt = c.slotAt + 64 ∧
          (t.column col).power = c.power ∧ (t.column col).powerNext = c.powerNext) ∧
        (c.resyncLeft = 0 →
          let woken := c.woken ++ c.powerNext.map (·.1)
          let starts := woken ≠ [] ∧ c.resync = none ∧ ∀ a, c.resyncAt = some a → a + 1024 ≤ c.slotAt
          (∀ p, (∀ q ∈ sleep, q.1 ≠ p) → (p, 0) ∈ c.powerNext → (∀ v, (p, v) ∈ c.powerNext → v = 0) →
            (t.column col).pairPower p = 0) ∧
          (starts → (t.column col).resync = some woken ∧ (t.column col).resyncAt = some c.slotAt ∧
            (t.column col).resyncLeft = 7 ∧ (t.column col).slotAt = c.slotAt + 64 ∧ (t.column col).slots = c.slots) ∧
          (¬starts → (t.column col).slot = 0 ∧ (t.column col).slotsPending = [] ∧
            (t.column col).slots = c.slotsPending.foldl (fun m q => set m q.1 q.2.value) c.slots ∧
            ∀ k, colOf k = col → (t.core k).posted = false))) ∧
    (∀ y,
      let beats := slotBulk e = true ∧ (s.readyBeat col y (slotRegion e)).isSome = true
      (∀ k b, slotBulk e = true → s.readyBeat col y (slotRegion e) = some (k, b) →
        s.layerLoad col y e = { at_ := s.time.toNat, packets := [], beat := some (Beat.mk k b
          (decide (b.len ≤ 512 * b.beat + 512)) (b.off + 512 * b.beat) b.data (b.dests.filter (· != k))) } ∧
        (∃ q ∈ s.cores, q.1 = k ∧ b ∈ q.2.bulk) ∧ b.region = slotRegion e ∧ b.at_ < s.time.toNat ∧
        (∀ d ∈ b.dests, (s.core d).runsJob = true) ∧
        ∀ q ∈ s.cores, colOf q.1 = col → layerId q.1 = y → ∀ b' ∈ q.2.bulk, b'.region = slotRegion e →
          b'.at_ < s.time.toNat → b.at_ ≤ b'.at_) ∧
      (¬beats → slotPackets e = true → ∃ all : List Packet,
        all.Perm ((s.scopeStreams col).flatMap fun (k, x) =>
          if layerId k = y ∧ (s.core k).debug = false then ((s.core k).strm x).stackq.takeWhile fun p =>
            p.region == slotRegion e && p.issued < s.time.toNat && (s.core k).bulk.all fun b => p.after ≤ b.nth
          else []) ∧
        all.Pairwise (fun p q => ¬packetFirst q p) ∧
        s.layerLoad col y e = { at_ := s.time.toNat, packets := all.take 16, beat := none }) ∧
      (¬beats → slotPackets e = false → s.layerLoad col y e = { at_ := s.time.toNat })) ∧
    (col < 4 → c.slot < 64 → c.slotAt ≤ s.time.toNat → ∃ t : State, exec (.stackSlot col) s = .next t ∧
      (t.column col).slot = c.slot + 1 ∧ (t.column col).slotAt = c.slotAt + 1 ∧ (t.column col).seg = c.seg ∧
      t.store = s.store ∧
      ((∀ y ∈ slotOffer c, (s.layerLoad col y e).packets = [] ∧ (s.layerLoad col y e).beat = none) →
        (t.column col).flying = c.flying ∧ t.cores = s.cores) ∧
      ∀ pre y post, slotOffer c = pre ++ y :: post →
        (∀ z ∈ pre, (s.layerLoad col z e).packets = [] ∧ (s.layerLoad col z e).beat = none) →
        let l := s.layerLoad col y e
        (l.packets ≠ [] ∨ l.beat ≠ none) →
        (t.column col).flying = c.flying ++ [l] ∧
          (slotLayer e = 31 → look 15 (t.column col).slotUser c.slot = y) ∧
          (∀ k x, ((t.core k).strm x).stackq =
            (l.packets.filter fun p => p.core == k && p.strm == x).foldl List.erase ((s.core k).strm x).stackq) ∧
          ∀ b, l.beat = some b → (∀ k, k ≠ b.core → l.packets = [] → (t.core k).bulk = (s.core k).bulk) ∧
            (t.core b.core).bulk = (if b.last then (s.core b.core).bulk.filter fun q => q.nth != b.bulk.nth
              else (s.core b.core).bulk.map fun q => if q.nth = b.bulk.nth then { q with beat := q.beat + 1 } else q) ∧
            (t.core b.core).casts = (s.core b.core).casts ++ (if b.last then [b.bulk] else [])) ∧
    (∀ l r, c.flying = l :: r → l.at_ + 4 ≤ s.time.toNat → ∃ t : State, exec (.stackSlotApply col) s = .next t ∧
      (t.column col).flying = r ∧ t.store = s.store ∧ t.tensors = s.tensors ∧
      (t.column col).seg = segmentAfter c.seg l.packets ∧
      (∀ k x, colOf k = col → ((t.core k).strm x).evflag = (((s.core k).strm x).evflag ||
        (!((s.core k).strm x).heard && ((s.core k).strm x).watchLen != 0 && ((s.core k).strm x).watchFrom < s.time.toNat &&
          l.packets.any fun p => overlaps p.ea p.n ((s.core k).strm x).watchStart.toNat ((s.core k).strm x).watchLen.toNat))) ∧
      (∀ pre p post rd, l.packets = pre ++ p :: post → l.beat = none → packetDest p = some rd → rd ≠ 0 →
        ((s.core p.core).strm p.strm).isPending rd = true →
        (∀ q ∈ pre ++ post, ¬(q.core = p.core ∧ q.strm = p.strm ∧ packetDest q = some rd)) →
        ((t.core p.core).strm p.strm).reg rd = BitVec.ofNat 64 ((segmentAfter c.seg pre).num p.ea p.n) ∧
          ((t.core p.core).strm p.strm).isPending rd = false) ∧
      (l.beat = none → ∀ k, (t.core k).scratch = (s.core k).scratch) ∧
      ∀ b, l.beat = some b → l.packets = [] →
        (∀ k a, (t.core k).scratch.byte a =
          if k ∈ b.dests ∧ b.off ≤ a ∧ a < b.off + b.data.length then b.data.getD (a - b.off) 0
          else (s.core k).scratch.byte a) ∧
        (b.dests.Nodup → ∀ k ∈ b.dests,
          (t.core k).guard = ((s.core k).touch [(b.off, b.data.length)] 0 7 5 true).guard) ∧
        (b.last = false → ∀ k x, (t.core k).strm x = (s.core k).strm x) ∧
        (b.last = true → b.bulk.tok ≠ 0 → (s.core b.core).l.isPending b.bulk.tok = true →
          (t.core b.core).l.reg b.bulk.tok = statusWord b.bulk.len b.bulk.at_ 0 ∧
            (t.core b.core).l.isPending b.bulk.tok = false)) ∧
    (∀ ps a, c.resync = some ps → c.resyncAt = some a → a + 516 ≤ s.time.toNat →
      ∃ t : State, exec (.resyncEnd col) s = .next t ∧ (t.column col).resync = none ∧
        ∀ p ∈ ps, c.pairPower p = 0 →
          look false (t.column col).stale (2 * p + 1) = false ∧ look false (t.column col).stale (2 * p + 2) = false) ∧
    (∀ p, p ∈ c.wakeAsked.map (·.1) → exec (.layerPairWakeDone col p) s = .next (s.modColumn col fun c => { c with
      wakeAsked := c.wakeAsked.filter (·.1 != p), powerNext := c.powerNext ++ [(p, 0)] }))

/-- R322, R323, R328, R333 to R335: the host's write of a stream's tail; the first operator that is not ready goes to its
walkers once its inputs are settled; the record at head starts, or halts its stream with its code; an operator whose jobs
are done closes the shadows that it publishes and ends once their writes are performed; a walker hands a ready tile of the
region chosen by R335 to the first free core at or after its start index. -/
def Obligations.OperatorEvents : Prop :=
  (∀ (s : State) (col idx : Nat),
    let st := s.opStream col idx
    let mine := (s.column col).opers.filter fun o => o.idx == idx
    (∀ tail, col < 4 → s.streamUsed col idx = true → ∃ t : State, exec (.hostTailWrite col idx tail) s = .next t ∧
      (t.opStream col idx).tail = tail ∧ (t.opStream col idx).head = st.head ∧ t.cores = s.cores) ∧
    (∀ o, (mine.find? fun o => !o.ready) = some o → s.inputsSettled o = true →
      exec (.operatorRecordStart col idx) s = .next (s.readyOper col o)) ∧
    ((mine.find? fun o => !o.ready) = none → col < 4 → s.streamUsed col idx = true → st.status = 0 →
      st.head ≠ st.tail → mine.length < 4 →
      (∀ code, s.readRecord [] col idx = .inr code → ∃ t : State, exec (.operatorRecordStart col idx) s = .next t ∧
        (t.opStream col idx).status = code ∧ (t.opStream col idx).errseq = st.head ∧
        (t.opStream col idx).head = st.head) ∧
      (∀ r, s.readRecord [] col idx = .inl r → (bitsOf r.1.flags 0 1 = 1 ∨ mine = []) →
        exec (.operatorRecordStart col idx) s = .next (s.startOper col r.1 r.2.1 r.2.2))) ∧
    (∀ o, ((s.column col).opers.find? fun o => o.idx == idx && s.operDone o) = some o →
      let pubs := s.operPubs o
      let fresh := pubs.filter fun h => (s.tensor h).closing.isNone && s.admitted h
      (fresh ≠ [] → exec (.operatorEnd col idx) s = .next (fresh.foldl (fun s h =>
        s.modTensor h fun t => { t with closing := some (4096 + 1024 * col + idx) }) s)) ∧
      (fresh = [] → (∀ h ∈ pubs, s.admitted h = false ∧
          ((s.tensor h).closing = none ∨ (s.tensor h).closing = some (4096 + 1024 * col + idx))) →
        ∃ t : State, exec (.operatorEnd col idx) s = .next t ∧ (t.opStream col idx).done = st.done + 1 ∧
          ∀ p ∈ (t.column col).opers, ¬(p.idx = idx ∧ p.seq = o.seq)))) ∧
  ∀ (s : State) (layer r k : Nat) (turn : List (Nat × (Nat × Nat))) (t : Tile),
    let ts := (s.readyTiles layer).filter fun t => s.freeOf layer t.group != []
    layer < 32 → s.chooseRegion layer ts = some (r, turn) →
    pickTile (ts.filter fun t => t.region == r) = some t →
    pickCore (s.layer layer).start (s.freeOf layer t.group) = some k →
    exec (.tileHandOut layer) s =
      .next ((s.modLayer layer fun y => { y with turn := turn, start := (k % 32 + 1) % 18 }).handTile layer k t)

/-- R348, R350, R353, R356 to R358: what the residency engines do. A partition that is due is evaluated, and evicts where
it has crossed its WM_HI; a compression or a move that no pin, no transfer and no host bit meets is done, and the tensor
has the state of its new tier; where the new tier has not the frames for all of its blocks, it stays where it was (log
entry 28); an action that is met stops with the tensor's state as before; a rebuild begins, goes on to its next input,
runs its recipe job on a free core, after 1,024 ac without any it pre-empts the job of the column's lowest priority that
started last (of several the lowest core's), and ends. -/
def Obligations.ResidencyEvents : Prop :=
  (∀ (s : State) (col p : Nat), col < 4 → p < 4 → (s.column col).evalDue.contains p = true →
    let t := s.modColumn col fun c => { c with evalDue := c.evalDue.filter (· != p) }
    (t.crossed col p = true → exec (.evictionEvaluation col p) s = .next (t.evict col p (s.tensors.length + 1))) ∧
    (t.crossed col p = false → exec (.evictionEvaluation col p) s = .next t)) ∧
  (∀ (s : State) (h : Nat) (m : Moving), s.movingOf h = some m →
    (s.actionMet h = false → ∃ t : State, exec (.residencyActionDone h) s = .next t ∧ t.movingOf h = none ∧
      (m.action = .compress → (t.tensor h).info.state = m.from_ + 4) ∧
      (∀ tier role to_, m.action = .move tier role to_ →
        let moved := (s.invalidate h fun _ => true).moveBlocks h to_ (tier - 1) role (s.tensor h).stored
        (moved.isSome = true → (t.tensor h).info.state = tierState tier) ∧
        (moved = none → (t.tensor h).info.state = m.from_ ∧ t.store = s.store))) ∧
    (s.actionMet h = true → ∃ t : State, exec (.residencyActionStop h) s = .next t ∧ t.movingOf h = none ∧
      (t.tensor h).info.state = m.from_ ∧ t.store = s.store)) ∧
  (∀ (s : State) (h depth : Nat),
    s.rebuildOf h = none → (s.tensor h).info.state = 7 → depth = 1 → s.referenced h = true →
    1 ≤ (s.column (handleHome h)).depthMax.toNat → (s.tensor h).info.recipe = true →
    ∃ t : State, exec (.rebuild h depth) s = .next t ∧ (t.tensor h).info.state = 9 ∧
      ∃ r, t.rebuildOf h = some r ∧ r.depth = depth ∧ r.chain = [h] ∧ r.todo = (s.tensor h).uses.map (·.1)) ∧
  ∀ (s : State) (h : Nat) (r : Rebuild), s.rebuildOf h = some r →
    (∀ t, s.rebuildStep r = some t → exec (.rebuild h r.depth) s = .next t) ∧
    (∀ k, r.job = true → r.core = none → r.ended = none → s.freeCore (handleHome h) = some k →
      exec (.recipeJobStart h) s =
        .next ((s.setRebuild { r with core := some k }).startJob k (s.recipeJob h) false)) ∧
    (∀ k, r.job = true → r.core = none → r.ended = none → r.since + 1024 ≤ s.time.toNat →
      s.freeCore (handleHome h) = none → s.preempting (handleHome h) = 0 →
      k ∈ coresOfColumn (handleHome h) → s.canPreempt k = true →
      (∀ a ∈ coresOfColumn (handleHome h), s.canPreempt a = true → a ≠ k →
        let prio := fun c => s.jobPrio (s.core c).theJob
        let start := fun c => (s.core c).theJob.start
        prio k < prio a ∨ (prio k = prio a ∧ (start a < start k ∨ (start a = start k ∧ k < a)))) →
      exec (.recipeCoreTimeout h) s = .next (s.preempt k)) ∧
    (r.ended = some false → exec (.rebuildComplete h) s = .next (s.failRebuild h 0x29)) ∧
    (r.ended = some true → ∃ t : State, exec (.rebuildComplete h) s = .next t ∧ t.rebuildOf h = none)

/-- R312, R313, R339: a chunk of 65,536 bytes begins to spill when the occupancy exceeds CULHW or a push waits, and to
refill when it is below CULLW or a pop waits and there is room, in its turn of its dray's rotation, which goes on after
it. At the end of a spill the chunk's bytes leave for the tensor, and once the last of them is written CULBASE and the
chunk count rise; at the end of a refill, once its read is covered (R229, R230), the bytes of the highest chunk stand
below CULBASE.
R207, R211, R314, R409: a chunk that its checks, its trailer bit, its partner or ECC refuses, or that is lost with the
links to its package, faults with its record instead. -/
def Obligations.CulletEvents : Prop :=
  ∀ (s : State) (k : Nat),
    let c := s.core k
    let turn := s.nextPlace (drayOf k) s.moveReady = some (movePlace k)
    let begins := coreValid k = true ∧ c.job.isSome = true ∧ c.debug = false ∧ c.culMove = 0 ∧ c.culLeave = none ∧
      (c.phase = .running ∨ c.phase = .draining)
    (begins → turn → c.culHandle ≠ 0 → 65536 ≤ c.occupancy → c.culhw.toNat < c.occupancy ∨ c.pushWaits = true →
      exec (.culletSpillStart k) s =
        .next ((s.setCore k { c with culMove := 1, culBuf := c.c.buftag }).served (drayOf k) (movePlace k))) ∧
    (begins → turn → c.culChunks ≠ 0 → c.occupancy + 65544 ≤ 2 ^ 18 → c.occupancy < c.cullw.toNat ∨ c.popWaits = true →
      exec (.culletRefillStart k) s = .next ((s.setCore k { c with
        culMove := 2, culVec := (s.column (colOf k)).vc, culBuf := c.c.buftag }).served (drayOf k) (movePlace k))) ∧
    (c.culMove = 1 → c.culRec = none →
      let wrote := s.culletWrite k (c.culChunks.toNat + 1) 65536 (ringSlice c.ring c.culBase.toNat 65536)
      let flying := fun t : State => t.transit.any fun f => f.core == k && f.strm == .C && f.write.isSome
      let done := fun t : State => exec (.culletSpillDone k) s = .next ((t.modCore k fun c =>
        { c with culBase := c.culBase + 65536, culChunks := c.culChunks + 1, culMove := 0, culSent := false }).chunkMoved k 65536)
      (c.culSent = false →
        (∀ t, wrote = .done t → (flying t = false → done t) ∧ (flying t = true →
          exec (.culletSpillDone k) s = .next (t.modCore k fun c => { c with culSent := true }))) ∧
        ∀ x, wrote = .bad x → exec (.culletSpillDone k) s = .next (s.failMove k c.culChunks.toNat 65536 x)) ∧
      (c.culSent = true → s.culletLost k = true → exec (.culletSpillDone k) s =
        .next (((s.dropCullet k).modCore k fun c => { c with culSent := false }).failMove k c.culChunks.toNat 65536
          { cause := 0x13, detail := 0xFF })) ∧
      (c.culSent = true → s.culletLost k = false → (flying s = false → done s) ∧
        (flying s = true → exec (.culletSpillDone k) s = .refused (.notEnabled "CULLET_SPILL_DONE")))) ∧
    (c.culMove = 2 → c.culRec = none →
      let h := c.culHandle.toNat
      let chunk := c.culChunks.toNat - 1
      let d := (s.tensor h).block (chunk + 1)
      let home := (s.column (s.locColumn (handleHome h) (dLoc d))).vc
      let fails := fun (t : State) (x : Denial) => exec (.culletRefillDone k) s = .next (t.failMove k chunk c.chunkLen x)
      (∀ x, s.checkDesc c.access h d 0 = .bad x → fails s x) ∧
      (handleClass h = 3 → dTrl d = true → ∀ e, s.checkDesc c.access h d 0 ≠ .ok e) ∧
      ∀ e, s.checkDesc c.access h d 0 = .ok e → vcCovers home c.culVec = true →
        vcCovers (s.column (colOf k)).vc home = true →
        (s.partnerLost k (dLoc d) = true → fails s { cause := 0x13, detail := 0xFF }) ∧
        (s.partnerLost k (dLoc d) = false →
          let t := (s.eccBad (dLoc d)).2
          let base := c.culBase - BitVec.ofNat 18 c.chunkLen
          ((s.eccBad (dLoc d)).1 = true → fails t { cause := 0x13 }) ∧
          ((s.eccBad (dLoc d)).1 = false → exec (.culletRefillDone k) s = .next ((t.setCore k { c with
            ring := ringSplice c.ring base.toNat c.chunkLen (t.frameRange (dLoc d) c.chunkLen), culBase := base
            culChunks := c.culChunks - 1, culMove := 0, culLast := 0 }).chunkMoved k c.chunkLen))))

/-- R406 to R410, R237: a flit that arrives on a trained link of the slice is counted; FEC corrects up to 12 byte errors
of a codeword; a flit that it cannot correct counts as uncorrectable, and one that is not next in sequence is not
delivered; the one that is next is, and so are the writes of another package that its payload holds (which those are is
given beside it: log entry 51); no core, tensor or column changes else. A lane that has passed 65,536 clean test flits is
handed back from the flit 4 beyond the last accepted; a retrained link is up, with no lane out and nothing on its way (log
entry 51).
R417: a host access to a frame whose host bit is set (log entry 53) reads or writes its bytes; any other reads ones, and
its write is dropped and logged. R318, R321, R396, R416, R418, R425: the runtime's accesses: the device answers them while
its firmware runs, and in minimal mode the write of boot flash and the reads of BOOTFAIL and BOOTREASON (log entry 54); a
virtual function's write of what it does not reach changes nothing, and its read gets no bytes; a read answers with the
record; a region control block takes effect with the next ac (R28). R344: WM_LO stays below WM_HI; a depth of 0 or above 8
is ignored. R213: a partition takes its new size once no tensor stands in its way. R427: LIMIT takes a value from 1,200 to
6,000; any other leaves a free value in it (log entry 35, the model's choice). -/
def Obligations.OutsideEvents : Prop :=
  (∀ (s : State) (n : Nat),
    let l := s.link n
    (∀ sent flit brings, s.lit n = true → l.trained = true → l.down = false → flit.length = 256 → farWritesOk brings = true →
      ∃ t : State, exec (.flitReceive n { sent := sent, got := flit, brings := brings }) s = .next t ∧ (t.link n).received = l.received + 1 ∧
        t.cores = s.cores ∧ t.tensors = s.tensors ∧ (brings = [] → t.columns = s.columns ∧ t.store = s.store) ∧
        (fecDecode sent flit = none → (t.link n).uncorrectable = l.uncorrectable + 1 ∧ (t.link n).expect = l.expect ∧
          (t.link n).delivered = l.delivered ∧ t.columns = s.columns ∧ t.store = s.store) ∧
        ∀ f at_, fecDecode sent flit = some (f, at_) →
          let next := leNat ((f.drop 2).take 2) % 2 ^ 11 = l.expect % 2 ^ 11
          let idle := leNat (f.take 2) % 4 = 0
          (t.link n).uncorrectable = l.uncorrectable ∧
          (next → (t.link n).expect = l.expect + 1 ∧
            (t.link n).delivered = l.delivered ++ (if idle then [] else (f.drop 8).take 224)) ∧
          (¬next → (t.link n).expect = l.expect ∧ (t.link n).delivered = l.delivered) ∧
          (¬next ∨ idle → t.columns = s.columns ∧ t.store = s.store) ∧
          ∀ loc off b, next → ¬idle → brings = [(loc, off, b)] → t.frameBytes loc off b.length = b) ∧
    (∀ sent flit : List Byte, sent.length = 256 → flit.length = 256 →
      sent.drop 232 = leBytes 24 (Config.rsCheck (sent.take 232)).toNat →
      ((List.range 256).filter fun i => sent.getD i 0 != flit.getD i 0).length ≤ 12 →
      (fecDecode sent flit).map Prod.fst = some sent) ∧
    (∀ lane clean, l.out = some lane → l.pending = none → l.down = false →
      (65536 ≤ clean → exec (.laneHandBack { link := n, clean := clean }) s = .next (s.modLink n fun l => { l with
        pending := some (lane, false, l.expect + 3)
        lreq := BitVec.ofNat 16 (2 ^ 13 * lane + 2 * 2 ^ 11 + (l.expect + 3) % 2 ^ 11) })) ∧
      (clean < 65536 → exec (.laneHandBack { link := n, clean := clean }) s = .refused (.notEnabled "LANE_HAND_BACK"))) ∧
    (s.lit n = true → s.mgmt.running = true → exec (.linkRetrain n) s = .next (s.modLink n fun l => { l with
      down := false, trained := true, expect := 0, bad := [], out := none, crossed := none, pending := none
      lreq := 0, txOut := none, txPending := none, txNext := 0, waiting := [], replay := [], again := []
      frameAt := 0, frameUse := [], sent := [] }))) ∧
  (∀ (s : State) (loc off n : Nat) (b : List Byte),
    s.mgmt.running = true → locTier loc = 2 ∨ locTier loc = 3 → loc < 2 ^ 64 → off + n ≤ 65536 → b.length = n →
    (s.hostFrame loc = true →
      exec (.cxlMemHostAccess loc off n none) s = .next (s.reply 0 (s.frameBytes loc off n)) ∧
      exec (.cxlMemHostAccess loc off n (some b)) s = .next ((s.setFrame loc off b).reply 0 [])) ∧
    (s.hostFrame loc = false →
      exec (.cxlMemHostAccess loc off n none) s = .next (s.reply 0 (List.replicate n 0xFF)) ∧
      exec (.cxlMemHostAccess loc off n (some b)) s = .next ((s.log (.hostWriteDropped loc)).reply 0 []))) ∧
  (∀ (s : State) (item : RuntimeItem) (v : BitVec 3),
    s.mgmt.running = true ∨ (s.mgmt.boot = .minimal ∧
      ((∃ image, item = .bootFlash image) ∨ item = .read .bootFail ∨ item = .read .bootReason)) →
    exec (.runtimeRegisterWrite none item) s = .next (s.runtimeWrite item) ∧
    (s.vfReaches v.toNat item = true → exec (.runtimeRegisterWrite (some v) item) s = .next (s.runtimeWrite item)) ∧
    (s.vfReaches v.toNat item = false → (∀ what, item ≠ .read what) →
      exec (.runtimeRegisterWrite (some v) item) s = .next s) ∧
    ∀ what, item = .read what → s.runtimeWrite item = s.reply 0 (s.runtimeRead what) ∧
      (s.vfReaches v.toNat item = false → exec (.runtimeRegisterWrite (some v) item) s = .next (s.reply 1 []))) ∧
  (∀ (s : State) (col vf buf idx h b : Nat),
    s.runtimeRead (.hotness col vf buf) =
      (let e := look (0, 0) (s.column (col % 4)).hotness (256 * (vf % 8) + buf % 256)
       leBytes 6 e.1.toNat ++ leBytes 6 e.2.toNat) ∧
    s.runtimeRead (.regionEnergy idx) = leBytes 8 (look 0 s.regionEnergy idx).toNat ∧
    s.runtimeRead (.region idx) = leBytes 64 (s.rcb idx).toNat ∧
    s.runtimeRead (.descriptor h b) = leBytes 32 ((s.tensor h).block b).toNat ∧
    (s.vfReads 0 (.hotness col vf buf) = decide (vf = 0))) ∧
  (∀ (s : State) (n col ring cap region h b : Nat) (r : BitVec 512) (d : BitVec 256) (image : List Byte) (v : BitVec 16),
    (n < 4096 → s.runtimeWrite (.region n r) = { s with regionsNext := set s.regionsNext n r }) ∧
    (col < 4 → n < 1024 → 4 ≤ cap → cap ≤ 20 →
      (s.runtimeWrite (.streamCreate col n ring cap region)).opStream col n =
        { ring := ring, cap := cap, region := region }) ∧
    (s.runtimeWrite (.descriptor h b d)).tensor h = (s.tensor h).setBlock b d ∧
    (s.runtimeWrite (.bootFlash image)).mgmt = { s.mgmt with flash := some image, verified := false } ∧
    (s.runtimeWrite (.lthr v)).mgmt = { s.mgmt with lthr := v }) ∧
  (∀ (s : State) (col tier : Nat) (v : BitVec 16),
    let c := s.column col
    let lo := c.wmLo.getD tier 0
    let hi := c.wmHi.getD tier 0
    s.mgmt.running = true → col < 4 → tier < 4 → tier < c.wmHi.length → tier < c.wmLo.length →
    (v ≠ 0 → exec (.watermarkWrite col tier true v) s = .next (s.modColumn col fun c => { c with
      wmHi := c.wmHi.set tier v.toNat, wmLo := c.wmLo.set tier (if lo < v.toNat then lo else v.toNat - 1) })) ∧
    (hi ≠ 0 → exec (.watermarkWrite col tier false v) s = .next (s.modColumn col fun c => { c with
      wmLo := c.wmLo.set tier (if v.toNat < hi then v.toNat else hi - 1) })) ∧
    ∀ w, ∃ t : State, exec (.watermarkWrite col tier w v) s = .next t ∧ t.cores = s.cores ∧ t.store = s.store) ∧
  (∀ (s : State) (col : Nat) (v : BitVec 8), s.mgmt.running = true → col < 4 →
    (1 ≤ v.toNat → v.toNat ≤ 8 → exec (.recipeDepthMaxWrite col v) s =
      .next (s.modColumn col fun c => { c with depthMax := v.truncate 4 })) ∧
    (v = 0 ∨ 8 < v.toNat → exec (.recipeDepthMaxWrite col v) s = .next s)) ∧
  (∀ (s : State) (col units : Nat), s.mgmt.running = true → col < 4 → units ≤ 8 →
    let t := s.modColumn col fun c => { c with cacheNext := some units }
    exec (.partitionSizeSet col units) s = .next (t.settlePartition col) ∧
      (t.inTheWay col units = [] → t.settlePartition col =
        t.modColumn col fun c => { c with cacheUnits := units, cacheNext := none, cache := [] }) ∧
      (t.inTheWay col units ≠ [] → ((t.settlePartition col).column col).cacheUnits = (s.column col).cacheUnits ∧
        ((t.settlePartition col).column col).cacheNext = some units)) ∧
  ∀ (s : State) (w : BitVec 16), s.mgmt.running = true →
    (1200 ≤ w.toNat → w.toNat ≤ 6000 →
      exec (.limitWrite w) s = .next { s with mgmt := { s.mgmt with limit := w } }) ∧
    (w.toNat < 1200 ∨ 6000 < w.toNat → ∃ t : State, exec (.limitWrite w) s = .next t ∧
      { t with freeCtr := s.freeCtr, mgmt := { t.mgmt with limit := s.mgmt.limit } } = s)

/-- The watts that R427 grants a column on each rail at start-up: compute, SRAM, base logic, optics, HBM, far DRAM. -/
def startUpWatts (rail : Nat) : Nat := [150, 30, 50, 20, 40, 10].getD rail 0

/-- Sum of the powers at a place of a list. -/
def powerAt (l : List (Nat × Nat)) (at_ : Nat → Nat) (p : Nat) : Nat :=
  ((l.filter fun e => at_ e.1 == p).map (·.2)).sum

/-- What R427 grants at a place, in mW, under `total`: what accepted work asks for, in its order; then what running jobs
demand, of each region within its share of the remainder; then the rest, in proportion to what is unmet. Accepted work stands
by place, demand by 120 region + place. -/
def powerRule (total : Nat) (share : Nat → Nat) (asked demand : List (Nat × Nat)) (p : Nat) : Nat :=
  let first := fun i => min (asked.getD i (0, 0)).2 (total - ((asked.take i).map (·.2)).sum)
  let rest := total - (asked.map (·.2)).sum
  let want := fun i => (demand.getD i (0, 0)).2
  let region := fun i => (demand.getD i (0, 0)).1 / 120
  let got := fun i => min (want i)
    (share (region i) * rest / 256 - (((List.range i).filter fun j => region j == region i).map want).sum)
  let is := List.range demand.length
  let left := rest - (is.map got).sum
  let unmet := fun i => want i - got i
  (((List.range asked.length).filter fun i => (asked.getD i (0, 0)).1 == p).map first).sum +
    ((is.filter fun i => (demand.getD i (0, 0)).1 % 120 == p).map fun i =>
      got i + min (unmet i) (left * unmet i / (is.map unmet).sum)).sum

/-- R422 to R427, R429, R430: the management plane. A reset answers minimal mode after three failed starts; what it leaves
in storage is the model's choice (DESIGN CHOICE, unsafe: log entry 1); a start that passes hands over to firmware; BOOTOK
clears BOOTFAIL, also in the management cycle of a failed start (R425), and is no longer taken after 2 s, when a start
that is not handed over fails with reason 0x05 (which inputs of a start-up are free: log entry 58); fuses only gain bits.
Grants are formed once at each boundary of 850 ac (R27, R427; once a window: DEDUCED, unsafe, log entry 56): a column has
the start-up grant while LIMIT is 0, else what the three steps of R427 give under LIMIT, and its compute grant is halved
after a sensor at 105 C or at 115 C; each is held as current at the rail's voltage; a column that wants more than its
grant on a rail is limited. What work asks for comes as arguments, else as free values (log entry 94). At 115 C, or with a
rail out of tolerance, the cores debug-stop. Attestation answers while the package is powered (what the SPDM standard
shapes is free: log entry 57), and negotiates no algorithm that R426 does not list. -/
def Obligations.ManagementEvents : Prop :=
  (∀ (s : State) (bits : BitVec 64),
    let m := s.mgmt
    (∃ t : State, exec .reset s = .next t ∧ t.mgmt.svn = m.svn ∧ t.time = 0 ∧ t.cores = [] ∧ t.store = [] ∧
      (m.bootfail = 3 → t.mgmt.boot = .minimal ∧ t.mgmt.bootfail = 3) ∧
      (m.bootfail ≠ 3 → Config.startUpGood s.freeCtr = true → m.refusal = none →
        t.mgmt.boot = .firmware 0 ∧ t.mgmt.bootfail = m.bootfail)) ∧
    (m.running = true → m.failedNow = 0 → (∀ a, m.boot = .firmware a → s.time.toNat < a + 1700000000) →
      exec .bootok s = .next { s with mgmt := { m with boot := .handed, bootfail := 0 } }) ∧
    (∀ a, m.failedNow = 0 → m.boot = .firmware a → a + 1700000000 ≤ s.time.toNat →
      exec .bootok s = .refused (.notEnabled "BOOTOK")) ∧
    (0 < m.failedNow → exec .bootok s = .next { s with mgmt := { m with bootfail := 0 } }) ∧
    (∀ a, m.boot = .firmware a → a + 1700000000 ≤ s.time.toNat → ∃ t : State, exec .bootWatchdogExpiry s = .next t ∧
      t.mgmt.svn = m.svn ∧ (m.bootfail = 2 → t.mgmt.boot = .minimal ∧ t.mgmt.bootreason = 0x05)) ∧
    exec .bootfailClear s = .next { s with mgmt := { m with bootfail := 0 } } ∧
    exec .auxiliaryPowerLoss s = .next { s with mgmt := { m with bootfail := 0, bootreason := 0 } } ∧
    (m.running = true → m.verified = true →
      exec (.firmwareFuseBurn bits) s = .next { s with mgmt := { m with svn := m.svn ||| bits, verified := false } })) ∧
  (∀ (s : State) (col pair sensor rail : Nat) (accepted demand : List Nat), col < 4 →
    (s.time.toNat % 850 = 0 → s.mgmt.granted ≠ some s.time.toNat → ∃ t : State,
      exec (.powerGrantWindow accepted demand) s = .next t ∧ (t.column col).thermal = false ∧ t.cores = s.cores ∧
        t.mgmt.granted = some s.time.toNat ∧
        let asked := workPowers accepted s.freeCtr s.acceptedWork
        let wants := workPowers demand (s.freeCtr + 6 * s.acceptedWork.length) s.jobWork
        let granted := fun u r =>
          let g := if s.mgmt.limit = 0 then (if u = 0 then 1000 * startUpWatts r else 0)
            else powerRule (1000 * s.mgmt.limit.toNat) s.powerShare asked wants (30 * col + 6 * u + r)
          if (s.column col).thermal = true ∧ u = 0 ∧ r = 0 then g / 2 else g
        (s.mgmt.limit = 0 ∨ (((wants.map (·.1 / 120)).eraseDups).map s.powerShare).sum ≤ 256 →
          (∀ u r, u < 5 → r < 6 → t.grantOf col u r = 10 * granted u r / Config.millivolts r % 2 ^ 16) ∧
          ((t.column col).limited = true ↔ ∃ r, r < 6 ∧ ((List.range 5).map fun u => granted u r).sum <
            ((List.range 5).map fun u => powerAt asked id (30 * col + 6 * u + r) +
              powerAt wants (· % 120) (30 * col + 6 * u + r)).sum))) ∧
    (s.time.toNat % 850 ≠ 0 ∨ s.mgmt.granted = some s.time.toNat → exec (.powerGrantWindow accepted demand) s = .refused (.notEnabled "POWER_GRANT_WINDOW")) ∧
    (pair < 8 → sensor < 4 →
      exec (.thermalHigh col pair sensor) s = .next (s.modColumn col fun c => { c with thermal := true }) ∧
      ∃ t : State, exec (.thermalCritical col pair sensor) s = .next t ∧
        (∀ k ∈ coresOfColumn col, (t.core k).debug = true ∨ (t.core k).debugReq = true) ∧
        (t.column col).thermal = true ∧ t.mgmt.log = s.mgmt.log ++ [.thermal col pair sensor]) ∧
    (rail < 6 → ∃ t : State, exec (.railOutOfTolerance rail) s = .next t ∧
      (∀ k ∈ allCores, (t.core k).debug = true ∨ (t.core k).debugReq = true) ∧
      t.mgmt.log = s.mgmt.log ++ [.rail rail])) ∧
  ∀ (s : State) (offer : List SpdmAlg) (n : Nat) (b : List Byte), s.mgmt.boot ≠ .off →
    let p := s.mgmt.spdm
    let answers := fun (e : Instr) (status : Nat) (q : SpdmState) =>
      ∃ t : State, exec e s = .next t ∧ t.mgmt.reply.status = status ∧ t.mgmt.spdm = q ∧ t.cores = s.cores ∧
        t.store = s.store
    answers .getVersion 0 { versioned := true } ∧
    answers .getCapabilities 0 { p with capable := true } ∧
    ((∃ a ∈ offer, Machine.SpdmAlg.offered a = true) →
      answers (.negotiateAlgorithms offer) 0 { p with negotiated := true } ∧
      ∀ t, exec (.negotiateAlgorithms offer) s = .next t → t.mgmt.reply.algs = offer.filter Machine.SpdmAlg.offered) ∧
    ((∀ a ∈ offer, Machine.SpdmAlg.offered a = false) →
      answers (.negotiateAlgorithms offer) 1 { p with negotiated := false, keyed := false, session := false }) ∧
    answers .getDigests 0 p ∧ answers (.getCertificate 0) 0 p ∧ (n ≠ 0 → answers (.getCertificate n) 1 p) ∧
    answers (.challenge b) 0 p ∧ (1 ≤ n → n ≤ 3 → answers (.getMeasurements n) 0 p) ∧
    (n = 0 ∨ 3 < n → answers (.getMeasurements n) 1 p) ∧
    (p.negotiated = true → answers (.keyExchange b) 0 { p with keyed := true }) ∧
    (p.negotiated = false → answers (.keyExchange b) 1 p) ∧
    (p.keyed = true → Config.finishValid b = true → answers (.finish b) 0 { p with session := true }) ∧
    (p.keyed = false ∨ Config.finishValid b = false → answers (.finish b) 1 p)

/-- R397 to R404: a debug stop holds every enabled core it names, at once or after the stop in progress, and changes no
other core; a release frees it; the debug address space answers NOENT, BUSY, OFF for a gated pair (R265), or the item;
comparators, TRCTL, trace entries, replicas and
storage are read, a comparator's write applies in the second ac after it, and the read-only items answer a write with NOENT;
TRCTL is written without its reserved bits, and a recording that has reached its end clears enable and sets done. What a
core without a stopped job answers is the model's reading (DEDUCED, unsafe: log entry 59). -/
def Obligations.DebugEvents : Prop :=
  (∀ (s : State) (ks : List Nat), ∃ t : State, exec (.debugStopRequest ks) s = .next t ∧
    (∀ k ∈ ks, coreValid k = true → (t.core k).debug = true ∨ (t.core k).debugReq = true) ∧
    (∀ k, k ∉ ks → t.core k = s.core k) ∧ t.store = s.store ∧ t.time = s.time) ∧
  (∀ (s : State) (k : Nat), coreValid k = true → (s.core k).phase = .running → (s.core k).debug = true →
    ∃ t : State, exec (.debugRelease [k]) s = .next t ∧ (t.core k).debug = false ∧ (t.core k).debugReq = false ∧
      s.sameOthers t k) ∧
  (∀ (s : State) (k off : Nat) (a v : BitVec 64), debugItem a.toNat = .area k off →
    let power := (s.column (colOf k)).pairPower (pairOf k)
    (power = 2 → exec (.debugRead a) s = .next (s.word dbgOff 0xDEADDEADDEADDEAD)) ∧
    ((s.core k).debug = false → (power ≠ 2 → exec (.debugRead a) s = .next (s.word dbgBusy 0)) ∧
      exec (.debugWrite a v) s = .next (s.word dbgBusy 0)) ∧
    ((s.core k).debug = true → entryPresent (s.debugImage k) off = true →
      (power ≠ 2 → exec (.debugRead a) s =
        .next (s.reply (if power = 1 then dbgWoken else dbgOk) ((s.debugImage k).bytes off 8))) ∧
      exec (.debugWrite a v) s = .next ((s.pokeArea k off (leBytes 8 v.toNat)).word dbgOk 0)) ∧
    ((s.core k).debug = true → entryPresent (s.debugImage k) off = false →
      (power ≠ 2 → exec (.debugRead a) s = .next (s.word dbgNoent 0)) ∧
      exec (.debugWrite a v) s = .next (s.word dbgNoent 0))) ∧
  (∀ (s : State) (a v : BitVec 64),
    let it := debugItem a.toNat
    let power := s.itemPower it
    let good := if power = 1 then dbgWoken else dbgOk
    let reads := fun (status : Nat) (bs : List Byte) => power ≠ 2 → exec (.debugRead a) s = .next (s.reply status bs)
    let writes := fun (t : State) => exec (.debugWrite a v) s = .next (t.word dbgOk 0)
    let readOnly := exec (.debugWrite a v) s = .next (s.word dbgNoent 0)
    (power = 2 → exec (.debugRead a) s = .next (s.word dbgOff 0xDEADDEADDEADDEAD)) ∧
    (∀ k n, it = .comparator k n →
      let c := (s.core k).ctr
      reads good (leBytes 8 ((s.core k).comparator n).toNat) ∧
      (c.late = [] → (s.core k).comparator n = if n < 4 then (look 0 c.bkpt n).zeroExtend 64 else look 0 c.watch (n - 4)) ∧
      writes (s.modCore k fun d => { d with ctr := { d.ctr with
        late := d.ctr.late ++ [(s.time.toNat + 2, n, v &&& if n < 4 then 0xFFFFFFFF else 0xFFFFFF00000FFFFF)] } })) ∧
    (∀ l, it = .trctl l → reads good (leBytes 8 (s.layer l).trctl.toNat) ∧ writes (s.modLayer l fun y => y.writeTrctl v)) ∧
    (∀ l i h, it = .traceEntry l i h → readOnly ∧
      ((s.layer l).trctl.getLsbD 5 = true → reads dbgBusy (leBytes 8 0)) ∧
      ((s.layer l).trctl.getLsbD 5 = false →
        reads good (leBytes 8 (bitsOf (look 0 (s.layer l).trace i).toNat (64 * h) 64)))) ∧
    (∀ col y off, it = .replica col y off → readOnly ∧
      ((s.column col).isStale y = true → ∃ bs, reads dbgStale bs) ∧
      ((s.column col).isStale y = false → reads good ((s.column col).seg.bytes off 8))) ∧
    (∀ col pair off, it = .storage col pair off → readOnly ∧ reads good (s.sramBytes col pair off) ∧
      (off / 65536 < 24576 - 2048 * (s.column col).cacheUnits →
        s.sramBytes col pair off =
          s.frameBytes (2 ^ 61 + 2 ^ 18 * col + 2 ^ 15 * pair + off / 65536) (off % 65536) 8)) ∧
    (∀ col off, it = .base col off → readOnly ∧ reads dbgOk ((s.column col).seg.bytes off 8))) ∧
  (∀ (s : State) (a v : BitVec 64), debugItem a.toNat = .absent →
    exec (.debugRead a) s = .next (s.word dbgNoent 0) ∧ exec (.debugWrite a v) s = .next (s.word dbgNoent 0)) ∧
  ∀ (s : State) (n : Nat) (v : BitVec 64),
    (n < 32 → ∃ t : State, exec (.trctlWrite n v) s = .next t ∧ (t.layer n).trctl = v &&& 0xFFFF0000000300FF ∧
      (v.getLsbD 5 = true → (t.layer n).traceAt = 0 ∧ (t.layer n).tracePost = 0)) ∧
    ((s.layer n).trctl.getLsbD 5 = true → (s.layer n).traceOver = true → ∃ t : State, exec (.traceEnd n) s = .next t ∧
      (t.layer n).trctl.getLsbD 5 = false ∧ (t.layer n).trctl.getLsbD 17 = true ∧
      (t.layer n).trace = (s.layer n).trace)

/-! ## Encoding, steps and the state after reset -/

/-- R75 to R78: some words, written out from the encoding tables, and what they decode to: `addi s3, s3, -5`, a `vcvt`, a
`br`, `rdv`, `getc` and `setc` of VWIN, a `vadd`, a `tld`, a `mmas`, `lease 1`, a `tshape`; and words that are none. -/
def Obligations.DecodeWords : Prop :=
  decode 0b000100_00011_00011_1111111111111011 = .instr (.addi 3 3 0xFFFB) ∧
  decode 0b011110_000010_000001_010011_0_000_1_000 = .instr (.vcvt 2 1 0x13 0 0 1 0) ∧
  decode 0b001110_010_00011_00101_111111110_0001 = .instr (.br 2 3 5 0x1FE 1) ∧
  decode 0b010001_0100_0000000000000000000000 = .instr .rdv ∧
  decode 0b110111_00000_000000000_000000010000 = .instr (.getc 0 0x010) ∧
  decode 0b110111_00111_100000000_000000010000 = .instr (.setc 7 0x010) ∧
  decode 0b010111_001001_001001_001001_000_00000 = .instr (.vadd 9 9 9 0) ∧
  decode 0b101000_000_00100_0000_00000000000000 = .instr (.tld 0 4 0) ∧
  decode 0b101001_000_000_001_01000000000000000 = .instr (.mmas 0 0 1) ∧
  decode 0b101011_0000000000000000000_0000001 = .instr (.lease 1) ∧
  decode 0b100111_000_00101_000000000000000000 = .instr (.tshape 0 5) ∧
  decode 0 = .reject .noInstruction ∧
  decode 0b101011_0000000000000000000_0000000 = .reject .outOfLimits

/-- R75 to R81: an instruction whose fields lie in their limits has a word, and that word decodes to it: no bit of an
encoding is dropped. -/
def Obligations.EncodeDecode : Prop :=
  ∀ i : Instr, i.wf = true → i.isEvent = false → ∃ w, encode i = some w ∧ decode w = .instr i

/-- R75 to R81: a word that decodes is the word of its instruction, bit for bit, and the instruction's fields lie in their
limits; so no two words decode to one instruction. -/
def Obligations.DecodeEncode : Prop :=
  ∀ (w : W32) (i : Instr), decode w = .instr i → i.wf = true ∧ i.isEvent = false ∧ encode i = some w

/-- R62 to R67, R107: a step runs the decoded instruction. Where the next move, of the agenda or of the default schedule,
is that of a stream that may issue and has not issued in this ac, with no fault of its fetch, no breakpoint at its program
counter, no watchdog limit reached, and no power throttling that withholds it (R340), and the word there, in the line as
the stream fetched it, decodes to `i`, the step is `exec i` on that stream; where decoding refuses the word, the step is
exec of the ILLEGAL_OP of that word, or, for a queue form that does not exist, raises STREAM_MISMATCH with the word (R79,
R82). A stream's move without its turn, and an event of the agenda that cannot happen, are passed over; an event that can
is a step; a tick is one ac (R9), or the reset of a package whose firmware has run for 2 s without BOOTOK (R423). The
agenda and the default schedule are the model's choice (DESIGN CHOICE: log entry 2). -/
def Obligations.StepRunsDecoded : Prop :=
  (∀ (s : State) (k : Nat) (x : Strm) (ms : List Move),
    let u := s.fetchLine k x
    let w := u.wordAt k x
    let steps := fun (run : State → Host.Outcome State Fault Refusal) =>
      (s.agenda = .stream k x :: ms → step s = run { u with agenda := ms, who := k, strm := x }) ∧
      (s.agenda = [] → s.firstEvent (((List.range 4).filter s.scopeDue).map execStackSlotApply) = none →
        (s.runnable.find? fun p => s.turn ≤ roundPlace p) = some (k, x) →
        step s = run { u with turn := roundPlace (k, x) + 1, who := k, strm := x })
    coreValid k = true → (s.core k).canIssue x = true → find s.reached k = none → ((s.core k).strm x).ran = none →
    s.withheld k x = false → s.dogLimit k x = none → u.fetchFault k x = none → (u.core k).breakAt x = none →
    (∀ i, decode w = .instr i → steps (exec i)) ∧
    (decode w = .reject .queueForm → steps fun t => .next (t.raise k (some x) 0x03 (w.zeroExtend 64))) ∧
    (∀ r, r ≠ .queueForm → decode w = .reject r → steps (exec (.illegalOp w)))) ∧
  (∀ (s : State) (k : Nat) (x : Strm) (ms : List Move), s.agenda = .stream k x :: ms → s.hasTurn k x = false →
    step s = .next { s with agenda := ms }) ∧
  (∀ (s : State) (e : Instr) (ms : List Move), s.agenda = .event e :: ms →
    (∀ t, exec e { s with agenda := ms } = .next t → step s = .next t) ∧
    (∀ n, exec e { s with agenda := ms } = .refused (.notEnabled n) → step s = .next { s with agenda := ms })) ∧
  ∀ (s : State) (ms : List Move), s.agenda = .tick :: ms →
    ∃ t : State, step s = .next t ∧
      ((∀ a, s.mgmt.boot = .firmware a → (s.time + 1).toNat < a + 1700000000) → t.time = s.time + 1) ∧
      (∀ a, s.mgmt.boot = .firmware a → a + 1700000000 ≤ (s.time + 1).toNat → t.time = 0)

/-- R4, R89 to R94, R228, R422: the state after reset where the manual gives values. Every VC and the time base are zero;
on every core scalar registers and vector lanes are zero, CULHW and CULLW hold their reset values, no job runs, handler mode
is 0, no command, data-queue entry or held mmas exists and no cullet tensor is attached; no bench is held; no tensor, region
or view is recorded, nothing is on its way, and LIMIT is 0. -/
def Obligations.ResetValues : Prop :=
  (∀ c, c < 4 → (State.reset.column c).vc = [0, 0, 0, 0]) ∧ State.reset.time = 0 ∧
  (∀ k, (State.reset.core k).job = none ∧ (State.reset.core k).hm = false ∧ (State.reset.core k).phase = .idle ∧
    (State.reset.core k).cmds = [] ∧ (State.reset.core k).held = false ∧ (State.reset.core k).culHandle = 0 ∧
    (State.reset.core k).culSeq = 0 ∧ (∀ q, ((State.reset.core k).dqueue q).items = []) ∧
    (State.reset.core k).culhw = 0x30000 ∧ (State.reset.core k).cullw = 0x10000 ∧
    (∀ x n, ((State.reset.core k).strm x).reg n = 0) ∧ (∀ v j, (State.reset.core k).lane v j = 0)) ∧
  (∀ b, (State.reset.bench b).holder = 0) ∧
  State.reset.tensors = [] ∧ State.reset.regions = [] ∧ State.reset.views = [] ∧ State.reset.transit = [] ∧
  State.reset.mgmt.limit = 0

/-- The memories after reset are in their canonical form, and every byte of storage reads as the model's empty byte
(DESIGN CHOICE, unsafe: log entry 1: the manual leaves memory contents after reset undefined). -/
def Obligations.ResetMemory : Prop :=
  State.reset.memWf = true ∧ ∀ loc off, State.reset.frameByte loc off = 0

/-- R7, R199: every step keeps every memory of the package in its canonical form: storage, the accumulators, tiles,
scratchpad and cullet ring of every core and of every saved job, the stack-scope segments, and the bytes on their way. -/
def Obligations.StepKeepsMemory : Prop :=
  ∀ s t : State, s.memWf = true → step s = .next t → t.memWf = true

/-- R35: e8m0 holds no sign and no significand. Code E from 0x00 to 0xFE has the value 2^(E - 127), code 0xFF is NaN, and
there is no zero and no infinity. -/
def Obligations.ScaleFormat : Prop :=
  ∀ rqf E : Nat,
    (E ≤ 0xFE → decodeNum rqf 0x06 E = .fin false 1 ((E : Int) - 127)) ∧
    (E = 0xFF → (decodeNum rqf 0x06 E).isNan = true) ∧
    (∀ n e, decodeNum rqf 0x06 E ≠ .fin n 0 e) ∧ (∀ n, decodeNum rqf 0x06 E ≠ .inf n) ∧
    (∀ m e, decodeNum rqf 0x06 E ≠ .fin true m e)
end

