-- ==== Sys2Proof/Laws/Encode.lean ====
section
/-! SUPPORT. Reading the fields of a word: which part of the decoder a major selects, and the value of one field. -/
namespace Sys2Proof

theorem fld_eq (w hi lo : Nat) : fld w hi lo = w / 2 ^ lo % 2 ^ (hi + 1 - lo) := rfl

theorem fldv_toNat (n w lo : Nat) : (fldv n w lo).toNat = w / 2 ^ lo % 2 ^ n := rfl

/-- A field of a decoded instruction has a value when the number has it at that place. -/
theorem fldv_eq {n w lo : Nat} {v : BitVec n} (h : w / 2 ^ lo % 2 ^ n = v.toNat) : fldv n w lo = v :=
  BitVec.eq_of_toNat_eq h

theorem decodeFields_01 {w : Nat} (h : fld w 31 26 = 0x01) : decodeFields w = decodeMajor01 w := by
  unfold decodeFields; rw [h]; rfl
theorem decodeFields_02 {w : Nat} (h : fld w 31 26 = 0x02) : decodeFields w = decodeMajor02 w := by
  unfold decodeFields; rw [h]; rfl
theorem decodeFields_03 {w : Nat} (h : fld w 31 26 = 0x03) : decodeFields w = decodeMajor03 w := by
  unfold decodeFields; rw [h]; rfl
theorem decodeFields_04 {w : Nat} (h : fld w 31 26 = 0x04) : decodeFields w = decodeMajor04 w := by
  unfold decodeFields; rw [h]; rfl
theorem decodeFields_05 {w : Nat} (h : fld w 31 26 = 0x05) : decodeFields w = decodeMajor05 w := by
  unfold decodeFields; rw [h]; rfl
theorem decodeFields_06 {w : Nat} (h : fld w 31 26 = 0x06) : decodeFields w = decodeMajor06 w := by
  unfold decodeFields; rw [h]; rfl
theorem decodeFields_07 {w : Nat} (h : fld w 31 26 = 0x07) : decodeFields w = decodeMajor07 w := by
  unfold decodeFields; rw [h]; rfl
theorem decodeFields_08 {w : Nat} (h : fld w 31 26 = 0x08) : decodeFields w = decodeMajor08 w := by
  unfold decodeFields; rw [h]; rfl
theorem decodeFields_09 {w : Nat} (h : fld w 31 26 = 0x09) : decodeFields w = decodeMajor09 w := by
  unfold decodeFields; rw [h]; rfl
theorem decodeFields_0A {w : Nat} (h : fld w 31 26 = 0x0A) : decodeFields w = decodeMajor0A w := by
  unfold decodeFields; rw [h]; rfl
theorem decodeFields_0B {w : Nat} (h : fld w 31 26 = 0x0B) : decodeFields w = decodeMajor0B w := by
  unfold decodeFields; rw [h]; rfl
theorem decodeFields_0C {w : Nat} (h : fld w 31 26 = 0x0C) : decodeFields w = decodeMajor0C w := by
  unfold decodeFields; rw [h]; rfl
theorem decodeFields_0D {w : Nat} (h : fld w 31 26 = 0x0D) : decodeFields w = decodeMajor0D w := by
  unfold decodeFields; rw [h]; rfl
theorem decodeFields_0E {w : Nat} (h : fld w 31 26 = 0x0E) : decodeFields w = decodeMajor0E w := by
  unfold decodeFields; rw [h]; rfl
theorem decodeFields_0F {w : Nat} (h : fld w 31 26 = 0x0F) : decodeFields w = decodeMajor0F w := by
  unfold decodeFields; rw [h]; rfl
theorem decodeFields_10 {w : Nat} (h : fld w 31 26 = 0x10) : decodeFields w = decodeMajor10 w := by
  unfold decodeFields; rw [h]; rfl
theorem decodeFields_11 {w : Nat} (h : fld w 31 26 = 0x11) : decodeFields w = decodeMajor11 w := by
  unfold decodeFields; rw [h]; rfl
theorem decodeFields_12 {w : Nat} (h : fld w 31 26 = 0x12) : decodeFields w = decodeMajor12 w := by
  unfold decodeFields; rw [h]; rfl
theorem decodeFields_13 {w : Nat} (h : fld w 31 26 = 0x13) : decodeFields w = decodeMajor13 w := by
  unfold decodeFields; rw [h]; rfl
theorem decodeFields_14 {w : Nat} (h : fld w 31 26 = 0x14) : decodeFields w = decodeMajor14 w := by
  unfold decodeFields; rw [h]; rfl
theorem decodeFields_15 {w : Nat} (h : fld w 31 26 = 0x15) : decodeFields w = decodeMajor15 w := by
  unfold decodeFields; rw [h]; rfl
theorem decodeFields_16 {w : Nat} (h : fld w 31 26 = 0x16) : decodeFields w = decodeMajor16 w := by
  unfold decodeFields; rw [h]; rfl
theorem decodeFields_17 {w : Nat} (h : fld w 31 26 = 0x17) : decodeFields w = decodeMajor17 w := by
  unfold decodeFields; rw [h]; rfl
theorem decodeFields_18 {w : Nat} (h : fld w 31 26 = 0x18) : decodeFields w = decodeMajor18 w := by
  unfold decodeFields; rw [h]; rfl
theorem decodeFields_19 {w : Nat} (h : fld w 31 26 = 0x19) : decodeFields w = decodeMajor19 w := by
  unfold decodeFields; rw [h]; rfl
theorem decodeFields_1A {w : Nat} (h : fld w 31 26 = 0x1A) : decodeFields w = decodeMajor1A w := by
  unfold decodeFields; rw [h]; rfl
theorem decodeFields_1B {w : Nat} (h : fld w 31 26 = 0x1B) : decodeFields w = decodeMajor1B w := by
  unfold decodeFields; rw [h]; rfl
theorem decodeFields_1C {w : Nat} (h : fld w 31 26 = 0x1C) : decodeFields w = decodeMajor1C w := by
  unfold decodeFields; rw [h]; rfl
theorem decodeFields_1D {w : Nat} (h : fld w 31 26 = 0x1D) : decodeFields w = decodeMajor1D w := by
  unfold decodeFields; rw [h]; rfl
theorem decodeFields_1E {w : Nat} (h : fld w 31 26 = 0x1E) : decodeFields w = decodeMajor1E w := by
  unfold decodeFields; rw [h]; rfl
theorem decodeFields_1F {w : Nat} (h : fld w 31 26 = 0x1F) : decodeFields w = decodeMajor1F w := by
  unfold decodeFields; rw [h]; rfl
theorem decodeFields_20 {w : Nat} (h : fld w 31 26 = 0x20) : decodeFields w = decodeMajor20 w := by
  unfold decodeFields; rw [h]; rfl
theorem decodeFields_21 {w : Nat} (h : fld w 31 26 = 0x21) : decodeFields w = decodeMajor21 w := by
  unfold decodeFields; rw [h]; rfl
theorem decodeFields_22 {w : Nat} (h : fld w 31 26 = 0x22) : decodeFields w = decodeMajor22 w := by
  unfold decodeFields; rw [h]; rfl
theorem decodeFields_23 {w : Nat} (h : fld w 31 26 = 0x23) : decodeFields w = decodeMajor23 w := by
  unfold decodeFields; rw [h]; rfl
theorem decodeFields_24 {w : Nat} (h : fld w 31 26 = 0x24) : decodeFields w = decodeMajor24 w := by
  unfold decodeFields; rw [h]; rfl
theorem decodeFields_25 {w : Nat} (h : fld w 31 26 = 0x25) : decodeFields w = decodeMajor25 w := by
  unfold decodeFields; rw [h]; rfl
theorem decodeFields_26 {w : Nat} (h : fld w 31 26 = 0x26) : decodeFields w = decodeMajor26 w := by
  unfold decodeFields; rw [h]; rfl
theorem decodeFields_27 {w : Nat} (h : fld w 31 26 = 0x27) : decodeFields w = decodeMajor27 w := by
  unfold decodeFields; rw [h]; rfl
theorem decodeFields_28 {w : Nat} (h : fld w 31 26 = 0x28) : decodeFields w = decodeMajor28 w := by
  unfold decodeFields; rw [h]; rfl
theorem decodeFields_29 {w : Nat} (h : fld w 31 26 = 0x29) : decodeFields w = decodeMajor29 w := by
  unfold decodeFields; rw [h]; rfl
theorem decodeFields_2A {w : Nat} (h : fld w 31 26 = 0x2A) : decodeFields w = decodeMajor2A w := by
  unfold decodeFields; rw [h]; rfl
theorem decodeFields_2B {w : Nat} (h : fld w 31 26 = 0x2B) : decodeFields w = decodeMajor2B w := by
  unfold decodeFields; rw [h]; rfl
theorem decodeFields_2C {w : Nat} (h : fld w 31 26 = 0x2C) : decodeFields w = decodeMajor2C w := by
  unfold decodeFields; rw [h]; rfl
theorem decodeFields_2D {w : Nat} (h : fld w 31 26 = 0x2D) : decodeFields w = decodeMajor2D w := by
  unfold decodeFields; rw [h]; rfl
theorem decodeFields_2E {w : Nat} (h : fld w 31 26 = 0x2E) : decodeFields w = decodeMajor2E w := by
  unfold decodeFields; rw [h]; rfl
theorem decodeFields_2F {w : Nat} (h : fld w 31 26 = 0x2F) : decodeFields w = decodeMajor2F w := by
  unfold decodeFields; rw [h]; rfl
theorem decodeFields_30 {w : Nat} (h : fld w 31 26 = 0x30) : decodeFields w = decodeMajor30 w := by
  unfold decodeFields; rw [h]; rfl
theorem decodeFields_31 {w : Nat} (h : fld w 31 26 = 0x31) : decodeFields w = decodeMajor31 w := by
  unfold decodeFields; rw [h]; rfl
theorem decodeFields_32 {w : Nat} (h : fld w 31 26 = 0x32) : decodeFields w = decodeMajor32 w := by
  unfold decodeFields; rw [h]; rfl
theorem decodeFields_33 {w : Nat} (h : fld w 31 26 = 0x33) : decodeFields w = decodeMajor33 w := by
  unfold decodeFields; rw [h]; rfl
theorem decodeFields_34 {w : Nat} (h : fld w 31 26 = 0x34) : decodeFields w = decodeMajor34 w := by
  unfold decodeFields; rw [h]; rfl
theorem decodeFields_35 {w : Nat} (h : fld w 31 26 = 0x35) : decodeFields w = decodeMajor35 w := by
  unfold decodeFields; rw [h]; rfl
theorem decodeFields_36 {w : Nat} (h : fld w 31 26 = 0x36) : decodeFields w = decodeMajor36 w := by
  unfold decodeFields; rw [h]; rfl
theorem decodeFields_37 {w : Nat} (h : fld w 31 26 = 0x37) : decodeFields w = decodeMajor37 w := by
  unfold decodeFields; rw [h]; rfl
theorem decodeFields_38 {w : Nat} (h : fld w 31 26 = 0x38) : decodeFields w = decodeMajor38 w := by
  unfold decodeFields; rw [h]; rfl

end Sys2Proof
end

