-- ==== Sys2Proof/Laws/Issue.lean ====
section
/-! SUPPORT. What the issue of one instruction does, said once for every instruction. -/
namespace Sys2Proof.Machine

/-- Where the instruction may take its own effect, its issue ends with what its meaning answers. -/
theorem issue_ready {s : State} {i : Instr} (h : s.ready i = true) (body : State → Res State) :
    issue i s body = .next (finish i s s.who s.strm (body s)) := by
  simp only [State.ready, State.live, Bool.and_eq_true, Bool.not_eq_true', Option.isNone_iff_eq_none] at h
  obtain ⟨⟨⟨⟨⟨⟨hv, hc⟩, hw⟩, hp⟩, hm⟩, hr⟩, hn⟩ := h
  have hm' : (privileged i && !(s.core s.who).hm) = false := by
    cases hq : privileged i <;> cases hh : (s.core s.who).hm <;> simp_all
  rw [State.cur] at hn
  simp only [issue, hv, hc, attempt, hw, hp, hm', hr, hn, Bool.not_true, Bool.false_eq_true, if_false]

/-- As `issue_ready`, for a meaning over the issuing core. -/
theorem issueCore_ready {s : State} {i : Instr} (h : s.ready i = true) (body : CoreSt → Strm → Res CoreSt) :
    issueCore i s body = .next (finish i s s.who s.strm ((body (s.core s.who) s.strm).onCore s s.who)) := by
  rw [issueCore, issue_ready h]

/-- As `issue_ready`, for an instruction that writes one scalar register. -/
theorem issueScalar_ready {s : State} {i : Instr} (h : s.ready i = true) (rd : BitVec 5) (f : StreamSt → W64) :
    issueScalar i s rd f = .next (s.completedReg i rd (f s.cur)) := by
  rw [issueScalar, issueCore_ready h]; rfl

/-- An instruction that may not issue because a decode check fails, or that a pending register stalls: its meaning is not
asked. -/
theorem issue_live {s : State} {i : Instr} (h : s.live = true) (body : State → Res State) :
    issue i s body = .next (finish i s s.who s.strm (attempt i s body)) := by
  simp only [State.live, Bool.and_eq_true] at h
  simp only [issue, h.1, h.2, Bool.not_true, Bool.false_eq_true, if_false]

end Sys2Proof.Machine
end

