-- ==== Sys2Proof/Laws/Maps.lean ====
section
/-! SUPPORT. What reading a map finds after a write: no canonical form is needed for these. -/
namespace Sys2Proof.Machine

theorem look_eq_find {α : Type} (d : α) (m : List (Nat × α)) (a : Nat) : look d m a = (find m a).getD d := by
  induction m with
  | nil => rfl
  | cons p m ih =>
    obtain ⟨k, v⟩ := p
    by_cases h : k = a <;> simp [look, find, h, ih]

@[simp] theorem find_set_same {α : Type} (m : List (Nat × α)) (a : Nat) (v : α) : find (set m a v) a = some v := by
  induction m with
  | nil => simp [set, find]
  | cons p m ih =>
    obtain ⟨k, w⟩ := p
    simp only [set]
    split
    · simp [find]
    · split
      · simp [find]
      · rename_i h1 h2
        simp [find, Ne.symm h2, ih]

theorem find_set_other {α : Type} (m : List (Nat × α)) {a b : Nat} (h : b ≠ a) (v : α) :
    find (set m a v) b = find m b := by
  induction m with
  | nil => simp [set, find, Ne.symm h]
  | cons p m ih =>
    obtain ⟨k, w⟩ := p
    simp only [set]
    split
    · simp [find, Ne.symm h]
    · split
      · rename_i h1 h2
        subst h2
        simp [find, Ne.symm h]
      · simp [find, ih]

@[simp] theorem look_set_same {α : Type} (d : α) (m : List (Nat × α)) (a : Nat) (v : α) : look d (set m a v) a = v := by
  simp [look_eq_find]

theorem look_set_other {α : Type} (d : α) (m : List (Nat × α)) {a b : Nat} (h : b ≠ a) (v : α) :
    look d (set m a v) b = look d m b := by
  simp [look_eq_find, find_set_other m h]

theorem look_set {α : Type} (d : α) (m : List (Nat × α)) (a b : Nat) (v : α) :
    look d (set m a v) b = if b = a then v else look d m b := by
  split
  · next h => subst h; simp
  · next h => exact look_set_other d m h v

@[simp] theorem set_set {α : Type} (m : List (Nat × α)) (a : Nat) (v w : α) : set (set m a v) a w = set m a w := by
  induction m with
  | nil => simp [set]
  | cons p m ih =>
    obtain ⟨k, x⟩ := p
    by_cases h1 : a < k
    · simp [set, h1]
    · by_cases h2 : a = k
      · subst h2; simp [set]
      · simp [set, h1, h2, ih]

/-- What a map lists after a write was there before, or is what was written. -/
theorem mem_set {α : Type} {m : List (Nat × α)} {a : Nat} {v : α} {p : Nat × α} (h : p ∈ set m a v) :
    p ∈ m ∨ p = (a, v) := by
  induction m with
  | nil => simp [set] at h; exact .inr h
  | cons q m ih =>
    obtain ⟨k, x⟩ := q
    simp only [set] at h
    split at h
    · simp only [List.mem_cons] at h ⊢; tauto
    · split at h
      · simp only [List.mem_cons] at h ⊢; tauto
      · simp only [List.mem_cons] at h ⊢
        rcases h with h | h
        · exact .inl (.inl h)
        · rcases ih h with h | h
          · exact .inl (.inr h)
          · exact .inr h

theorem mem_of_find {α : Type} {m : List (Nat × α)} {a : Nat} {v : α} (h : find m a = some v) : (a, v) ∈ m := by
  induction m with
  | nil => simp [find] at h
  | cons q m ih =>
    obtain ⟨k, x⟩ := q
    simp only [find] at h
    split at h
    · next e => simp only [Option.some.injEq] at h; subst h; subst e; simp
    · exact List.mem_cons_of_mem _ (ih h)

theorem mem_erase {α : Type} {m : List (Nat × α)} {a : Nat} {p : Nat × α} (h : p ∈ erase m a) : p ∈ m := by
  induction m with
  | nil => simp [erase] at h
  | cons q m ih =>
    obtain ⟨k, x⟩ := q
    simp only [erase] at h
    split at h
    · exact List.mem_cons_of_mem _ h
    · simp only [List.mem_cons] at h ⊢
      exact h.imp id ih

/-- A property of every value listed, and of the default, holds of what is read. -/
theorem look_all {α : Type} {q : α → Bool} {d : α} {m : List (Nat × α)} (hd : q d = true)
    (h : m.all (fun p => q p.2) = true) (a : Nat) : q (look d m a) = true := by
  rw [look_eq_find]
  cases e : find m a with
  | none => simpa using hd
  | some v => exact (List.all_eq_true.mp h) _ (mem_of_find e)

theorem all_set {α : Type} {q : α → Bool} {m : List (Nat × α)} (h : m.all (fun p => q p.2) = true) (a : Nat) {v : α}
    (hv : q v = true) : (set m a v).all (fun p => q p.2) = true := by
  rw [List.all_eq_true] at h ⊢
  intro p hp
  rcases mem_set hp with hp | rfl
  · exact h p hp
  · exact hv

theorem all_erase {α : Type} {q : α → Bool} {m : List (Nat × α)} (h : m.all (fun p => q p.2) = true) (a : Nat) :
    (erase m a).all (fun p => q p.2) = true := by
  rw [List.all_eq_true] at h ⊢
  exact fun p hp => h p (mem_erase hp)

theorem all_map_snd {α : Type} {q : α → Bool} {m : List (Nat × α)} (f : Nat × α → α)
    (hf : ∀ p ∈ m, q p.2 = true → q (f p) = true) (h : m.all (fun p => q p.2) = true) :
    (m.map fun p => (p.1, f p)).all (fun p => q p.2) = true := by
  rw [List.all_eq_true] at h ⊢
  intro p hp
  obtain ⟨x, hx, rfl⟩ := List.mem_map.mp hp
  exact hf x hx (h x hx)

/-! ### Maps as appended and filtered lists -/

theorem find_append {α : Type} (m n : List (Nat × α)) (a : Nat) : find (m ++ n) a = (find m a).or (find n a) := by
  induction m with
  | nil => simp [find]
  | cons p m ih =>
    obtain ⟨k, v⟩ := p
    by_cases h : k = a <;> simp [find, h, ih]

theorem find_filter_key {α : Type} (m : List (Nat × α)) (p : Nat → Bool) (a : Nat) :
    find (m.filter fun c => p c.1) a = if p a then find m a else none := by
  induction m with
  | nil => simp [find]
  | cons q m ih =>
    obtain ⟨k, v⟩ := q
    by_cases hk : k = a
    · subst hk
      by_cases hp : p k = true
      · simp [hp, find]
      · simp [hp, ih]
    · by_cases hp : p k = true
      · simp [hp, find, hk, ih]
      · simp [hp, find, hk, ih]

theorem find_none_of_keys {α : Type} {m : List (Nat × α)} {a : Nat} (h : ∀ c ∈ m, c.1 ≠ a) : find m a = none := by
  cases e : find m a with
  | none => rfl
  | some v => exact absurd rfl (h _ (mem_of_find e))

theorem find_map_add {α : Type} (m : List (Nat × α)) (k a : Nat) :
    find (m.map fun c => (c.1 + k, c.2)) a = if k ≤ a then find m (a - k) else none := by
  induction m with
  | nil => simp [find]
  | cons p m ih =>
    obtain ⟨j, v⟩ := p
    by_cases hk : k ≤ a
    · by_cases h : j + k = a
      · have : j = a - k := by omega
        simp [find, this, hk]
      · have : j ≠ a - k := by omega
        simp [find, h, this, ih, hk]
    · have : j + k ≠ a := by omega
      simp [find, this, ih, hk]

theorem find_map_sub {α : Type} (m : List (Nat × α)) (k a : Nat) (hm : ∀ c ∈ m, k ≤ c.1) :
    find (m.map fun c => (c.1 - k, c.2)) a = find m (a + k) := by
  induction m with
  | nil => simp [find]
  | cons p m ih =>
    obtain ⟨j, v⟩ := p
    have hj : k ≤ j := hm (j, v) (by simp)
    have ih := ih fun c hc => hm c (by simp [hc])
    by_cases h : j - k = a
    · have : j = a + k := by omega
      simp [find, this]
    · have : j ≠ a + k := by omega
      simp [find, h, this, ih]

end Sys2Proof.Machine
end

