-- ==== Sys2Proof/Laws/Memory.lean ====
section
/-! SUPPORT. Memories: every operation keeps the canonical form, and what a byte reads as after each. -/
namespace Sys2Proof.Machine

/-! ### The canonical form -/

theorem rising_iff {α : Type} (m : List (Nat × α)) : rising m = true ↔ m.Pairwise fun a b => a.1 < b.1 := by
  induction m with
  | nil => simp [rising]
  | cons p m ih =>
    obtain ⟨a, v⟩ := p
    cases m with
    | nil => simp [rising]
    | cons q m =>
      obtain ⟨b, w⟩ := q
      simp only [rising, Bool.and_eq_true, decide_eq_true_eq, ih, List.pairwise_cons, List.mem_cons]
      constructor
      · rintro ⟨h, h1, h2⟩
        refine ⟨?_, h1, h2⟩
        rintro c (rfl | hc)
        · exact h
        · exact lt_trans h (h1 c hc)
      · rintro ⟨h, h1, h2⟩
        exact ⟨h _ (.inl rfl), h1, h2⟩

theorem Memory.wf_iff (m : Memory) :
    m.wf = true ↔ (m.Pairwise fun a b => a.1 < b.1) ∧ ∀ c ∈ m, c.2 ≠ emptyByte := by
  simp [Memory.wf, rising_iff]

@[simp] theorem Memory.wf_nil : Memory.wf [] = true := rfl

theorem Memory.wf_filter {m : Memory} (h : m.wf = true) (p : Host.Cell → Bool) : Memory.wf (m.filter p) = true := by
  rw [Memory.wf_iff] at h ⊢
  exact ⟨h.1.filter p, fun c hc => h.2 c (List.mem_filter.mp hc).1⟩

theorem Memory.wf_append {m n : Memory} (hm : m.wf = true) (hn : n.wf = true) (h : ∀ a ∈ m, ∀ b ∈ n, a.1 < b.1) :
    Memory.wf (m ++ n) = true := by
  rw [Memory.wf_iff] at hm hn ⊢
  refine ⟨List.pairwise_append.mpr ⟨hm.1, hn.1, h⟩, fun c hc => ?_⟩
  rcases List.mem_append.mp hc with hc | hc
  · exact hm.2 c hc
  · exact hn.2 c hc

/-- A map of the addresses that keeps their order keeps the form. -/
theorem Memory.wf_map {m : Memory} (h : m.wf = true) (f : Nat → Nat)
    (hf : ∀ a ∈ m, ∀ b ∈ m, a.1 < b.1 → f a.1 < f b.1) : Memory.wf (m.map fun c => (f c.1, c.2)) = true := by
  rw [Memory.wf_iff] at h ⊢
  constructor
  · rw [List.pairwise_map]
    exact h.1.imp_of_mem fun {a b} ha hb hab => hf a ha b hb hab
  · intro c hc
    obtain ⟨d, hd, rfl⟩ := List.mem_map.mp hc
    exact h.2 d hd

theorem mem_cellsAt {bs : List Byte} {a : Nat} {c : Host.Cell} (h : c ∈ cellsAt a bs) :
    a ≤ c.1 ∧ c.1 < a + bs.length ∧ c.2 ≠ emptyByte := by
  induction bs generalizing a with
  | nil => simp [cellsAt] at h
  | cons b bs ih =>
    simp only [cellsAt] at h
    split at h
    · obtain ⟨h1, h2, h3⟩ := ih h
      exact ⟨by omega, by simp only [List.length_cons]; omega, h3⟩
    · next hb =>
      rcases List.mem_cons.mp h with rfl | h
      · exact ⟨Nat.le_refl _, by simp, hb⟩
      · obtain ⟨h1, h2, h3⟩ := ih h
        exact ⟨by omega, by simp only [List.length_cons]; omega, h3⟩

theorem wf_cellsAt (a : Nat) (bs : List Byte) : Memory.wf (cellsAt a bs) = true := by
  rw [Memory.wf_iff]
  refine ⟨?_, fun c hc => (mem_cellsAt hc).2.2⟩
  induction bs generalizing a with
  | nil => simp [cellsAt]
  | cons b bs ih =>
    simp only [cellsAt]
    split
    · exact ih _
    · refine List.pairwise_cons.mpr ⟨fun c hc => ?_, ih _⟩
      have := (mem_cellsAt hc).1
      simp only; omega

/-- Cells in [lo, hi) between what lies below and above keep the form. -/
theorem Memory.wf_between {m n : Memory} (hm : m.wf = true) (hn : n.wf = true) (lo hi : Nat) (h : lo ≤ hi)
    (hk : ∀ c ∈ n, lo ≤ c.1 ∧ c.1 < hi) :
    Memory.wf (m.filter (fun c => c.1 < lo) ++ (n ++ m.filter fun c => hi ≤ c.1)) = true := by
  refine Memory.wf_append (Memory.wf_filter hm _) (Memory.wf_append hn (Memory.wf_filter hm _) ?_) ?_
  · intro a ha b hb
    have h1 := hk a ha
    have h2 := (List.mem_filter.mp hb).2
    simp only [decide_eq_true_eq] at h2
    omega
  · intro a ha b hb
    have h1 := (List.mem_filter.mp ha).2
    simp only [decide_eq_true_eq] at h1
    rcases List.mem_append.mp hb with hb | hb
    · have := hk b hb; omega
    · have h2 := (List.mem_filter.mp hb).2
      simp only [decide_eq_true_eq] at h2
      omega

theorem Memory.wf_setBytes {m : Memory} (h : m.wf = true) (a : Nat) (bs : List Byte) :
    (m.setBytes a bs).wf = true :=
  Memory.wf_between h (wf_cellsAt a bs) a (a + bs.length) (by omega) fun c hc =>
    ⟨(mem_cellsAt hc).1, (mem_cellsAt hc).2.1⟩

theorem Memory.wf_setByte {m : Memory} (h : m.wf = true) (a : Nat) (v : Byte) : (m.setByte a v).wf = true :=
  Memory.wf_setBytes h a [v]

theorem Memory.wf_setNum {m : Memory} (h : m.wf = true) (a n v : Nat) : (m.setNum a n v).wf = true :=
  Memory.wf_setBytes h a _

theorem Memory.wf_window {m : Memory} (h : m.wf = true) (lo n : Nat) : (m.window lo n).wf = true :=
  Memory.wf_filter h _

theorem Memory.wf_clear {m : Memory} (h : m.wf = true) (lo n : Nat) : (m.clear lo n).wf = true :=
  Memory.wf_filter h _

theorem Memory.mem_window {m : Memory} {lo n : Nat} {c : Host.Cell} (h : c ∈ m.window lo n) :
    lo ≤ c.1 ∧ c.1 < lo + n := by
  simpa using (List.mem_filter.mp h).2

theorem Memory.wf_slice {m : Memory} (h : m.wf = true) (lo n : Nat) : (m.slice lo n).wf = true := by
  refine Memory.wf_map (Memory.wf_window h lo n) (fun a => a - lo) fun a ha b hb hab => ?_
  have := Memory.mem_window ha
  have := Memory.mem_window hb
  omega

theorem Memory.mem_slice {m : Memory} {lo n : Nat} {c : Host.Cell} (h : c ∈ m.slice lo n) : c.1 < n := by
  obtain ⟨d, hd, rfl⟩ := List.mem_map.mp h
  have := Memory.mem_window hd
  simp only; omega

theorem Memory.wf_shift {m : Memory} (h : m.wf = true) (k : Nat) : Memory.wf (m.map fun c => (c.1 + k, c.2)) = true :=
  Memory.wf_map h (fun a => a + k) fun _ _ _ _ hab => by omega

theorem Memory.wf_splice {m v : Memory} (h : m.wf = true) (hv : v.wf = true) (dst n : Nat) :
    (m.splice dst n v).wf = true := by
  refine Memory.wf_between h (Memory.wf_shift (Memory.wf_window hv 0 n) dst) dst (dst + n) (by omega) fun c hc => ?_
  obtain ⟨d, hd, rfl⟩ := List.mem_map.mp hc
  have := Memory.mem_window hd
  simp only; omega

theorem Memory.wf_copyRange {m : Memory} (h : m.wf = true) (src dst n : Nat) : (m.copyRange src dst n).wf = true :=
  Memory.wf_splice h (Memory.wf_slice h src n) dst n

theorem Memory.wf_overlay {m : Memory} (h : m.wf = true) (base : Nat) (v : Memory) : (m.overlay base v).wf = true := by
  induction v generalizing m with
  | nil => exact h
  | cons c v ih => exact ih (Memory.wf_setByte h _ _)

theorem wf_ringSlice {m : Memory} (h : m.wf = true) (base n : Nat) : (ringSlice m base n).wf = true := by
  refine Memory.wf_append (Memory.wf_slice h _ _) (Memory.wf_shift (Memory.wf_slice h _ _) _) ?_
  intro a ha b hb
  have := Memory.mem_slice ha
  obtain ⟨d, hd, rfl⟩ := List.mem_map.mp hb
  simp only; omega

theorem wf_ringSplice {m v : Memory} (h : m.wf = true) (hv : v.wf = true) (base n : Nat) :
    (ringSplice m base n v).wf = true :=
  Memory.wf_splice (Memory.wf_splice h hv _ _) (Memory.wf_slice hv _ _) _ _

/-! ### What a byte reads as -/

theorem find_cellsAt (a x : Nat) (bs : List Byte) :
    (find (cellsAt a bs) x).getD emptyByte = if a ≤ x ∧ x < a + bs.length then bs.getD (x - a) emptyByte else emptyByte := by
  induction bs generalizing a with
  | nil => simp [cellsAt, find]
  | cons b bs ih =>
    simp only [cellsAt, List.length_cons]
    by_cases hx : x = a
    · subst hx
      have hn : find (cellsAt (x + 1) bs) x = none :=
        find_none_of_keys fun c hc e => by have := (mem_cellsAt hc).1; omega
      split
      · next hb => simp [hn, hb]
      · simp [find]
    · have step : (find (cellsAt (a + 1) bs) x).getD emptyByte =
          if a ≤ x ∧ x < a + (bs.length + 1) then (b :: bs).getD (x - a) emptyByte else emptyByte := by
        rw [ih]
        by_cases h : a + 1 ≤ x
        · have e : x - a = (x - (a + 1)) + 1 := by omega
          rw [e, List.getD_cons_succ]
          by_cases h2 : x < a + 1 + bs.length
          · rw [if_pos ⟨h, h2⟩, if_pos ⟨by omega, by omega⟩]
          · rw [if_neg (by omega), if_neg (by omega)]
        · rw [if_neg (by omega), if_neg (by omega)]
      split
      · exact step
      · rw [show find ((a, b) :: cellsAt (a + 1) bs) x = find (cellsAt (a + 1) bs) x by simp [find, Ne.symm hx]]
        exact step

/-- A byte of a memory made of what lies outside [lo, hi), and of cells in it. -/
theorem byte_between (m n : Memory) (lo hi x : Nat) (h : lo ≤ hi) (hk : ∀ c ∈ n, lo ≤ c.1 ∧ c.1 < hi) :
    Memory.byte (m.filter (fun c => c.1 < lo) ++ (n ++ m.filter fun c => hi ≤ c.1)) x =
      if lo ≤ x ∧ x < hi then n.byte x else m.byte x := by
  have hn : ¬(lo ≤ x ∧ x < hi) → find n x = none := fun hx =>
    find_none_of_keys fun c hc e => hx (e ▸ hk c hc)
  have e1 := find_filter_key m (fun a => decide (a < lo)) x
  have e2 := find_filter_key m (fun a => decide (hi ≤ a)) x
  simp only [Memory.byte, look_eq_find, find_append]
  rw [e1, e2]
  by_cases h1 : x < lo
  · have : ¬(lo ≤ x ∧ x < hi) := by omega
    have h2 : ¬hi ≤ x := by omega
    simp [h1, this, hn this, h2]
  · by_cases h2 : x < hi
    · have h3 : ¬hi ≤ x := by omega
      have h4 : lo ≤ x := by omega
      simp [h1, h2, h3, h4]
    · have : ¬(lo ≤ x ∧ x < hi) := by omega
      have h3 : hi ≤ x := by omega
      simp [h1, this, hn this, h3]

theorem Memory.byte_setBytes (m : Memory) (a x : Nat) (bs : List Byte) :
    (m.setBytes a bs).byte x = if a ≤ x ∧ x < a + bs.length then bs.getD (x - a) emptyByte else m.byte x := by
  rw [Memory.setBytes, byte_between m _ a (a + bs.length) x (by omega) fun c hc =>
    ⟨(mem_cellsAt hc).1, (mem_cellsAt hc).2.1⟩]
  split
  · next h => rw [Memory.byte, look_eq_find, find_cellsAt, if_pos h]
  · rfl

/-- A write leaves every other byte alone. -/
theorem Memory.byte_setBytes_other (m : Memory) {a x : Nat} {bs : List Byte} (h : ¬(a ≤ x ∧ x < a + bs.length)) :
    (m.setBytes a bs).byte x = m.byte x := by
  rw [Memory.byte_setBytes, if_neg h]

theorem Memory.byte_setByte (m : Memory) (a x : Nat) (v : Byte) :
    (m.setByte a v).byte x = if x = a then v else m.byte x := by
  rw [Memory.setByte, Memory.byte_setBytes]
  by_cases h : x = a
  · subst h; simp
  · rw [if_neg (by simp only [List.length_singleton]; omega), if_neg h]

/-- A read after a write to the same place gives what was written. -/
theorem Memory.bytes_setBytes (m : Memory) (a : Nat) (bs : List Byte) : (m.setBytes a bs).bytes a bs.length = bs := by
  apply List.ext_getElem
  · simp [Memory.bytes]
  · intro i h1 h2
    simp [Memory.bytes, Memory.byte_setBytes, h2]

theorem Memory.byte_clear (m : Memory) (lo n x : Nat) :
    (m.clear lo n).byte x = if lo ≤ x ∧ x < lo + n then emptyByte else m.byte x := by
  have e := find_filter_key m (fun a => decide (a < lo) || decide (lo + n ≤ a)) x
  rw [Memory.byte, look_eq_find, Memory.clear, e]
  by_cases h : lo ≤ x ∧ x < lo + n
  · have h1 : ¬x < lo := by omega
    have h2 : ¬lo + n ≤ x := by omega
    simp [h, h1, h2]
  · have h1 : x < lo ∨ lo + n ≤ x := by omega
    rw [if_neg h]
    rcases h1 with h1 | h1 <;> simp [h1, Memory.byte, look_eq_find]

theorem Memory.byte_slice (m : Memory) (lo n x : Nat) :
    (m.slice lo n).byte x = if x < n then m.byte (lo + x) else emptyByte := by
  have e := find_filter_key m (fun a => decide (lo ≤ a) && decide (a < lo + n)) (x + lo)
  rw [Memory.byte, look_eq_find, Memory.slice, find_map_sub _ _ _ fun c hc => (Memory.mem_window hc).1, Memory.window, e]
  by_cases h : x < n
  · have h1 : lo ≤ x + lo ∧ x + lo < lo + n := by omega
    simp [h, Memory.byte, look_eq_find, Nat.add_comm]
  · have h1 : ¬x + lo < lo + n := by omega
    simp [h, h1]

theorem Memory.byte_splice (m v : Memory) (dst n x : Nat) :
    (m.splice dst n v).byte x = if dst ≤ x ∧ x < dst + n then v.byte (x - dst) else m.byte x := by
  rw [Memory.splice, byte_between m _ dst (dst + n) x (by omega)]
  · split
    · next h =>
      have e := find_filter_key v (fun a => decide (0 ≤ a) && decide (a < 0 + n)) (x - dst)
      rw [Memory.byte, look_eq_find, find_map_add, if_pos h.1, Memory.window, e]
      have : x - dst < n := by omega
      simp [this, Memory.byte, look_eq_find]
    · rfl
  · intro c hc
    obtain ⟨d, hd, rfl⟩ := List.mem_map.mp hc
    have := Memory.mem_window hd
    simp only; omega

theorem Memory.byte_copyRange (m : Memory) (src dst n x : Nat) :
    (m.copyRange src dst n).byte x = if dst ≤ x ∧ x < dst + n then m.byte (src + (x - dst)) else m.byte x := by
  rw [Memory.copyRange, Memory.byte_splice]
  split
  · next h => rw [Memory.byte_slice, if_pos (by omega)]
  · rfl

/-! ### Little-endian numbers (R7) -/

@[simp] theorem length_leBytes (n v : Nat) : (leBytes n v).length = n := by
  induction n generalizing v with
  | zero => rfl
  | succ n ih => simp [leBytes, ih]

theorem leNat_leBytes (n v : Nat) : leNat (leBytes n v) = v % 256 ^ n := by
  induction n generalizing v with
  | zero => simp [leBytes, leNat, Nat.mod_one]
  | succ n ih =>
    simp only [leBytes, leNat, ih, BitVec.toNat_ofNat]
    rw [show (2 : Nat) ^ 8 = 256 from rfl, Nat.pow_succ, Nat.mul_comm (256 ^ n) 256, Nat.mod_mul]

theorem Memory.num_setNum (m : Memory) (a n v : Nat) : (m.setNum a n v).num a n = v % 256 ^ n := by
  have := Memory.bytes_setBytes m a (leBytes n v)
  rw [length_leBytes] at this
  rw [Memory.num, Memory.setNum, this, leNat_leBytes]

/-- A number of `n` bytes is below 256^n. -/
theorem Memory.num_lt (m : Memory) (a n : Nat) : m.num a n < 256 ^ n := by
  have h : ∀ l : List Byte, leNat l < 256 ^ l.length := by
    intro l
    induction l with
    | nil => simp [leNat]
    | cons b l ih =>
      have : b.toNat < 256 := b.isLt
      simp only [leNat, List.length_cons, Nat.pow_succ]
      omega
  simpa [Memory.num, Memory.bytes] using h (m.bytes a n)

end Sys2Proof.Machine
end

