-- ==== Sys2Proof/Laws/State.lean ====
section
/-! SUPPORT. What each field of the state is after each named update, so that no later proof unfolds a record update. -/
namespace Sys2Proof.Machine

/-! ### Updates of the package -/
@[simp] theorem State.setCore_who (s : State) (k : Nat) (c : CoreSt) : (s.setCore k c).who = s.who := rfl
@[simp] theorem State.setCore_strm (s : State) (k : Nat) (c : CoreSt) : (s.setCore k c).strm = s.strm := rfl
@[simp] theorem State.setCore_agenda (s : State) (k : Nat) (c : CoreSt) : (s.setCore k c).agenda = s.agenda := rfl
@[simp] theorem State.setCore_turn (s : State) (k : Nat) (c : CoreSt) : (s.setCore k c).turn = s.turn := rfl
@[simp] theorem State.setCore_saves (s : State) (k : Nat) (c : CoreSt) : (s.setCore k c).saves = s.saves := rfl
@[simp] theorem State.setCore_asides (s : State) (k : Nat) (c : CoreSt) : (s.setCore k c).asides = s.asides := rfl
@[simp] theorem State.setCore_reached (s : State) (k : Nat) (c : CoreSt) : (s.setCore k c).reached = s.reached := rfl
@[simp] theorem State.setCore_benches (s : State) (k : Nat) (c : CoreSt) : (s.setCore k c).benches = s.benches := rfl
@[simp] theorem State.setCore_columns (s : State) (k : Nat) (c : CoreSt) : (s.setCore k c).columns = s.columns := rfl
@[simp] theorem State.setCore_layers (s : State) (k : Nat) (c : CoreSt) : (s.setCore k c).layers = s.layers := rfl
@[simp] theorem State.setCore_regionBase (s : State) (k : Nat) (c : CoreSt) : (s.setCore k c).regionBase = s.regionBase := rfl
@[simp] theorem State.setCore_regions (s : State) (k : Nat) (c : CoreSt) : (s.setCore k c).regions = s.regions := rfl
@[simp] theorem State.setCore_regionsNext (s : State) (k : Nat) (c : CoreSt) : (s.setCore k c).regionsNext = s.regionsNext := rfl
@[simp] theorem State.setCore_tensors (s : State) (k : Nat) (c : CoreSt) : (s.setCore k c).tensors = s.tensors := rfl
@[simp] theorem State.setCore_views (s : State) (k : Nat) (c : CoreSt) : (s.setCore k c).views = s.views := rfl
@[simp] theorem State.setCore_store (s : State) (k : Nat) (c : CoreSt) : (s.setCore k c).store = s.store := rfl
@[simp] theorem State.setCore_steps (s : State) (k : Nat) (c : CoreSt) : (s.setCore k c).steps = s.steps := rfl
@[simp] theorem State.setCore_tileRuns (s : State) (k : Nat) (c : CoreSt) : (s.setCore k c).tileRuns = s.tileRuns := rfl
@[simp] theorem State.setCore_time (s : State) (k : Nat) (c : CoreSt) : (s.setCore k c).time = s.time := rfl
@[simp] theorem State.setCore_transit (s : State) (k : Nat) (c : CoreSt) : (s.setCore k c).transit = s.transit := rfl
@[simp] theorem State.setCore_regionEnergy (s : State) (k : Nat) (c : CoreSt) : (s.setCore k c).regionEnergy = s.regionEnergy := rfl
@[simp] theorem State.setCore_floorUse (s : State) (k : Nat) (c : CoreSt) : (s.setCore k c).floorUse = s.floorUse := rfl
@[simp] theorem State.setCore_lanes (s : State) (k : Nat) (c : CoreSt) : (s.setCore k c).lanes = s.lanes := rfl
@[simp] theorem State.setCore_links (s : State) (k : Nat) (c : CoreSt) : (s.setCore k c).links = s.links := rfl
@[simp] theorem State.setCore_mgmt (s : State) (k : Nat) (c : CoreSt) : (s.setCore k c).mgmt = s.mgmt := rfl
@[simp] theorem State.setCore_freeCtr (s : State) (k : Nat) (c : CoreSt) : (s.setCore k c).freeCtr = s.freeCtr := rfl

@[simp] theorem State.modCore_who (s : State) (k : Nat) (f : CoreSt → CoreSt) : (s.modCore k f).who = s.who := rfl
@[simp] theorem State.modCore_strm (s : State) (k : Nat) (f : CoreSt → CoreSt) : (s.modCore k f).strm = s.strm := rfl
@[simp] theorem State.modCore_agenda (s : State) (k : Nat) (f : CoreSt → CoreSt) : (s.modCore k f).agenda = s.agenda := rfl
@[simp] theorem State.modCore_turn (s : State) (k : Nat) (f : CoreSt → CoreSt) : (s.modCore k f).turn = s.turn := rfl
@[simp] theorem State.modCore_saves (s : State) (k : Nat) (f : CoreSt → CoreSt) : (s.modCore k f).saves = s.saves := rfl
@[simp] theorem State.modCore_asides (s : State) (k : Nat) (f : CoreSt → CoreSt) : (s.modCore k f).asides = s.asides := rfl
@[simp] theorem State.modCore_reached (s : State) (k : Nat) (f : CoreSt → CoreSt) : (s.modCore k f).reached = s.reached := rfl
@[simp] theorem State.modCore_benches (s : State) (k : Nat) (f : CoreSt → CoreSt) : (s.modCore k f).benches = s.benches := rfl
@[simp] theorem State.modCore_columns (s : State) (k : Nat) (f : CoreSt → CoreSt) : (s.modCore k f).columns = s.columns := rfl
@[simp] theorem State.modCore_layers (s : State) (k : Nat) (f : CoreSt → CoreSt) : (s.modCore k f).layers = s.layers := rfl
@[simp] theorem State.modCore_regionBase (s : State) (k : Nat) (f : CoreSt → CoreSt) : (s.modCore k f).regionBase = s.regionBase := rfl
@[simp] theorem State.modCore_regions (s : State) (k : Nat) (f : CoreSt → CoreSt) : (s.modCore k f).regions = s.regions := rfl
@[simp] theorem State.modCore_regionsNext (s : State) (k : Nat) (f : CoreSt → CoreSt) : (s.modCore k f).regionsNext = s.regionsNext := rfl
@[simp] theorem State.modCore_tensors (s : State) (k : Nat) (f : CoreSt → CoreSt) : (s.modCore k f).tensors = s.tensors := rfl
@[simp] theorem State.modCore_views (s : State) (k : Nat) (f : CoreSt → CoreSt) : (s.modCore k f).views = s.views := rfl
@[simp] theorem State.modCore_store (s : State) (k : Nat) (f : CoreSt → CoreSt) : (s.modCore k f).store = s.store := rfl
@[simp] theorem State.modCore_steps (s : State) (k : Nat) (f : CoreSt → CoreSt) : (s.modCore k f).steps = s.steps := rfl
@[simp] theorem State.modCore_tileRuns (s : State) (k : Nat) (f : CoreSt → CoreSt) : (s.modCore k f).tileRuns = s.tileRuns := rfl
@[simp] theorem State.modCore_time (s : State) (k : Nat) (f : CoreSt → CoreSt) : (s.modCore k f).time = s.time := rfl
@[simp] theorem State.modCore_transit (s : State) (k : Nat) (f : CoreSt → CoreSt) : (s.modCore k f).transit = s.transit := rfl
@[simp] theorem State.modCore_regionEnergy (s : State) (k : Nat) (f : CoreSt → CoreSt) : (s.modCore k f).regionEnergy = s.regionEnergy := rfl
@[simp] theorem State.modCore_floorUse (s : State) (k : Nat) (f : CoreSt → CoreSt) : (s.modCore k f).floorUse = s.floorUse := rfl
@[simp] theorem State.modCore_lanes (s : State) (k : Nat) (f : CoreSt → CoreSt) : (s.modCore k f).lanes = s.lanes := rfl
@[simp] theorem State.modCore_links (s : State) (k : Nat) (f : CoreSt → CoreSt) : (s.modCore k f).links = s.links := rfl
@[simp] theorem State.modCore_mgmt (s : State) (k : Nat) (f : CoreSt → CoreSt) : (s.modCore k f).mgmt = s.mgmt := rfl
@[simp] theorem State.modCore_freeCtr (s : State) (k : Nat) (f : CoreSt → CoreSt) : (s.modCore k f).freeCtr = s.freeCtr := rfl

@[simp] theorem State.modStrm_who (s : State) (k : Nat) (x : Strm) (f : StreamSt → StreamSt) : (s.modStrm k x f).who = s.who := rfl
@[simp] theorem State.modStrm_strm (s : State) (k : Nat) (x : Strm) (f : StreamSt → StreamSt) : (s.modStrm k x f).strm = s.strm := rfl
@[simp] theorem State.modStrm_agenda (s : State) (k : Nat) (x : Strm) (f : StreamSt → StreamSt) : (s.modStrm k x f).agenda = s.agenda := rfl
@[simp] theorem State.modStrm_turn (s : State) (k : Nat) (x : Strm) (f : StreamSt → StreamSt) : (s.modStrm k x f).turn = s.turn := rfl
@[simp] theorem State.modStrm_saves (s : State) (k : Nat) (x : Strm) (f : StreamSt → StreamSt) : (s.modStrm k x f).saves = s.saves := rfl
@[simp] theorem State.modStrm_asides (s : State) (k : Nat) (x : Strm) (f : StreamSt → StreamSt) : (s.modStrm k x f).asides = s.asides := rfl
@[simp] theorem State.modStrm_reached (s : State) (k : Nat) (x : Strm) (f : StreamSt → StreamSt) : (s.modStrm k x f).reached = s.reached := rfl
@[simp] theorem State.modStrm_benches (s : State) (k : Nat) (x : Strm) (f : StreamSt → StreamSt) : (s.modStrm k x f).benches = s.benches := rfl
@[simp] theorem State.modStrm_columns (s : State) (k : Nat) (x : Strm) (f : StreamSt → StreamSt) : (s.modStrm k x f).columns = s.columns := rfl
@[simp] theorem State.modStrm_layers (s : State) (k : Nat) (x : Strm) (f : StreamSt → StreamSt) : (s.modStrm k x f).layers = s.layers := rfl
@[simp] theorem State.modStrm_regionBase (s : State) (k : Nat) (x : Strm) (f : StreamSt → StreamSt) : (s.modStrm k x f).regionBase = s.regionBase := rfl
@[simp] theorem State.modStrm_regions (s : State) (k : Nat) (x : Strm) (f : StreamSt → StreamSt) : (s.modStrm k x f).regions = s.regions := rfl
@[simp] theorem State.modStrm_regionsNext (s : State) (k : Nat) (x : Strm) (f : StreamSt → StreamSt) : (s.modStrm k x f).regionsNext = s.regionsNext := rfl
@[simp] theorem State.modStrm_tensors (s : State) (k : Nat) (x : Strm) (f : StreamSt → StreamSt) : (s.modStrm k x f).tensors = s.tensors := rfl
@[simp] theorem State.modStrm_views (s : State) (k : Nat) (x : Strm) (f : StreamSt → StreamSt) : (s.modStrm k x f).views = s.views := rfl
@[simp] theorem State.modStrm_store (s : State) (k : Nat) (x : Strm) (f : StreamSt → StreamSt) : (s.modStrm k x f).store = s.store := rfl
@[simp] theorem State.modStrm_steps (s : State) (k : Nat) (x : Strm) (f : StreamSt → StreamSt) : (s.modStrm k x f).steps = s.steps := rfl
@[simp] theorem State.modStrm_tileRuns (s : State) (k : Nat) (x : Strm) (f : StreamSt → StreamSt) : (s.modStrm k x f).tileRuns = s.tileRuns := rfl
@[simp] theorem State.modStrm_time (s : State) (k : Nat) (x : Strm) (f : StreamSt → StreamSt) : (s.modStrm k x f).time = s.time := rfl
@[simp] theorem State.modStrm_transit (s : State) (k : Nat) (x : Strm) (f : StreamSt → StreamSt) : (s.modStrm k x f).transit = s.transit := rfl
@[simp] theorem State.modStrm_regionEnergy (s : State) (k : Nat) (x : Strm) (f : StreamSt → StreamSt) : (s.modStrm k x f).regionEnergy = s.regionEnergy := rfl
@[simp] theorem State.modStrm_floorUse (s : State) (k : Nat) (x : Strm) (f : StreamSt → StreamSt) : (s.modStrm k x f).floorUse = s.floorUse := rfl
@[simp] theorem State.modStrm_lanes (s : State) (k : Nat) (x : Strm) (f : StreamSt → StreamSt) : (s.modStrm k x f).lanes = s.lanes := rfl
@[simp] theorem State.modStrm_links (s : State) (k : Nat) (x : Strm) (f : StreamSt → StreamSt) : (s.modStrm k x f).links = s.links := rfl
@[simp] theorem State.modStrm_mgmt (s : State) (k : Nat) (x : Strm) (f : StreamSt → StreamSt) : (s.modStrm k x f).mgmt = s.mgmt := rfl
@[simp] theorem State.modStrm_freeCtr (s : State) (k : Nat) (x : Strm) (f : StreamSt → StreamSt) : (s.modStrm k x f).freeCtr = s.freeCtr := rfl

@[simp] theorem State.modCur_who (s : State) (f : StreamSt → StreamSt) : (s.modCur f).who = s.who := rfl
@[simp] theorem State.modCur_strm (s : State) (f : StreamSt → StreamSt) : (s.modCur f).strm = s.strm := rfl
@[simp] theorem State.modCur_agenda (s : State) (f : StreamSt → StreamSt) : (s.modCur f).agenda = s.agenda := rfl
@[simp] theorem State.modCur_turn (s : State) (f : StreamSt → StreamSt) : (s.modCur f).turn = s.turn := rfl
@[simp] theorem State.modCur_saves (s : State) (f : StreamSt → StreamSt) : (s.modCur f).saves = s.saves := rfl
@[simp] theorem State.modCur_asides (s : State) (f : StreamSt → StreamSt) : (s.modCur f).asides = s.asides := rfl
@[simp] theorem State.modCur_reached (s : State) (f : StreamSt → StreamSt) : (s.modCur f).reached = s.reached := rfl
@[simp] theorem State.modCur_benches (s : State) (f : StreamSt → StreamSt) : (s.modCur f).benches = s.benches := rfl
@[simp] theorem State.modCur_columns (s : State) (f : StreamSt → StreamSt) : (s.modCur f).columns = s.columns := rfl
@[simp] theorem State.modCur_layers (s : State) (f : StreamSt → StreamSt) : (s.modCur f).layers = s.layers := rfl
@[simp] theorem State.modCur_regionBase (s : State) (f : StreamSt → StreamSt) : (s.modCur f).regionBase = s.regionBase := rfl
@[simp] theorem State.modCur_regions (s : State) (f : StreamSt → StreamSt) : (s.modCur f).regions = s.regions := rfl
@[simp] theorem State.modCur_regionsNext (s : State) (f : StreamSt → StreamSt) : (s.modCur f).regionsNext = s.regionsNext := rfl
@[simp] theorem State.modCur_tensors (s : State) (f : StreamSt → StreamSt) : (s.modCur f).tensors = s.tensors := rfl
@[simp] theorem State.modCur_views (s : State) (f : StreamSt → StreamSt) : (s.modCur f).views = s.views := rfl
@[simp] theorem State.modCur_store (s : State) (f : StreamSt → StreamSt) : (s.modCur f).store = s.store := rfl
@[simp] theorem State.modCur_steps (s : State) (f : StreamSt → StreamSt) : (s.modCur f).steps = s.steps := rfl
@[simp] theorem State.modCur_tileRuns (s : State) (f : StreamSt → StreamSt) : (s.modCur f).tileRuns = s.tileRuns := rfl
@[simp] theorem State.modCur_time (s : State) (f : StreamSt → StreamSt) : (s.modCur f).time = s.time := rfl
@[simp] theorem State.modCur_transit (s : State) (f : StreamSt → StreamSt) : (s.modCur f).transit = s.transit := rfl
@[simp] theorem State.modCur_regionEnergy (s : State) (f : StreamSt → StreamSt) : (s.modCur f).regionEnergy = s.regionEnergy := rfl
@[simp] theorem State.modCur_floorUse (s : State) (f : StreamSt → StreamSt) : (s.modCur f).floorUse = s.floorUse := rfl
@[simp] theorem State.modCur_lanes (s : State) (f : StreamSt → StreamSt) : (s.modCur f).lanes = s.lanes := rfl
@[simp] theorem State.modCur_links (s : State) (f : StreamSt → StreamSt) : (s.modCur f).links = s.links := rfl
@[simp] theorem State.modCur_mgmt (s : State) (f : StreamSt → StreamSt) : (s.modCur f).mgmt = s.mgmt := rfl
@[simp] theorem State.modCur_freeCtr (s : State) (f : StreamSt → StreamSt) : (s.modCur f).freeCtr = s.freeCtr := rfl

@[simp] theorem State.modColumn_who (s : State) (n : Nat) (f : Column → Column) : (s.modColumn n f).who = s.who := rfl
@[simp] theorem State.modColumn_strm (s : State) (n : Nat) (f : Column → Column) : (s.modColumn n f).strm = s.strm := rfl
@[simp] theorem State.modColumn_agenda (s : State) (n : Nat) (f : Column → Column) : (s.modColumn n f).agenda = s.agenda := rfl
@[simp] theorem State.modColumn_turn (s : State) (n : Nat) (f : Column → Column) : (s.modColumn n f).turn = s.turn := rfl
@[simp] theorem State.modColumn_cores (s : State) (n : Nat) (f : Column → Column) : (s.modColumn n f).cores = s.cores := rfl
@[simp] theorem State.modColumn_saves (s : State) (n : Nat) (f : Column → Column) : (s.modColumn n f).saves = s.saves := rfl
@[simp] theorem State.modColumn_asides (s : State) (n : Nat) (f : Column → Column) : (s.modColumn n f).asides = s.asides := rfl
@[simp] theorem State.modColumn_reached (s : State) (n : Nat) (f : Column → Column) : (s.modColumn n f).reached = s.reached := rfl
@[simp] theorem State.modColumn_benches (s : State) (n : Nat) (f : Column → Column) : (s.modColumn n f).benches = s.benches := rfl
@[simp] theorem State.modColumn_layers (s : State) (n : Nat) (f : Column → Column) : (s.modColumn n f).layers = s.layers := rfl
@[simp] theorem State.modColumn_regionBase (s : State) (n : Nat) (f : Column → Column) : (s.modColumn n f).regionBase = s.regionBase := rfl
@[simp] theorem State.modColumn_regions (s : State) (n : Nat) (f : Column → Column) : (s.modColumn n f).regions = s.regions := rfl
@[simp] theorem State.modColumn_regionsNext (s : State) (n : Nat) (f : Column → Column) : (s.modColumn n f).regionsNext = s.regionsNext := rfl
@[simp] theorem State.modColumn_tensors (s : State) (n : Nat) (f : Column → Column) : (s.modColumn n f).tensors = s.tensors := rfl
@[simp] theorem State.modColumn_views (s : State) (n : Nat) (f : Column → Column) : (s.modColumn n f).views = s.views := rfl
@[simp] theorem State.modColumn_store (s : State) (n : Nat) (f : Column → Column) : (s.modColumn n f).store = s.store := rfl
@[simp] theorem State.modColumn_steps (s : State) (n : Nat) (f : Column → Column) : (s.modColumn n f).steps = s.steps := rfl
@[simp] theorem State.modColumn_tileRuns (s : State) (n : Nat) (f : Column → Column) : (s.modColumn n f).tileRuns = s.tileRuns := rfl
@[simp] theorem State.modColumn_time (s : State) (n : Nat) (f : Column → Column) : (s.modColumn n f).time = s.time := rfl
@[simp] theorem State.modColumn_transit (s : State) (n : Nat) (f : Column → Column) : (s.modColumn n f).transit = s.transit := rfl
@[simp] theorem State.modColumn_regionEnergy (s : State) (n : Nat) (f : Column → Column) : (s.modColumn n f).regionEnergy = s.regionEnergy := rfl
@[simp] theorem State.modColumn_floorUse (s : State) (n : Nat) (f : Column → Column) : (s.modColumn n f).floorUse = s.floorUse := rfl
@[simp] theorem State.modColumn_lanes (s : State) (n : Nat) (f : Column → Column) : (s.modColumn n f).lanes = s.lanes := rfl
@[simp] theorem State.modColumn_links (s : State) (n : Nat) (f : Column → Column) : (s.modColumn n f).links = s.links := rfl
@[simp] theorem State.modColumn_mgmt (s : State) (n : Nat) (f : Column → Column) : (s.modColumn n f).mgmt = s.mgmt := rfl
@[simp] theorem State.modColumn_freeCtr (s : State) (n : Nat) (f : Column → Column) : (s.modColumn n f).freeCtr = s.freeCtr := rfl

@[simp] theorem State.modLayer_who (s : State) (n : Nat) (f : Layer → Layer) : (s.modLayer n f).who = s.who := rfl
@[simp] theorem State.modLayer_strm (s : State) (n : Nat) (f : Layer → Layer) : (s.modLayer n f).strm = s.strm := rfl
@[simp] theorem State.modLayer_agenda (s : State) (n : Nat) (f : Layer → Layer) : (s.modLayer n f).agenda = s.agenda := rfl
@[simp] theorem State.modLayer_turn (s : State) (n : Nat) (f : Layer → Layer) : (s.modLayer n f).turn = s.turn := rfl
@[simp] theorem State.modLayer_cores (s : State) (n : Nat) (f : Layer → Layer) : (s.modLayer n f).cores = s.cores := rfl
@[simp] theorem State.modLayer_saves (s : State) (n : Nat) (f : Layer → Layer) : (s.modLayer n f).saves = s.saves := rfl
@[simp] theorem State.modLayer_asides (s : State) (n : Nat) (f : Layer → Layer) : (s.modLayer n f).asides = s.asides := rfl
@[simp] theorem State.modLayer_reached (s : State) (n : Nat) (f : Layer → Layer) : (s.modLayer n f).reached = s.reached := rfl
@[simp] theorem State.modLayer_benches (s : State) (n : Nat) (f : Layer → Layer) : (s.modLayer n f).benches = s.benches := rfl
@[simp] theorem State.modLayer_columns (s : State) (n : Nat) (f : Layer → Layer) : (s.modLayer n f).columns = s.columns := rfl
@[simp] theorem State.modLayer_regionBase (s : State) (n : Nat) (f : Layer → Layer) : (s.modLayer n f).regionBase = s.regionBase := rfl
@[simp] theorem State.modLayer_regions (s : State) (n : Nat) (f : Layer → Layer) : (s.modLayer n f).regions = s.regions := rfl
@[simp] theorem State.modLayer_regionsNext (s : State) (n : Nat) (f : Layer → Layer) : (s.modLayer n f).regionsNext = s.regionsNext := rfl
@[simp] theorem State.modLayer_tensors (s : State) (n : Nat) (f : Layer → Layer) : (s.modLayer n f).tensors = s.tensors := rfl
@[simp] theorem State.modLayer_views (s : State) (n : Nat) (f : Layer → Layer) : (s.modLayer n f).views = s.views := rfl
@[simp] theorem State.modLayer_store (s : State) (n : Nat) (f : Layer → Layer) : (s.modLayer n f).store = s.store := rfl
@[simp] theorem State.modLayer_steps (s : State) (n : Nat) (f : Layer → Layer) : (s.modLayer n f).steps = s.steps := rfl
@[simp] theorem State.modLayer_tileRuns (s : State) (n : Nat) (f : Layer → Layer) : (s.modLayer n f).tileRuns = s.tileRuns := rfl
@[simp] theorem State.modLayer_time (s : State) (n : Nat) (f : Layer → Layer) : (s.modLayer n f).time = s.time := rfl
@[simp] theorem State.modLayer_transit (s : State) (n : Nat) (f : Layer → Layer) : (s.modLayer n f).transit = s.transit := rfl
@[simp] theorem State.modLayer_regionEnergy (s : State) (n : Nat) (f : Layer → Layer) : (s.modLayer n f).regionEnergy = s.regionEnergy := rfl
@[simp] theorem State.modLayer_floorUse (s : State) (n : Nat) (f : Layer → Layer) : (s.modLayer n f).floorUse = s.floorUse := rfl
@[simp] theorem State.modLayer_lanes (s : State) (n : Nat) (f : Layer → Layer) : (s.modLayer n f).lanes = s.lanes := rfl
@[simp] theorem State.modLayer_links (s : State) (n : Nat) (f : Layer → Layer) : (s.modLayer n f).links = s.links := rfl
@[simp] theorem State.modLayer_mgmt (s : State) (n : Nat) (f : Layer → Layer) : (s.modLayer n f).mgmt = s.mgmt := rfl
@[simp] theorem State.modLayer_freeCtr (s : State) (n : Nat) (f : Layer → Layer) : (s.modLayer n f).freeCtr = s.freeCtr := rfl

@[simp] theorem State.setBench_who (s : State) (n : Nat) (v : Bench) : (s.setBench n v).who = s.who := rfl
@[simp] theorem State.setBench_strm (s : State) (n : Nat) (v : Bench) : (s.setBench n v).strm = s.strm := rfl
@[simp] theorem State.setBench_agenda (s : State) (n : Nat) (v : Bench) : (s.setBench n v).agenda = s.agenda := rfl
@[simp] theorem State.setBench_turn (s : State) (n : Nat) (v : Bench) : (s.setBench n v).turn = s.turn := rfl
@[simp] theorem State.setBench_cores (s : State) (n : Nat) (v : Bench) : (s.setBench n v).cores = s.cores := rfl
@[simp] theorem State.setBench_saves (s : State) (n : Nat) (v : Bench) : (s.setBench n v).saves = s.saves := rfl
@[simp] theorem State.setBench_asides (s : State) (n : Nat) (v : Bench) : (s.setBench n v).asides = s.asides := rfl
@[simp] theorem State.setBench_reached (s : State) (n : Nat) (v : Bench) : (s.setBench n v).reached = s.reached := rfl
@[simp] theorem State.setBench_columns (s : State) (n : Nat) (v : Bench) : (s.setBench n v).columns = s.columns := rfl
@[simp] theorem State.setBench_layers (s : State) (n : Nat) (v : Bench) : (s.setBench n v).layers = s.layers := rfl
@[simp] theorem State.setBench_regionBase (s : State) (n : Nat) (v : Bench) : (s.setBench n v).regionBase = s.regionBase := rfl
@[simp] theorem State.setBench_regions (s : State) (n : Nat) (v : Bench) : (s.setBench n v).regions = s.regions := rfl
@[simp] theorem State.setBench_regionsNext (s : State) (n : Nat) (v : Bench) : (s.setBench n v).regionsNext = s.regionsNext := rfl
@[simp] theorem State.setBench_tensors (s : State) (n : Nat) (v : Bench) : (s.setBench n v).tensors = s.tensors := rfl
@[simp] theorem State.setBench_views (s : State) (n : Nat) (v : Bench) : (s.setBench n v).views = s.views := rfl
@[simp] theorem State.setBench_store (s : State) (n : Nat) (v : Bench) : (s.setBench n v).store = s.store := rfl
@[simp] theorem State.setBench_steps (s : State) (n : Nat) (v : Bench) : (s.setBench n v).steps = s.steps := rfl
@[simp] theorem State.setBench_tileRuns (s : State) (n : Nat) (v : Bench) : (s.setBench n v).tileRuns = s.tileRuns := rfl
@[simp] theorem State.setBench_time (s : State) (n : Nat) (v : Bench) : (s.setBench n v).time = s.time := rfl
@[simp] theorem State.setBench_transit (s : State) (n : Nat) (v : Bench) : (s.setBench n v).transit = s.transit := rfl
@[simp] theorem State.setBench_regionEnergy (s : State) (n : Nat) (v : Bench) : (s.setBench n v).regionEnergy = s.regionEnergy := rfl
@[simp] theorem State.setBench_floorUse (s : State) (n : Nat) (v : Bench) : (s.setBench n v).floorUse = s.floorUse := rfl
@[simp] theorem State.setBench_lanes (s : State) (n : Nat) (v : Bench) : (s.setBench n v).lanes = s.lanes := rfl
@[simp] theorem State.setBench_links (s : State) (n : Nat) (v : Bench) : (s.setBench n v).links = s.links := rfl
@[simp] theorem State.setBench_mgmt (s : State) (n : Nat) (v : Bench) : (s.setBench n v).mgmt = s.mgmt := rfl
@[simp] theorem State.setBench_freeCtr (s : State) (n : Nat) (v : Bench) : (s.setBench n v).freeCtr = s.freeCtr := rfl

@[simp] theorem State.modTensor_who (s : State) (h : Nat) (f : Tensor → Tensor) : (s.modTensor h f).who = s.who := rfl
@[simp] theorem State.modTensor_strm (s : State) (h : Nat) (f : Tensor → Tensor) : (s.modTensor h f).strm = s.strm := rfl
@[simp] theorem State.modTensor_agenda (s : State) (h : Nat) (f : Tensor → Tensor) : (s.modTensor h f).agenda = s.agenda := rfl
@[simp] theorem State.modTensor_turn (s : State) (h : Nat) (f : Tensor → Tensor) : (s.modTensor h f).turn = s.turn := rfl
@[simp] theorem State.modTensor_cores (s : State) (h : Nat) (f : Tensor → Tensor) : (s.modTensor h f).cores = s.cores := rfl
@[simp] theorem State.modTensor_saves (s : State) (h : Nat) (f : Tensor → Tensor) : (s.modTensor h f).saves = s.saves := rfl
@[simp] theorem State.modTensor_asides (s : State) (h : Nat) (f : Tensor → Tensor) : (s.modTensor h f).asides = s.asides := rfl
@[simp] theorem State.modTensor_reached (s : State) (h : Nat) (f : Tensor → Tensor) : (s.modTensor h f).reached = s.reached := rfl
@[simp] theorem State.modTensor_benches (s : State) (h : Nat) (f : Tensor → Tensor) : (s.modTensor h f).benches = s.benches := rfl
@[simp] theorem State.modTensor_columns (s : State) (h : Nat) (f : Tensor → Tensor) : (s.modTensor h f).columns = s.columns := rfl
@[simp] theorem State.modTensor_layers (s : State) (h : Nat) (f : Tensor → Tensor) : (s.modTensor h f).layers = s.layers := rfl
@[simp] theorem State.modTensor_regionBase (s : State) (h : Nat) (f : Tensor → Tensor) : (s.modTensor h f).regionBase = s.regionBase := rfl
@[simp] theorem State.modTensor_regions (s : State) (h : Nat) (f : Tensor → Tensor) : (s.modTensor h f).regions = s.regions := rfl
@[simp] theorem State.modTensor_regionsNext (s : State) (h : Nat) (f : Tensor → Tensor) : (s.modTensor h f).regionsNext = s.regionsNext := rfl
@[simp] theorem State.modTensor_views (s : State) (h : Nat) (f : Tensor → Tensor) : (s.modTensor h f).views = s.views := rfl
@[simp] theorem State.modTensor_store (s : State) (h : Nat) (f : Tensor → Tensor) : (s.modTensor h f).store = s.store := rfl
@[simp] theorem State.modTensor_steps (s : State) (h : Nat) (f : Tensor → Tensor) : (s.modTensor h f).steps = s.steps := rfl
@[simp] theorem State.modTensor_tileRuns (s : State) (h : Nat) (f : Tensor → Tensor) : (s.modTensor h f).tileRuns = s.tileRuns := rfl
@[simp] theorem State.modTensor_time (s : State) (h : Nat) (f : Tensor → Tensor) : (s.modTensor h f).time = s.time := rfl
@[simp] theorem State.modTensor_transit (s : State) (h : Nat) (f : Tensor → Tensor) : (s.modTensor h f).transit = s.transit := rfl
@[simp] theorem State.modTensor_regionEnergy (s : State) (h : Nat) (f : Tensor → Tensor) : (s.modTensor h f).regionEnergy = s.regionEnergy := rfl
@[simp] theorem State.modTensor_floorUse (s : State) (h : Nat) (f : Tensor → Tensor) : (s.modTensor h f).floorUse = s.floorUse := rfl
@[simp] theorem State.modTensor_lanes (s : State) (h : Nat) (f : Tensor → Tensor) : (s.modTensor h f).lanes = s.lanes := rfl
@[simp] theorem State.modTensor_links (s : State) (h : Nat) (f : Tensor → Tensor) : (s.modTensor h f).links = s.links := rfl
@[simp] theorem State.modTensor_mgmt (s : State) (h : Nat) (f : Tensor → Tensor) : (s.modTensor h f).mgmt = s.mgmt := rfl
@[simp] theorem State.modTensor_freeCtr (s : State) (h : Nat) (f : Tensor → Tensor) : (s.modTensor h f).freeCtr = s.freeCtr := rfl

@[simp] theorem State.heat_who (s : State) (col vf : Nat) (buf : Byte) (bytes stall : Nat) : (s.heat col vf buf bytes stall).who = s.who := rfl
@[simp] theorem State.heat_strm (s : State) (col vf : Nat) (buf : Byte) (bytes stall : Nat) : (s.heat col vf buf bytes stall).strm = s.strm := rfl
@[simp] theorem State.heat_agenda (s : State) (col vf : Nat) (buf : Byte) (bytes stall : Nat) : (s.heat col vf buf bytes stall).agenda = s.agenda := rfl
@[simp] theorem State.heat_turn (s : State) (col vf : Nat) (buf : Byte) (bytes stall : Nat) : (s.heat col vf buf bytes stall).turn = s.turn := rfl
@[simp] theorem State.heat_cores (s : State) (col vf : Nat) (buf : Byte) (bytes stall : Nat) : (s.heat col vf buf bytes stall).cores = s.cores := rfl
@[simp] theorem State.heat_saves (s : State) (col vf : Nat) (buf : Byte) (bytes stall : Nat) : (s.heat col vf buf bytes stall).saves = s.saves := rfl
@[simp] theorem State.heat_asides (s : State) (col vf : Nat) (buf : Byte) (bytes stall : Nat) : (s.heat col vf buf bytes stall).asides = s.asides := rfl
@[simp] theorem State.heat_reached (s : State) (col vf : Nat) (buf : Byte) (bytes stall : Nat) : (s.heat col vf buf bytes stall).reached = s.reached := rfl
@[simp] theorem State.heat_benches (s : State) (col vf : Nat) (buf : Byte) (bytes stall : Nat) : (s.heat col vf buf bytes stall).benches = s.benches := rfl
@[simp] theorem State.heat_layers (s : State) (col vf : Nat) (buf : Byte) (bytes stall : Nat) : (s.heat col vf buf bytes stall).layers = s.layers := rfl
@[simp] theorem State.heat_regionBase (s : State) (col vf : Nat) (buf : Byte) (bytes stall : Nat) : (s.heat col vf buf bytes stall).regionBase = s.regionBase := rfl
@[simp] theorem State.heat_regions (s : State) (col vf : Nat) (buf : Byte) (bytes stall : Nat) : (s.heat col vf buf bytes stall).regions = s.regions := rfl
@[simp] theorem State.heat_regionsNext (s : State) (col vf : Nat) (buf : Byte) (bytes stall : Nat) : (s.heat col vf buf bytes stall).regionsNext = s.regionsNext := rfl
@[simp] theorem State.heat_tensors (s : State) (col vf : Nat) (buf : Byte) (bytes stall : Nat) : (s.heat col vf buf bytes stall).tensors = s.tensors := rfl
@[simp] theorem State.heat_views (s : State) (col vf : Nat) (buf : Byte) (bytes stall : Nat) : (s.heat col vf buf bytes stall).views = s.views := rfl
@[simp] theorem State.heat_store (s : State) (col vf : Nat) (buf : Byte) (bytes stall : Nat) : (s.heat col vf buf bytes stall).store = s.store := rfl
@[simp] theorem State.heat_steps (s : State) (col vf : Nat) (buf : Byte) (bytes stall : Nat) : (s.heat col vf buf bytes stall).steps = s.steps := rfl
@[simp] theorem State.heat_tileRuns (s : State) (col vf : Nat) (buf : Byte) (bytes stall : Nat) : (s.heat col vf buf bytes stall).tileRuns = s.tileRuns := rfl
@[simp] theorem State.heat_time (s : State) (col vf : Nat) (buf : Byte) (bytes stall : Nat) : (s.heat col vf buf bytes stall).time = s.time := rfl
@[simp] theorem State.heat_transit (s : State) (col vf : Nat) (buf : Byte) (bytes stall : Nat) : (s.heat col vf buf bytes stall).transit = s.transit := rfl
@[simp] theorem State.heat_regionEnergy (s : State) (col vf : Nat) (buf : Byte) (bytes stall : Nat) : (s.heat col vf buf bytes stall).regionEnergy = s.regionEnergy := rfl
@[simp] theorem State.heat_floorUse (s : State) (col vf : Nat) (buf : Byte) (bytes stall : Nat) : (s.heat col vf buf bytes stall).floorUse = s.floorUse := rfl
@[simp] theorem State.heat_lanes (s : State) (col vf : Nat) (buf : Byte) (bytes stall : Nat) : (s.heat col vf buf bytes stall).lanes = s.lanes := rfl
@[simp] theorem State.heat_links (s : State) (col vf : Nat) (buf : Byte) (bytes stall : Nat) : (s.heat col vf buf bytes stall).links = s.links := rfl
@[simp] theorem State.heat_mgmt (s : State) (col vf : Nat) (buf : Byte) (bytes stall : Nat) : (s.heat col vf buf bytes stall).mgmt = s.mgmt := rfl
@[simp] theorem State.heat_freeCtr (s : State) (col vf : Nat) (buf : Byte) (bytes stall : Nat) : (s.heat col vf buf bytes stall).freeCtr = s.freeCtr := rfl

@[simp] theorem State.log_who (s : State) (l : LogLine) : (s.log l).who = s.who := rfl
@[simp] theorem State.log_strm (s : State) (l : LogLine) : (s.log l).strm = s.strm := rfl
@[simp] theorem State.log_agenda (s : State) (l : LogLine) : (s.log l).agenda = s.agenda := rfl
@[simp] theorem State.log_turn (s : State) (l : LogLine) : (s.log l).turn = s.turn := rfl
@[simp] theorem State.log_cores (s : State) (l : LogLine) : (s.log l).cores = s.cores := rfl
@[simp] theorem State.log_saves (s : State) (l : LogLine) : (s.log l).saves = s.saves := rfl
@[simp] theorem State.log_asides (s : State) (l : LogLine) : (s.log l).asides = s.asides := rfl
@[simp] theorem State.log_reached (s : State) (l : LogLine) : (s.log l).reached = s.reached := rfl
@[simp] theorem State.log_benches (s : State) (l : LogLine) : (s.log l).benches = s.benches := rfl
@[simp] theorem State.log_columns (s : State) (l : LogLine) : (s.log l).columns = s.columns := rfl
@[simp] theorem State.log_layers (s : State) (l : LogLine) : (s.log l).layers = s.layers := rfl
@[simp] theorem State.log_regionBase (s : State) (l : LogLine) : (s.log l).regionBase = s.regionBase := rfl
@[simp] theorem State.log_regions (s : State) (l : LogLine) : (s.log l).regions = s.regions := rfl
@[simp] theorem State.log_regionsNext (s : State) (l : LogLine) : (s.log l).regionsNext = s.regionsNext := rfl
@[simp] theorem State.log_tensors (s : State) (l : LogLine) : (s.log l).tensors = s.tensors := rfl
@[simp] theorem State.log_views (s : State) (l : LogLine) : (s.log l).views = s.views := rfl
@[simp] theorem State.log_store (s : State) (l : LogLine) : (s.log l).store = s.store := rfl
@[simp] theorem State.log_steps (s : State) (l : LogLine) : (s.log l).steps = s.steps := rfl
@[simp] theorem State.log_tileRuns (s : State) (l : LogLine) : (s.log l).tileRuns = s.tileRuns := rfl
@[simp] theorem State.log_time (s : State) (l : LogLine) : (s.log l).time = s.time := rfl
@[simp] theorem State.log_transit (s : State) (l : LogLine) : (s.log l).transit = s.transit := rfl
@[simp] theorem State.log_regionEnergy (s : State) (l : LogLine) : (s.log l).regionEnergy = s.regionEnergy := rfl
@[simp] theorem State.log_floorUse (s : State) (l : LogLine) : (s.log l).floorUse = s.floorUse := rfl
@[simp] theorem State.log_lanes (s : State) (l : LogLine) : (s.log l).lanes = s.lanes := rfl
@[simp] theorem State.log_links (s : State) (l : LogLine) : (s.log l).links = s.links := rfl
@[simp] theorem State.log_freeCtr (s : State) (l : LogLine) : (s.log l).freeCtr = s.freeCtr := rfl

theorem State.setCore_cores (s : State) (k : Nat) (c : CoreSt) : (s.setCore k c).cores = set s.cores k c := rfl
theorem State.modColumn_columns (s : State) (n : Nat) (f : Column → Column) :
    (s.modColumn n f).columns = set s.columns n (f (s.column n)) := rfl
theorem State.modLayer_layers (s : State) (n : Nat) (f : Layer → Layer) :
    (s.modLayer n f).layers = set s.layers n (f (s.layer n)) := rfl
theorem State.setBench_benches (s : State) (n : Nat) (v : Bench) : (s.setBench n v).benches = set s.benches n v := rfl
theorem State.modTensor_tensors (s : State) (h : Nat) (f : Tensor → Tensor) :
    (s.modTensor h f).tensors = set s.tensors h (f (s.tensor h)) := rfl
theorem State.log_mgmt (s : State) (l : LogLine) : (s.log l).mgmt = { s.mgmt with log := s.mgmt.log ++ [l] } := rfl

@[simp] theorem State.setFrame_who (s : State) (loc off : Nat) (bs : List Byte) : (s.setFrame loc off bs).who = s.who := by
  unfold State.setFrame; split <;> rfl
@[simp] theorem State.setFrame_strm (s : State) (loc off : Nat) (bs : List Byte) : (s.setFrame loc off bs).strm = s.strm := by
  unfold State.setFrame; split <;> rfl
@[simp] theorem State.setFrame_agenda (s : State) (loc off : Nat) (bs : List Byte) : (s.setFrame loc off bs).agenda = s.agenda := by
  unfold State.setFrame; split <;> rfl
@[simp] theorem State.setFrame_turn (s : State) (loc off : Nat) (bs : List Byte) : (s.setFrame loc off bs).turn = s.turn := by
  unfold State.setFrame; split <;> rfl
@[simp] theorem State.setFrame_cores (s : State) (loc off : Nat) (bs : List Byte) : (s.setFrame loc off bs).cores = s.cores := by
  unfold State.setFrame; split <;> rfl
@[simp] theorem State.setFrame_saves (s : State) (loc off : Nat) (bs : List Byte) : (s.setFrame loc off bs).saves = s.saves := by
  unfold State.setFrame; split <;> rfl
@[simp] theorem State.setFrame_asides (s : State) (loc off : Nat) (bs : List Byte) : (s.setFrame loc off bs).asides = s.asides := by
  unfold State.setFrame; split <;> rfl
@[simp] theorem State.setFrame_reached (s : State) (loc off : Nat) (bs : List Byte) : (s.setFrame loc off bs).reached = s.reached := by
  unfold State.setFrame; split <;> rfl
@[simp] theorem State.setFrame_benches (s : State) (loc off : Nat) (bs : List Byte) : (s.setFrame loc off bs).benches = s.benches := by
  unfold State.setFrame; split <;> rfl
@[simp] theorem State.setFrame_columns (s : State) (loc off : Nat) (bs : List Byte) : (s.setFrame loc off bs).columns = s.columns := by
  unfold State.setFrame; split <;> rfl
@[simp] theorem State.setFrame_layers (s : State) (loc off : Nat) (bs : List Byte) : (s.setFrame loc off bs).layers = s.layers := by
  unfold State.setFrame; split <;> rfl
@[simp] theorem State.setFrame_regionBase (s : State) (loc off : Nat) (bs : List Byte) : (s.setFrame loc off bs).regionBase = s.regionBase := by
  unfold State.setFrame; split <;> rfl
@[simp] theorem State.setFrame_regions (s : State) (loc off : Nat) (bs : List Byte) : (s.setFrame loc off bs).regions = s.regions := by
  unfold State.setFrame; split <;> rfl
@[simp] theorem State.setFrame_regionsNext (s : State) (loc off : Nat) (bs : List Byte) : (s.setFrame loc off bs).regionsNext = s.regionsNext := by
  unfold State.setFrame; split <;> rfl
@[simp] theorem State.setFrame_tensors (s : State) (loc off : Nat) (bs : List Byte) : (s.setFrame loc off bs).tensors = s.tensors := by
  unfold State.setFrame; split <;> rfl
@[simp] theorem State.setFrame_views (s : State) (loc off : Nat) (bs : List Byte) : (s.setFrame loc off bs).views = s.views := by
  unfold State.setFrame; split <;> rfl
@[simp] theorem State.setFrame_steps (s : State) (loc off : Nat) (bs : List Byte) : (s.setFrame loc off bs).steps = s.steps := by
  unfold State.setFrame; split <;> rfl
@[simp] theorem State.setFrame_tileRuns (s : State) (loc off : Nat) (bs : List Byte) : (s.setFrame loc off bs).tileRuns = s.tileRuns := by
  unfold State.setFrame; split <;> rfl
@[simp] theorem State.setFrame_time (s : State) (loc off : Nat) (bs : List Byte) : (s.setFrame loc off bs).time = s.time := by
  unfold State.setFrame; split <;> rfl
@[simp] theorem State.setFrame_transit (s : State) (loc off : Nat) (bs : List Byte) : (s.setFrame loc off bs).transit = s.transit := by
  unfold State.setFrame; split <;> rfl
@[simp] theorem State.setFrame_regionEnergy (s : State) (loc off : Nat) (bs : List Byte) : (s.setFrame loc off bs).regionEnergy = s.regionEnergy := by
  unfold State.setFrame; split <;> rfl
@[simp] theorem State.setFrame_floorUse (s : State) (loc off : Nat) (bs : List Byte) : (s.setFrame loc off bs).floorUse = s.floorUse := by
  unfold State.setFrame; split <;> rfl
@[simp] theorem State.setFrame_lanes (s : State) (loc off : Nat) (bs : List Byte) : (s.setFrame loc off bs).lanes = s.lanes := by
  unfold State.setFrame; split <;> rfl
@[simp] theorem State.setFrame_links (s : State) (loc off : Nat) (bs : List Byte) : (s.setFrame loc off bs).links = s.links := by
  unfold State.setFrame; split <;> rfl
@[simp] theorem State.setFrame_mgmt (s : State) (loc off : Nat) (bs : List Byte) : (s.setFrame loc off bs).mgmt = s.mgmt := by
  unfold State.setFrame; split <;> rfl
@[simp] theorem State.setFrame_freeCtr (s : State) (loc off : Nat) (bs : List Byte) : (s.setFrame loc off bs).freeCtr = s.freeCtr := by
  unfold State.setFrame; split <;> rfl

/-! ### Reading a part after an update of it -/

@[simp] theorem State.core_setCore_same (s : State) (k : Nat) (c : CoreSt) : (s.setCore k c).core k = c :=
  look_set_same _ _ _ _
theorem State.core_setCore_other (s : State) {k j : Nat} (h : j ≠ k) (c : CoreSt) : (s.setCore k c).core j = s.core j :=
  look_set_other _ _ h _
@[simp] theorem State.core_modCore_same (s : State) (k : Nat) (f : CoreSt → CoreSt) :
    (s.modCore k f).core k = f (s.core k) := look_set_same _ _ _ _
theorem State.core_modCore_other (s : State) {k j : Nat} (h : j ≠ k) (f : CoreSt → CoreSt) :
    (s.modCore k f).core j = s.core j := look_set_other _ _ h _
@[simp] theorem State.core_modStrm_same (s : State) (k : Nat) (x : Strm) (f : StreamSt → StreamSt) :
    (s.modStrm k x f).core k = (s.core k).modStrm x f := look_set_same _ _ _ _
theorem State.core_modStrm_other (s : State) {k j : Nat} (h : j ≠ k) (x : Strm) (f : StreamSt → StreamSt) :
    (s.modStrm k x f).core j = s.core j := look_set_other _ _ h _
@[simp] theorem State.column_modColumn_same (s : State) (n : Nat) (f : Column → Column) :
    (s.modColumn n f).column n = f (s.column n) := look_set_same _ _ _ _
theorem State.column_modColumn_other (s : State) {n m : Nat} (h : m ≠ n) (f : Column → Column) :
    (s.modColumn n f).column m = s.column m := look_set_other _ _ h _
@[simp] theorem State.layer_modLayer_same (s : State) (n : Nat) (f : Layer → Layer) :
    (s.modLayer n f).layer n = f (s.layer n) := look_set_same _ _ _ _
theorem State.layer_modLayer_other (s : State) {n m : Nat} (h : m ≠ n) (f : Layer → Layer) :
    (s.modLayer n f).layer m = s.layer m := look_set_other _ _ h _
@[simp] theorem State.bench_setBench_same (s : State) (n : Nat) (v : Bench) : (s.setBench n v).bench n = v :=
  look_set_same _ _ _ _
theorem State.bench_setBench_other (s : State) {n m : Nat} (h : m ≠ n) (v : Bench) :
    (s.setBench n v).bench m = s.bench m := look_set_other _ _ h _
@[simp] theorem State.tensor_modTensor_same (s : State) (h : Nat) (f : Tensor → Tensor) :
    (s.modTensor h f).tensor h = f (s.tensor h) := look_set_same _ _ _ _
theorem State.tensor_modTensor_other (s : State) {h g : Nat} (e : g ≠ h) (f : Tensor → Tensor) :
    (s.modTensor h f).tensor g = s.tensor g := look_set_other _ _ e _

/-- Two writes of one core: the later one stays. -/
@[simp] theorem State.setCore_setCore (s : State) (k : Nat) (c d : CoreSt) : (s.setCore k c).setCore k d = s.setCore k d := by
  simp [State.setCore]

/-! ### Updates of a core's stream -/

@[simp] theorem CoreSt.strm_setStrm_same (c : CoreSt) (x : Strm) (t : StreamSt) : (c.setStrm x t).strm x = t := by
  cases x <;> rfl
theorem CoreSt.strm_setStrm_other (c : CoreSt) {x y : Strm} (h : y ≠ x) (t : StreamSt) :
    (c.setStrm x t).strm y = c.strm y := by
  cases x <;> cases y <;> first | rfl | exact absurd rfl h
@[simp] theorem CoreSt.strm_modStrm_same (c : CoreSt) (x : Strm) (f : StreamSt → StreamSt) :
    (c.modStrm x f).strm x = f (c.strm x) := c.strm_setStrm_same x _
theorem CoreSt.strm_modStrm_other (c : CoreSt) {x y : Strm} (h : y ≠ x) (f : StreamSt → StreamSt) :
    (c.modStrm x f).strm y = c.strm y := c.strm_setStrm_other h _
@[simp] theorem CoreSt.modStrm_masks (c : CoreSt) (x : Strm) (f : StreamSt → StreamSt) : (c.modStrm x f).masks = c.masks := by
  cases x <;> rfl
@[simp] theorem CoreSt.modStrm_acc (c : CoreSt) (x : Strm) (f : StreamSt → StreamSt) : (c.modStrm x f).acc = c.acc := by
  cases x <;> rfl
@[simp] theorem CoreSt.modStrm_tiles (c : CoreSt) (x : Strm) (f : StreamSt → StreamSt) : (c.modStrm x f).tiles = c.tiles := by
  cases x <;> rfl
@[simp] theorem CoreSt.modStrm_scratch (c : CoreSt) (x : Strm) (f : StreamSt → StreamSt) : (c.modStrm x f).scratch = c.scratch := by
  cases x <;> rfl
@[simp] theorem CoreSt.modStrm_ring (c : CoreSt) (x : Strm) (f : StreamSt → StreamSt) : (c.modStrm x f).ring = c.ring := by
  cases x <;> rfl
@[simp] theorem CoreSt.modStrm_vwin (c : CoreSt) (x : Strm) (f : StreamSt → StreamSt) : (c.modStrm x f).vwin = c.vwin := by
  cases x <;> rfl
@[simp] theorem CoreSt.modStrm_fmtbase (c : CoreSt) (x : Strm) (f : StreamSt → StreamSt) : (c.modStrm x f).fmtbase = c.fmtbase := by
  cases x <;> rfl
@[simp] theorem CoreSt.modStrm_fmtlc (c : CoreSt) (x : Strm) (f : StreamSt → StreamSt) : (c.modStrm x f).fmtlc = c.fmtlc := by
  cases x <;> rfl
@[simp] theorem CoreSt.modStrm_tshape (c : CoreSt) (x : Strm) (f : StreamSt → StreamSt) : (c.modStrm x f).tshape = c.tshape := by
  cases x <;> rfl
@[simp] theorem CoreSt.modStrm_held (c : CoreSt) (x : Strm) (f : StreamSt → StreamSt) : (c.modStrm x f).held = c.held := by
  cases x <;> rfl
@[simp] theorem CoreSt.modStrm_left (c : CoreSt) (x : Strm) (f : StreamSt → StreamSt) : (c.modStrm x f).left = c.left := by
  cases x <;> rfl
@[simp] theorem CoreSt.modStrm_leaseReq (c : CoreSt) (x : Strm) (f : StreamSt → StreamSt) : (c.modStrm x f).leaseReq = c.leaseReq := by
  cases x <;> rfl
@[simp] theorem CoreSt.modStrm_leaseAt (c : CoreSt) (x : Strm) (f : StreamSt → StreamSt) : (c.modStrm x f).leaseAt = c.leaseAt := by
  cases x <;> rfl
@[simp] theorem CoreSt.modStrm_leaseGot (c : CoreSt) (x : Strm) (f : StreamSt → StreamSt) : (c.modStrm x f).leaseGot = c.leaseGot := by
  cases x <;> rfl
@[simp] theorem CoreSt.modStrm_regain (c : CoreSt) (x : Strm) (f : StreamSt → StreamSt) : (c.modStrm x f).regain = c.regain := by
  cases x <;> rfl
@[simp] theorem CoreSt.modStrm_heldRec (c : CoreSt) (x : Strm) (f : StreamSt → StreamSt) : (c.modStrm x f).heldRec = c.heldRec := by
  cases x <;> rfl
@[simp] theorem CoreSt.modStrm_heldScales (c : CoreSt) (x : Strm) (f : StreamSt → StreamSt) : (c.modStrm x f).heldScales = c.heldScales := by
  cases x <;> rfl
@[simp] theorem CoreSt.modStrm_culBase (c : CoreSt) (x : Strm) (f : StreamSt → StreamSt) : (c.modStrm x f).culBase = c.culBase := by
  cases x <;> rfl
@[simp] theorem CoreSt.modStrm_culTop (c : CoreSt) (x : Strm) (f : StreamSt → StreamSt) : (c.modStrm x f).culTop = c.culTop := by
  cases x <;> rfl
@[simp] theorem CoreSt.modStrm_culSeq (c : CoreSt) (x : Strm) (f : StreamSt → StreamSt) : (c.modStrm x f).culSeq = c.culSeq := by
  cases x <;> rfl
@[simp] theorem CoreSt.modStrm_culhw (c : CoreSt) (x : Strm) (f : StreamSt → StreamSt) : (c.modStrm x f).culhw = c.culhw := by
  cases x <;> rfl
@[simp] theorem CoreSt.modStrm_cullw (c : CoreSt) (x : Strm) (f : StreamSt → StreamSt) : (c.modStrm x f).cullw = c.cullw := by
  cases x <;> rfl
@[simp] theorem CoreSt.modStrm_culHandle (c : CoreSt) (x : Strm) (f : StreamSt → StreamSt) : (c.modStrm x f).culHandle = c.culHandle := by
  cases x <;> rfl
@[simp] theorem CoreSt.modStrm_culChunks (c : CoreSt) (x : Strm) (f : StreamSt → StreamSt) : (c.modStrm x f).culChunks = c.culChunks := by
  cases x <;> rfl
@[simp] theorem CoreSt.modStrm_culMove (c : CoreSt) (x : Strm) (f : StreamSt → StreamSt) : (c.modStrm x f).culMove = c.culMove := by
  cases x <;> rfl
@[simp] theorem CoreSt.modStrm_culSent (c : CoreSt) (x : Strm) (f : StreamSt → StreamSt) : (c.modStrm x f).culSent = c.culSent := by
  cases x <;> rfl
@[simp] theorem CoreSt.modStrm_culVec (c : CoreSt) (x : Strm) (f : StreamSt → StreamSt) : (c.modStrm x f).culVec = c.culVec := by
  cases x <;> rfl
@[simp] theorem CoreSt.modStrm_culBuf (c : CoreSt) (x : Strm) (f : StreamSt → StreamSt) : (c.modStrm x f).culBuf = c.culBuf := by
  cases x <;> rfl
@[simp] theorem CoreSt.modStrm_culLeave (c : CoreSt) (x : Strm) (f : StreamSt → StreamSt) : (c.modStrm x f).culLeave = c.culLeave := by
  cases x <;> rfl
@[simp] theorem CoreSt.modStrm_culPend (c : CoreSt) (x : Strm) (f : StreamSt → StreamSt) : (c.modStrm x f).culPend = c.culPend := by
  cases x <;> rfl
@[simp] theorem CoreSt.modStrm_culLast (c : CoreSt) (x : Strm) (f : StreamSt → StreamSt) : (c.modStrm x f).culLast = c.culLast := by
  cases x <;> rfl
@[simp] theorem CoreSt.modStrm_culRec (c : CoreSt) (x : Strm) (f : StreamSt → StreamSt) : (c.modStrm x f).culRec = c.culRec := by
  cases x <;> rfl
@[simp] theorem CoreSt.modStrm_srseed (c : CoreSt) (x : Strm) (f : StreamSt → StreamSt) : (c.modStrm x f).srseed = c.srseed := by
  cases x <;> rfl
@[simp] theorem CoreSt.modStrm_fframe (c : CoreSt) (x : Strm) (f : StreamSt → StreamSt) : (c.modStrm x f).fframe = c.fframe := by
  cases x <;> rfl
@[simp] theorem CoreSt.modStrm_flineL (c : CoreSt) (x : Strm) (f : StreamSt → StreamSt) : (c.modStrm x f).flineL = c.flineL := by
  cases x <;> rfl
@[simp] theorem CoreSt.modStrm_flineC (c : CoreSt) (x : Strm) (f : StreamSt → StreamSt) : (c.modStrm x f).flineC = c.flineC := by
  cases x <;> rfl
@[simp] theorem CoreSt.modStrm_flineS (c : CoreSt) (x : Strm) (f : StreamSt → StreamSt) : (c.modStrm x f).flineS = c.flineS := by
  cases x <;> rfl
@[simp] theorem CoreSt.modStrm_finfo (c : CoreSt) (x : Strm) (f : StreamSt → StreamSt) : (c.modStrm x f).finfo = c.finfo := by
  cases x <;> rfl
@[simp] theorem CoreSt.modStrm_timer (c : CoreSt) (x : Strm) (f : StreamSt → StreamSt) : (c.modStrm x f).timer = c.timer := by
  cases x <;> rfl
@[simp] theorem CoreSt.modStrm_timercmp (c : CoreSt) (x : Strm) (f : StreamSt → StreamSt) : (c.modStrm x f).timercmp = c.timercmp := by
  cases x <;> rfl
@[simp] theorem CoreSt.modStrm_timerDue (c : CoreSt) (x : Strm) (f : StreamSt → StreamSt) : (c.modStrm x f).timerDue = c.timerDue := by
  cases x <;> rfl
@[simp] theorem CoreSt.modStrm_timercmpSet (c : CoreSt) (x : Strm) (f : StreamSt → StreamSt) : (c.modStrm x f).timercmpSet = c.timercmpSet := by
  cases x <;> rfl
@[simp] theorem CoreSt.modStrm_region (c : CoreSt) (x : Strm) (f : StreamSt → StreamSt) : (c.modStrm x f).region = c.region := by
  cases x <;> rfl
@[simp] theorem CoreSt.modStrm_hscratch (c : CoreSt) (x : Strm) (f : StreamSt → StreamSt) : (c.modStrm x f).hscratch = c.hscratch := by
  cases x <;> rfl
@[simp] theorem CoreSt.modStrm_hm (c : CoreSt) (x : Strm) (f : StreamSt → StreamSt) : (c.modStrm x f).hm = c.hm := by
  cases x <;> rfl
@[simp] theorem CoreSt.modStrm_code (c : CoreSt) (x : Strm) (f : StreamSt → StreamSt) : (c.modStrm x f).code = c.code := by
  cases x <;> rfl
@[simp] theorem CoreSt.modStrm_fstream (c : CoreSt) (x : Strm) (f : StreamSt → StreamSt) : (c.modStrm x f).fstream = c.fstream := by
  cases x <;> rfl
@[simp] theorem CoreSt.modStrm_alloc (c : CoreSt) (x : Strm) (f : StreamSt → StreamSt) : (c.modStrm x f).alloc = c.alloc := by
  cases x <;> rfl
@[simp] theorem CoreSt.modStrm_dyn (c : CoreSt) (x : Strm) (f : StreamSt → StreamSt) : (c.modStrm x f).dyn = c.dyn := by
  cases x <;> rfl
@[simp] theorem CoreSt.modStrm_guard (c : CoreSt) (x : Strm) (f : StreamSt → StreamSt) : (c.modStrm x f).guard = c.guard := by
  cases x <;> rfl
@[simp] theorem CoreSt.modStrm_btc (c : CoreSt) (x : Strm) (f : StreamSt → StreamSt) : (c.modStrm x f).btc = c.btc := by
  cases x <;> rfl
@[simp] theorem CoreSt.modStrm_dq (c : CoreSt) (x : Strm) (f : StreamSt → StreamSt) : (c.modStrm x f).dq = c.dq := by
  cases x <;> rfl
@[simp] theorem CoreSt.modStrm_oq (c : CoreSt) (x : Strm) (f : StreamSt → StreamSt) : (c.modStrm x f).oq = c.oq := by
  cases x <;> rfl
@[simp] theorem CoreSt.modStrm_sq (c : CoreSt) (x : Strm) (f : StreamSt → StreamSt) : (c.modStrm x f).sq = c.sq := by
  cases x <;> rfl
@[simp] theorem CoreSt.modStrm_bq (c : CoreSt) (x : Strm) (f : StreamSt → StreamSt) : (c.modStrm x f).bq = c.bq := by
  cases x <;> rfl
@[simp] theorem CoreSt.modStrm_tk (c : CoreSt) (x : Strm) (f : StreamSt → StreamSt) : (c.modStrm x f).tk = c.tk := by
  cases x <;> rfl
@[simp] theorem CoreSt.modStrm_fmtRows (c : CoreSt) (x : Strm) (f : StreamSt → StreamSt) : (c.modStrm x f).fmtRows = c.fmtRows := by
  cases x <;> rfl
@[simp] theorem CoreSt.modStrm_bulk (c : CoreSt) (x : Strm) (f : StreamSt → StreamSt) : (c.modStrm x f).bulk = c.bulk := by
  cases x <;> rfl
@[simp] theorem CoreSt.modStrm_casts (c : CoreSt) (x : Strm) (f : StreamSt → StreamSt) : (c.modStrm x f).casts = c.casts := by
  cases x <;> rfl
@[simp] theorem CoreSt.modStrm_bulkCount (c : CoreSt) (x : Strm) (f : StreamSt → StreamSt) : (c.modStrm x f).bulkCount = c.bulkCount := by
  cases x <;> rfl
@[simp] theorem CoreSt.modStrm_posted (c : CoreSt) (x : Strm) (f : StreamSt → StreamSt) : (c.modStrm x f).posted = c.posted := by
  cases x <;> rfl
@[simp] theorem CoreSt.modStrm_cmds (c : CoreSt) (x : Strm) (f : StreamSt → StreamSt) : (c.modStrm x f).cmds = c.cmds := by
  cases x <;> rfl
@[simp] theorem CoreSt.modStrm_entered (c : CoreSt) (x : Strm) (f : StreamSt → StreamSt) : (c.modStrm x f).entered = c.entered := by
  cases x <;> rfl
@[simp] theorem CoreSt.modStrm_pins (c : CoreSt) (x : Strm) (f : StreamSt → StreamSt) : (c.modStrm x f).pins = c.pins := by
  cases x <;> rfl
@[simp] theorem CoreSt.modStrm_phase (c : CoreSt) (x : Strm) (f : StreamSt → StreamSt) : (c.modStrm x f).phase = c.phase := by
  cases x <;> rfl
@[simp] theorem CoreSt.modStrm_job (c : CoreSt) (x : Strm) (f : StreamSt → StreamSt) : (c.modStrm x f).job = c.job := by
  cases x <;> rfl
@[simp] theorem CoreSt.modStrm_depth (c : CoreSt) (x : Strm) (f : StreamSt → StreamSt) : (c.modStrm x f).depth = c.depth := by
  cases x <;> rfl
@[simp] theorem CoreSt.modStrm_raised (c : CoreSt) (x : Strm) (f : StreamSt → StreamSt) : (c.modStrm x f).raised = c.raised := by
  cases x <;> rfl
@[simp] theorem CoreSt.modStrm_recs (c : CoreSt) (x : Strm) (f : StreamSt → StreamSt) : (c.modStrm x f).recs = c.recs := by
  cases x <;> rfl
@[simp] theorem CoreSt.modStrm_chain (c : CoreSt) (x : Strm) (f : StreamSt → StreamSt) : (c.modStrm x f).chain = c.chain := by
  cases x <;> rfl
@[simp] theorem CoreSt.modStrm_susp (c : CoreSt) (x : Strm) (f : StreamSt → StreamSt) : (c.modStrm x f).susp = c.susp := by
  cases x <;> rfl
@[simp] theorem CoreSt.modStrm_failed (c : CoreSt) (x : Strm) (f : StreamSt → StreamSt) : (c.modStrm x f).failed = c.failed := by
  cases x <;> rfl
@[simp] theorem CoreSt.modStrm_ctr (c : CoreSt) (x : Strm) (f : StreamSt → StreamSt) : (c.modStrm x f).ctr = c.ctr := by
  cases x <;> rfl
@[simp] theorem CoreSt.modStrm_ctrWas (c : CoreSt) (x : Strm) (f : StreamSt → StreamSt) : (c.modStrm x f).ctrWas = c.ctrWas := by
  cases x <;> rfl
@[simp] theorem CoreSt.modStrm_debug (c : CoreSt) (x : Strm) (f : StreamSt → StreamSt) : (c.modStrm x f).debug = c.debug := by
  cases x <;> rfl
@[simp] theorem CoreSt.modStrm_debugReq (c : CoreSt) (x : Strm) (f : StreamSt → StreamSt) : (c.modStrm x f).debugReq = c.debugReq := by
  cases x <;> rfl
@[simp] theorem CoreSt.modStrm_traceBits (c : CoreSt) (x : Strm) (f : StreamSt → StreamSt) : (c.modStrm x f).traceBits = c.traceBits := by
  cases x <;> rfl
@[simp] theorem CoreSt.modStrm_ran (c : CoreSt) (x : Strm) (f : StreamSt → StreamSt) : (c.modStrm x f).ran = c.ran := by
  cases x <;> rfl
@[simp] theorem CoreSt.modStrm_lastRegion (c : CoreSt) (x : Strm) (f : StreamSt → StreamSt) : (c.modStrm x f).lastRegion = c.lastRegion := by
  cases x <;> rfl
@[simp] theorem CoreSt.modStrm_lastVf (c : CoreSt) (x : Strm) (f : StreamSt → StreamSt) : (c.modStrm x f).lastVf = c.lastVf := by
  cases x <;> rfl
@[simp] theorem CoreSt.modStrm_written (c : CoreSt) (x : Strm) (f : StreamSt → StreamSt) : (c.modStrm x f).written = c.written := by
  cases x <;> rfl
@[simp] theorem CoreSt.modStrm_begun (c : CoreSt) (x : Strm) (f : StreamSt → StreamSt) : (c.modStrm x f).begun = c.begun := by
  cases x <;> rfl
@[simp] theorem CoreSt.modStrm_leaving (c : CoreSt) (x : Strm) (f : StreamSt → StreamSt) : (c.modStrm x f).leaving = c.leaving := by
  cases x <;> rfl
@[simp] theorem CoreSt.modStrm_freeAt (c : CoreSt) (x : Strm) (f : StreamSt → StreamSt) : (c.modStrm x f).freeAt = c.freeAt := by
  cases x <;> rfl
@[simp] theorem CoreSt.modStrm_allocRan (c : CoreSt) (x : Strm) (f : StreamSt → StreamSt) : (c.modStrm x f).allocRan = c.allocRan := by
  cases x <;> rfl
@[simp] theorem CoreSt.modStrm_snapRan (c : CoreSt) (x : Strm) (f : StreamSt → StreamSt) : (c.modStrm x f).snapRan = c.snapRan := by
  cases x <;> rfl
@[simp] theorem CoreSt.modStrm_banks (c : CoreSt) (x : Strm) (f : StreamSt → StreamSt) : (c.modStrm x f).banks = c.banks := by
  cases x <;> rfl
@[simp] theorem CoreSt.modStrm_bankTurn (c : CoreSt) (x : Strm) (f : StreamSt → StreamSt) : (c.modStrm x f).bankTurn = c.bankTurn := by
  cases x <;> rfl
@[simp] theorem CoreSt.modStrm_pool (c : CoreSt) (x : Strm) (f : StreamSt → StreamSt) : (c.modStrm x f).pool = c.pool := by
  cases x <;> rfl
@[simp] theorem CoreSt.modStrm_shown (c : CoreSt) (x : Strm) (f : StreamSt → StreamSt) : (c.modStrm x f).shown = c.shown := by
  cases x <;> rfl

/-! ### Registers of a stream -/

@[simp] theorem StreamSt.reg_zero (t : StreamSt) : t.reg 0 = 0 := rfl
@[simp] theorem StreamSt.setReg_zero (t : StreamSt) (v : W64) : t.setReg 0 v = t := rfl
theorem StreamSt.reg_setReg_same (t : StreamSt) {n : Nat} (h : n ≠ 0) (v : W64) : (t.setReg n v).reg n = v := by
  simp [StreamSt.setReg, StreamSt.reg, h]
theorem StreamSt.reg_setReg_other (t : StreamSt) {n m : Nat} (h : m ≠ n) (v : W64) : (t.setReg n v).reg m = t.reg m := by
  unfold StreamSt.setReg
  split
  · rfl
  · simp [StreamSt.reg, look_set_other _ _ h]
/-- A write of s[n] in one line: s0 discards it (R90). -/
theorem StreamSt.reg_setReg (t : StreamSt) (n m : Nat) (v : W64) :
    (t.setReg n v).reg m = if m = n ∧ n ≠ 0 then v else t.reg m := by
  by_cases h : m = n
  · subst h
    by_cases h0 : m = 0
    · subst h0; simp
    · simp [t.reg_setReg_same h0, h0]
  · simp [t.reg_setReg_other h, h]

@[simp] theorem StreamSt.setReg_pend (t : StreamSt) (n : Nat) (v : W64) : (t.setReg n v).pend = t.pend := by
  unfold StreamSt.setReg; split <;> rfl
@[simp] theorem StreamSt.setReg_lc (t : StreamSt) (n : Nat) (v : W64) : (t.setReg n v).lc = t.lc := by
  unfold StreamSt.setReg; split <;> rfl
@[simp] theorem StreamSt.setReg_pc (t : StreamSt) (n : Nat) (v : W64) : (t.setReg n v).pc = t.pc := by
  unfold StreamSt.setReg; split <;> rfl
@[simp] theorem StreamSt.setReg_past (t : StreamSt) (n : Nat) (v : W64) : (t.setReg n v).past = t.past := by
  unfold StreamSt.setReg; split <;> rfl
@[simp] theorem StreamSt.setReg_evflag (t : StreamSt) (n : Nat) (v : W64) : (t.setReg n v).evflag = t.evflag := by
  unfold StreamSt.setReg; split <;> rfl
@[simp] theorem StreamSt.setReg_heard (t : StreamSt) (n : Nat) (v : W64) : (t.setReg n v).heard = t.heard := by
  unfold StreamSt.setReg; split <;> rfl
@[simp] theorem StreamSt.setReg_srctr (t : StreamSt) (n : Nat) (v : W64) : (t.setReg n v).srctr = t.srctr := by
  unfold StreamSt.setReg; split <;> rfl
@[simp] theorem StreamSt.setReg_buftag (t : StreamSt) (n : Nat) (v : W64) : (t.setReg n v).buftag = t.buftag := by
  unfold StreamSt.setReg; split <;> rfl
@[simp] theorem StreamSt.setReg_rmode (t : StreamSt) (n : Nat) (v : W64) : (t.setReg n v).rmode = t.rmode := by
  unfold StreamSt.setReg; split <;> rfl
@[simp] theorem StreamSt.setReg_rqf (t : StreamSt) (n : Nat) (v : W64) : (t.setReg n v).rqf = t.rqf := by
  unfold StreamSt.setReg; split <;> rfl
@[simp] theorem StreamSt.setReg_watchStart (t : StreamSt) (n : Nat) (v : W64) : (t.setReg n v).watchStart = t.watchStart := by
  unfold StreamSt.setReg; split <;> rfl
@[simp] theorem StreamSt.setReg_watchLen (t : StreamSt) (n : Nat) (v : W64) : (t.setReg n v).watchLen = t.watchLen := by
  unfold StreamSt.setReg; split <;> rfl
@[simp] theorem StreamSt.setReg_watchFrom (t : StreamSt) (n : Nat) (v : W64) : (t.setReg n v).watchFrom = t.watchFrom := by
  unfold StreamSt.setReg; split <;> rfl
@[simp] theorem StreamSt.setReg_stackq (t : StreamSt) (n : Nat) (v : W64) : (t.setReg n v).stackq = t.stackq := by
  unfold StreamSt.setReg; split <;> rfl
@[simp] theorem StreamSt.setReg_dray (t : StreamSt) (n : Nat) (v : W64) : (t.setReg n v).dray = t.dray := by
  unfold StreamSt.setReg; split <;> rfl
@[simp] theorem StreamSt.setReg_coach (t : StreamSt) (n : Nat) (v : W64) : (t.setReg n v).coach = t.coach := by
  unfold StreamSt.setReg; split <;> rfl
@[simp] theorem StreamSt.setReg_near (t : StreamSt) (n : Nat) (v : W64) : (t.setReg n v).near = t.near := by
  unfold StreamSt.setReg; split <;> rfl
@[simp] theorem StreamSt.setReg_decode (t : StreamSt) (n : Nat) (v : W64) : (t.setReg n v).decode = t.decode := by
  unfold StreamSt.setReg; split <;> rfl
@[simp] theorem StreamSt.setReg_marks (t : StreamSt) (n : Nat) (v : W64) : (t.setReg n v).marks = t.marks := by
  unfold StreamSt.setReg; split <;> rfl
@[simp] theorem StreamSt.setReg_seq (t : StreamSt) (n : Nat) (v : W64) : (t.setReg n v).seq = t.seq := by
  unfold StreamSt.setReg; split <;> rfl
@[simp] theorem StreamSt.setReg_dog (t : StreamSt) (n : Nat) (v : W64) : (t.setReg n v).dog = t.dog := by
  unfold StreamSt.setReg; split <;> rfl
@[simp] theorem StreamSt.setReg_wait (t : StreamSt) (n : Nat) (v : W64) : (t.setReg n v).wait = t.wait := by
  unfold StreamSt.setReg; split <;> rfl
@[simp] theorem StreamSt.setReg_arrived (t : StreamSt) (n : Nat) (v : W64) : (t.setReg n v).arrived = t.arrived := by
  unfold StreamSt.setReg; split <;> rfl
@[simp] theorem StreamSt.setReg_stopped (t : StreamSt) (n : Nat) (v : W64) : (t.setReg n v).stopped = t.stopped := by
  unfold StreamSt.setReg; split <;> rfl
@[simp] theorem StreamSt.setReg_issued (t : StreamSt) (n : Nat) (v : W64) : (t.setReg n v).issued = t.issued := by
  unfold StreamSt.setReg; split <;> rfl
@[simp] theorem StreamSt.setReg_ran (t : StreamSt) (n : Nat) (v : W64) : (t.setReg n v).ran = t.ran := by
  unfold StreamSt.setReg; split <;> rfl
@[simp] theorem StreamSt.setReg_skip (t : StreamSt) (n : Nat) (v : W64) : (t.setReg n v).skip = t.skip := by
  unfold StreamSt.setReg; split <;> rfl
@[simp] theorem StreamSt.setReg_fetched (t : StreamSt) (n : Nat) (v : W64) : (t.setReg n v).fetched = t.fetched := by
  unfold StreamSt.setReg; split <;> rfl

@[simp] theorem StreamSt.setPending_regs (t : StreamSt) (n : Nat) : (t.setPending n).regs = t.regs := by
  unfold StreamSt.setPending; split <;> rfl
@[simp] theorem StreamSt.setPending_lc (t : StreamSt) (n : Nat) : (t.setPending n).lc = t.lc := by
  unfold StreamSt.setPending; split <;> rfl
@[simp] theorem StreamSt.setPending_pc (t : StreamSt) (n : Nat) : (t.setPending n).pc = t.pc := by
  unfold StreamSt.setPending; split <;> rfl
@[simp] theorem StreamSt.setPending_past (t : StreamSt) (n : Nat) : (t.setPending n).past = t.past := by
  unfold StreamSt.setPending; split <;> rfl
@[simp] theorem StreamSt.setPending_evflag (t : StreamSt) (n : Nat) : (t.setPending n).evflag = t.evflag := by
  unfold StreamSt.setPending; split <;> rfl
@[simp] theorem StreamSt.setPending_heard (t : StreamSt) (n : Nat) : (t.setPending n).heard = t.heard := by
  unfold StreamSt.setPending; split <;> rfl
@[simp] theorem StreamSt.setPending_srctr (t : StreamSt) (n : Nat) : (t.setPending n).srctr = t.srctr := by
  unfold StreamSt.setPending; split <;> rfl
@[simp] theorem StreamSt.setPending_buftag (t : StreamSt) (n : Nat) : (t.setPending n).buftag = t.buftag := by
  unfold StreamSt.setPending; split <;> rfl
@[simp] theorem StreamSt.setPending_rmode (t : StreamSt) (n : Nat) : (t.setPending n).rmode = t.rmode := by
  unfold StreamSt.setPending; split <;> rfl
@[simp] theorem StreamSt.setPending_rqf (t : StreamSt) (n : Nat) : (t.setPending n).rqf = t.rqf := by
  unfold StreamSt.setPending; split <;> rfl
@[simp] theorem StreamSt.setPending_watchStart (t : StreamSt) (n : Nat) : (t.setPending n).watchStart = t.watchStart := by
  unfold StreamSt.setPending; split <;> rfl
@[simp] theorem StreamSt.setPending_watchLen (t : StreamSt) (n : Nat) : (t.setPending n).watchLen = t.watchLen := by
  unfold StreamSt.setPending; split <;> rfl
@[simp] theorem StreamSt.setPending_watchFrom (t : StreamSt) (n : Nat) : (t.setPending n).watchFrom = t.watchFrom := by
  unfold StreamSt.setPending; split <;> rfl
@[simp] theorem StreamSt.setPending_stackq (t : StreamSt) (n : Nat) : (t.setPending n).stackq = t.stackq := by
  unfold StreamSt.setPending; split <;> rfl
@[simp] theorem StreamSt.setPending_dray (t : StreamSt) (n : Nat) : (t.setPending n).dray = t.dray := by
  unfold StreamSt.setPending; split <;> rfl
@[simp] theorem StreamSt.setPending_coach (t : StreamSt) (n : Nat) : (t.setPending n).coach = t.coach := by
  unfold StreamSt.setPending; split <;> rfl
@[simp] theorem StreamSt.setPending_near (t : StreamSt) (n : Nat) : (t.setPending n).near = t.near := by
  unfold StreamSt.setPending; split <;> rfl
@[simp] theorem StreamSt.setPending_decode (t : StreamSt) (n : Nat) : (t.setPending n).decode = t.decode := by
  unfold StreamSt.setPending; split <;> rfl
@[simp] theorem StreamSt.setPending_marks (t : StreamSt) (n : Nat) : (t.setPending n).marks = t.marks := by
  unfold StreamSt.setPending; split <;> rfl
@[simp] theorem StreamSt.setPending_seq (t : StreamSt) (n : Nat) : (t.setPending n).seq = t.seq := by
  unfold StreamSt.setPending; split <;> rfl
@[simp] theorem StreamSt.setPending_dog (t : StreamSt) (n : Nat) : (t.setPending n).dog = t.dog := by
  unfold StreamSt.setPending; split <;> rfl
@[simp] theorem StreamSt.setPending_wait (t : StreamSt) (n : Nat) : (t.setPending n).wait = t.wait := by
  unfold StreamSt.setPending; split <;> rfl
@[simp] theorem StreamSt.setPending_arrived (t : StreamSt) (n : Nat) : (t.setPending n).arrived = t.arrived := by
  unfold StreamSt.setPending; split <;> rfl
@[simp] theorem StreamSt.setPending_stopped (t : StreamSt) (n : Nat) : (t.setPending n).stopped = t.stopped := by
  unfold StreamSt.setPending; split <;> rfl
@[simp] theorem StreamSt.setPending_issued (t : StreamSt) (n : Nat) : (t.setPending n).issued = t.issued := by
  unfold StreamSt.setPending; split <;> rfl
@[simp] theorem StreamSt.setPending_ran (t : StreamSt) (n : Nat) : (t.setPending n).ran = t.ran := by
  unfold StreamSt.setPending; split <;> rfl
@[simp] theorem StreamSt.setPending_skip (t : StreamSt) (n : Nat) : (t.setPending n).skip = t.skip := by
  unfold StreamSt.setPending; split <;> rfl
@[simp] theorem StreamSt.setPending_fetched (t : StreamSt) (n : Nat) : (t.setPending n).fetched = t.fetched := by
  unfold StreamSt.setPending; split <;> rfl

@[simp] theorem StreamSt.clearPending_regs (t : StreamSt) (n : Nat) : (t.clearPending n).regs = t.regs := rfl
@[simp] theorem StreamSt.clearPending_lc (t : StreamSt) (n : Nat) : (t.clearPending n).lc = t.lc := rfl
@[simp] theorem StreamSt.clearPending_pc (t : StreamSt) (n : Nat) : (t.clearPending n).pc = t.pc := rfl
@[simp] theorem StreamSt.clearPending_past (t : StreamSt) (n : Nat) : (t.clearPending n).past = t.past := rfl
@[simp] theorem StreamSt.clearPending_evflag (t : StreamSt) (n : Nat) : (t.clearPending n).evflag = t.evflag := rfl
@[simp] theorem StreamSt.clearPending_heard (t : StreamSt) (n : Nat) : (t.clearPending n).heard = t.heard := rfl
@[simp] theorem StreamSt.clearPending_srctr (t : StreamSt) (n : Nat) : (t.clearPending n).srctr = t.srctr := rfl
@[simp] theorem StreamSt.clearPending_buftag (t : StreamSt) (n : Nat) : (t.clearPending n).buftag = t.buftag := rfl
@[simp] theorem StreamSt.clearPending_rmode (t : StreamSt) (n : Nat) : (t.clearPending n).rmode = t.rmode := rfl
@[simp] theorem StreamSt.clearPending_rqf (t : StreamSt) (n : Nat) : (t.clearPending n).rqf = t.rqf := rfl
@[simp] theorem StreamSt.clearPending_watchStart (t : StreamSt) (n : Nat) : (t.clearPending n).watchStart = t.watchStart := rfl
@[simp] theorem StreamSt.clearPending_watchLen (t : StreamSt) (n : Nat) : (t.clearPending n).watchLen = t.watchLen := rfl
@[simp] theorem StreamSt.clearPending_watchFrom (t : StreamSt) (n : Nat) : (t.clearPending n).watchFrom = t.watchFrom := rfl
@[simp] theorem StreamSt.clearPending_stackq (t : StreamSt) (n : Nat) : (t.clearPending n).stackq = t.stackq := rfl
@[simp] theorem StreamSt.clearPending_dray (t : StreamSt) (n : Nat) : (t.clearPending n).dray = t.dray := rfl
@[simp] theorem StreamSt.clearPending_coach (t : StreamSt) (n : Nat) : (t.clearPending n).coach = t.coach := rfl
@[simp] theorem StreamSt.clearPending_near (t : StreamSt) (n : Nat) : (t.clearPending n).near = t.near := rfl
@[simp] theorem StreamSt.clearPending_decode (t : StreamSt) (n : Nat) : (t.clearPending n).decode = t.decode := rfl
@[simp] theorem StreamSt.clearPending_marks (t : StreamSt) (n : Nat) : (t.clearPending n).marks = t.marks := rfl
@[simp] theorem StreamSt.clearPending_seq (t : StreamSt) (n : Nat) : (t.clearPending n).seq = t.seq := rfl
@[simp] theorem StreamSt.clearPending_dog (t : StreamSt) (n : Nat) : (t.clearPending n).dog = t.dog := rfl
@[simp] theorem StreamSt.clearPending_wait (t : StreamSt) (n : Nat) : (t.clearPending n).wait = t.wait := rfl
@[simp] theorem StreamSt.clearPending_arrived (t : StreamSt) (n : Nat) : (t.clearPending n).arrived = t.arrived := rfl
@[simp] theorem StreamSt.clearPending_stopped (t : StreamSt) (n : Nat) : (t.clearPending n).stopped = t.stopped := rfl
@[simp] theorem StreamSt.clearPending_issued (t : StreamSt) (n : Nat) : (t.clearPending n).issued = t.issued := rfl
@[simp] theorem StreamSt.clearPending_ran (t : StreamSt) (n : Nat) : (t.clearPending n).ran = t.ran := rfl
@[simp] theorem StreamSt.clearPending_skip (t : StreamSt) (n : Nat) : (t.clearPending n).skip = t.skip := rfl
@[simp] theorem StreamSt.clearPending_fetched (t : StreamSt) (n : Nat) : (t.clearPending n).fetched = t.fetched := rfl

@[simp] theorem StreamSt.waits_regs (t : StreamSt) (w : Wait) : (t.waits w).regs = t.regs := by
  unfold StreamSt.waits; split <;> rfl
@[simp] theorem StreamSt.waits_pend (t : StreamSt) (w : Wait) : (t.waits w).pend = t.pend := by
  unfold StreamSt.waits; split <;> rfl
@[simp] theorem StreamSt.waits_lc (t : StreamSt) (w : Wait) : (t.waits w).lc = t.lc := by
  unfold StreamSt.waits; split <;> rfl
@[simp] theorem StreamSt.waits_pc (t : StreamSt) (w : Wait) : (t.waits w).pc = t.pc := by
  unfold StreamSt.waits; split <;> rfl
@[simp] theorem StreamSt.waits_past (t : StreamSt) (w : Wait) : (t.waits w).past = t.past := by
  unfold StreamSt.waits; split <;> rfl
@[simp] theorem StreamSt.waits_evflag (t : StreamSt) (w : Wait) : (t.waits w).evflag = t.evflag := by
  unfold StreamSt.waits; split <;> rfl
@[simp] theorem StreamSt.waits_heard (t : StreamSt) (w : Wait) : (t.waits w).heard = t.heard := by
  unfold StreamSt.waits; split <;> rfl
@[simp] theorem StreamSt.waits_srctr (t : StreamSt) (w : Wait) : (t.waits w).srctr = t.srctr := by
  unfold StreamSt.waits; split <;> rfl
@[simp] theorem StreamSt.waits_buftag (t : StreamSt) (w : Wait) : (t.waits w).buftag = t.buftag := by
  unfold StreamSt.waits; split <;> rfl
@[simp] theorem StreamSt.waits_rmode (t : StreamSt) (w : Wait) : (t.waits w).rmode = t.rmode := by
  unfold StreamSt.waits; split <;> rfl
@[simp] theorem StreamSt.waits_rqf (t : StreamSt) (w : Wait) : (t.waits w).rqf = t.rqf := by
  unfold StreamSt.waits; split <;> rfl
@[simp] theorem StreamSt.waits_watchStart (t : StreamSt) (w : Wait) : (t.waits w).watchStart = t.watchStart := by
  unfold StreamSt.waits; split <;> rfl
@[simp] theorem StreamSt.waits_watchLen (t : StreamSt) (w : Wait) : (t.waits w).watchLen = t.watchLen := by
  unfold StreamSt.waits; split <;> rfl
@[simp] theorem StreamSt.waits_watchFrom (t : StreamSt) (w : Wait) : (t.waits w).watchFrom = t.watchFrom := by
  unfold StreamSt.waits; split <;> rfl
@[simp] theorem StreamSt.waits_stackq (t : StreamSt) (w : Wait) : (t.waits w).stackq = t.stackq := by
  unfold StreamSt.waits; split <;> rfl
@[simp] theorem StreamSt.waits_dray (t : StreamSt) (w : Wait) : (t.waits w).dray = t.dray := by
  unfold StreamSt.waits; split <;> rfl
@[simp] theorem StreamSt.waits_coach (t : StreamSt) (w : Wait) : (t.waits w).coach = t.coach := by
  unfold StreamSt.waits; split <;> rfl
@[simp] theorem StreamSt.waits_near (t : StreamSt) (w : Wait) : (t.waits w).near = t.near := by
  unfold StreamSt.waits; split <;> rfl
@[simp] theorem StreamSt.waits_decode (t : StreamSt) (w : Wait) : (t.waits w).decode = t.decode := by
  unfold StreamSt.waits; split <;> rfl
@[simp] theorem StreamSt.waits_marks (t : StreamSt) (w : Wait) : (t.waits w).marks = t.marks := by
  unfold StreamSt.waits; split <;> rfl
@[simp] theorem StreamSt.waits_seq (t : StreamSt) (w : Wait) : (t.waits w).seq = t.seq := by
  unfold StreamSt.waits; split <;> rfl
@[simp] theorem StreamSt.waits_arrived (t : StreamSt) (w : Wait) : (t.waits w).arrived = t.arrived := by
  unfold StreamSt.waits; split <;> rfl
@[simp] theorem StreamSt.waits_stopped (t : StreamSt) (w : Wait) : (t.waits w).stopped = t.stopped := by
  unfold StreamSt.waits; split <;> rfl
@[simp] theorem StreamSt.waits_issued (t : StreamSt) (w : Wait) : (t.waits w).issued = t.issued := by
  unfold StreamSt.waits; split <;> rfl
@[simp] theorem StreamSt.waits_ran (t : StreamSt) (w : Wait) : (t.waits w).ran = t.ran := by
  unfold StreamSt.waits; split <;> rfl
@[simp] theorem StreamSt.waits_skip (t : StreamSt) (w : Wait) : (t.waits w).skip = t.skip := by
  unfold StreamSt.waits; split <;> rfl
@[simp] theorem StreamSt.waits_fetched (t : StreamSt) (w : Wait) : (t.waits w).fetched = t.fetched := by
  unfold StreamSt.waits; split <;> rfl

@[simp] theorem StreamSt.waits_wait (t : StreamSt) (w : Wait) : (t.waits w).wait = some w := by
  unfold StreamSt.waits; split <;> simp_all
theorem StreamSt.completeReg_pending (t : StreamSt) {n : Nat} (h : t.isPending n = true) (v : W64) :
    t.completeReg n v = (t.setReg n v).clearPending n := by
  simp [StreamSt.completeReg, h]
@[simp] theorem StreamSt.clearPending_isPending (t : StreamSt) (n : Nat) : (t.clearPending n).isPending n = false := by
  simp [StreamSt.isPending, StreamSt.clearPending]

end Sys2Proof.Machine
end

