-- ==== Sys2Proof/Laws/Keeps.lean ====
section
/-! SUPPORT. What keeps every memory of the package in its canonical form (Safety.lean, State.memWf): the named updates,
and the issue of one instruction from its meaning. -/
namespace Sys2Proof.Machine

/-! ### Parts of a state -/

theorem CoreSt.memWf_default : ({} : CoreSt).memWf = true := rfl

theorem State.core_memWf {s : State} (h : s.memWf = true) (k : Nat) : (s.core k).memWf = true := by
  simp only [State.memWf, Bool.and_eq_true] at h
  exact look_all CoreSt.memWf_default h.1.1.1.1.2 k

theorem State.save_memWf {s : State} (h : s.memWf = true) (k : Nat) : (look {} s.saves k : CoreSt).memWf = true := by
  simp only [State.memWf, Bool.and_eq_true] at h
  exact look_all CoreSt.memWf_default h.1.1.1.2 k

theorem State.column_memWf {s : State} (h : s.memWf = true) (c : Nat) : (s.column c).memWf = true := by
  simp only [State.memWf, Bool.and_eq_true] at h
  exact look_all (q := Column.memWf) rfl h.1.1.2 c

theorem State.store_wf {s : State} (h : s.memWf = true) : s.store.wf = true := by
  simp only [State.memWf, Bool.and_eq_true] at h
  exact h.1.1.1.1.1

/-- The form rests on a few fields of the state only. -/
theorem State.memWf_congr {s t : State} (h : s.memWf = true) (h1 : t.store = s.store) (h2 : t.cores = s.cores)
    (h3 : t.saves = s.saves) (h4 : t.columns = s.columns) (h5 : t.transit = s.transit) (h6 : t.asideWf = s.asideWf) :
    t.memWf = true := by
  rw [State.memWf, h1, h2, h3, h4, h5, h6]; exact h

/-! ### Updates of the package -/

theorem State.memWf_setCore {s : State} (h : s.memWf = true) (k : Nat) {c : CoreSt} (hc : c.memWf = true) :
    (s.setCore k c).memWf = true := by
  simp only [State.memWf, Bool.and_eq_true] at h ⊢
  exact ⟨⟨⟨⟨⟨h.1.1.1.1.1, all_set h.1.1.1.1.2 k hc⟩, h.1.1.1.2⟩, h.1.1.2⟩, h.1.2⟩, h.2⟩

theorem State.memWf_modCore {s : State} (h : s.memWf = true) (k : Nat) {f : CoreSt → CoreSt}
    (hf : ∀ c : CoreSt, c.memWf = true → (f c).memWf = true) : (s.modCore k f).memWf = true :=
  State.memWf_setCore h k (hf _ (State.core_memWf h k))

@[simp] theorem CoreSt.memWf_modStrm (c : CoreSt) (x : Strm) (f : StreamSt → StreamSt) :
    (c.modStrm x f).memWf = c.memWf := by cases x <;> rfl

theorem State.memWf_modStrm {s : State} (h : s.memWf = true) (k : Nat) (x : Strm) (f : StreamSt → StreamSt) :
    (s.modStrm k x f).memWf = true :=
  State.memWf_modCore h k fun c hc => by rw [CoreSt.memWf_modStrm]; exact hc

theorem State.memWf_modCur {s : State} (h : s.memWf = true) (f : StreamSt → StreamSt) : (s.modCur f).memWf = true :=
  State.memWf_modStrm h _ _ f

theorem State.memWf_modColumn {s : State} (h : s.memWf = true) (n : Nat) {f : Column → Column}
    (hf : ∀ c : Column, c.memWf = true → (f c).memWf = true) : (s.modColumn n f).memWf = true := by
  have hc := hf _ (State.column_memWf h n)
  simp only [State.memWf, Bool.and_eq_true] at h ⊢
  exact ⟨⟨⟨⟨⟨h.1.1.1.1.1, h.1.1.1.1.2⟩, h.1.1.1.2⟩, all_set h.1.1.2 n hc⟩, h.1.2⟩, h.2⟩

theorem State.memWf_modLayer {s : State} (h : s.memWf = true) (n : Nat) (f : Layer → Layer) :
    (s.modLayer n f).memWf = true := State.memWf_congr h rfl rfl rfl rfl rfl rfl

theorem State.memWf_setBench {s : State} (h : s.memWf = true) (n : Nat) (v : Bench) : (s.setBench n v).memWf = true :=
  State.memWf_congr h rfl rfl rfl rfl rfl rfl

theorem State.memWf_modTensor {s : State} (h : s.memWf = true) (n : Nat) (f : Tensor → Tensor) :
    (s.modTensor n f).memWf = true := State.memWf_congr h rfl rfl rfl rfl rfl rfl

theorem State.memWf_log {s : State} (h : s.memWf = true) (l : LogLine) : (s.log l).memWf = true :=
  State.memWf_congr h rfl rfl rfl rfl rfl rfl

theorem State.memWf_draw {s : State} (h : s.memWf = true) : s.draw.2.memWf = true := State.memWf_congr h rfl rfl rfl rfl rfl rfl

theorem State.memWf_heat {s : State} (h : s.memWf = true) (col vf : Nat) (buf : Byte) (b n : Nat) :
    (s.heat col vf buf b n).memWf = true := State.memWf_modColumn h _ fun _ hc => hc

/-- Storage written in one frame. -/
theorem State.memWf_store {s : State} (h : s.memWf = true) {m : Memory} (hm : m.wf = true) :
    ({ s with store := m } : State).memWf = true := by
  simp only [State.memWf, Bool.and_eq_true] at h ⊢
  exact ⟨⟨⟨⟨⟨hm, h.1.1.1.1.2⟩, h.1.1.1.2⟩, h.1.1.2⟩, h.1.2⟩, h.2⟩

theorem State.memWf_setFrame {s : State} (h : s.memWf = true) (loc off : Nat) (bs : List Byte) :
    (s.setFrame loc off bs).memWf = true := by
  unfold State.setFrame
  split
  · exact h
  · exact State.memWf_store h (Memory.wf_setBytes (State.store_wf h) _ _)

/-! ### The issue of one instruction -/

theorem State.memWf_count {s : State} (h : s.memWf = true) (k ev n : Nat) (x : Option Strm) :
    (s.count k ev n x).memWf = true := by
  unfold State.count
  extract_lets c
  split
  · exact h
  · exact State.memWf_setCore h k (State.core_memWf h k)

theorem State.memWf_clearPmc {s : State} (h : s.memWf = true) (k n : Nat) : (s.clearPmc k n).memWf = true := by
  unfold State.clearPmc
  split
  · exact State.memWf_setCore h k (State.core_memWf h k)
  · exact h

theorem State.memWf_setPc {s : State} (h : s.memWf = true) (k : Nat) (x : Strm) (p : Option Pc) :
    (s.setPc k x p).memWf = true := by
  cases p <;> exact State.memWf_modStrm h _ _ _

theorem State.memWf_advance {s : State} (h : s.memWf = true) (k : Nat) (x : Strm) : (s.advance k x).memWf = true :=
  State.memWf_setPc h _ _ _

@[simp] theorem CoreSt.memWf_beginStop (c : CoreSt) : c.beginStop.memWf = c.memWf := by
  unfold CoreSt.beginStop; split <;> rfl

@[simp] theorem CoreSt.memWf_raise (c : CoreSt) (x : Option Strm) (e : Nat) (i : W64) :
    (c.raise x e i).memWf = c.memWf := by
  cases x <;> simp only [CoreSt.raise, CoreSt.memWf_beginStop, CoreSt.memWf_modStrm] <;> rfl

@[simp] theorem CoreSt.memWf_raiseTransfer (c : CoreSt) (r : TransferRec) : (c.raiseTransfer r).memWf = c.memWf := by
  unfold CoreSt.raiseTransfer
  extract_lets c1 c2
  have h : c2.memWf = c.memWf := by rw [CoreSt.memWf_modStrm]; rfl
  split <;> exact h

theorem State.memWf_raise {s : State} (h : s.memWf = true) (k : Nat) (x : Option Strm) (e : Nat) (i : W64) :
    (s.raise k x e i).memWf = true :=
  State.memWf_modCore h k fun c hc => by rw [CoreSt.memWf_raise]; exact hc

theorem State.memWf_ite {p : Prop} [Decidable p] {s t : State} (h : s.memWf = true) (g : t.memWf = true) :
    (if p then s else t).memWf = true := by split <;> assumption

theorem State.memWf_issued {s : State} (h : s.memWf = true) (i : Instr) (k : Nat) (x : Strm) :
    (s.issued i k x).memWf = true := by
  unfold State.issued
  extract_lets s1 s2 s3 s4
  have h2 : s2.memWf = true := State.memWf_count (State.memWf_modStrm h _ _ _) _ _ _ _
  have hb : (s2.modCore k fun c => { c with traceBits := c.traceBits ||| 2 ^ 2 }).memWf = true :=
    State.memWf_setCore h2 k (c := { s2.core k with traceBits := (s2.core k).traceBits ||| 2 ^ 2 }) (State.core_memWf h2 k)
  have h3 : s3.memWf = true := State.memWf_ite (State.memWf_count hb _ _ _ _) h2
  have h4 : s4.memWf = true := State.memWf_ite (State.memWf_count h3 _ _ _ _) h3
  clear_value s4
  split
  · exact State.memWf_ite (State.memWf_clearPmc h4 _ _) h4
  · exact State.memWf_ite (State.memWf_clearPmc h4 _ _) h4
  · exact h4

/-- Every state that a meaning answers with keeps the form. -/
def Res.keeps : Res State → Prop
  | .ok t | .goto t _ | .stay t | .trap t _ _ | .wait _ t | .report t _ _ => t.memWf = true
  | .fault _ _ => True

/-- As `Res.keeps`, for a meaning over the issuing core. -/
def Res.keepsCore : Res CoreSt → Prop
  | .ok c | .goto c _ | .stay c | .trap c _ _ | .wait _ c | .report c _ _ => c.memWf = true
  | .fault _ _ => True

theorem Res.keeps_onCore {s : State} (h : s.memWf = true) (k : Nat) {r : Res CoreSt} (hr : r.keepsCore) :
    (r.onCore s k).keeps := by
  cases r <;> first | trivial | exact State.memWf_setCore h k hr

theorem finish_memWf {s : State} (h : s.memWf = true) (i : Instr) (k : Nat) (x : Strm) {r : Res State} (hr : r.keeps) :
    (finish i s k x r).memWf = true := by
  cases r <;> simp only [finish, Res.keeps] at *
  · exact State.memWf_advance (State.memWf_issued hr _ _ _) _ _
  · exact State.memWf_setPc (State.memWf_issued hr _ _ _) _ _ _
  · exact State.memWf_issued hr _ _ _
  · exact State.memWf_raise (State.memWf_advance (State.memWf_issued hr _ _ _) _ _) _ _ _ _
  · exact State.memWf_modStrm hr _ _ _
  · exact State.memWf_raise h _ _ _ _
  · exact State.memWf_raise hr _ _ _ _

theorem attempt_keeps {s : State} (h : s.memWf = true) (i : Instr) {body : State → Res State} (hb : (body s).keeps) :
    (attempt i s body).keeps := by
  unfold attempt
  extract_lets c u
  split
  · trivial
  split
  · trivial
  split
  · trivial
  split
  · exact h
  split
  · exact h
  · exact hb

/-- An instruction whose meaning keeps the form from this state leaves the package in it. -/
theorem issue_memWf {s t : State} {i : Instr} {body : State → Res State} (h : s.memWf = true) (hb : (body s).keeps)
    (he : issue i s body = .next t) : t.memWf = true := by
  unfold issue at he
  split at he
  · exact absurd he (by simp)
  · split at he
    · exact absurd he (by simp)
    · cases he; exact finish_memWf h _ _ _ (attempt_keeps h i hb)

theorem issueCore_memWf {s t : State} {i : Instr} {body : CoreSt → Strm → Res CoreSt} (h : s.memWf = true)
    (hb : ∀ c : CoreSt, c.memWf = true → (body c s.strm).keepsCore) (he : issueCore i s body = .next t) : t.memWf = true :=
  issue_memWf h (Res.keeps_onCore h s.who (hb _ (State.core_memWf h _))) he

/-- An instruction that writes one scalar register touches no memory. -/
theorem issueScalar_memWf {s t : State} {i : Instr} {rd : BitVec 5} {f : StreamSt → W64} (h : s.memWf = true)
    (he : issueScalar i s rd f = .next t) : t.memWf = true :=
  issueCore_memWf h (fun c hc => by simpa [Res.keepsCore] using hc) he

/-! ### Updates of a core -/

@[simp] theorem CoreSt.memWf_ask (c : CoreSt) (ps : List (Nat × Nat)) (req port : Nat) :
    (c.ask ps req port).memWf = c.memWf := rfl

@[simp] theorem CoreSt.memWf_touch (c : CoreSt) (ps : List (Nat × Nat)) (st req port : Nat) (wr : Bool) :
    (c.touch ps st req port wr).memWf = c.memWf := by
  have hg : ∀ (v : W64), ({ c.ask ps req port with guard := v } : CoreSt).memWf = c.memWf := fun _ => rfl
  unfold CoreSt.touch CoreSt.recorded
  split
  · rfl
  split
  · exact hg _
  split
  · rfl
  · exact hg _

theorem CoreSt.accessed_keeps {c : CoreSt} (h : c.memWf = true) (ps : List (Nat × Nat)) (st req port : Nat) (wr ww : Bool) :
    (c.accessed ps st req port wr ww).keepsCore := by
  unfold CoreSt.accessed
  split <;> simpa [Res.keepsCore] using h

@[simp] theorem CoreSt.memWf_setGranule (c : CoreSt) (g v : Nat) : (c.setGranule g v).memWf = c.memWf := rfl

theorem CoreSt.memWf_foldl {α : Type} (f : CoreSt → α → CoreSt) (hf : ∀ c a, (f c a).memWf = c.memWf) (l : List α)
    (c : CoreSt) : (l.foldl f c).memWf = c.memWf := by
  induction l generalizing c with
  | nil => rfl
  | cons a l ih => rw [List.foldl_cons, ih, hf]

@[simp] theorem CoreSt.memWf_setGranules (c : CoreSt) (lo n v : Nat) : (c.setGranules lo n v).memWf = c.memWf :=
  CoreSt.memWf_foldl (fun c i => c.setGranule (lo + i) v) (fun _ _ => rfl) _ _

@[simp] theorem CoreSt.memWf_dropGuard (c : CoreSt) (g : Nat) : (c.dropGuard g).memWf = c.memWf := by
  unfold CoreSt.dropGuard; split <;> rfl

@[simp] theorem CoreSt.memWf_snapshot (c : CoreSt) (x : Strm) (t : Nat) : (c.snapshot x t).memWf = c.memWf := rfl

@[simp] theorem CoreSt.memWf_drawn (c : CoreSt) (p : Bool) : (c.drawn p).memWf = c.memWf := by
  unfold CoreSt.drawn; split
  · exact CoreSt.memWf_modStrm _ _ _
  · rfl

theorem CoreSt.memWf_iff {c : CoreSt} :
    c.memWf = true ↔ c.acc.wf = true ∧ c.tiles.wf = true ∧ c.scratch.wf = true ∧ c.ring.wf = true := by
  simp only [CoreSt.memWf, Bool.and_eq_true]; tauto

theorem CoreSt.memWf_setRow {c : CoreSt} (h : c.memWf = true) (v : BitVec 6) (l : List Nat) :
    (c.setRow v l).memWf = true := by
  rw [CoreSt.memWf_iff] at h ⊢
  exact ⟨Memory.wf_setBytes h.1 _ _, h.2⟩

/-- A lane instruction leaves the package in its form. -/
theorem lanewise_memWf {s t : State} {i : Instr} {vd : BitVec 6} {mk : BitVec 3} {f : CoreSt → Nat → Nat}
    (h : s.memWf = true) (he : lanewise i s vd mk f = .next t) : t.memWf = true :=
  issueCore_memWf h (fun _ hc => by
    show (CoreSt.setRow _ _ _).memWf = true
    exact CoreSt.memWf_setRow hc _ _) he

theorem lanewiseRound_memWf {s t : State} {i : Instr} {vd : BitVec 6} {mk : BitVec 3} {f : CoreSt → Nat → Nat}
    (h : s.memWf = true) (he : lanewiseRound i s vd mk f = .next t) : t.memWf = true :=
  issueCore_memWf h (fun c hc => by
    show ((c.setRow vd _).drawn _).memWf = true
    rw [CoreSt.memWf_drawn]; exact CoreSt.memWf_setRow hc _ _) he

/-- A push keeps the form where the rest of the instruction's effect does. -/
theorem CoreSt.pushCullet_keeps {c : CoreSt} (h : c.memWf = true) (cls vreg acc frac pw param : Nat) (rem : List Nat)
    {done : CoreSt → CoreSt} (hd : ∀ d : CoreSt, d.memWf = true → (done d).memWf = true) :
    (c.pushCullet cls vreg acc frac pw param rem done).keepsCore := by
  unfold CoreSt.pushCullet
  extract_lets z r
  split
  · trivial
  split
  · split
    · trivial
    · exact h
  · refine hd _ ?_
    rw [CoreSt.memWf_iff] at h ⊢
    exact ⟨h.1, h.2.1, h.2.2.1, wf_ringSplice h.2.2.2 (wf_cellsAt _ _) _ _⟩

theorem CoreSt.forward_keeps {c : CoreSt} (h : c.memWf = true) (cls : Nat) (vd : BitVec 6) (frac pw param : Nat)
    (f : Nat → Option (Nat × Nat)) : (c.forward cls vd frac pw param f).keepsCore := by
  unfold CoreSt.forward
  extract_lets xs
  split
  · trivial
  · exact CoreSt.pushCullet_keeps h _ _ _ _ _ _ _ fun d hd => CoreSt.memWf_setRow hd _ _

theorem CoreSt.undo_keeps {c : CoreSt} (h : c.memWf = true) (cls : Nat) (vd va : BitVec 6) (param : Option Nat)
    (good : Nat → Bool) (f : Nat → Nat → Nat → Option Nat) : (c.undo cls vd va param good f).keepsCore := by
  unfold CoreSt.undo
  split
  · exact h
  · trivial
  · split
    · trivial
    · extract_lets xs
      split
      · trivial
      · exact CoreSt.memWf_setRow (c := c.popCullet _) h _ _

/-! ### Tensor space -/

theorem State.memWf_mapCores {s : State} (h : s.memWf = true) (f : Nat × CoreSt → CoreSt)
    (hf : ∀ p, (f p).memWf = p.2.memWf) : ({ s with cores := s.cores.map fun p => (p.1, f p) } : State).memWf = true := by
  simp only [State.memWf, Bool.and_eq_true] at h ⊢
  exact ⟨⟨⟨⟨⟨h.1.1.1.1.1, all_map_snd f (fun p _ hp => by rw [hf]; exact hp) h.1.1.1.1.2⟩, h.1.1.1.2⟩, h.1.1.2⟩, h.1.2⟩,
    h.2⟩

theorem State.memWf_invalidate {s : State} (h : s.memWf = true) (n : Nat) (p : Nat → Bool) :
    (s.invalidate n p).memWf = true := State.memWf_mapCores h _ fun _ => rfl

theorem State.memWf_walked {s : State} (h : s.memWf = true) (k n b : Nat) : (s.walked k n b).memWf = true := by
  unfold State.walked
  split
  · exact h
  · refine State.memWf_count (State.memWf_modCore h k fun c hc => ?_) _ _ _ _
    exact hc

theorem State.memWf_copyFrames {s : State} (h : s.memWf = true) (src dst : Nat) (two : Bool) :
    (s.copyFrames src dst two).memWf = true := by
  unfold State.copyFrames
  extract_lets n t
  have ht : t.memWf = true := State.memWf_congr h rfl rfl rfl rfl rfl rfl
  split
  · exact State.memWf_store ht (Memory.wf_clear (State.store_wf ht) _ _)
  · exact State.memWf_store ht (Memory.wf_copyRange (State.store_wf ht) _ _ _)

theorem State.memWf_noteAlloc {s : State} (h : s.memWf = true) (n loc : Nat) : (s.noteAlloc n loc).memWf = true := by
  have hc : ∀ c : Column, c.memWf = true → ({ c with evalDue := [0, 1, 2, 3] } : Column).memWf = true := fun _ h => h
  exact State.memWf_modColumn (State.memWf_modColumn h _ hc) _ hc

theorem State.memWf_setFrameRange {s : State} (h : s.memWf = true) (loc n : Nat) {m : Memory} (hm : m.wf = true) :
    (s.setFrameRange loc n m).memWf = true := by
  unfold State.setFrameRange
  split
  · exact h
  · exact State.memWf_store h (Memory.wf_splice (State.store_wf h) hm _ _)

theorem State.frameRange_wf {s : State} (h : s.memWf = true) (loc n : Nat) : (s.frameRange loc n).wf = true := by
  unfold State.frameRange
  split
  · rfl
  · exact Memory.wf_slice (State.store_wf h) _ _

theorem State.memWf_prepare {s t : State} (h : s.memWf = true) {n b : Nat} {shadow : Bool}
    (he : s.prepare n b shadow = some t) : t.memWf = true := by
  unfold State.prepare at he
  extract_lets d put at he
  have hp : ∀ (u : State) d, u.memWf = true → (put u d).memWf = true := fun u d hu =>
    State.memWf_modTensor (State.memWf_invalidate hu _ _) _ _
  split at he
  · split at he
    · cases he; exact h
    · obtain ⟨l, -, rfl⟩ := Option.map_eq_some_iff.mp he
      exact hp _ _ (State.memWf_noteAlloc (State.memWf_copyFrames h _ _ _) _ _)
  · split at he
    · obtain ⟨l, -, rfl⟩ := Option.map_eq_some_iff.mp he
      exact hp _ _ (State.memWf_noteAlloc (State.memWf_copyFrames h _ _ _) _ _)
    · cases he; exact h

theorem State.memWf_setFrameCode {s : State} (h : s.memWf = true) (loc bit w v : Nat) :
    (s.setFrameCode loc bit w v).memWf = true := by
  unfold State.setFrameCode
  split <;> exact State.memWf_setFrame h _ _ _

theorem State.memWf_foldl {α : Type} (f : State → α → State) (hf : ∀ s a, s.memWf = true → (f s a).memWf = true)
    (l : List α) {s : State} (h : s.memWf = true) : (l.foldl f s).memWf = true := by
  induction l generalizing s with
  | nil => exact h
  | cons a l ih => exact ih (hf _ _ h)

theorem State.memWf_setTrailer {s : State} (h : s.memWf = true) (loc slot span : Nat) (t : List Byte)
    (rs : List (Nat × Nat)) : (s.setTrailer loc slot span t rs).memWf = true := by
  unfold State.setTrailer
  extract_lets key s1 s2 m n
  have h1 : s1.memWf = true := State.memWf_congr h rfl rfl rfl rfl rfl rfl
  exact State.memWf_setFrame (State.memWf_setFrame h1 _ _ _) _ _ _

theorem State.memWf_amendTile {s : State} (h : s.memWf = true) (loc slot : Nat) (ls : List Landed) :
    (s.amendTile loc slot ls).memWf = true := State.memWf_setFrame h _ _ _

theorem State.memWf_sealTile {s : State} (h : s.memWf = true) (loc slot : Nat) (ls : List Landed) :
    (s.sealTile loc slot ls).memWf = true := State.memWf_setFrame h _ _ _

/-- A write's trailer, or the amended trailers of the tiles it meets, keep the form. -/
theorem State.memWf_landTrailer {s : State} (h : s.memWf = true) (loc w : Nat) (raw : Bool) (ls : List Landed) (l : Landing) :
    (s.landTrailer loc w raw ls l).memWf = true := by
  unfold State.landTrailer
  split
  · extract_lets u
    have hu : u.memWf = true := State.memWf_setTrailer h _ _ _ _ _
    clear_value u
    split
    · exact State.memWf_amendTile hu _ _ _
    · split
      · exact State.memWf_ite hu (State.memWf_amendTile hu _ _ _)
      · exact State.memWf_sealTile hu _ _ _
  · exact State.memWf_ite h (State.memWf_foldl _ (fun _ _ hs => State.memWf_amendTile hs _ _ _) _ h)

/-- A landing keeps the form where the memory it carries has it. -/
theorem State.memWf_landIn {s : State} (h : s.memWf = true) (d : BitVec 256) (loc : Nat) (shift : Int) (raw : Bool)
    {l : Landing} (hl : l.fill.all (fun p => p.2.wf) = true) : (s.landIn d loc shift raw l).memWf = true := by
  unfold State.landIn
  extract_lets w ls s1 s2 s3
  have h1 : s1.memWf = true := State.memWf_foldl _ (fun _ _ hs => State.memWf_setFrameCode hs _ _ _ _) _ h
  have h2 : s2.memWf = true := State.memWf_foldl _ (fun _ _ hs => State.memWf_setFrame hs _ _ _) _ h1
  have h3 : s3.memWf = true := by
    simp only [s3]
    split
    · rename_i n m he
      rw [he] at hl
      exact State.memWf_setFrameRange h2 _ _ (by simpa using hl)
    · exact h2
  clear_value s3
  exact State.memWf_ite h3 (State.memWf_landTrailer h3 _ _ _ _ _)

theorem State.memWf_pinUp {s : State} (h : s.memWf = true) (n : Nat) : (s.pinUp n).memWf = true := by
  unfold State.pinUp
  split
  · exact State.memWf_log h _
  · exact State.memWf_modTensor h _ _

theorem State.memWf_pinDown {s : State} (h : s.memWf = true) (n : Nat) : (s.pinDown n).memWf = true := by
  unfold State.pinDown
  split
  · exact State.memWf_log h _
  · exact State.memWf_modTensor h _ _

theorem State.memWf_remap {s : State} (h : s.memWf = true) (n key blk nb : Nat) : (s.remap n key blk nb).memWf = true := by
  unfold State.remap
  extract_lets hit kv all move
  simp only [State.memWf, Bool.and_eq_true] at h ⊢
  refine ⟨⟨⟨⟨⟨h.1.1.1.1.1, ?_⟩, ?_⟩, h.1.1.2⟩, ?_⟩, h.2⟩
  · rw [List.all_map]; exact h.1.1.1.1.2
  · rw [List.all_map]; exact h.1.1.1.2
  · rw [List.all_map, List.all_eq_true]
    intro f hf
    have := List.all_eq_true.mp h.1.2 f hf
    cases hw : f.write with
    | none => simp [Flight.memWf, hw]
    | some w =>
      simp only [Flight.memWf, hw, Option.all_some, Function.comp_apply, Option.map_some] at this ⊢
      simp only [move]
      split <;> exact this

theorem State.memWf_unshare {s t : State} (h : s.memWf = true) {n key blk b : Nat} {early : Bool}
    (he : s.unshare n key blk early = some (t, b)) : t.memWf = true := by
  unfold State.unshare at he
  extract_lets r n d nb at he
  split at he
  · cases he; exact h
  · obtain ⟨loc, -, hx⟩ := Option.map_eq_some_iff.mp he
    obtain ⟨rfl, -⟩ := Prod.mk.inj hx
    exact State.memWf_remap (State.memWf_modTensor (State.memWf_noteAlloc (State.memWf_copyFrames h _ _ _) _ _) _ _) _ _ _ _

theorem State.memWf_strideKept {s : State} (h : s.memWf = true) : s.strideKept.memWf = true := by
  unfold State.strideKept
  split
  · exact h
  · simp only [State.memWf, Bool.and_eq_true] at h ⊢
    refine ⟨⟨⟨h.1.1.1, ?_⟩, h.1.2⟩, h.2⟩
    rw [List.all_map]; exact h.1.1.2

/-- What leaves over the links changes no memory. -/
theorem State.transmit_eq (s : State) (rank : Nat) (r : Option Nat) (n : Nat) :
    ∃ (l : List (Nat × Link)) (c : Nat), s.transmit rank r n = { s with links := l, freeCtr := c } := by
  have go : ∀ (g : State → Nat → Nat) (f : State → Nat → Link → Link) (l : List Nat) (s : State),
      ∃ m, l.foldl (fun s j => s.modLink (g s j) (f s j)) s = { s with links := m } := by
    intro g f l
    induction l with
    | nil => exact fun s => ⟨s.links, rfl⟩
    | cons a l ih =>
      intro s
      obtain ⟨m, hm⟩ := ih (s.modLink (g s a) (f s a))
      exact ⟨m, hm.trans rfl⟩
  unfold State.transmit
  extract_lets lo up n mine
  obtain ⟨m, hm⟩ := go (fun _ j => up.getD j lo) (fun _ j l => { l with waiting := l.waiting ++ mine j })
    (List.range up.length) { s with freeCtr := s.freeCtr + flitPayload * n }
  exact ⟨m, _, hm⟩

theorem State.memWf_transmit {s : State} (h : s.memWf = true) (rank : Nat) (r : Option Nat) (n : Nat) :
    (s.transmit rank r n).memWf = true := by
  obtain ⟨l, c, he⟩ := s.transmit_eq rank r n
  rw [he]; exact State.memWf_congr h rfl rfl rfl rfl rfl rfl

theorem State.memWf_toPartner {s : State} (h : s.memWf = true) (k : Nat) (w : Landing) :
    (s.toPartner k w).1.memWf = true := by
  unfold State.toPartner
  extract_lets d
  split
  · exact State.memWf_transmit h _ _ _
  · exact h

/-- Counting a contribution changes no memory. -/
theorem State.memWf_contributed {s : State} (h : s.memWf = true) (g j b : Nat) : (s.contributed g j b).memWf = true := by
  unfold State.contributed
  extract_lets all
  simp only [State.memWf, Bool.and_eq_true] at h ⊢
  refine ⟨⟨⟨⟨⟨h.1.1.1.1.1, ?_⟩, ?_⟩, h.1.1.2⟩, h.1.2⟩, h.2⟩
  · rw [List.all_map]; exact h.1.1.1.1.2
  · rw [List.all_map]; exact h.1.1.1.2

theorem State.memWf_land {s t : State} (h : s.memWf = true) {l : Landing} (hl : l.fill.all (fun p => p.2.wf) = true)
    (he : s.land l = some t) : t.memWf = true := by
  unfold State.land at he
  extract_lets r i d v u at he
  have hv : v.memWf = true := State.memWf_landIn h _ _ _ _ hl
  have hu : u.memWf = true := State.memWf_ite (State.memWf_strideKept hv) hv
  clear_value u
  split at he
  · split at he
    · split at he
      · cases he; exact State.memWf_landIn h _ _ _ _ hl
      · cases he; exact h
    · split at he <;> cases he
      · exact State.memWf_congr hu rfl rfl rfl rfl rfl rfl
      · exact hu
  · obtain ⟨⟨u, b⟩, hx, rfl⟩ := Option.map_eq_some_iff.mp he
    exact State.memWf_landIn (l := { l with block := b }) (State.memWf_unshare h hx) _ _ _ _ hl
  · cases he; exact State.memWf_landIn h _ _ _ _ hl

theorem State.memWf_landContrib {s t : State} (h : s.memWf = true) {w : Landing}
    (hw : w.fill.all (fun p => p.2.wf) = true) (he : s.landContrib w = some t) : t.memWf = true := by
  unfold State.landContrib at he
  split at he
  · refine State.memWf_land (State.memWf_contributed h _ _ _) ?_ he
    split <;> exact hw
  · exact State.memWf_land h hw he

theorem State.memWf_arrives {s t : State} (h : s.memWf = true) {k : Nat} {w : Landing}
    (hw : w.fill.all (fun p => p.2.wf) = true) (he : s.arrives k w = some t) : t.memWf = true := by
  unfold State.arrives at he
  split at he
  · exact State.memWf_landContrib (State.memWf_modTensor h _ _) hw he
  · exact State.memWf_landContrib h hw he

/-- A write that leaves its column keeps the form, where the memory it carries has it. -/
theorem State.memWf_leave {s t : State} (h : s.memWf = true) {j dest k seq : Nat} {x : Strm} {w : Landing} {b : Bool}
    {owner : Option (Nat × Nat)} {again : Nat × Nat × Nat} (hw : w.fill.all (fun p => p.2.wf) = true)
    (he : s.leave j dest w k x seq owner again = some (t, b)) : t.memWf = true := by
  have app : ∀ (u : State) (l : List Flight), u.memWf = true → l.all Flight.memWf = true →
      ({ u with transit := u.transit ++ l } : State).memWf = true := by
    intro u l hu hl
    simp only [State.memWf, Bool.and_eq_true, List.all_append] at hu ⊢
    exact ⟨⟨hu.1.1, hu.1.2, hl⟩, hu.2⟩
  unfold State.leave at he
  extract_lets into p d far v s' send at he
  split at he
  · cases he
    exact app _ _ (State.memWf_toPartner h k w) (by simpa [Flight.memWf] using hw)
  have h' : s'.memWf = true := State.memWf_modColumn h _ fun _ hc => hc
  have hs : ∀ u : State, u.memWf = true → (send u).memWf = true := by
    intro u hu
    refine app u _ hu (List.all_eq_true.mpr fun f hf => ?_)
    obtain ⟨d, -, rfl⟩ := List.mem_map.mp hf
    by_cases hd : d = dest
    · simpa [Flight.memWf, hd] using hw
    · simp [Flight.memWf, hd]
  split at he
  · obtain ⟨u, hx, hy⟩ := Option.map_eq_some_iff.mp he
    cases hy
    exact hs _ (State.memWf_arrives h' hw hx)
  · cases he; exact hs _ h'

end Sys2Proof.Machine
end

