-- ==== Sys2Proof/Laws/PerInstr.lean ====
section
/-! SUPPORT. The family Fits: the word of every instruction has 32 bits (R75), and an instruction has no word exactly when
it is an event of the table. One lemma per constructor. -/
namespace Sys2Proof.Laws.Fits

/-- The word of the instruction lies below 2^32, and only an event has none. -/
def Statement (i : Instr) : Prop := (∀ n, encodeNat i = some n → n < 2 ^ 32) ∧ (encodeNat i = none ↔ i.isEvent = true)

theorem of_word {i : Instr} {n : Nat} (h : encodeNat i = some n) (hn : n < 2 ^ 32) (he : i.isEvent = false) :
    Statement i :=
  ⟨fun m hm => by rw [h] at hm; exact Option.some.inj hm ▸ hn, by rw [h, he]; simp⟩

theorem of_event {i : Instr} (h : encodeNat i = none) (he : i.isEvent = true) : Statement i :=
  ⟨fun m hm => by rw [h] at hm; exact absurd hm (by simp), by rw [h, he]; simp⟩

theorem add (rd : BitVec 5) (ra : BitVec 5) (rb : BitVec 5) : Statement (.add rd ra rb) := by
  refine of_word rfl ?_ rfl
  have := rd.isLt; have := ra.isLt; have := rb.isLt
  simp only [put]; omega
theorem sub (rd : BitVec 5) (ra : BitVec 5) (rb : BitVec 5) : Statement (.sub rd ra rb) := by
  refine of_word rfl ?_ rfl
  have := rd.isLt; have := ra.isLt; have := rb.isLt
  simp only [put]; omega
theorem and (rd : BitVec 5) (ra : BitVec 5) (rb : BitVec 5) : Statement (.and rd ra rb) := by
  refine of_word rfl ?_ rfl
  have := rd.isLt; have := ra.isLt; have := rb.isLt
  simp only [put]; omega
theorem or (rd : BitVec 5) (ra : BitVec 5) (rb : BitVec 5) : Statement (.or rd ra rb) := by
  refine of_word rfl ?_ rfl
  have := rd.isLt; have := ra.isLt; have := rb.isLt
  simp only [put]; omega
theorem xor (rd : BitVec 5) (ra : BitVec 5) (rb : BitVec 5) : Statement (.xor rd ra rb) := by
  refine of_word rfl ?_ rfl
  have := rd.isLt; have := ra.isLt; have := rb.isLt
  simp only [put]; omega
theorem sll (rd : BitVec 5) (ra : BitVec 5) (rb : BitVec 5) : Statement (.sll rd ra rb) := by
  refine of_word rfl ?_ rfl
  have := rd.isLt; have := ra.isLt; have := rb.isLt
  simp only [put]; omega
theorem srl (rd : BitVec 5) (ra : BitVec 5) (rb : BitVec 5) : Statement (.srl rd ra rb) := by
  refine of_word rfl ?_ rfl
  have := rd.isLt; have := ra.isLt; have := rb.isLt
  simp only [put]; omega
theorem sra (rd : BitVec 5) (ra : BitVec 5) (rb : BitVec 5) : Statement (.sra rd ra rb) := by
  refine of_word rfl ?_ rfl
  have := rd.isLt; have := ra.isLt; have := rb.isLt
  simp only [put]; omega
theorem min (rd : BitVec 5) (ra : BitVec 5) (rb : BitVec 5) : Statement (.min rd ra rb) := by
  refine of_word rfl ?_ rfl
  have := rd.isLt; have := ra.isLt; have := rb.isLt
  simp only [put]; omega
theorem max (rd : BitVec 5) (ra : BitVec 5) (rb : BitVec 5) : Statement (.max rd ra rb) := by
  refine of_word rfl ?_ rfl
  have := rd.isLt; have := ra.isLt; have := rb.isLt
  simp only [put]; omega
theorem minu (rd : BitVec 5) (ra : BitVec 5) (rb : BitVec 5) : Statement (.minu rd ra rb) := by
  refine of_word rfl ?_ rfl
  have := rd.isLt; have := ra.isLt; have := rb.isLt
  simp only [put]; omega
theorem maxu (rd : BitVec 5) (ra : BitVec 5) (rb : BitVec 5) : Statement (.maxu rd ra rb) := by
  refine of_word rfl ?_ rfl
  have := rd.isLt; have := ra.isLt; have := rb.isLt
  simp only [put]; omega
theorem slt (rd : BitVec 5) (ra : BitVec 5) (rb : BitVec 5) : Statement (.slt rd ra rb) := by
  refine of_word rfl ?_ rfl
  have := rd.isLt; have := ra.isLt; have := rb.isLt
  simp only [put]; omega
theorem sltu (rd : BitVec 5) (ra : BitVec 5) (rb : BitVec 5) : Statement (.sltu rd ra rb) := by
  refine of_word rfl ?_ rfl
  have := rd.isLt; have := ra.isLt; have := rb.isLt
  simp only [put]; omega
theorem seq (rd : BitVec 5) (ra : BitVec 5) (rb : BitVec 5) : Statement (.seq rd ra rb) := by
  refine of_word rfl ?_ rfl
  have := rd.isLt; have := ra.isLt; have := rb.isLt
  simp only [put]; omega
theorem mov (rd : BitVec 5) (ra : BitVec 5) : Statement (.mov rd ra) := by
  refine of_word rfl ?_ rfl
  have := rd.isLt; have := ra.isLt
  simp only [put]; omega
theorem clz (rd : BitVec 5) (ra : BitVec 5) : Statement (.clz rd ra) := by
  refine of_word rfl ?_ rfl
  have := rd.isLt; have := ra.isLt
  simp only [put]; omega
theorem ctz (rd : BitVec 5) (ra : BitVec 5) : Statement (.ctz rd ra) := by
  refine of_word rfl ?_ rfl
  have := rd.isLt; have := ra.isLt
  simp only [put]; omega
theorem popc (rd : BitVec 5) (ra : BitVec 5) : Statement (.popc rd ra) := by
  refine of_word rfl ?_ rfl
  have := rd.isLt; have := ra.isLt
  simp only [put]; omega
theorem mul (rd : BitVec 5) (ra : BitVec 5) (rb : BitVec 5) : Statement (.mul rd ra rb) := by
  refine of_word rfl ?_ rfl
  have := rd.isLt; have := ra.isLt; have := rb.isLt
  simp only [put]; omega
theorem mulh (rd : BitVec 5) (ra : BitVec 5) (rb : BitVec 5) : Statement (.mulh rd ra rb) := by
  refine of_word rfl ?_ rfl
  have := rd.isLt; have := ra.isLt; have := rb.isLt
  simp only [put]; omega
theorem mulhu (rd : BitVec 5) (ra : BitVec 5) (rb : BitVec 5) : Statement (.mulhu rd ra rb) := by
  refine of_word rfl ?_ rfl
  have := rd.isLt; have := ra.isLt; have := rb.isLt
  simp only [put]; omega
theorem div (rd : BitVec 5) (ra : BitVec 5) (rb : BitVec 5) : Statement (.div rd ra rb) := by
  refine of_word rfl ?_ rfl
  have := rd.isLt; have := ra.isLt; have := rb.isLt
  simp only [put]; omega
theorem divu (rd : BitVec 5) (ra : BitVec 5) (rb : BitVec 5) : Statement (.divu rd ra rb) := by
  refine of_word rfl ?_ rfl
  have := rd.isLt; have := ra.isLt; have := rb.isLt
  simp only [put]; omega
theorem rem (rd : BitVec 5) (ra : BitVec 5) (rb : BitVec 5) : Statement (.rem rd ra rb) := by
  refine of_word rfl ?_ rfl
  have := rd.isLt; have := ra.isLt; have := rb.isLt
  simp only [put]; omega
theorem remu (rd : BitVec 5) (ra : BitVec 5) (rb : BitVec 5) : Statement (.remu rd ra rb) := by
  refine of_word rfl ?_ rfl
  have := rd.isLt; have := ra.isLt; have := rb.isLt
  simp only [put]; omega
theorem mad (rd : BitVec 5) (ra : BitVec 5) (rb : BitVec 5) (rc : BitVec 5) : Statement (.mad rd ra rb rc) := by
  refine of_word rfl ?_ rfl
  have := rd.isLt; have := ra.isLt; have := rb.isLt; have := rc.isLt
  simp only [put]; omega
theorem sel (rd : BitVec 5) (ra : BitVec 5) (rb : BitVec 5) (rc : BitVec 5) : Statement (.sel rd ra rb rc) := by
  refine of_word rfl ?_ rfl
  have := rd.isLt; have := ra.isLt; have := rb.isLt; have := rc.isLt
  simp only [put]; omega
theorem clamp (rd : BitVec 5) (ra : BitVec 5) (rb : BitVec 5) (rc : BitVec 5) : Statement (.clamp rd ra rb rc) := by
  refine of_word rfl ?_ rfl
  have := rd.isLt; have := ra.isLt; have := rb.isLt; have := rc.isLt
  simp only [put]; omega
theorem addi (rd : BitVec 5) (ra : BitVec 5) (imm : BitVec 16) : Statement (.addi rd ra imm) := by
  refine of_word rfl ?_ rfl
  have := rd.isLt; have := ra.isLt; have := imm.isLt
  simp only [put]; omega
theorem andi (rd : BitVec 5) (ra : BitVec 5) (imm : BitVec 16) : Statement (.andi rd ra imm) := by
  refine of_word rfl ?_ rfl
  have := rd.isLt; have := ra.isLt; have := imm.isLt
  simp only [put]; omega
theorem ori (rd : BitVec 5) (ra : BitVec 5) (imm : BitVec 16) : Statement (.ori rd ra imm) := by
  refine of_word rfl ?_ rfl
  have := rd.isLt; have := ra.isLt; have := imm.isLt
  simp only [put]; omega
theorem xori (rd : BitVec 5) (ra : BitVec 5) (imm : BitVec 16) : Statement (.xori rd ra imm) := by
  refine of_word rfl ?_ rfl
  have := rd.isLt; have := ra.isLt; have := imm.isLt
  simp only [put]; omega
theorem slti (rd : BitVec 5) (ra : BitVec 5) (imm : BitVec 16) : Statement (.slti rd ra imm) := by
  refine of_word rfl ?_ rfl
  have := rd.isLt; have := ra.isLt; have := imm.isLt
  simp only [put]; omega
theorem slli (rd : BitVec 5) (ra : BitVec 5) (pos : BitVec 6) : Statement (.slli rd ra pos) := by
  refine of_word rfl ?_ rfl
  have := rd.isLt; have := ra.isLt; have := pos.isLt
  simp only [put]; omega
theorem srli (rd : BitVec 5) (ra : BitVec 5) (pos : BitVec 6) : Statement (.srli rd ra pos) := by
  refine of_word rfl ?_ rfl
  have := rd.isLt; have := ra.isLt; have := pos.isLt
  simp only [put]; omega
theorem srai (rd : BitVec 5) (ra : BitVec 5) (pos : BitVec 6) : Statement (.srai rd ra pos) := by
  refine of_word rfl ?_ rfl
  have := rd.isLt; have := ra.isLt; have := pos.isLt
  simp only [put]; omega
theorem bfx (rd : BitVec 5) (ra : BitVec 5) (pos : BitVec 6) (wm1 : BitVec 6) : Statement (.bfx rd ra pos wm1) := by
  refine of_word rfl ?_ rfl
  have := rd.isLt; have := ra.isLt; have := pos.isLt; have := wm1.isLt
  simp only [put]; omega
theorem bfi (rd : BitVec 5) (ra : BitVec 5) (pos : BitVec 6) (wm1 : BitVec 6) : Statement (.bfi rd ra pos wm1) := by
  refine of_word rfl ?_ rfl
  have := rd.isLt; have := ra.isLt; have := pos.isLt; have := wm1.isLt
  simp only [put]; omega
theorem li (rd : BitVec 5) (imm : BitVec 21) : Statement (.li rd imm) := by
  refine of_word rfl ?_ rfl
  have := rd.isLt; have := imm.isLt
  simp only [put]; omega
theorem lui (rd : BitVec 5) (h : BitVec 2) (imm : BitVec 16) : Statement (.lui rd h imm) := by
  refine of_word rfl ?_ rfl
  have := rd.isLt; have := h.isLt; have := imm.isLt
  simp only [put]; omega
theorem fadd (rd : BitVec 5) (ra : BitVec 5) (rb : BitVec 5) (rm : BitVec 3) : Statement (.fadd rd ra rb rm) := by
  refine of_word rfl ?_ rfl
  have := rd.isLt; have := ra.isLt; have := rb.isLt; have := rm.isLt
  simp only [put]; omega
theorem fsub (rd : BitVec 5) (ra : BitVec 5) (rb : BitVec 5) (rm : BitVec 3) : Statement (.fsub rd ra rb rm) := by
  refine of_word rfl ?_ rfl
  have := rd.isLt; have := ra.isLt; have := rb.isLt; have := rm.isLt
  simp only [put]; omega
theorem fmul (rd : BitVec 5) (ra : BitVec 5) (rb : BitVec 5) (rm : BitVec 3) : Statement (.fmul rd ra rb rm) := by
  refine of_word rfl ?_ rfl
  have := rd.isLt; have := ra.isLt; have := rb.isLt; have := rm.isLt
  simp only [put]; omega
theorem ffma (rd : BitVec 5) (ra : BitVec 5) (rb : BitVec 5) (rc : BitVec 5) (rm : BitVec 3) : Statement (.ffma rd ra rb rc rm) := by
  refine of_word rfl ?_ rfl
  have := rd.isLt; have := ra.isLt; have := rb.isLt; have := rc.isLt; have := rm.isLt
  simp only [put]; omega
theorem fmin (rd : BitVec 5) (ra : BitVec 5) (rb : BitVec 5) : Statement (.fmin rd ra rb) := by
  refine of_word rfl ?_ rfl
  have := rd.isLt; have := ra.isLt; have := rb.isLt
  simp only [put]; omega
theorem fmax (rd : BitVec 5) (ra : BitVec 5) (rb : BitVec 5) : Statement (.fmax rd ra rb) := by
  refine of_word rfl ?_ rfl
  have := rd.isLt; have := ra.isLt; have := rb.isLt
  simp only [put]; omega
theorem frcp (rd : BitVec 5) (ra : BitVec 5) (rm : BitVec 3) : Statement (.frcp rd ra rm) := by
  refine of_word rfl ?_ rfl
  have := rd.isLt; have := ra.isLt; have := rm.isLt
  simp only [put]; omega
theorem fcmp (rd : BitVec 5) (ra : BitVec 5) (rb : BitVec 5) (cond : BitVec 3) : Statement (.fcmp rd ra rb cond) := by
  refine of_word rfl ?_ rfl
  have := rd.isLt; have := ra.isLt; have := rb.isLt; have := cond.isLt
  simp only [put]; omega
theorem fcvt (rd : BitVec 5) (ra : BitVec 5) (dst : BitVec 6) (src : BitVec 6) (rm : BitVec 3) (sat : BitVec 1) : Statement (.fcvt rd ra dst src rm sat) := by
  refine of_word rfl ?_ rfl
  have := rd.isLt; have := ra.isLt; have := dst.isLt; have := src.isLt; have := rm.isLt; have := sat.isLt
  simp only [put]; omega
theorem br (cond : BitVec 3) (ra : BitVec 5) (rb : BitVec 5) (off : BitVec 9) (slot : BitVec 4) : Statement (.br cond ra rb off slot) := by
  refine of_word rfl ?_ rfl
  have := cond.isLt; have := ra.isLt; have := rb.isLt; have := off.isLt; have := slot.isLt
  simp only [put]; omega
theorem jmp (off : BitVec 22) (slot : BitVec 4) : Statement (.jmp off slot) := by
  refine of_word rfl ?_ rfl
  have := off.isLt; have := slot.isLt
  simp only [put]; omega
theorem call (off : BitVec 22) (slot : BitVec 4) : Statement (.call off slot) := by
  refine of_word rfl ?_ rfl
  have := off.isLt; have := slot.isLt
  simp only [put]; omega
theorem jmpr (ra : BitVec 5) : Statement (.jmpr ra) := by
  refine of_word rfl ?_ rfl
  have := ra.isLt
  simp only [put]; omega
theorem ret : Statement (.ret) := by
  refine of_word rfl ?_ rfl
  norm_num
theorem loop (lc : BitVec 2) (ra : BitVec 5) (off : BitVec 9) (slot : BitVec 4) : Statement (.loop lc ra off slot) := by
  refine of_word rfl ?_ rfl
  have := lc.isLt; have := ra.isLt; have := off.isLt; have := slot.isLt
  simp only [put]; omega
theorem brq (p : BitVec 1) (off : BitVec 9) (slot : BitVec 4) : Statement (.brq p off slot) := by
  refine of_word rfl ?_ rfl
  have := p.isLt; have := off.isLt; have := slot.isLt
  simp only [put]; omega
theorem rdv : Statement (.rdv) := by
  refine of_word rfl ?_ rfl
  norm_num
theorem nop : Statement (.nop) := by
  refine of_word rfl ?_ rfl
  norm_num
theorem wfe : Statement (.wfe) := by
  refine of_word rfl ?_ rfl
  norm_num
theorem sev : Statement (.sev) := by
  refine of_word rfl ?_ rfl
  norm_num
theorem trap (code : BitVec 16) : Statement (.trap code) := by
  refine of_word rfl ?_ rfl
  have := code.isLt
  simp only [put]; omega
theorem eret : Statement (.eret) := by
  refine of_word rfl ?_ rfl
  norm_num
theorem ld (rd : BitVec 5) (ra : BitVec 5) (size : BitVec 2) (order : BitVec 1) (imm : BitVec 12) : Statement (.ld rd ra size order imm) := by
  refine of_word rfl ?_ rfl
  have := rd.isLt; have := ra.isLt; have := size.isLt; have := order.isLt; have := imm.isLt
  simp only [put]; omega
theorem st (rs : BitVec 5) (ra : BitVec 5) (size : BitVec 2) (order : BitVec 1) (imm : BitVec 12) : Statement (.st rs ra size order imm) := by
  refine of_word rfl ?_ rfl
  have := rs.isLt; have := ra.isLt; have := size.isLt; have := order.isLt; have := imm.isLt
  simp only [put]; omega
theorem amoAdd (rd : BitVec 5) (ra : BitVec 5) (rb : BitVec 5) (w : BitVec 1) : Statement (.amoAdd rd ra rb w) := by
  refine of_word rfl ?_ rfl
  have := rd.isLt; have := ra.isLt; have := rb.isLt; have := w.isLt
  simp only [put]; omega
theorem amoMin (rd : BitVec 5) (ra : BitVec 5) (rb : BitVec 5) (w : BitVec 1) : Statement (.amoMin rd ra rb w) := by
  refine of_word rfl ?_ rfl
  have := rd.isLt; have := ra.isLt; have := rb.isLt; have := w.isLt
  simp only [put]; omega
theorem amoMax (rd : BitVec 5) (ra : BitVec 5) (rb : BitVec 5) (w : BitVec 1) : Statement (.amoMax rd ra rb w) := by
  refine of_word rfl ?_ rfl
  have := rd.isLt; have := ra.isLt; have := rb.isLt; have := w.isLt
  simp only [put]; omega
theorem amoAnd (rd : BitVec 5) (ra : BitVec 5) (rb : BitVec 5) (w : BitVec 1) : Statement (.amoAnd rd ra rb w) := by
  refine of_word rfl ?_ rfl
  have := rd.isLt; have := ra.isLt; have := rb.isLt; have := w.isLt
  simp only [put]; omega
theorem amoOr (rd : BitVec 5) (ra : BitVec 5) (rb : BitVec 5) (w : BitVec 1) : Statement (.amoOr rd ra rb w) := by
  refine of_word rfl ?_ rfl
  have := rd.isLt; have := ra.isLt; have := rb.isLt; have := w.isLt
  simp only [put]; omega
theorem amoXor (rd : BitVec 5) (ra : BitVec 5) (rb : BitVec 5) (w : BitVec 1) : Statement (.amoXor rd ra rb w) := by
  refine of_word rfl ?_ rfl
  have := rd.isLt; have := ra.isLt; have := rb.isLt; have := w.isLt
  simp only [put]; omega
theorem amoSwap (rd : BitVec 5) (ra : BitVec 5) (rb : BitVec 5) (w : BitVec 1) : Statement (.amoSwap rd ra rb w) := by
  refine of_word rfl ?_ rfl
  have := rd.isLt; have := ra.isLt; have := rb.isLt; have := w.isLt
  simp only [put]; omega
theorem cas (rd : BitVec 5) (ra : BitVec 5) (rb : BitVec 5) (rc : BitVec 5) (w : BitVec 1) : Statement (.cas rd ra rb rc w) := by
  refine of_word rfl ?_ rfl
  have := rd.isLt; have := ra.isLt; have := rb.isLt; have := rc.isLt; have := w.isLt
  simp only [put]; omega
theorem fence (scope : BitVec 3) : Statement (.fence scope) := by
  refine of_word rfl ?_ rfl
  have := scope.isLt
  simp only [put]; omega
theorem spal (rd : BitVec 5) (ra : BitVec 5) : Statement (.spal rd ra) := by
  refine of_word rfl ?_ rfl
  have := rd.isLt; have := ra.isLt
  simp only [put]; omega
theorem spfree (ra : BitVec 5) : Statement (.spfree ra) := by
  refine of_word rfl ?_ rfl
  have := ra.isLt
  simp only [put]; omega
theorem lds (rd : BitVec 5) (ra : BitVec 5) (size : BitVec 2) (imm : BitVec 12) : Statement (.lds rd ra size imm) := by
  refine of_word rfl ?_ rfl
  have := rd.isLt; have := ra.isLt; have := size.isLt; have := imm.isLt
  simp only [put]; omega
theorem sts (rs : BitVec 5) (ra : BitVec 5) (size : BitVec 2) (imm : BitVec 12) : Statement (.sts rs ra size imm) := by
  refine of_word rfl ?_ rfl
  have := rs.isLt; have := ra.isLt; have := size.isLt; have := imm.isLt
  simp only [put]; omega
theorem amosAdd (rd : BitVec 5) (ra : BitVec 5) (rb : BitVec 5) (w : BitVec 1) : Statement (.amosAdd rd ra rb w) := by
  refine of_word rfl ?_ rfl
  have := rd.isLt; have := ra.isLt; have := rb.isLt; have := w.isLt
  simp only [put]; omega
theorem amosMin (rd : BitVec 5) (ra : BitVec 5) (rb : BitVec 5) (w : BitVec 1) : Statement (.amosMin rd ra rb w) := by
  refine of_word rfl ?_ rfl
  have := rd.isLt; have := ra.isLt; have := rb.isLt; have := w.isLt
  simp only [put]; omega
theorem amosMax (rd : BitVec 5) (ra : BitVec 5) (rb : BitVec 5) (w : BitVec 1) : Statement (.amosMax rd ra rb w) := by
  refine of_word rfl ?_ rfl
  have := rd.isLt; have := ra.isLt; have := rb.isLt; have := w.isLt
  simp only [put]; omega
theorem amosAnd (rd : BitVec 5) (ra : BitVec 5) (rb : BitVec 5) (w : BitVec 1) : Statement (.amosAnd rd ra rb w) := by
  refine of_word rfl ?_ rfl
  have := rd.isLt; have := ra.isLt; have := rb.isLt; have := w.isLt
  simp only [put]; omega
theorem amosOr (rd : BitVec 5) (ra : BitVec 5) (rb : BitVec 5) (w : BitVec 1) : Statement (.amosOr rd ra rb w) := by
  refine of_word rfl ?_ rfl
  have := rd.isLt; have := ra.isLt; have := rb.isLt; have := w.isLt
  simp only [put]; omega
theorem amosXor (rd : BitVec 5) (ra : BitVec 5) (rb : BitVec 5) (w : BitVec 1) : Statement (.amosXor rd ra rb w) := by
  refine of_word rfl ?_ rfl
  have := rd.isLt; have := ra.isLt; have := rb.isLt; have := w.isLt
  simp only [put]; omega
theorem amosSwap (rd : BitVec 5) (ra : BitVec 5) (rb : BitVec 5) (w : BitVec 1) : Statement (.amosSwap rd ra rb w) := by
  refine of_word rfl ?_ rfl
  have := rd.isLt; have := ra.isLt; have := rb.isLt; have := w.isLt
  simp only [put]; omega
theorem cass (rd : BitVec 5) (ra : BitVec 5) (rb : BitVec 5) (rc : BitVec 5) (w : BitVec 1) : Statement (.cass rd ra rb rc w) := by
  refine of_word rfl ?_ rfl
  have := rd.isLt; have := ra.isLt; have := rb.isLt; have := rc.isLt; have := w.isLt
  simp only [put]; omega
theorem sbcast (rd : BitVec 5) (ra : BitVec 5) (rb : BitVec 5) (rc : BitVec 5) : Statement (.sbcast rd ra rb rc) := by
  refine of_word rfl ?_ rfl
  have := rd.isLt; have := ra.isLt; have := rb.isLt; have := rc.isLt
  simp only [put]; omega
theorem swatch (ra : BitVec 5) (rb : BitVec 5) : Statement (.swatch ra rb) := by
  refine of_word rfl ?_ rfl
  have := ra.isLt; have := rb.isLt
  simp only [put]; omega
theorem slotq (rd : BitVec 5) (ra : BitVec 5) : Statement (.slotq rd ra) := by
  refine of_word rfl ?_ rfl
  have := rd.isLt; have := ra.isLt
  simp only [put]; omega
theorem vadd (vd : BitVec 6) (va : BitVec 6) (vb : BitVec 6) (mk : BitVec 3) : Statement (.vadd vd va vb mk) := by
  refine of_word rfl ?_ rfl
  have := vd.isLt; have := va.isLt; have := vb.isLt; have := mk.isLt
  simp only [put]; omega
theorem vsub (vd : BitVec 6) (va : BitVec 6) (vb : BitVec 6) (mk : BitVec 3) : Statement (.vsub vd va vb mk) := by
  refine of_word rfl ?_ rfl
  have := vd.isLt; have := va.isLt; have := vb.isLt; have := mk.isLt
  simp only [put]; omega
theorem vmul (vd : BitVec 6) (va : BitVec 6) (vb : BitVec 6) (mk : BitVec 3) : Statement (.vmul vd va vb mk) := by
  refine of_word rfl ?_ rfl
  have := vd.isLt; have := va.isLt; have := vb.isLt; have := mk.isLt
  simp only [put]; omega
theorem vmin (vd : BitVec 6) (va : BitVec 6) (vb : BitVec 6) (mk : BitVec 3) : Statement (.vmin vd va vb mk) := by
  refine of_word rfl ?_ rfl
  have := vd.isLt; have := va.isLt; have := vb.isLt; have := mk.isLt
  simp only [put]; omega
theorem vmax (vd : BitVec 6) (va : BitVec 6) (vb : BitVec 6) (mk : BitVec 3) : Statement (.vmax vd va vb mk) := by
  refine of_word rfl ?_ rfl
  have := vd.isLt; have := va.isLt; have := vb.isLt; have := mk.isLt
  simp only [put]; omega
theorem vabs (vd : BitVec 6) (va : BitVec 6) (mk : BitVec 3) : Statement (.vabs vd va mk) := by
  refine of_word rfl ?_ rfl
  have := vd.isLt; have := va.isLt; have := mk.isLt
  simp only [put]; omega
theorem vneg (vd : BitVec 6) (va : BitVec 6) (mk : BitVec 3) : Statement (.vneg vd va mk) := by
  refine of_word rfl ?_ rfl
  have := vd.isLt; have := va.isLt; have := mk.isLt
  simp only [put]; omega
theorem vfma (vd : BitVec 6) (va : BitVec 6) (vb : BitVec 6) (vc : BitVec 6) (ty : BitVec 2) : Statement (.vfma vd va vb vc ty) := by
  refine of_word rfl ?_ rfl
  have := vd.isLt; have := va.isLt; have := vb.isLt; have := vc.isLt; have := ty.isLt
  simp only [put]; omega
theorem vaddPacked (vd : BitVec 6) (va : BitVec 6) (vb : BitVec 6) (mk : BitVec 3) (ty : BitVec 1) : Statement (.vaddPacked vd va vb mk ty) := by
  refine of_word rfl ?_ rfl
  have := vd.isLt; have := va.isLt; have := vb.isLt; have := mk.isLt; have := ty.isLt
  simp only [put]; omega
theorem vsubPacked (vd : BitVec 6) (va : BitVec 6) (vb : BitVec 6) (mk : BitVec 3) (ty : BitVec 1) : Statement (.vsubPacked vd va vb mk ty) := by
  refine of_word rfl ?_ rfl
  have := vd.isLt; have := va.isLt; have := vb.isLt; have := mk.isLt; have := ty.isLt
  simp only [put]; omega
theorem vmulPacked (vd : BitVec 6) (va : BitVec 6) (vb : BitVec 6) (mk : BitVec 3) (ty : BitVec 1) : Statement (.vmulPacked vd va vb mk ty) := by
  refine of_word rfl ?_ rfl
  have := vd.isLt; have := va.isLt; have := vb.isLt; have := mk.isLt; have := ty.isLt
  simp only [put]; omega
theorem vminPacked (vd : BitVec 6) (va : BitVec 6) (vb : BitVec 6) (mk : BitVec 3) (ty : BitVec 1) : Statement (.vminPacked vd va vb mk ty) := by
  refine of_word rfl ?_ rfl
  have := vd.isLt; have := va.isLt; have := vb.isLt; have := mk.isLt; have := ty.isLt
  simp only [put]; omega
theorem vmaxPacked (vd : BitVec 6) (va : BitVec 6) (vb : BitVec 6) (mk : BitVec 3) (ty : BitVec 1) : Statement (.vmaxPacked vd va vb mk ty) := by
  refine of_word rfl ?_ rfl
  have := vd.isLt; have := va.isLt; have := vb.isLt; have := mk.isLt; have := ty.isLt
  simp only [put]; omega
theorem vabsPacked (vd : BitVec 6) (va : BitVec 6) (mk : BitVec 3) (ty : BitVec 1) : Statement (.vabsPacked vd va mk ty) := by
  refine of_word rfl ?_ rfl
  have := vd.isLt; have := va.isLt; have := mk.isLt; have := ty.isLt
  simp only [put]; omega
theorem vnegPacked (vd : BitVec 6) (va : BitVec 6) (mk : BitVec 3) (ty : BitVec 1) : Statement (.vnegPacked vd va mk ty) := by
  refine of_word rfl ?_ rfl
  have := vd.isLt; have := va.isLt; have := mk.isLt; have := ty.isLt
  simp only [put]; omega
theorem vexp2 (vd : BitVec 6) (va : BitVec 6) (mk : BitVec 3) : Statement (.vexp2 vd va mk) := by
  refine of_word rfl ?_ rfl
  have := vd.isLt; have := va.isLt; have := mk.isLt
  simp only [put]; omega
theorem vlog2 (vd : BitVec 6) (va : BitVec 6) (mk : BitVec 3) : Statement (.vlog2 vd va mk) := by
  refine of_word rfl ?_ rfl
  have := vd.isLt; have := va.isLt; have := mk.isLt
  simp only [put]; omega
theorem vrcp (vd : BitVec 6) (va : BitVec 6) (mk : BitVec 3) : Statement (.vrcp vd va mk) := by
  refine of_word rfl ?_ rfl
  have := vd.isLt; have := va.isLt; have := mk.isLt
  simp only [put]; omega
theorem vrsq (vd : BitVec 6) (va : BitVec 6) (mk : BitVec 3) : Statement (.vrsq vd va mk) := by
  refine of_word rfl ?_ rfl
  have := vd.isLt; have := va.isLt; have := mk.isLt
  simp only [put]; omega
theorem vtanh (vd : BitVec 6) (va : BitVec 6) (mk : BitVec 3) : Statement (.vtanh vd va mk) := by
  refine of_word rfl ?_ rfl
  have := vd.isLt; have := va.isLt; have := mk.isLt
  simp only [put]; omega
theorem vsigm (vd : BitVec 6) (va : BitVec 6) (mk : BitVec 3) : Statement (.vsigm vd va mk) := by
  refine of_word rfl ?_ rfl
  have := vd.isLt; have := va.isLt; have := mk.isLt
  simp only [put]; omega
theorem vcmp (md : BitVec 3) (va : BitVec 6) (vb : BitVec 6) (mk : BitVec 3) (cond : BitVec 3) (ty : BitVec 2) : Statement (.vcmp md va vb mk cond ty) := by
  refine of_word rfl ?_ rfl
  have := md.isLt; have := va.isLt; have := vb.isLt; have := mk.isLt; have := cond.isLt; have := ty.isLt
  simp only [put]; omega
theorem vsel (vd : BitVec 6) (va : BitVec 6) (vb : BitVec 6) (sel : BitVec 3) : Statement (.vsel vd va vb sel) := by
  refine of_word rfl ?_ rfl
  have := vd.isLt; have := va.isLt; have := vb.isLt; have := sel.isLt
  simp only [put]; omega
theorem vand (vd : BitVec 6) (va : BitVec 6) (vb : BitVec 6) (mk : BitVec 3) : Statement (.vand vd va vb mk) := by
  refine of_word rfl ?_ rfl
  have := vd.isLt; have := va.isLt; have := vb.isLt; have := mk.isLt
  simp only [put]; omega
theorem vor (vd : BitVec 6) (va : BitVec 6) (vb : BitVec 6) (mk : BitVec 3) : Statement (.vor vd va vb mk) := by
  refine of_word rfl ?_ rfl
  have := vd.isLt; have := va.isLt; have := vb.isLt; have := mk.isLt
  simp only [put]; omega
theorem vxor (vd : BitVec 6) (va : BitVec 6) (vb : BitVec 6) (mk : BitVec 3) : Statement (.vxor vd va vb mk) := by
  refine of_word rfl ?_ rfl
  have := vd.isLt; have := va.isLt; have := vb.isLt; have := mk.isLt
  simp only [put]; omega
theorem vshl (vd : BitVec 6) (va : BitVec 6) (vb : BitVec 6) (mk : BitVec 3) : Statement (.vshl vd va vb mk) := by
  refine of_word rfl ?_ rfl
  have := vd.isLt; have := va.isLt; have := vb.isLt; have := mk.isLt
  simp only [put]; omega
theorem vshr (vd : BitVec 6) (va : BitVec 6) (vb : BitVec 6) (mk : BitVec 3) : Statement (.vshr vd va vb mk) := by
  refine of_word rfl ?_ rfl
  have := vd.isLt; have := va.isLt; have := vb.isLt; have := mk.isLt
  simp only [put]; omega
theorem vsra (vd : BitVec 6) (va : BitVec 6) (vb : BitVec 6) (mk : BitVec 3) : Statement (.vsra vd va vb mk) := by
  refine of_word rfl ?_ rfl
  have := vd.isLt; have := va.isLt; have := vb.isLt; have := mk.isLt
  simp only [put]; omega
theorem viadd (vd : BitVec 6) (va : BitVec 6) (vb : BitVec 6) (mk : BitVec 3) : Statement (.viadd vd va vb mk) := by
  refine of_word rfl ?_ rfl
  have := vd.isLt; have := va.isLt; have := vb.isLt; have := mk.isLt
  simp only [put]; omega
theorem visub (vd : BitVec 6) (va : BitVec 6) (vb : BitVec 6) (mk : BitVec 3) : Statement (.visub vd va vb mk) := by
  refine of_word rfl ?_ rfl
  have := vd.isLt; have := va.isLt; have := vb.isLt; have := mk.isLt
  simp only [put]; omega
theorem vimul (vd : BitVec 6) (va : BitVec 6) (vb : BitVec 6) (mk : BitVec 3) : Statement (.vimul vd va vb mk) := by
  refine of_word rfl ?_ rfl
  have := vd.isLt; have := va.isLt; have := vb.isLt; have := mk.isLt
  simp only [put]; omega
theorem vcvt (vd : BitVec 6) (va : BitVec 6) (fmt : BitVec 6) (dir : BitVec 1) (rm : BitVec 3) (sat : BitVec 1) (part : BitVec 3) : Statement (.vcvt vd va fmt dir rm sat part) := by
  refine of_word rfl ?_ rfl
  have := vd.isLt; have := va.isLt; have := fmt.isLt; have := dir.isLt; have := rm.isLt; have := sat.isLt; have := part.isLt
  simp only [put]; omega
theorem vquant (vd : BitVec 6) (va : BitVec 6) (vs : BitVec 6) (fmt : BitVec 6) : Statement (.vquant vd va vs fmt) := by
  refine of_word rfl ?_ rfl
  have := vd.isLt; have := va.isLt; have := vs.isLt; have := fmt.isLt
  simp only [put]; omega
theorem vdeq (vd : BitVec 6) (va : BitVec 6) (vs : BitVec 6) (fmt : BitVec 6) : Statement (.vdeq vd va vs fmt) := by
  refine of_word rfl ?_ rfl
  have := vd.isLt; have := va.isLt; have := vs.isLt; have := fmt.isLt
  simp only [put]; omega
theorem vhad (vd : BitVec 6) (va : BitVec 6) (mn : BitVec 3) (norm : BitVec 1) (sign : BitVec 1) : Statement (.vhad vd va mn norm sign) := by
  refine of_word rfl ?_ rfl
  have := vd.isLt; have := va.isLt; have := mn.isLt; have := norm.isLt; have := sign.isLt
  simp only [put]; omega
theorem vperm (vd : BitVec 6) (va : BitVec 6) (vb : BitVec 6) (mk : BitVec 3) : Statement (.vperm vd va vb mk) := by
  refine of_word rfl ?_ rfl
  have := vd.isLt; have := va.isLt; have := vb.isLt; have := mk.isLt
  simp only [put]; omega
theorem vrot (vd : BitVec 6) (va : BitVec 6) (imm : BitVec 6) (mk : BitVec 3) : Statement (.vrot vd va imm mk) := by
  refine of_word rfl ?_ rfl
  have := vd.isLt; have := va.isLt; have := imm.isLt; have := mk.isLt
  simp only [put]; omega
theorem vbcast (vd : BitVec 6) (ra : BitVec 5) (mk : BitVec 3) : Statement (.vbcast vd ra mk) := by
  refine of_word rfl ?_ rfl
  have := vd.isLt; have := ra.isLt; have := mk.isLt
  simp only [put]; omega
theorem vreds (vd : BitVec 6) (va : BitVec 6) (mk : BitVec 3) (ty : BitVec 2) : Statement (.vreds vd va mk ty) := by
  refine of_word rfl ?_ rfl
  have := vd.isLt; have := va.isLt; have := mk.isLt; have := ty.isLt
  simp only [put]; omega
theorem vredx (vd : BitVec 6) (va : BitVec 6) (mk : BitVec 3) (ty : BitVec 2) : Statement (.vredx vd va mk ty) := by
  refine of_word rfl ?_ rfl
  have := vd.isLt; have := va.isLt; have := mk.isLt; have := ty.isLt
  simp only [put]; omega
theorem vscan (vd : BitVec 6) (va : BitVec 6) (mk : BitVec 3) (ty : BitVec 2) : Statement (.vscan vd va mk ty) := by
  refine of_word rfl ?_ rfl
  have := vd.isLt; have := va.isLt; have := mk.isLt; have := ty.isLt
  simp only [put]; omega
theorem vld (vd : BitVec 6) (ra : BitVec 5) (imm : BitVec 7) : Statement (.vld vd ra imm) := by
  refine of_word rfl ?_ rfl
  have := vd.isLt; have := ra.isLt; have := imm.isLt
  simp only [put]; omega
theorem vst (vd : BitVec 6) (ra : BitVec 5) (imm : BitVec 7) : Statement (.vst vd ra imm) := by
  refine of_word rfl ?_ rfl
  have := vd.isLt; have := ra.isLt; have := imm.isLt
  simp only [put]; omega
theorem vgth (vd : BitVec 6) (ra : BitVec 5) (vi : BitVec 6) (imm : BitVec 7) : Statement (.vgth vd ra vi imm) := by
  refine of_word rfl ?_ rfl
  have := vd.isLt; have := ra.isLt; have := vi.isLt; have := imm.isLt
  simp only [put]; omega
theorem vsct (vd : BitVec 6) (ra : BitVec 5) (vi : BitVec 6) (imm : BitVec 7) : Statement (.vsct vd ra vi imm) := by
  refine of_word rfl ?_ rfl
  have := vd.isLt; have := ra.isLt; have := vi.isLt; have := imm.isLt
  simp only [put]; omega
theorem vins (vd : BitVec 6) (ra : BitVec 5) (lane : BitVec 6) : Statement (.vins vd ra lane) := by
  refine of_word rfl ?_ rfl
  have := vd.isLt; have := ra.isLt; have := lane.isLt
  simp only [put]; omega
theorem vext (rd : BitVec 5) (va : BitVec 6) (lane : BitVec 6) : Statement (.vext rd va lane) := by
  refine of_word rfl ?_ rfl
  have := rd.isLt; have := va.isLt; have := lane.isLt
  simp only [put]; omega
theorem vwin (acc : BitVec 3) : Statement (.vwin acc) := by
  refine of_word rfl ?_ rfl
  have := acc.isLt
  simp only [put]; omega
theorem vpack (vd : BitVec 6) (va : BitVec 6) (vb : BitVec 6) (mk : BitVec 3) : Statement (.vpack vd va vb mk) := by
  refine of_word rfl ?_ rfl
  have := vd.isLt; have := va.isLt; have := vb.isLt; have := mk.isLt
  simp only [put]; omega
theorem vunpk (vd : BitVec 6) (va : BitVec 6) (mk : BitVec 3) : Statement (.vunpk vd va mk) := by
  refine of_word rfl ?_ rfl
  have := vd.isLt; have := va.isLt; have := mk.isLt
  simp only [put]; omega
theorem mand (md : BitVec 3) (ma : BitVec 3) (mb : BitVec 3) : Statement (.mand md ma mb) := by
  refine of_word rfl ?_ rfl
  have := md.isLt; have := ma.isLt; have := mb.isLt
  simp only [put]; omega
theorem mor (md : BitVec 3) (ma : BitVec 3) (mb : BitVec 3) : Statement (.mor md ma mb) := by
  refine of_word rfl ?_ rfl
  have := md.isLt; have := ma.isLt; have := mb.isLt
  simp only [put]; omega
theorem mnot (md : BitVec 3) (ma : BitVec 3) : Statement (.mnot md ma) := by
  refine of_word rfl ?_ rfl
  have := md.isLt; have := ma.isLt
  simp only [put]; omega
theorem mpop (ma : BitVec 3) (rs : BitVec 5) : Statement (.mpop ma rs) := by
  refine of_word rfl ?_ rfl
  have := ma.isLt; have := rs.isLt
  simp only [put]; omega
theorem vsortk (vd : BitVec 6) (va : BitVec 6) (vb : BitVec 6) (mk : BitVec 3) : Statement (.vsortk vd va vb mk) := by
  refine of_word rfl ?_ rfl
  have := vd.isLt; have := va.isLt; have := vb.isLt; have := mk.isLt
  simp only [put]; omega
theorem vrng (vd : BitVec 6) (mk : BitVec 3) : Statement (.vrng vd mk) := by
  refine of_word rfl ?_ rfl
  have := vd.isLt; have := mk.isLt
  simp only [put]; omega
theorem tshape (tile : BitVec 3) (ra : BitVec 5) : Statement (.tshape tile ra) := by
  refine of_word rfl ?_ rfl
  have := tile.isLt; have := ra.isLt
  simp only [put]; omega
theorem tzero (tile : BitVec 3) : Statement (.tzero tile) := by
  refine of_word rfl ?_ rfl
  have := tile.isLt
  simp only [put]; omega
theorem tpop (tile : BitVec 3) (q : BitVec 2) : Statement (.tpop tile q) := by
  refine of_word rfl ?_ rfl
  have := tile.isLt; have := q.isLt
  simp only [put]; omega
theorem tld (tile : BitVec 3) (ra : BitVec 5) (imm : BitVec 14) : Statement (.tld tile ra imm) := by
  refine of_word rfl ?_ rfl
  have := tile.isLt; have := ra.isLt; have := imm.isLt
  simp only [put]; omega
theorem tst (tile : BitVec 3) (ra : BitVec 5) (imm : BitVec 14) : Statement (.tst tile ra imm) := by
  refine of_word rfl ?_ rfl
  have := tile.isLt; have := ra.isLt; have := imm.isLt
  simp only [put]; omega
theorem mma (acc : BitVec 3) (ta : BitVec 3) (tb : BitVec 3) : Statement (.mma acc ta tb) := by
  refine of_word rfl ?_ rfl
  have := acc.isLt; have := ta.isLt; have := tb.isLt
  simp only [put]; omega
theorem mmas (acc : BitVec 3) (ta : BitVec 3) (tb : BitVec 3) : Statement (.mmas acc ta tb) := by
  refine of_word rfl ?_ rfl
  have := acc.isLt; have := ta.isLt; have := tb.isLt
  simp only [put]; omega
theorem mmat (acc : BitVec 3) (ta : BitVec 3) (tb : BitVec 3) : Statement (.mmat acc ta tb) := by
  refine of_word rfl ?_ rfl
  have := acc.isLt; have := ta.isLt; have := tb.isLt
  simp only [put]; omega
theorem azero (acc : BitVec 3) : Statement (.azero acc) := by
  refine of_word rfl ?_ rfl
  have := acc.isLt
  simp only [put]; omega
theorem ald (acc : BitVec 3) (ra : BitVec 5) (imm : BitVec 14) : Statement (.ald acc ra imm) := by
  refine of_word rfl ?_ rfl
  have := acc.isLt; have := ra.isLt; have := imm.isLt
  simp only [put]; omega
theorem ast (acc : BitVec 3) (ra : BitVec 5) (imm : BitVec 14) : Statement (.ast acc ra imm) := by
  refine of_word rfl ?_ rfl
  have := acc.isLt; have := ra.isLt; have := imm.isLt
  simp only [put]; omega
theorem atr (ad : BitVec 3) (asrc : BitVec 3) : Statement (.atr ad asrc) := by
  refine of_word rfl ?_ rfl
  have := ad.isLt; have := asrc.isLt
  simp only [put]; omega
theorem lease (n : BitVec 7) : Statement (.lease n) := by
  refine of_word rfl ?_ rfl
  have := n.isLt
  simp only [put]; omega
theorem unlease : Statement (.unlease) := by
  refine of_word rfl ?_ rfl
  norm_num
theorem fmtsel (k : BitVec 2) : Statement (.fmtsel k) := by
  refine of_word rfl ?_ rfl
  have := k.isLt
  simp only [put]; omega
theorem qpushDq (n : BitVec 2) (ra : BitVec 5) : Statement (.qpushDq n ra) := by
  refine of_word rfl ?_ rfl
  have := n.isLt; have := ra.isLt
  simp only [put]; omega
theorem qpushOq (n : BitVec 1) (vs : BitVec 6) : Statement (.qpushOq n vs) := by
  refine of_word rfl ?_ rfl
  have := n.isLt; have := vs.isLt
  simp only [put]; omega
theorem qpopDq (n : BitVec 2) (vd : BitVec 6) : Statement (.qpopDq n vd) := by
  refine of_word rfl ?_ rfl
  have := n.isLt; have := vd.isLt
  simp only [put]; omega
theorem qpopOq (n : BitVec 1) (ra : BitVec 5) : Statement (.qpopOq n ra) := by
  refine of_word rfl ?_ rfl
  have := n.isLt; have := ra.isLt
  simp only [put]; omega
theorem qstat (q : BitVec 3) (rd : BitVec 5) : Statement (.qstat q rd) := by
  refine of_word rfl ?_ rfl
  have := q.isLt; have := rd.isLt
  simp only [put]; omega
theorem bqpush (ra : BitVec 5) : Statement (.bqpush ra) := by
  refine of_word rfl ?_ rfl
  have := ra.isLt
  simp only [put]; omega
theorem tksend (fifo : BitVec 3) (ra : BitVec 5) : Statement (.tksend fifo ra) := by
  refine of_word rfl ?_ rfl
  have := fifo.isLt; have := ra.isLt
  simp only [put]; omega
theorem tkrecv (fifo : BitVec 3) (rd : BitVec 5) : Statement (.tkrecv fifo rd) := by
  refine of_word rfl ?_ rfl
  have := fifo.isLt; have := rd.isLt
  simp only [put]; omega
theorem sqpush (ra : BitVec 5) (n : BitVec 3) : Statement (.sqpush ra n) := by
  refine of_word rfl ?_ rfl
  have := ra.isLt; have := n.isLt
  simp only [put]; omega
theorem mark (mask : BitVec 4) : Statement (.mark mask) := by
  refine of_word rfl ?_ rfl
  have := mask.isLt
  simp only [put]; omega
theorem joinm : Statement (.joinm) := by
  refine of_word rfl ?_ rfl
  norm_num
theorem cpy (tok : BitVec 5) (ra : BitVec 5) (rb : BitVec 5) (dir : BitVec 2) (dq : BitVec 2) (red : BitVec 1) (byte : BitVec 1) (nd : BitVec 2) : Statement (.cpy tok ra rb dir dq red byte nd) := by
  refine of_word rfl ?_ rfl
  have := tok.isLt; have := ra.isLt; have := rb.isLt; have := dir.isLt; have := dq.isLt; have := red.isLt; have := byte.isLt; have := nd.isLt
  simp only [put]; omega
theorem cpyq (tok : BitVec 5) (ra : BitVec 5) (rb : BitVec 5) (byte : BitVec 1) : Statement (.cpyq tok ra rb byte) := by
  refine of_word rfl ?_ rfl
  have := tok.isLt; have := ra.isLt; have := rb.isLt; have := byte.isLt
  simp only [put]; omega
theorem gth (tok : BitVec 5) (ra : BitVec 5) (rb : BitVec 5) (dqdir : BitVec 1) (dq : BitVec 2) : Statement (.gth tok ra rb dqdir dq) := by
  refine of_word rfl ?_ rfl
  have := tok.isLt; have := ra.isLt; have := rb.isLt; have := dqdir.isLt; have := dq.isLt
  simp only [put]; omega
theorem coll (tok : BitVec 5) (ra : BitVec 5) (rb : BitVec 5) (op : BitVec 3) (rop : BitVec 2) : Statement (.coll tok ra rb op rop) := by
  refine of_word rfl ?_ rfl
  have := tok.isLt; have := ra.isLt; have := rb.isLt; have := op.isLt; have := rop.isLt
  simp only [put]; omega
theorem nmc (tok : BitVec 5) (ra : BitVec 5) (rb : BitVec 5) (mom : BitVec 1) : Statement (.nmc tok ra rb mom) := by
  refine of_word rfl ?_ rfl
  have := tok.isLt; have := ra.isLt; have := rb.isLt; have := mom.isLt
  simp only [put]; omega
theorem dec (tok : BitVec 5) (ra : BitVec 5) (rb : BitVec 5) (codec : BitVec 2) (layout : BitVec 1) : Statement (.dec tok ra rb codec layout) := by
  refine of_word rfl ?_ rfl
  have := tok.isLt; have := ra.isLt; have := rb.isLt; have := codec.isLt; have := layout.isLt
  simp only [put]; omega
theorem tref (rd : BitVec 5) (ra : BitVec 5) : Statement (.tref rd ra) := by
  refine of_word rfl ?_ rfl
  have := rd.isLt; have := ra.isLt
  simp only [put]; omega
theorem tunpin (ra : BitVec 5) : Statement (.tunpin ra) := by
  refine of_word rfl ?_ rfl
  have := ra.isLt
  simp only [put]; omega
theorem thint (ra : BitVec 5) (rb : BitVec 5) : Statement (.thint ra rb) := by
  refine of_word rfl ?_ rfl
  have := ra.isLt; have := rb.isLt
  simp only [put]; omega
theorem tnewv (rd : BitVec 5) (ra : BitVec 5) (rb : BitVec 5) : Statement (.tnewv rd ra rb) := by
  refine of_word rfl ?_ rfl
  have := rd.isLt; have := ra.isLt; have := rb.isLt
  simp only [put]; omega
theorem tnewvZero (rd : BitVec 5) (ra : BitVec 5) (rb : BitVec 5) : Statement (.tnewvZero rd ra rb) := by
  refine of_word rfl ?_ rfl
  have := rd.isLt; have := ra.isLt; have := rb.isLt
  simp only [put]; omega
theorem pubv (rd : BitVec 5) (ra : BitVec 5) : Statement (.pubv rd ra) := by
  refine of_word rfl ?_ rfl
  have := rd.isLt; have := ra.isLt
  simp only [put]; omega
theorem tinfo (rd : BitVec 5) (ra : BitVec 5) (rb : BitVec 5) : Statement (.tinfo rd ra rb) := by
  refine of_word rfl ?_ rfl
  have := rd.isLt; have := ra.isLt; have := rb.isLt
  simp only [put]; omega
theorem useadv (rd : BitVec 5) (ra : BitVec 5) : Statement (.useadv rd ra) := by
  refine of_word rfl ?_ rfl
  have := rd.isLt; have := ra.isLt
  simp only [put]; omega
theorem kvalloc (rd : BitVec 5) (ra : BitVec 5) (rb : BitVec 5) : Statement (.kvalloc rd ra rb) := by
  refine of_word rfl ?_ rfl
  have := rd.isLt; have := ra.isLt; have := rb.isLt
  simp only [put]; omega
theorem kvmap (rd : BitVec 5) (ra : BitVec 5) (rb : BitVec 5) : Statement (.kvmap rd ra rb) := by
  refine of_word rfl ?_ rfl
  have := rd.isLt; have := ra.isLt; have := rb.isLt
  simp only [put]; omega
theorem kvshare (rd : BitVec 5) (ra : BitVec 5) (rb : BitVec 5) (rc : BitVec 5) : Statement (.kvshare rd ra rb rc) := by
  refine of_word rfl ?_ rfl
  have := rd.isLt; have := ra.isLt; have := rb.isLt; have := rc.isLt
  simp only [put]; omega
theorem kvfree (rd : BitVec 5) (ra : BitVec 5) (rb : BitVec 5) : Statement (.kvfree rd ra rb) := by
  refine of_word rfl ?_ rfl
  have := rd.isLt; have := ra.isLt; have := rb.isLt
  simp only [put]; omega
theorem radd (vd : BitVec 6) (va : BitVec 6) (vb : BitVec 6) : Statement (.radd vd va vb) := by
  refine of_word rfl ?_ rfl
  have := vd.isLt; have := va.isLt; have := vb.isLt
  simp only [put]; omega
theorem rsub (vd : BitVec 6) (va : BitVec 6) (vb : BitVec 6) : Statement (.rsub vd va vb) := by
  refine of_word rfl ?_ rfl
  have := vd.isLt; have := va.isLt; have := vb.isLt
  simp only [put]; omega
theorem rmul (vd : BitVec 6) (va : BitVec 6) (vb : BitVec 6) : Statement (.rmul vd va vb) := by
  refine of_word rfl ?_ rfl
  have := vd.isLt; have := va.isLt; have := vb.isLt
  simp only [put]; omega
theorem rmulUndo (vd : BitVec 6) (va : BitVec 6) (vb : BitVec 6) : Statement (.rmulUndo vd va vb) := by
  refine of_word rfl ?_ rfl
  have := vd.isLt; have := va.isLt; have := vb.isLt
  simp only [put]; omega
theorem rshr (vd : BitVec 6) (va : BitVec 6) (k : BitVec 6) : Statement (.rshr vd va k) := by
  refine of_word rfl ?_ rfl
  have := vd.isLt; have := va.isLt; have := k.isLt
  simp only [put]; omega
theorem rshrUndo (vd : BitVec 6) (va : BitVec 6) (k : BitVec 6) : Statement (.rshrUndo vd va k) := by
  refine of_word rfl ?_ rfl
  have := vd.isLt; have := va.isLt; have := k.isLt
  simp only [put]; omega
theorem rlrelu (vd : BitVec 6) (va : BitVec 6) (vb : BitVec 6) : Statement (.rlrelu vd va vb) := by
  refine of_word rfl ?_ rfl
  have := vd.isLt; have := va.isLt; have := vb.isLt
  simp only [put]; omega
theorem rlreluUndo (vd : BitVec 6) (va : BitVec 6) (vb : BitVec 6) : Statement (.rlreluUndo vd va vb) := by
  refine of_word rfl ?_ rfl
  have := vd.isLt; have := va.isLt; have := vb.isLt
  simp only [put]; omega
theorem rnrw (vd : BitVec 6) (va : BitVec 6) (fmt : BitVec 6) : Statement (.rnrw vd va fmt) := by
  refine of_word rfl ?_ rfl
  have := vd.isLt; have := va.isLt; have := fmt.isLt
  simp only [put]; omega
theorem rnrwUndo (vd : BitVec 6) (va : BitVec 6) (fmt : BitVec 6) : Statement (.rnrwUndo vd va fmt) := by
  refine of_word rfl ?_ rfl
  have := vd.isLt; have := va.isLt; have := fmt.isLt
  simp only [put]; omega
theorem cmark (imm : BitVec 16) : Statement (.cmark imm) := by
  refine of_word rfl ?_ rfl
  have := imm.isLt
  simp only [put]; omega
theorem cchk (imm : BitVec 16) : Statement (.cchk imm) := by
  refine of_word rfl ?_ rfl
  have := imm.isLt
  simp only [put]; omega
theorem catt (ra : BitVec 5) : Statement (.catt ra) := by
  refine of_word rfl ?_ rfl
  have := ra.isLt
  simp only [put]; omega
theorem cdepth (rd : BitVec 5) : Statement (.cdepth rd) := by
  refine of_word rfl ?_ rfl
  have := rd.isLt
  simp only [put]; omega
theorem rdcnt (rd : BitVec 5) (ra : BitVec 5) (imm : BitVec 13) : Statement (.rdcnt rd ra imm) := by
  refine of_word rfl ?_ rfl
  have := rd.isLt; have := ra.isLt; have := imm.isLt
  simp only [put]; omega
theorem cntsel (ra : BitVec 5) (imm : BitVec 13) : Statement (.cntsel ra imm) := by
  refine of_word rfl ?_ rfl
  have := ra.isLt; have := imm.isLt
  simp only [put]; omega
theorem cntclr (imm : BitVec 13) : Statement (.cntclr imm) := by
  refine of_word rfl ?_ rfl
  have := imm.isLt
  simp only [put]; omega
theorem rdtime (rd : BitVec 5) : Statement (.rdtime rd) := by
  refine of_word rfl ?_ rfl
  have := rd.isLt
  simp only [put]; omega
theorem waitc (imm : BitVec 13) : Statement (.waitc imm) := by
  refine of_word rfl ?_ rfl
  have := imm.isLt
  simp only [put]; omega
theorem bufsel (imm : BitVec 13) : Statement (.bufsel imm) := by
  refine of_word rfl ?_ rfl
  have := imm.isLt
  simp only [put]; omega
theorem psnap (rd : BitVec 5) : Statement (.psnap rd) := by
  refine of_word rfl ?_ rfl
  have := rd.isLt
  simp only [put]; omega
theorem getc (reg : BitVec 5) (creg : BitVec 12) : Statement (.getc reg creg) := by
  refine of_word rfl ?_ rfl
  have := reg.isLt; have := creg.isLt
  simp only [put]; omega
theorem setc (reg : BitVec 5) (creg : BitVec 12) : Statement (.setc reg creg) := by
  refine of_word rfl ?_ rfl
  have := reg.isLt; have := creg.isLt
  simp only [put]; omega
theorem launch (rd : BitVec 5) (ra : BitVec 5) (rb : BitVec 5) : Statement (.launch rd ra rb) := by
  refine of_word rfl ?_ rfl
  have := rd.isLt; have := ra.isLt; have := rb.isLt
  simp only [put]; omega
theorem binv (ra : BitVec 5) (rb : BitVec 5) : Statement (.binv ra rb) := by
  refine of_word rfl ?_ rfl
  have := ra.isLt; have := rb.isLt
  simp only [put]; omega
theorem slotset (ra : BitVec 5) (rb : BitVec 5) : Statement (.slotset ra rb) := by
  refine of_word rfl ?_ rfl
  have := ra.isLt; have := rb.isLt
  simp only [put]; omega
theorem illegalOp (w : BitVec 32) : Statement (.illegalOp w) := of_word rfl w.isLt rfl
theorem crossbarInstructionCompletion (core : Nat) : Statement (.crossbarInstructionCompletion core) := of_event rfl rfl
theorem hostTailWrite (col : Nat) (idx : Nat) (tail : BitVec 64) : Statement (.hostTailWrite col idx tail) := of_event rfl rfl
theorem operatorRecordStart (col : Nat) (idx : Nat) : Statement (.operatorRecordStart col idx) := of_event rfl rfl
theorem operatorEnd (col : Nat) (idx : Nat) : Statement (.operatorEnd col idx) := of_event rfl rfl
theorem tileHandOut (layer : Nat) : Statement (.tileHandOut layer) := of_event rfl rfl
theorem jobRetirement (core : Nat) : Statement (.jobRetirement core) := of_event rfl rfl
theorem preemption (core : Nat) : Statement (.preemption core) := of_event rfl rfl
theorem coreStop (core : Nat) : Statement (.coreStop core) := of_event rfl rfl
theorem resume (core : Nat) : Statement (.resume core) := of_event rfl rfl
theorem mgmtEretOrder (core : Nat) (action : BitVec 8) : Statement (.mgmtEretOrder core action) := of_event rfl rfl
theorem timerTrap (core : Nat) : Statement (.timerTrap core) := of_event rfl rfl
theorem queueDeadlock (core : Nat) (strm : Strm) : Statement (.queueDeadlock core strm) := of_event rfl rfl
theorem engineCommandAcceptance (eng : Engine) : Statement (.engineCommandAcceptance eng) := of_event rfl rfl
theorem rangeHoldRelease (core : Nat) (strm : Strm) (seq : Nat) : Statement (.rangeHoldRelease core strm seq) := of_event rfl rfl
theorem engineQueuePush (core : Nat) (strm : Strm) (seq : Nat) : Statement (.engineQueuePush core strm seq) := of_event rfl rfl
theorem engineCommandCompletion (core : Nat) (strm : Strm) (seq : Nat) : Statement (.engineCommandCompletion core strm seq) := of_event rfl rfl
theorem transferFault (core : Nat) (strm : Strm) (seq : Nat) : Statement (.transferFault core strm seq) := of_event rfl rfl
theorem translationWalk (core : Nat) (strm : Strm) (seq : Nat) : Statement (.translationWalk core strm seq) := of_event rfl rfl
theorem writeApply (col : Nat) (n : Nat) : Statement (.writeApply col n) := of_event rfl rfl
theorem readServe (core : Nat) (strm : Strm) (seq : Nat) : Statement (.readServe core strm seq) := of_event rfl rfl
theorem benchLeaseGrant (bench : Nat) : Statement (.benchLeaseGrant bench) := of_event rfl rfl
theorem heldChunkScaleArrival (core : Nat) : Statement (.heldChunkScaleArrival core) := of_event rfl rfl
theorem stackRoundBoundary (col : Nat) (sleep : List (Nat × Nat)) : Statement (.stackRoundBoundary col sleep) := of_event rfl rfl
theorem stackSlot (col : Nat) : Statement (.stackSlot col) := of_event rfl rfl
theorem stackSlotApply (col : Nat) : Statement (.stackSlotApply col) := of_event rfl rfl
theorem resyncEnd (col : Nat) : Statement (.resyncEnd col) := of_event rfl rfl
theorem layerPairWakeDone (col : Nat) (pair : Nat) : Statement (.layerPairWakeDone col pair) := of_event rfl rfl
theorem powerGrantWindow (accepted demand : List Nat) : Statement (.powerGrantWindow accepted demand) := of_event rfl rfl
theorem thermalHigh (col : Nat) (pair : Nat) (sensor : Nat) : Statement (.thermalHigh col pair sensor) := of_event rfl rfl
theorem thermalCritical (col : Nat) (pair : Nat) (sensor : Nat) : Statement (.thermalCritical col pair sensor) := of_event rfl rfl
theorem railOutOfTolerance (rail : Nat) : Statement (.railOutOfTolerance rail) := of_event rfl rfl
theorem evictionEvaluation (col : Nat) (tier : Nat) : Statement (.evictionEvaluation col tier) := of_event rfl rfl
theorem residencyActionDone (handle : Nat) : Statement (.residencyActionDone handle) := of_event rfl rfl
theorem residencyActionStop (handle : Nat) : Statement (.residencyActionStop handle) := of_event rfl rfl
theorem rebuild (handle : Nat) (depth : Nat) : Statement (.rebuild handle depth) := of_event rfl rfl
theorem recipeJobStart (handle : Nat) : Statement (.recipeJobStart handle) := of_event rfl rfl
theorem recipeCoreTimeout (handle : Nat) : Statement (.recipeCoreTimeout handle) := of_event rfl rfl
theorem recipeLimitKill (core : Nat) : Statement (.recipeLimitKill core) := of_event rfl rfl
theorem rebuildComplete (handle : Nat) : Statement (.rebuildComplete handle) := of_event rfl rfl
theorem culletSpillStart (core : Nat) : Statement (.culletSpillStart core) := of_event rfl rfl
theorem culletSpillDone (core : Nat) : Statement (.culletSpillDone core) := of_event rfl rfl
theorem culletRefillStart (core : Nat) : Statement (.culletRefillStart core) := of_event rfl rfl
theorem culletRefillDone (core : Nat) : Statement (.culletRefillDone core) := of_event rfl rfl
theorem flitReceive (link : Nat) (flit : FlitIn) : Statement (.flitReceive link flit) := of_event rfl rfl
theorem laneHandBack (link : LaneTest) : Statement (.laneHandBack link) := of_event rfl rfl
theorem linkRetrain (link : Nat) : Statement (.linkRetrain link) := of_event rfl rfl
theorem cxlMemHostAccess (loc : Nat) (off : Nat) (n : Nat) (write : Option (List Byte)) : Statement (.cxlMemHostAccess loc off n write) := of_event rfl rfl
theorem runtimeRegisterWrite (fn : Option (BitVec 3)) (item : RuntimeItem) : Statement (.runtimeRegisterWrite fn item) := of_event rfl rfl
theorem watermarkWrite (col : Nat) (tier : Nat) (hi : Bool) (v : BitVec 16) : Statement (.watermarkWrite col tier hi v) := of_event rfl rfl
theorem recipeDepthMaxWrite (col : Nat) (v : BitVec 8) : Statement (.recipeDepthMaxWrite col v) := of_event rfl rfl
theorem partitionSizeSet (col : Nat) (units : Nat) : Statement (.partitionSizeSet col units) := of_event rfl rfl
theorem limitWrite (watts : BitVec 16) : Statement (.limitWrite watts) := of_event rfl rfl
theorem bootfailClear : Statement (.bootfailClear) := of_event rfl rfl
theorem reset : Statement (.reset) := of_event rfl rfl
theorem bootok : Statement (.bootok) := of_event rfl rfl
theorem bootWatchdogExpiry : Statement (.bootWatchdogExpiry) := of_event rfl rfl
theorem getVersion : Statement (.getVersion) := of_event rfl rfl
theorem getCapabilities : Statement (.getCapabilities) := of_event rfl rfl
theorem negotiateAlgorithms (offer : List SpdmAlg) : Statement (.negotiateAlgorithms offer) := of_event rfl rfl
theorem getDigests : Statement (.getDigests) := of_event rfl rfl
theorem getCertificate (slot : Nat) : Statement (.getCertificate slot) := of_event rfl rfl
theorem challenge (nonce : List Byte) : Statement (.challenge nonce) := of_event rfl rfl
theorem getMeasurements (index : Nat) : Statement (.getMeasurements index) := of_event rfl rfl
theorem keyExchange (share : List Byte) : Statement (.keyExchange share) := of_event rfl rfl
theorem finish (verify : List Byte) : Statement (.finish verify) := of_event rfl rfl
theorem debugStopRequest (set : List Nat) : Statement (.debugStopRequest set) := of_event rfl rfl
theorem debugRelease (set : List Nat) : Statement (.debugRelease set) := of_event rfl rfl
theorem debugRead (addr : BitVec 64) : Statement (.debugRead addr) := of_event rfl rfl
theorem debugWrite (addr : BitVec 64) (v : BitVec 64) : Statement (.debugWrite addr v) := of_event rfl rfl
theorem trctlWrite (layer : Nat) (v : BitVec 64) : Statement (.trctlWrite layer v) := of_event rfl rfl
theorem traceEnd (layer : Nat) : Statement (.traceEnd layer) := of_event rfl rfl
theorem auxiliaryPowerLoss : Statement (.auxiliaryPowerLoss) := of_event rfl rfl
theorem firmwareFuseBurn (bits : BitVec 64) : Statement (.firmwareFuseBurn bits) := of_event rfl rfl

end Sys2Proof.Laws.Fits
end

