-- ==== Sys2Proof/Tests/Slice0.lean ====
section
/-! SUPPORT. Tests: ill-formed instructions that the checks refuse, words from the manual's listings and encoding tables,
single steps with results worked out from the manual's rules, and, for each statement, states and operands that meet its
hypotheses. -/
open Sys2Proof Sys2Proof.Machine
namespace Sys2Proof.Tests
set_option maxRecDepth 100000
set_option Elab.async false

/-! ### Ill-formed instructions -/

theorem test_wf_bit_field : [Instr.bfx 1 2 60 4, .bfi 1 2 63 1].all (fun i => !i.wf) = true := by decide
theorem test_wf_rounding_mode : [Instr.fadd 1 2 3 5, .fsub 1 2 3 7, .fmul 1 2 3 6, .ffma 1 2 3 4 5, .frcp 1 2 5,
    .fcvt 1 2 0 1 5 0, .vcvt 1 2 0 0 5 0 0].all (fun i => !i.wf) = true := by decide
theorem test_wf_format : [Instr.fcvt 1 2 0x3F 0 0 0, .fcvt 1 2 0 0x3F 0 0, .vcvt 1 2 0x3F 0 0 0 0, .vquant 1 2 3 0,
    .vdeq 1 2 3 0x08, .rnrw 1 2 0, .rnrwUndo 1 2 0x0B].all (fun i => !i.wf) = true := by decide
theorem test_wf_part : [Instr.vcvt 1 2 0 0 0 0 1, .vcvt 1 2 1 0 0 0 2].all (fun i => !i.wf) = true := by decide
theorem test_wf_condition : [Instr.br 6 1 2 0 1, .vcmp 1 2 3 0 6 1, .vcmp 1 2 3 0 0 3].all (fun i => !i.wf) = true := by decide
theorem test_wf_type : [Instr.vfma 1 2 3 4 3, .vreds 1 2 0 3, .vredx 1 2 0 3, .vscan 1 2 0 3].all (fun i => !i.wf) = true := by
  decide
theorem test_wf_scope_and_lease : [Instr.fence 5, .lease 0, .lease 65, .vhad 1 2 3 0 0].all (fun i => !i.wf) = true := by decide
theorem test_wf_queue : [Instr.qstat 6 1, .tksend 6 1, .tkrecv 7 1, .mark 0].all (fun i => !i.wf) = true := by decide
theorem test_wf_command : [Instr.cpy 1 2 3 0 0 1 0 0, .cpy 1 2 3 0 1 0 0 0, .gth 1 2 3 0 1, .coll 1 2 3 6 0, .coll 1 2 3 1 3,
    .coll 1 2 3 0 1, .dec 1 2 3 2 0].all (fun i => !i.wf) = true := by decide
theorem test_wf_shift : [Instr.rshr 1 2 32, .rshrUndo 1 2 63].all (fun i => !i.wf) = true := by decide
theorem test_wf_control_register : [Instr.getc 1 0x00B, .setc 1 0x000, .setc 1 0xFFF].all (fun i => !i.wf) = true := by decide
theorem test_wf_reject_by_name : decode 0b101011_0000000000000000000_1000001 = .reject .outOfLimits ∧
    (Instr.illegalOp 0).wf = false := by decide

/-! ### Words from the spec: listings of the program chapters -/

/-- The words and the assembly lines stand side by side in 19 to 21 of the spec. -/
theorem test_decode_listings : ([
    (0xDDD00014, .setc 14 0x014), (0xD50000A1, .cmark 0xA1), (0x74308A08, .vimul 3 2 10 0), (0x7430CE05, .vsra 3 3 14 0),
    (0xD0304300, .radd 3 1 3), (0xD040CC02, .rmul 4 3 12), (0xD0518D06, .rlrelu 5 6 13), (0xD0614D07, .rlreluUndo 6 5 13),
    (0xD0110C03, .rmulUndo 1 4 12), (0xD58000A1, .cchk 0xA1), (0xD6A40000, .cdepth 9), (0x5400E000, .sts 0 0 3 0),
    (0xC1490000, .cpy 10 9 0 0 0 0 0 0), (0x58023809, .swatch 2 7), (0x58A21800, .amosAdd 5 2 3 0), (0x45800000, .wfe),
    (0x54A28000, .lds 5 2 2 0), (0x59CB6348, .sbcast 14 11 12 13), (0x5468A000, .sts 3 8 2 0), (0x9C140000, .tshape 0 5),
    (0xA0000001, .tld 0 0 1), (0xA8000000, .azero 0), (0xB0000000, .fmtsel 0), (0xAC000001, .lease 1)
  ] : List (BitVec 32 × Instr)).all (fun p => decode p.1 == .instr p.2) = true := by decide +kernel
theorem test_decode_listings_2 : ([
    (0xA4020000, .mma 0 0 1), (0xA8010007, .ast 0 0 7), (0xC1230040, .cpy 9 3 0 1 0 0 0 0), (0xC9B47006, .tinfo 13 20 14),
    (0x0549000F, .mov 10 9), (0xC8B60003, .tnewv 5 22 0), (0xC5221900, .nmc 9 2 3 0), (0x500000C8, .fence 3),
    (0xC9B60005, .pubv 13 22), (0xC5C80060, .coll 14 8 0 3 0), (0xC1221804, .cpy 9 2 3 0 0 0 1 0), (0xB80B0000, .tksend 0 11),
    (0xC00560C4, .cpy 0 5 12 3 0 0 1 0), (0x9021C100, .vins 2 7 1), (0x6C808309, .vcmp 1 2 3 0 2 1), (0xB9090000, .tkrecv 0 9),
    (0xA4028000, .mmas 0 0 1), (0x8C040000, .vld 0 8 0), (0x80000E00, .vhad 0 0 1 1 1), (0xB4800000, .qpushOq 0 0),
    (0xB5918000, .qpopOq 0 6), (0x50000008, .fence 0), (0x24611000, .slli 3 1 32), (0xC1221940, .cpyq 9 2 3 0)
  ] : List (BitVec 32 × Instr)).all (fun p => decode p.1 == .instr p.2) = true := by decide +kernel

/-! ### One step -/

/-- The state of a next outcome; the state after reset where there is none. -/
def nextOf (o : Host.Outcome State Fault Refusal) : State := match o with | .next t => t | _ => State.reset

/-- Core 0 runs a job whose code line 1 is a line of stream L, and its stream `x` is to issue; `f` shapes the core. -/
def coreRuns (x : Strm) (f : CoreSt → CoreSt) : State :=
  { State.reset.withFetchWord 32 0 with
    agenda := [], strm := x, cores := [(0, f ((State.reset.withFetchWord 32 0).core 0))] }

/-- As `coreRuns`, with the registers listed in stream `x`. -/
def regsRun (x : Strm) (rs : List (Nat × W64)) : State :=
  coreRuns x fun c => c.modStrm x fun t => { t with regs := rs }

/-- What `i` leaves in register `n` of stream C. -/
def regAfterC (rs : List (Nat × W64)) (i : Instr) (n : Nat) : W64 := ((nextOf (exec i (regsRun .C rs))).core 0).c.reg n

/-- What `i` leaves in register `n` of stream L. -/
def regAfter (rs : List (Nat × W64)) (i : Instr) (n : Nat) : W64 := ((nextOf (exec i (regsRun .L rs))).core 0).l.reg n

theorem test_step_addi : ((nextOf (step (State.reset.withFetchWord 32 0b000100_00011_00011_1111111111111011))).core 0).l.reg 3 =
    0xFFFFFFFFFFFFFFFB := by decide +kernel
theorem test_step_pc : ((nextOf (step (State.reset.withFetchWord 32 0b000100_00011_00011_1111111111111011))).core 0).l.pc =
    ⟨1, 2⟩ := by decide +kernel
theorem test_table_word : decodeTableWord 32 0b000100_00011_00011_1111111111111011 = some (.addi 3 3 0xFFFB) := by decide +kernel
theorem test_step_illegal : (((nextOf (step (State.reset.withFetchWord 32 0))).core 0).raised.map (·.cause)) = [0x01] := by
  decide +kernel
theorem test_add_wraps : regAfter [(1, 0xFFFFFFFFFFFFFFFF), (2, 1)] (.add 1 1 2) 1 = 0 := by decide +kernel
theorem test_s0_discards : regAfter [(1, 5), (2, 1)] (.add 0 1 2) 0 = 0 := by decide +kernel
theorem test_sll_by_64 : regAfter [(1, 3), (2, 65)] (.sll 3 1 2) 3 = 6 := by decide +kernel
theorem test_sra_sign : regAfter [(1, 0x8000000000000000), (2, 63)] (.sra 3 1 2) 3 = 0xFFFFFFFFFFFFFFFF := by decide +kernel
theorem test_div_by_zero : regAfter [(1, 7)] (.div 3 1 2) 3 = 0xFFFFFFFFFFFFFFFF := by decide +kernel
theorem test_rem_sign : regAfter [(1, 0xFFFFFFFFFFFFFFF9), (2, 2)] (.rem 3 1 2) 3 = 0xFFFFFFFFFFFFFFFF := by decide +kernel
theorem test_mulh_signs : regAfter [(1, 0xFFFFFFFFFFFFFFFF), (2, 1)] (.mulh 3 1 2) 3 = 0xFFFFFFFFFFFFFFFF := by decide +kernel
theorem test_bfx_top : regAfter [(1, 0xA000000000000000)] (.bfx 3 1 60 3) 3 = 0xA := by decide +kernel
theorem test_lui_keeps : regAfter [(3, 0x1111222233334444)] (.lui 3 2 0xABCD) 3 = 0x1111ABCD33334444 := by decide +kernel
theorem test_li_sign : regAfter [] (.li 3 0x1FFFFF) 3 = 0xFFFFFFFFFFFFFFFF := by decide +kernel
theorem test_clz_zero : regAfter [] (.clz 3 1) 3 = 64 := by decide +kernel
theorem test_fadd_one : regAfterC [(1, 0x3F800000), (2, 0x3F800000)] (.fadd 3 1 2 0) 3 = 0x40000000 := by decide +kernel
theorem test_fadd_tie_to_even : regAfterC [(1, 0x3F800000), (2, 0x33800000)] (.fadd 3 1 2 0) 3 = 0x3F800000 := by
  decide +kernel
theorem test_fcvt_bf16 : regAfterC [(1, 0x3FC00000)] (.fcvt 3 1 1 0 0 0) 3 = 0x3FC0 := by decide +kernel
theorem test_store_then_bytes :
    ((nextOf (exec (.st 2 1 2 0 4) (regsRun .L [(1, 0x100), (2, 0x11223344)]))).core 0).scratch.bytes 0x104 4 =
      [0x44, 0x33, 0x22, 0x11] := by decide +kernel
theorem test_ld_misaligned : (((nextOf (exec (.ld 3 1 2 0 0) (regsRun .L [(1, 2)]))).core 0).raised.map (·.cause)) = [0x0A] := by
  decide +kernel
theorem test_amo_min_signed :
    ((nextOf (exec (.amoMin 3 1 2 0) (regsRun .L [(1, 0x40), (2, 0xFFFFFFFF)]))).core 0).scratch.bytes 0x40 4 =
      [0xFF, 0xFF, 0xFF, 0xFF] := by decide +kernel
theorem test_privilege : (((nextOf (exec (.slotset 1 2) (regsRun .L []))).core 0).raised.map (·.cause)) = [0x04] := by
  decide +kernel
theorem test_stream_mismatch : (((nextOf (exec (.vadd 1 2 3 0) (regsRun .L []))).core 0).raised.map (·.cause)) = [0x03] := by
  decide +kernel
theorem test_trap_goes_on : ((nextOf (exec (.trap 5) (regsRun .L []))).core 0).l.pc = ⟨1, 2⟩ := by decide +kernel
theorem test_lane_predicate :
    let c := (nextOf (exec (.viadd 1 2 2 1) (coreRuns .C fun c => { (c.setRow 2 (List.replicate 64 3)) with masks := [(1, 2)] }))).core 0
    (c.lane 1 0, c.lane 1 1) = (0, 6) := by decide +kernel

theorem test_decode_scalar_register : ([
    (0b000001_10110_11101_11010_00000000000, .add 22 29 26),
    (0b000001_10110_11101_11010_00000000001, .sub 22 29 26),
    (0b000001_10110_11101_11010_00000000010, .and 22 29 26),
    (0b000001_10110_11101_11010_00000000011, .or 22 29 26),
    (0b000001_10110_11101_11010_00000000100, .xor 22 29 26),
    (0b000001_10110_11101_11010_00000000101, .sll 22 29 26),
    (0b000001_10110_11101_11010_00000000110, .srl 22 29 26),
    (0b000001_10110_11101_11010_00000000111, .sra 22 29 26),
    (0b000001_10110_11101_11010_00000001000, .min 22 29 26),
    (0b000001_10110_11101_11010_00000001001, .max 22 29 26),
    (0b000001_10110_11101_11010_00000001010, .minu 22 29 26),
    (0b000001_10110_11101_11010_00000001011, .maxu 22 29 26),
    (0b000001_10110_11101_11010_00000001100, .slt 22 29 26),
    (0b000001_10110_11101_11010_00000001101, .sltu 22 29 26),
    (0b000001_10110_11101_11010_00000001110, .seq 22 29 26),
    (0b000001_10110_11101_0000000000001111, .mov 22 29),
    (0b000001_10110_11101_0000000000010000, .clz 22 29),
    (0b000001_10110_11101_0000000000010001, .ctz 22 29),
    (0b000001_10110_11101_0000000000010010, .popc 22 29),
    (0b000010_10110_11101_11010_00000000000, .mul 22 29 26),
    (0b000010_10110_11101_11010_00000000001, .mulh 22 29 26),
    (0b000010_10110_11101_11010_00000000010, .mulhu 22 29 26),
    (0b000010_10110_11101_11010_00000000011, .div 22 29 26),
    (0b000010_10110_11101_11010_00000000100, .divu 22 29 26),
    (0b000010_10110_11101_11010_00000000101, .rem 22 29 26),
    (0b000010_10110_11101_11010_00000000110, .remu 22 29 26),
    (0b000011_10110_11101_11010_10111_000000, .mad 22 29 26 23),
    (0b000011_10110_11101_11010_10111_000001, .sel 22 29 26 23),
    (0b000011_10110_11101_11010_10111_000010, .clamp 22 29 26 23)
  ] : List (BitVec 32 × Instr)).all (fun p => decode p.1 == .instr p.2) = true := by decide +kernel

theorem test_decode_scalar_immediate : ([
    (0b000100_10110_11101_1110101101011010, .addi 22 29 60250),
    (0b000101_10110_11101_1110101101011010, .andi 22 29 60250),
    (0b000110_10110_11101_1110101101011010, .ori 22 29 60250),
    (0b000111_10110_11101_1110101101011010, .xori 22 29 60250),
    (0b001000_10110_11101_1110101101011010, .slti 22 29 60250),
    (0b001001_10110_11101_000_111010_0000000, .slli 22 29 58),
    (0b001001_10110_11101_001_111010_0000000, .srli 22 29 58),
    (0b001001_10110_11101_010_111010_0000000, .srai 22 29 58),
    (0b001001_10101_01010_011_100101_011010_0, .bfx 21 10 37 26),
    (0b001001_00101_10010_100_101100_010011_0, .bfi 5 18 44 19),
    (0b001010_10110_101101011010110101101, .li 22 1488301),
    (0b001011_10110_000_11_1110101101011010, .lui 22 3 60250)
  ] : List (BitVec 32 × Instr)).all (fun p => decode p.1 == .instr p.2) = true := by decide +kernel

theorem test_decode_scalar_float : ([
    (0b001100_00001_00010_00100_00000_011_000, .fadd 1 2 4 3),
    (0b001100_11111_10000_01000_00000_001_001, .fsub 31 16 8 1),
    (0b001100_10001_01001_00110_00000_010_010, .fmul 17 9 6 2),
    (0b001100_00011_00101_00111_01011_100_011, .ffma 3 5 7 11 4),
    (0b001100_10110_11101_11010_00000000100, .fmin 22 29 26),
    (0b001100_10110_11101_11010_00000000101, .fmax 22 29 26),
    (0b001100_11110_01101_0000000000_100_110, .frcp 30 13 4),
    (0b001100_10110_11101_11010_00_111_000111, .fcmp 22 29 26 7),
    (0b001101_01001_10110_001011_010011_100_1, .fcvt 9 22 11 19 4 1)
  ] : List (BitVec 32 × Instr)).all (fun p => decode p.1 == .instr p.2) = true := by decide +kernel

theorem test_decode_control_flow : ([
    (0b001110_101_10011_01010_101010101_1001, .br 5 19 10 341 9),
    (0b001111_1010110101101011010110_1101, .jmp 2841302 13),
    (0b010000_1010110101101011010110_1101, .call 2841302 13),
    (0b010001_0000_10110_00000000000000000, .jmpr 22),
    (0b010001_00010000000000000000000000, .ret),
    (0b010001_0010_10_11101_00_101011010_1111, .loop 2 29 346 15),
    (0b010001_0011_1_00000000_110101101_1010, .brq 1 429 10),
    (0b010001_01000000000000000000000000, .rdv),
    (0b010001_01010000000000000000000000, .nop),
    (0b010001_01100000000000000000000000, .wfe),
    (0b010001_01110000000000000000000000, .sev),
    (0b010001_1000000000_1101101011010110, .trap 56022),
    (0b010001_10010000000000000000000000, .eret)
  ] : List (BitVec 32 × Instr)).all (fun p => decode p.1 == .instr p.2) = true := by decide +kernel

theorem test_decode_scratchpad : ([
    (0b010010_10110_11101_10_1_0_101011010110, .ld 22 29 2 1 2774),
    (0b010011_10110_11101_10_1_0_101011010110, .st 22 29 2 1 2774),
    (0b010100_10110_11101_11010_00000_1_00000, .amoAdd 22 29 26 1),
    (0b010100_10110_11101_11010_00000_1_00001, .amoMin 22 29 26 1),
    (0b010100_10110_11101_11010_00000_1_00010, .amoMax 22 29 26 1),
    (0b010100_10110_11101_11010_00000_1_00011, .amoAnd 22 29 26 1),
    (0b010100_10110_11101_11010_00000_1_00100, .amoOr 22 29 26 1),
    (0b010100_10110_11101_11010_00000_1_00101, .amoXor 22 29 26 1),
    (0b010100_10110_11101_11010_00000_1_00110, .amoSwap 22 29 26 1),
    (0b010100_10110_11101_11010_10111_1_00111, .cas 22 29 26 23 1),
    (0b010100_00000000000000000_100_001000, .fence 4),
    (0b010100_10110_11101_0000000000001001, .spal 22 29),
    (0b010100_00000_10110_0000000000001010, .spfree 22)
  ] : List (BitVec 32 × Instr)).all (fun p => decode p.1 == .instr p.2) = true := by decide +kernel

theorem test_decode_stack_scope : ([
    (0b010101_10110_11101_10_00_110011100111, .lds 22 29 2 3303),
    (0b010101_10110_11101_10_10_110011100111, .sts 22 29 2 3303),
    (0b010110_10110_11101_11010_00000_1_00000, .amosAdd 22 29 26 1),
    (0b010110_10110_11101_11010_00000_1_00001, .amosMin 22 29 26 1),
    (0b010110_10110_11101_11010_00000_1_00010, .amosMax 22 29 26 1),
    (0b010110_10110_11101_11010_00000_1_00011, .amosAnd 22 29 26 1),
    (0b010110_10110_11101_11010_00000_1_00100, .amosOr 22 29 26 1),
    (0b010110_10110_11101_11010_00000_1_00101, .amosXor 22 29 26 1),
    (0b010110_10110_11101_11010_00000_1_00110, .amosSwap 22 29 26 1),
    (0b010110_10110_11101_11010_10111_1_00111, .cass 22 29 26 23 1),
    (0b010110_10110_11101_11010_10111_001000, .sbcast 22 29 26 23),
    (0b010110_00000_10110_11101_00000001001, .swatch 22 29),
    (0b010110_10110_11101_0000000000001010, .slotq 22 29)
  ] : List (BitVec 32 × Instr)).all (fun p => decode p.1 == .instr p.2) = true := by decide +kernel

theorem test_decode_vector_lanes : ([
    (0b010111_110110_101101_111010_111_00000, .vadd 54 45 58 7),
    (0b010111_110110_101101_111010_111_00001, .vsub 54 45 58 7),
    (0b010111_110110_101101_111010_111_00010, .vmul 54 45 58 7),
    (0b010111_110110_101101_111010_111_00011, .vmin 54 45 58 7),
    (0b010111_110110_101101_111010_111_00100, .vmax 54 45 58 7),
    (0b010111_110110_101101_000000_110_00101, .vabs 54 45 6),
    (0b010111_110110_101101_000000_110_00110, .vneg 54 45 6),
    (0b011000_100001_010101_101010_001100_10, .vfma 33 21 42 12 2),
    (0b011001_110110_101101_111010_111_1_0000, .vaddPacked 54 45 58 7 1),
    (0b011001_110110_101101_111010_111_1_0001, .vsubPacked 54 45 58 7 1),
    (0b011001_110110_101101_111010_111_1_0010, .vmulPacked 54 45 58 7 1),
    (0b011001_110110_101101_111010_111_1_0011, .vminPacked 54 45 58 7 1),
    (0b011001_110110_101101_111010_111_1_0100, .vmaxPacked 54 45 58 7 1),
    (0b011001_110110_101101_000000_110_1_0101, .vabsPacked 54 45 6 1),
    (0b011001_110110_101101_000000_110_1_0110, .vnegPacked 54 45 6 1),
    (0b011010_110110_101101_000000_110_00000, .vexp2 54 45 6),
    (0b011010_110110_101101_000000_110_00001, .vlog2 54 45 6),
    (0b011010_110110_101101_000000_110_00010, .vrcp 54 45 6),
    (0b011010_110110_101101_000000_110_00011, .vrsq 54 45 6),
    (0b011010_110110_101101_000000_110_00100, .vtanh 54 45 6),
    (0b011010_110110_101101_000000_110_00101, .vsigm 54 45 6),
    (0b011011_101_000_100010_010101_010_101_10, .vcmp 5 34 21 2 5 2),
    (0b011100_110110_101101_111010_111_00000, .vsel 54 45 58 7),
    (0b011101_110110_101101_111010_111_00000, .vand 54 45 58 7),
    (0b011101_110110_101101_111010_111_00001, .vor 54 45 58 7),
    (0b011101_110110_101101_111010_111_00010, .vxor 54 45 58 7),
    (0b011101_110110_101101_111010_111_00011, .vshl 54 45 58 7),
    (0b011101_110110_101101_111010_111_00100, .vshr 54 45 58 7),
    (0b011101_110110_101101_111010_111_00101, .vsra 54 45 58 7),
    (0b011101_110110_101101_111010_111_00110, .viadd 54 45 58 7),
    (0b011101_110110_101101_111010_111_00111, .visub 54 45 58 7),
    (0b011101_110110_101101_111010_111_01000, .vimul 54 45 58 7),
    (0b011110_110010_001101_010011_1_100_1_001, .vcvt 50 13 19 1 4 1 1)
  ] : List (BitVec 32 × Instr)).all (fun p => decode p.1 == .instr p.2) = true := by decide +kernel

theorem test_decode_vector_rows : ([
    (0b011111_100011_110010_010101_010011_00, .vquant 35 50 21 19),
    (0b011111_001011_100101_010110_010010_01, .vdeq 11 37 22 18),
    (0b100000_101001_010110_101_1_1_000000000, .vhad 41 22 5 1 1),
    (0b100001_110110_101101_111010_111_00000, .vperm 54 45 58 7),
    (0b100001_110110_101101_111010_111_00001, .vrot 54 45 58 7),
    (0b100001_110110_0_11101_000000_110_00010, .vbcast 54 29 6),
    (0b100010_101010_010101_000000_101_10_000, .vreds 42 21 5 2),
    (0b100010_010101_101010_000000_010_01_001, .vredx 21 42 2 1),
    (0b100010_010011_100110_000000_101_10_010, .vscan 19 38 5 2),
    (0b100011_110110_11101_00000000_1011010, .vld 54 29 90),
    (0b100011_110110_11101_00000001_1011010, .vst 54 29 90),
    (0b100011_110110_11101_111010_10_1100111, .vgth 54 29 58 103),
    (0b100011_110110_11101_111010_11_1100111, .vsct 54 29 58 103),
    (0b100100_110110_0_11101_111010_00000000, .vins 54 29 58),
    (0b100100_0_10110_101101_111010_00000001, .vext 22 45 58),
    (0b100100_000000000000000_110_00000010, .vwin 6),
    (0b100100_110110_101101_111010_111_00011, .vpack 54 45 58 7),
    (0b100100_110110_101101_000000_110_00100, .vunpk 54 45 6),
    (0b100101_110_101_110_00000000000000000, .mand 6 5 6),
    (0b100101_110_101_110_00000000000000001, .mor 6 5 6),
    (0b100101_110_101_00000000000000000010, .mnot 6 5),
    (0b100101_000_110_000_11101_000000000011, .mpop 6 29),
    (0b100110_110110_101101_111010_111_00000, .vsortk 54 45 58 7),
    (0b100110_110110_000000000000_101_00001, .vrng 54 5)
  ] : List (BitVec 32 × Instr)).all (fun p => decode p.1 == .instr p.2) = true := by decide +kernel

theorem test_decode_tile_and_matrix : ([
    (0b100111_110_11101_000000000000000000, .tshape 6 29),
    (0b100111_110_00000000000000000000001, .tzero 6),
    (0b100111_110_00000_11_0000000000000010, .tpop 6 3),
    (0b101000_110_11101_0000_10101101011010, .tld 6 29 11098),
    (0b101000_110_11101_1000_10101101011010, .tst 6 29 11098),
    (0b101001_110_101_110_00000000000000000, .mma 6 5 6),
    (0b101001_110_101_110_01000000000000000, .mmas 6 5 6),
    (0b101001_110_101_110_10000000000000000, .mmat 6 5 6),
    (0b101010_110_00000000000000000000000, .azero 6),
    (0b101010_110_11101_0010_10101101011010, .ald 6 29 11098),
    (0b101010_110_11101_0100_10101101011010, .ast 6 29 11098),
    (0b101010_110_101_00011000000000000000, .atr 6 5),
    (0b101011_0000000000000000000_1000000, .lease 64),
    (0b101011_10000000000000000000000000, .unlease),
    (0b101100_000000000000000000000000_10, .fmtsel 2)
  ] : List (BitVec 32 × Instr)).all (fun p => decode p.1 == .instr p.2) = true := by decide +kernel

theorem test_decode_queues : ([
    (0b101101_000_10_10_11101_00000000000000, .qpushDq 2 29),
    (0b101101_0010_1_0_101101_00000000000000, .qpushOq 1 45),
    (0b101101_010_10_0_101101_00000000000000, .qpopDq 2 45),
    (0b101101_0110_1_10_11101_00000000000000, .qpopOq 1 29),
    (0b101101_10_101_00_10101_00000000000000, .qstat 5 21),
    (0b101101_1100000_10110_00000000000000, .bqpush 22),
    (0b101110_00_101_01010_0000000000000000, .tksend 5 10),
    (0b101110_01_100_10101_0000000000000000, .tkrecv 4 21),
    (0b101110_10000_10110_0000000000000_101, .sqpush 22 5),
    (0b101111_0000000000000000000000_1010, .mark 10),
    (0b101111_10000000000000000000000000, .joinm)
  ] : List (BitVec 32 × Instr)).all (fun p => decode p.1 == .instr p.2) = true := by decide +kernel

theorem test_decode_engine_commands : ([
    (0b110000_10101_01010_01101_000_01_00_1_0_10, .cpy 21 10 13 1 0 1 0 2),
    (0b110000_10110_11101_11010_00101000_1_00, .cpyq 22 29 26 1),
    (0b110000_01001_10010_00101_010_1_0_10_0000, .gth 9 18 5 1 2),
    (0b110001_10010_01001_01100_000_010_01_000, .coll 18 9 12 2 1),
    (0b110001_10110_11101_11010_0010000000_1, .nmc 22 29 26 1),
    (0b110001_10100_01011_00110_010_01_1_00000, .dec 20 11 6 1 1)
  ] : List (BitVec 32 × Instr)).all (fun p => decode p.1 == .instr p.2) = true := by decide +kernel

theorem test_decode_tensors : ([
    (0b110010_10110_11101_0000000000000000, .tref 22 29),
    (0b110010_00000_10110_0000000000000001, .tunpin 22),
    (0b110010_00000_10110_11101_00000000010, .thint 22 29),
    (0b110010_10110_11101_11010_00000000011, .tnewv 22 29 26),
    (0b110010_10110_11101_11010_00000000100, .tnewvZero 22 29 26),
    (0b110010_10110_11101_0000000000000101, .pubv 22 29),
    (0b110010_10110_11101_11010_00000000110, .tinfo 22 29 26),
    (0b110010_10110_11101_0000000000000111, .useadv 22 29)
  ] : List (BitVec 32 × Instr)).all (fun p => decode p.1 == .instr p.2) = true := by decide +kernel

theorem test_decode_cullet : ([
    (0b110011_10110_11101_11010_00000000000, .kvalloc 22 29 26),
    (0b110011_10110_11101_11010_00000000001, .kvmap 22 29 26),
    (0b110011_10110_11101_11010_10111_000010, .kvshare 22 29 26 23),
    (0b110011_10110_11101_11010_00000000011, .kvfree 22 29 26),
    (0b110100_110110_101101_111010_00000000, .radd 54 45 58),
    (0b110100_110110_101101_111010_00000001, .rsub 54 45 58),
    (0b110100_110110_101101_111010_00000010, .rmul 54 45 58),
    (0b110100_110110_101101_111010_00000011, .rmulUndo 54 45 58),
    (0b110100_100101_011010_011111_00000100, .rshr 37 26 31),
    (0b110100_011010_100101_010001_00000101, .rshrUndo 26 37 17),
    (0b110100_110110_101101_111010_00000110, .rlrelu 54 45 58),
    (0b110100_110110_101101_111010_00000111, .rlreluUndo 54 45 58),
    (0b110101_000_100011_010100_000001_00000, .rnrw 35 20 1),
    (0b110101_001_010100_100011_000100_00000, .rnrwUndo 20 35 4),
    (0b110101_0100000000_1101101011010110, .cmark 56022),
    (0b110101_0110000000_1101101011010110, .cchk 56022),
    (0b110101_100_10110_000000000000000000, .catt 22),
    (0b110101_101_10110_000000000000000000, .cdepth 22)
  ] : List (BitVec 32 × Instr)).all (fun p => decode p.1 == .instr p.2) = true := by decide +kernel

theorem test_decode_counters_and_system : ([
    (0b110110_10110_11101_1101101011010_000, .rdcnt 22 29 7002),
    (0b110110_00000_10110_1010110101101_001, .cntsel 22 5549),
    (0b110110_0000000000_1101011010110_010, .cntclr 6870),
    (0b110110_10110_000000000000000000011, .rdtime 22),
    (0b110110_0000000000_1101011010110_100, .waitc 6870),
    (0b110110_0000000000_1101011010110_101, .bufsel 6870),
    (0b110110_10110_000000000000000000110, .psnap 22),
    (0b110111_10110_000000000_000100000110, .getc 22 262),
    (0b110111_01011_100000000_000000010100, .setc 11 20),
    (0b111000_10110_11101_11010_00000000000, .launch 22 29 26),
    (0b111000_00000_10110_11101_00000000001, .binv 22 29),
    (0b111000_00000_10110_11101_00000000010, .slotset 22 29)
  ] : List (BitVec 32 × Instr)).all (fun p => decode p.1 == .instr p.2) = true := by decide +kernel

/-! ### Witnesses: states and operands that meet the hypotheses of the statements -/

/-- The outcome is a next state. -/
def answersNext (o : Host.Outcome State Fault Refusal) : Bool := match o with | .next _ => true | _ => false

/-- The forms of majors 0x01 to 0x03. -/
def registerForms : List Instr := [.add 3 1 2, .sub 3 1 2, .and 3 1 2, .or 3 1 2, .xor 3 1 2, .sll 3 1 2, .srl 3 1 2,
  .sra 3 1 2, .min 3 1 2, .max 3 1 2, .minu 3 1 2, .maxu 3 1 2, .slt 3 1 2, .sltu 3 1 2, .seq 3 1 2, .mov 3 1, .clz 3 1,
  .ctz 3 1, .popc 3 1, .mul 3 1 2, .mulh 3 1 2, .mulhu 3 1 2, .div 3 1 2, .divu 3 1 2, .rem 3 1 2, .remu 0 1 2, .mad 3 1 2 4,
  .sel 3 1 2 4, .clamp 3 1 2 4]

theorem witness_RegisterForms :
    let s := regsRun .L [(1, 7), (2, 3), (4, 9)]
    registerForms.all (fun i => s.ready i && (registerResult i (s.cur.val (registerFields i).2.1)
      (s.cur.val (registerFields i).2.2.1) (s.cur.val (registerFields i).2.2.2)).isSome) = true := by decide +kernel

theorem witness_DivisionCorners :
    let s := regsRun .L [(1, 0x8000000000000000), (2, 0xFFFFFFFFFFFFFFFF)]
    ([.div 3 1 2, .divu 3 1 2, .rem 3 1 2, .remu 3 1 2, .div 3 1 0, .divu 3 1 0, .rem 3 1 0, .remu 3 1 0] : List Instr).all
      s.ready = true ∧ s.cur.val 0 = 0 ∧ s.cur.val 1 = 0x8000000000000000 ∧ s.cur.val 2 = 0xFFFFFFFFFFFFFFFF := by
  decide +kernel

theorem witness_ImmediateForms :
    let s := regsRun .S [(1, 7), (3, 5)]
    ([.addi 3 1 0xFFFB, .andi 3 1 1, .ori 3 1 1, .xori 3 1 1, .slti 3 1 0x8000, .slli 3 1 63, .srli 3 1 63, .srai 3 1 63,
      .bfx 3 1 60 3, .bfi 3 1 0 63, .li 3 0x100000, .lui 3 3 1] : List Instr).all
      (fun i => s.ready i && (immediateResult i s.cur.val).isSome) = true := by decide +kernel

theorem witness_FloatForms :
    let s := coreRuns .C fun c => c.modStrm .C fun t => { t with regs := [(1, 0x3F800000)], rqf := 25 }
    ([.fadd 3 1 2 4, .fsub 3 1 2 0, .fmul 3 1 2 0, .ffma 3 1 2 4 4, .frcp 3 1 0] : List Instr).all
      (fun i => s.ready i && (roundResult i s.cur.val 0).isSome) = true ∧
    ([.fmin 3 1 2, .fmax 3 1 2, .fcmp 3 1 2 5, .fcvt 3 1 0x0B 0 0 0, .fcvt 3 1 1 0 4 0] : List Instr).all s.ready = true ∧
    24 < s.cur.rqf.toNat := by decide +kernel

theorem witness_Jumps :
    let here : W64 := Pc.form ⟨1, 1⟩
    let s := regsRun .L [(1, 1), (2, here), (31, here), (4, Pc.form ⟨1, 0⟩)]
    ([.br 0 1 1 0 1, .br 1 1 1 0 1, .jmp 0 1, .jmpr 2, .ret, .jmp 0 0, .call 0 1, .call 0 0] : List Instr).all s.ready = true ∧
    brTaken 0 (s.cur.val 1) (s.cur.val 1) = true ∧ brTaken 1 (s.cur.val 1) (s.cur.val 1) = false ∧
    s.targetOk s.who s.strm ⟨1, 1⟩ = true ∧ s.targetOk s.who s.strm ⟨1, 0⟩ = false := by decide +kernel

theorem witness_Jumps_wide :
    let s := regsRun .L [(1, 2 ^ 40 + 17), (31, 2 ^ 28 + 16)]
    let c := { s with strm := .C }
    s.ready (.jmpr 1) = true ∧ s.ready .ret = true ∧ 2 ^ 28 ≤ (s.cur.reg 31).toNat ∧ s.targetOk 0 .L ⟨1, 0⟩ = false ∧
    s.targetOk 0 .L ⟨1, 1⟩ = true ∧ foreignLine (s.enteredWord 0 .L ⟨1, 1⟩) .L = false ∧
    c.targetOk 0 .C ⟨1, 1⟩ = true ∧ foreignLine (c.enteredWord 0 .C ⟨1, 1⟩) .C = true := by decide +kernel

/-- Core 0 runs stream C on a line of stream C, with the given entries in bq. -/
def branchQueue (b : List Bool) : State :=
  let s := State.reset.withFetchWord 32 0x74308A08
  { s with strm := .C, agenda := [], cores := [(0, { s.core 0 with bq := { head := 127, items := b } })] }

theorem witness_LoopAndBrq :
    let s := coreRuns .L fun c => c.modStrm .L fun t => { t with regs := [(1, 6)], lc := [(3, 4), (0, 5)] }
    let pushed := branchQueue [true]
    let late := { pushed with cores := [(0, { pushed.core 0 with bq := { items := [true], pushed := 1 } })] }
    s.ready (.loop 3 1 0 1) = true ∧ s.ready (.loop 0 1 0 0) = true ∧
    (s.cur.loopCtr 3 + 1).toNat < ((s.cur.val 1).truncate 32 : W32).toNat ∧
    ((s.cur.val 1).truncate 32 : W32).toNat ≤ (s.cur.loopCtr 0 + 1).toNat ∧
    s.targetOk s.who s.strm ⟨1, 1⟩ = true ∧ s.targetOk s.who s.strm ⟨1, 0⟩ = false ∧
    (branchQueue []).ready (.brq 1 0 1) = true ∧ (late.core 0).bq.ready = [] ∧ late.ready (.brq 1 0 1) = true ∧
    (branchQueue [true]).ready (.brq 1 0 1) = true ∧ ((branchQueue [true]).core 0).bq.ready = [true] ∧
    (branchQueue [true]).ready (.brq 0 0 1) = true ∧ (branchQueue [true]).targetOk 0 .C ⟨1, 1⟩ = true ∧
    (branchQueue [true]).targetOk 0 .C ⟨1, 0⟩ = false := by decide +kernel

theorem witness_LoopAndBrq_late :
    let s := coreRuns .L fun c => { c with snapRan := some 2, l := { c.l with regs := [(1, 6)], lc := [(0, 5)] } }
    s.ready (.loop 0 1 0 0) = true ∧ (s.core s.who).snapLate s.strm = true ∧ s.ready (.psnap 3) = true ∧
    ((s.cur.val 1).truncate 32 : W32).toNat ≤ (s.cur.loopCtr 0 + 1).toNat := by decide +kernel

theorem witness_Events :
    let s := coreRuns .L fun c => { c with l := { c.l with evflag := true } }
    let u := coreRuns .C id
    let late := coreRuns .L fun c => c.modStrm .L fun t => { t with stackq := [{ op := .write }] }
    ([.nop, .sev, .wfe, .trap 5, .rdv] : List Instr).all (fun i => s.ready i && u.ready i) = true ∧ s.cur.evflag = true ∧
    u.cur.evflag = false ∧ s.cur.anyPending = none ∧ (s.core s.who).untokened s.strm = false ∧
    s.fencePassed s.who s.strm = true ∧ late.ready .sev = true ∧ late.fencePassed late.who late.strm = false := by
  decide +kernel

/-- A context pool of which the blocks of areas 0, 1 and 144 have storage. -/
def poolTensor : Tensor :=
  { info := { state := 2, size := 0x12200000 }, dimCount := 1, extents := [0x12200000], strides := [1],
    blocks := (List.range 64 ++ (List.range 32).map (4608 + ·)).map fun b =>
      (b, BitVec.ofNat 256 (2 ^ 64 * (2 * 2 ^ 61 + 10 + b) + 2 ^ 17 + 2 ^ 18)) }

/-- Core 0 runs a handler; its frame, in the pool of handle 2, holds `action`. -/
def handlerRuns (action : Nat) (f : CoreSt → CoreSt) : State :=
  let s := coreRuns .L fun c => f { c with hm := true, pool := 2, job := some { kind := .handler, code := 1, len := 2 } }
  ({ s with columns := [(0, { poolHandle := 2, poolAreas := 145 })], tensors := set s.tensors 2 poolTensor
            saves := [(0, s.core 0)] } : State).setFrameItem 2 0 3 action

theorem witness_Eret :
    ([0, 1, 2, 3].all fun n => (handlerRuns n id).ready .eret && (handlerRuns n id).handlerQuiet 0 &&
      decide ((handlerRuns n id).frameAction 0 = n)) = true ∧
    (handlerRuns 0 fun c => { c with bulk := [{}] }).ready .eret = true ∧
    (handlerRuns 0 fun c => { c with bulk := [{}] }).handlerQuiet 0 = false := by decide +kernel

theorem witness_Privileged :
    let s := coreRuns .L id
    s.live = true ∧ ([.eret, .binv 1 2, .slotset 1 2, .setc 1 0x105, .setc 1 0x106, .setc 1 0x109] : List Instr).all
      (fun i => i.wf && permitted i s.strm && !i.isEvent && isPrivileged i) = true ∧ (s.core s.who).hm = false := by decide +kernel

theorem witness_DecodeChecks :
    let s := coreRuns .L id
    s.live = true ∧ ([.vadd 1 2 3 0, .fadd 1 2 3 0, .qpopOq 0 1, .nmc 1 2 3 0] : List Instr).all
      (fun i => i.wf && !i.isEvent && !permitted i s.strm) = true := by decide +kernel

theorem witness_PendingStall :
    let s := coreRuns .L fun c => c.modStrm .L fun t => { t with pend := 4 }
    s.live = true ∧ (Instr.add 3 1 2).wf = true ∧ (Instr.add 3 1 2).isEvent = false ∧ permitted (.add 3 1 2) s.strm = true ∧
    privileged (.add 3 1 2) = false ∧ (s.core s.who).regain.isSome = false ∧ firstPending (.add 3 1 2) s.cur = some 2 := by
  decide +kernel

theorem witness_Raise :
    ([.running, .draining, .stopping .fault, .stopping .preempt, .stopping .suspend] : List Phase).all (fun p =>
      ((coreRuns .C fun c => { c with phase := p }).core 0).phase == p) = true := by decide +kernel

theorem witness_CompletionFrame :
    let s := coreRuns .L id
    s.successor 0 .L ⟨1, 1⟩ ≠ none ∧ s.successor 0 .L ⟨1, 15⟩ = none := by decide +kernel

/-- Counters 3 to 5 count the instructions of C, of the vector port, and those that draw *rb*, in any region. -/
theorem witness_CompletionFrame_counters :
    let all := 2 ^ 32 * noRegion
    let s := coreRuns .C fun c => { c with ctr := { c.ctr with pmcsel :=
      [(3, BitVec.ofNat 64 (all + 2 ^ 17 + 2)), (4, BitVec.ofNat 64 (all + 4)), (5, BitVec.ofNat 64 (all + 2 ^ 17 + 15))] } }
    ([(3, 2), (4, 4), (5, 15)].all fun p =>
      s.pmcCounts (s.core 0) (look 0 (s.core 0).ctr.pmcsel p.1).toNat p.2 (if p.2 = 4 then none else some .C)) = true ∧
    bitsOf (look 0 (s.core 0).ctr.pmcsel 3).toNat 29 3 = s.vf (s.core 0).theJob.region ∧ (3 : BitVec 13).toNat = 3 := by
  decide +kernel

theorem witness_GetcSetc_written :
    let s := fun ws => coreRuns .C fun c => { c with srseed := 5, written := [(0x00A, (ws, 9))], c := { c.c with regs := [(1, 77)] } }
    ([[0], [1], [2]].all fun ws => (s ws).ready (.getc 2 0x00A) && (s ws).ready (.setc 1 0x00A) &&
      (find ((s ws).core 0).written 0x00A == some (ws, 9)) && !((s ws).core 0).setcBad 0x00A 77) = true ∧
    cregShared 0x00A = true ∧ cregHandlerRead 0x00A = false := by decide +kernel

theorem witness_GetcSetc :
    let s := regsRun .C [(1, 3), (2, 5)]
    s.ready (.getc 1 0x010) = true ∧ s.ready (.getc 1 0x103) = true ∧ find (s.core s.who).written 0x010 = none ∧
    s.ready (.setc 1 0x003) = true ∧ cregShared 0x003 = false ∧ (s.core s.who).setcBad 0x003 (s.cur.val 1) = false ∧
    s.ready (.setc 1 0x00A) = true ∧ cregShared 0x00A = true ∧ find (s.core s.who).written 0x00A = none ∧
    (s.core s.who).setcBad 0x00A (s.cur.val 1) = false ∧ s.ready (.setc 2 0x008) = true ∧
    (s.core s.who).setcBad 0x008 (s.cur.val 2) = true := by decide +kernel

theorem witness_ControlRegisterReadsBack : (({} : CoreSt).debug = false) ∧ 0x020 ≤ 0x027 := by decide

/-! The scratchpad. -/

theorem witness_ScratchAccess :
    let s := regsRun .L [(1, 0x1000), (2, 0x22), (4, 0x33)]
    let far := regsRun .L [(1, 0x100000)]
    let odd := regsRun .L [(1, 0x1002)]
    ([.ld 3 1 3 0 0, .st 2 1 2 0 4, .amoAdd 3 1 2 0, .amoMin 3 1 2 1, .amoMax 3 1 2 0, .amoAnd 3 1 2 0, .amoOr 3 1 2 0,
      .amoXor 3 1 2 0, .amoSwap 3 1 2 0, .cas 3 1 2 4 1] : List Instr).all (fun i => match scratchAccess i s.cur with
        | some (ea, n) => s.ready i && s.spOk ea n n
        | none => false) = true ∧
    far.ready (.ld 3 1 0 0 0) = true ∧ scratchAccess (.ld 3 1 0 0 0) far.cur = some (0x100000, 1) ∧ 2 ^ 20 < 0x100000 + 1 ∧
    odd.ready (.ld 3 1 2 0 0) = true ∧ scratchAccess (.ld 3 1 2 0 0) odd.cur = some (0x1002, 4) ∧ 0x1002 % 4 ≠ 0 := by
  decide +kernel

theorem witness_ScratchAccess_watch :
    let s := coreRuns .L fun c => { c with
      l := { c.l with regs := [(1, 0x1000)] }, ctr := { c.ctr with watch := [(0, 0xB000FF0000001000)] } }
    ([.ld 3 1 3 0 0, .st 2 1 3 0 0, .amoAdd 3 1 2 1, .cas 3 1 2 4 1] : List Instr).all (fun i => s.ready i &&
      (scratchAccess i s.cur == some (0x1000, 8)) && (scratchWatch i (s.core 0) [(0x1000, 8)]).isSome) = true := by decide +kernel

theorem witness_ScratchAccess_release :
    let s := regsRun .L [(1, 0x1000), (2, 0x22)]
    let late := coreRuns .L fun c => c.modStrm .L fun t => { t with regs := [(1, 0x1000)], stackq := [{ op := .write }] }
    let i : Instr := .st 2 1 2 1 4
    isRelease i = true ∧ s.ready i = true ∧ scratchAccess i s.cur = some (0x1004, 4) ∧ s.fencePassed s.who s.strm = true ∧
    late.ready i = true ∧ scratchAccess i late.cur = some (0x1004, 4) ∧ late.fencePassed late.who late.strm = false := by
  decide +kernel

theorem witness_ScratchFrame :
    let s := regsRun .L [(1, 0xFFFF8), (2, 0x22)]
    scratchAccess (.st 2 1 3 0 0) s.cur = some (0xFFFF8, 8) ∧ s.ready (.st 2 1 3 0 0) = true ∧ s.spOk 0xFFFF8 8 8 = true ∧
    answersNext (exec (.st 2 1 3 0 0) s) = true := by decide +kernel

theorem witness_Fence :
    let s := coreRuns .L id
    let u := coreRuns .L fun c => c.modStrm .L fun t => { t with stackq := [{ op := .write }] }
    let far := { s with transit := [{ frm := 0, dest := 4, vec := [1, 0, 0, 0], core := 0, strm := .L }] }
    s.ready (.fence 4) = true ∧ s.fencePassed s.who s.strm = true ∧ s.writesDone s.who s.strm = true ∧
    u.ready (.fence 0) = true ∧ u.fencePassed u.who u.strm = false ∧ far.ready (.fence 4) = true ∧
    far.writesDone 0 .L = false := by decide +kernel

theorem witness_DynamicAllocation :
    let c : CoreSt := (coreRuns .L id).core 0
    let late := coreRuns .L fun c => { c with allocRan := some 2 }
    ([0, 1, 16382, 16383].all fun n => (regsRun .L [(1, BitVec.ofNat 64 n)]).ready (.spal 3 1)) = true ∧
    c.allocLate .L = false ∧ ({ c with allocRan := some 0 } : CoreSt).allocLate .C = false ∧
    (late.core 0).allocLate .L = true ∧ late.ready (.spal 3 1) = true ∧ late.ready (.spfree 1) = true ∧
    ((List.range (16382 - 1)).map (· + 1)).find? (c.fits 1) = some 1 ∧
    ((List.range (16382 - 16382)).map (· + 1)).find? (c.fits 16382) = none ∧
    (regsRun .L [(1, 64)]).ready (.spfree 1) = true ∧
    (([(1, 2), (4, 1)] : List (Nat × Nat)).find? fun e => 64 * e.1 == 64) = some (1, 2) ∧
    (([] : List (Nat × Nat)).find? fun e => 64 * e.1 == 64) = none := by decide +kernel

/-- A record of region 0, valid, of four columns. -/
def regionRecord : BitVec 512 := BitVec.ofNat 512
  (0xFFFFFFFF * 2 ^ 32 + 4 * 2 ^ 80 + 2 ^ 96 + 2 ^ 104 + 576 * 2 ^ 128 + 64 * 2 ^ 144 + (2 ^ 32 - 1) * 2 ^ 192 +
    (2 ^ 128 - 1) * 2 ^ 224)

/-! Vectors, tiles and the bench. -/

/-- Core 0 runs stream C with a predicate in m1. -/
def vectorRuns (f : CoreSt → CoreSt) : State := coreRuns .C fun c => f { c with masks := [(1, 0xF0F0123455AA0F0F)] }

/-- The forms of LaneForms, a predicate in each that carries one. -/
def laneFormsList : List Instr := [.vadd 3 1 2 1, .vsub 3 1 2 1, .vmul 3 1 2 1, .vmin 3 1 2 1, .vmax 3 1 2 1, .vabs 3 1 1,
  .vneg 3 1 1, .vfma 3 1 2 4 0, .vfma 3 1 2 4 2, .vaddPacked 3 1 2 1 0, .vsubPacked 3 1 2 1 1, .vmulPacked 3 1 2 1 0,
  .vminPacked 3 1 2 1 1, .vmaxPacked 3 1 2 1 0, .vabsPacked 3 1 1 1, .vnegPacked 3 1 1 0, .vexp2 3 1 1, .vlog2 3 1 1,
  .vrcp 3 1 1, .vrsq 3 1 1, .vtanh 3 1 1, .vsigm 3 1 1, .vsel 3 1 2 1, .vand 3 1 2 1, .vor 3 1 2 1, .vxor 1 1 2 1,
  .vshl 3 1 2 1, .vshr 3 1 2 1, .vsra 3 1 2 1, .viadd 3 1 2 1, .visub 3 1 2 1, .vimul 3 1 2 1, .vdeq 3 1 2 0x13,
  .vbcast 3 1 1, .vins 3 1 7, .vpack 1 1 2 1, .vunpk 1 1 1, .radd 3 1 2, .rsub 3 1 2]

theorem witness_LaneForms :
    let s := vectorRuns id
    laneFormsList.all (fun i => s.ready i && (laneResult i (s.core s.who)).isSome && answersNext (exec i s)) = true ∧
    ((s.core s.who).mask 1).getLsbD 0 = true ∧ ((s.core s.who).mask 1).getLsbD 4 = false := by decide +kernel

theorem witness_RowForms :
    let s := vectorRuns id
    let full := vectorRuns fun c => { c with ctr := { c.ctr with lwc := 32 } }
    let wide := vectorRuns fun c => { c with c := { c.c with rqf := 25 } }
    ([.vperm 3 1 2 1, .vrot 1 1 7 1, .vhad 3 1 1 1 1, .vreds 3 1 1 0, .vredx 3 1 1 1, .vscan 3 1 1 2, .vrng 3 1] :
      List Instr).all (fun i => s.ready i && (rowResult i (s.core s.who)).isSome) = true ∧
    (s.core s.who).ctr.lwc < 32 ∧ full.ready (.vrot 1 1 7 1) = true ∧ 32 ≤ (full.core full.who).ctr.lwc ∧
    ([.vcvt 3 1 1 0 0 0 0, .vquant 3 1 2 0x13, .vsortk 3 1 2 1, .vcmp 1 1 2 0 5 2, .mand 1 2 3, .mor 1 2 3, .mnot 1 2,
      .mpop 1 3, .vext 3 1 63, .vwin 1] : List Instr).all s.ready = true ∧
    wide.ready (.vcvt 3 1 0x0B 0 0 0 0) = true ∧ 24 < (wide.core wide.who).c.rqf.toNat := by decide +kernel

theorem witness_RowTransfers :
    let rs := [(1, (0x1000 : W64)), (2, 0xFFF80), (4, 0x1002)]
    let w := 2 ^ 63 + 2 ^ 61 + 2 ^ 60 + 2 ^ 40 * 255 + 0x1100
    let at_ := fun (n : Nat) (m : Nat) => vectorRuns fun c => { c with
      c := { c.c with regs := rs }, ctr := { c.ctr with lwc := n, watch := [(0, BitVec.ofNat 64 m)] } }
    let s := at_ 31 0
    let is := fun ra => ([.vld 1 ra 1, .vst 1 ra 1, .vgth 1 ra 2 1, .vsct 1 ra 2 1] : List Instr)
    let lanes := fun ra => (is ra).map fun i => (rowMove i (s.core 0)).map fun m => lanesFault m.lanes
    ([1, 2, 4].all fun ra => (is ra).all fun i => s.ready i && (at_ 32 0).ready i && (at_ 0 w).ready i) = true ∧
    lanes 1 = List.replicate 4 (some none) ∧
    lanes 2 = List.replicate 2 (some (some (0x09, 0x100080))) ++ List.replicate 2 (some (some (0x09, 0x100080))) ∧
    (rowMove (.vld 1 2 0) (s.core 0)).map (fun m => lanesFault m.lanes) = some (some (0x09, 0x100000)) ∧
    lanes 4 = List.replicate 4 (some (some (0x0A, 0x1102))) ∧
    ((is 1).map fun i => (rowMove i (s.core 0)).map fun m => (m.xbar, m.store)) =
      [some (true, false), some (false, true), some (true, false), some (true, true)] ∧
    (is 1).all (fun i => (rowMove i ((at_ 0 w).core 0)).any fun m =>
      (((at_ 0 w).core 0).watchHit false m.store m.ps).isSome && (((at_ 0 0).core 0).watchHit false m.store m.ps).isNone) =
      true := by decide +kernel

/-- Core 0 runs stream C with tiles 0 and 1 of shape `sh`, the format row `row`, a lease and 300 scales. -/
def benchRuns (row sh : W64) (f : CoreSt → CoreSt) : State := vectorRuns fun c => f { c with
  fmtRows := [(0, row)], tshape := [(0, sh), (1, sh)], held := true, left := 2
  sq := { head := 3, items := List.replicate 300 0x7F } }

theorem witness_TileForms :
    let s := benchRuns 0x0101 0x00083F01 fun c => { c with c := { c.c with regs := [(1, 0x1000)] } }
    let bad := benchRuns 0xFFFFFFFFFFFFFFFF 0xFF3F3F3F id
    let c := s.core s.who
    ([.tshape 0 1, .tzero 0, .fmtsel 1, .azero 1, .atr 1 0, .tld 0 1 0, .tst 0 1 0, .ald 1 1 0, .ast 1 1 0] : List Instr).all
      s.ready = true ∧ (c.shape 0).legal = true ∧ s.spOk 0x1000 (c.shape 0).bytes 64 = true ∧ s.spOk 0x1000 16384 64 = true ∧
    fmtRowOk c.fmtWord = true ∧ (fmtRowOf c.fmtWord).out ≠ 0x0B ∧
    ([.tld 0 1 0, .tst 0 1 0, .ast 0 1 0] : List Instr).all bad.ready = true ∧
    ((bad.core 0).shape 0).legal = false ∧ fmtRowOk (bad.core 0).fmtWord = false := by decide +kernel

theorem witness_TileForms_stops :
    let at_ := fun a : W64 => benchRuns 0x0101 0x00083F01 fun c => { c with
      ctr := { c.ctr with watch := [(0, 0xB000FF0000001000)] }, c := { c.c with regs := [(1, a)] } }
    let q := benchRuns 0x0B000101 0x00083F01 fun c => { c with c := { c.c with regs := [(1, 0x1000)], rqf := 25 } }
    ([0x1000, 0x1020, 0xFFFC0].all fun a => ([.tld 0 1 0, .tst 0 1 0, .ald 1 1 0, .ast 1 1 0] : List Instr).all (at_ a).ready) =
      true ∧
    ([true, false].all fun w => ((((at_ 0x1000).core 0).watchHit false w [(0x1000, ((at_ 0).core 0).shape 0 |>.bytes)]).isSome)) =
      true ∧
    1 < (((at_ 0).core 0).shape 0).bytes / 64 ∧ q.ready (.ast 1 1 0) = true ∧ fmtRowOk (q.core 0).fmtWord = true ∧
    (fmtRowOf (q.core 0).fmtWord).out = 0x0B ∧ 24 < (q.core 0).c.rqf.toNat := by decide +kernel

/-- The command passes its checks; the scales that it needs. -/
def matrixScales (c : CoreSt) (trans scaled : Bool) : Option Nat :=
  match c.matrix 0 1 trans scaled with
  | .inl x => some ((List.range x.chunks).map x.need).sum
  | .inr _ => none

theorem witness_MatrixForms :
    let s := benchRuns 0x0101 0x00083F01 id
    let u := benchRuns 0x00031313 0x00403F13 id
    let q := benchRuns 0x0101 0x00080701 id
    let no := benchRuns 0x0101 0x00083F01 fun c => { c with held := false }
    let one : List Byte := List.replicate 256 7
    let pop := fun n => benchRuns 0x0101 0x00083F01 fun c => { c with dq := [(1, { head := 31, items := List.replicate n one })] }
    let need := (((s.core 0).shape 0).bytes + 255) / 256
    s.ready (.mma 2 0 1) = true ∧ matrixScales (s.core 0) false false = some 0 ∧ (s.core 0).theJob.held = false ∧
    (s.core 0).held = true ∧ q.ready (.mmat 2 0 1) = true ∧ matrixScales (q.core 0) true false = some 0 ∧
    u.ready (.mmas 2 0 1) = true ∧ (matrixScales (u.core 0) false true).any (fun n => 0 < n && n ≤ 300) = true ∧
    no.ready (.mma 2 0 1) = true ∧ (no.core 0).held = false ∧ ((s.core 0).shape 0).legal = true ∧
    (pop 5).ready (.tpop 0 1) = true ∧ need ≤ (((pop 5).core 0).popTile 0 1 ((s.core 0).shape 0).bytes need 0).2 ∧
    (pop 1).ready (.tpop 0 1) = true ∧ (((pop 1).core 0).popTile 0 1 ((s.core 0).shape 0).bytes need 0).2 < need := by
  decide +kernel

theorem witness_MatrixForms_busy :
    let s := benchRuns 0x0101 0x00083F01 id
    let partner : CoreSt := { job := some { held := true }, phase := .running }
    let u := { s with cores := s.cores ++ [(1, partner)] }
    let short := { s with columns := [(0, { limited := true })] }
    u.ready (.mma 2 0 1) = true ∧ u.benchBusy u.who = true ∧ s.benchBusy s.who = false ∧ s.throttled s.who = false ∧
    short.ready (.mma 2 0 1) = true ∧ short.benchBusy 0 = false ∧ (short.column (colOf 0)).limited = true ∧
    (s.core 0).sq.ready.length = 300 ∧ ({ s.core 0 with sq := { (s.core 0).sq with pushed := 9 } } : CoreSt).sq.ready.length =
      291 := by decide +kernel

/-- A row or a shape that fails, and mmas whose scales run short, at its issue and when it goes on. -/
theorem witness_MatrixForms_stops :
    let bad := fun (row sh : W64) => benchRuns row sh id
    let few := fun (n : Nat) (h : Bool) => benchRuns 0x00031313 0x00403F13 fun c => { c with
      sq := { items := List.replicate n 0x7F }, job := c.job.map fun j => { j with held := h } }
    let fits := fun (s : State) => match (s.core 0).matrix 0 1 false true with
      | .inl x => ((s.core 0).sq.ready.length, (List.range x.chunks).map x.need)
      | .inr _ => (0, [])
    ([bad 0xFFFFFFFFFFFFFFFF 0x00083F01, bad 0x0101 0x00083F02, bad 0x0101 0xFF3F3F01].all fun s =>
      s.ready (.mma 2 0 1) && s.ready (.tpop 0 1)) = true ∧
    fmtRowOk ((bad 0xFFFFFFFFFFFFFFFF 0).core 0).fmtWord = false ∧ fmtRowOk ((bad 0x0101 0).core 0).fmtWord = true ∧
    (((bad 0x0101 0x00083F02).core 0).shape 0).fmt ≠ 1 ∧ (((bad 0x0101 0xFF3F3F01).core 0).shape 0).legal = false ∧
    ([few 70 false, few 70 true, few 300 true].all fun s => s.ready (.mmas 2 0 1) && !s.benchBusy 0 && !s.throttled 0) = true ∧
    ((fits (few 70 false)).2.take 1).all (70 < ·) = true ∧ (fits (few 70 false)).2.sum > 70 ∧
    (fits (few 300 true)).2.sum ≤ 300 ∧ ((few 70 true).core 0).theJob.held = true := by decide +kernel

theorem witness_Lease :
    let s := fun (got : Bool) (req : Option (BitVec 7)) => coreRuns .C fun c => { c with leaseGot := got, leaseReq := req }
    let asking : CoreSt := { leaseReq := some 9 }
    (s true none).ready (.lease 9) = true ∧ ((s true none).core 0).leaseGot = true ∧ (s false (some 5)).ready (.lease 9) = true ∧
    ((s false (some 5)).core 0).leaseReq.isSome = true ∧ (s false none).ready (.lease 9) = true ∧
    (s false none).ready .unlease = true ∧ asking.leaseAt < (5 : W64).toNat ∧ (5 : W64).toNat ≤ ({ asking with leaseAt := 5 } : CoreSt).leaseAt ∧
    (State.reset.bench 17).holder = 0 ∧ (({ State.reset with cores := [(34, asking)] } : State).core 34).leaseReq.isSome = true ∧
    (({ State.reset with cores := [(34, asking)] } : State).core 35).leaseReq.isSome = false := by decide +kernel

/-! Queues, tokens and markers. -/

/-- Core 0 runs stream `x` with `n` entries in its queues and `a` in s1. -/
def queueRuns (x : Strm) (n : Nat) (a : W64) : State :=
  let e : List Byte := List.replicate 256 7
  coreRuns x fun c => ({ c with
    dq := [(1, { head := 17, items := List.replicate (min n 16) e })], oq := [(0, { head := 3, items := List.replicate (min n 16) e })]
    sq := { items := List.replicate (min n 256) 9 }, bq := { items := List.replicate (min n 64) true }
    tk := [(0, { items := List.replicate (min n 32) 5 }), (2, { items := List.replicate (min n 32) 5 }),
      (3, { items := List.replicate (min n 32) 5 })] } : CoreSt).modStrm x fun t => { t with regs := [(1, a)] }

theorem witness_Qstat : (queueRuns .S 16 0).ready (.qstat 1 3) = true := by decide +kernel

theorem witness_QueueForms :
    let ready := fun n x (i : Instr) => (queueRuns x n 0x1000).ready i
    ([0, 1, 256].all fun n => ready n .L (.qpushDq 1 1) && ready n .S (.qpopOq 0 1) && ready n .L (.bqpush 1) &&
      ready n .L (.sqpush 1 7) && ready n .C (.qpushOq 0 2) && ready n .C (.qpopDq 1 2) && ready n .L (.tksend 0 1) &&
      ready n .C (.tkrecv 0 3)) = true ∧
    (queueRuns .L 0 0x1000).spOk 0x1000 256 64 = true ∧ ((queueRuns .L 0 0).core 0).feeding .L 1 = false ∧
    ((queueRuns .L 0 0).core 0).feeding .L 4 = false ∧ scratchFault 0x1000 256 64 = none := by decide +kernel

/-- Core 0 runs stream L; every queue has had `p` entries pushed and `q` popped in this ac, and holds `n`. -/
def busyQueues (n p q : Nat) : State :=
  let e : List Byte := List.replicate 256 7
  coreRuns .L fun c => ({ c with
    dq := [(1, { items := List.replicate n e, pushed := p, popped := q })]
    oq := [(0, { items := List.replicate n e, pushed := p, popped := q })]
    sq := { items := List.replicate (16 * n) 9, pushed := 16 * p, popped := 16 * q }
    bq := { items := List.replicate (4 * n) true, pushed := 4 * p, popped := 4 * q } } : CoreSt).modStrm .L fun t =>
      { t with regs := [(1, 0x1000)] }

theorem witness_QueueForms_same_ac :
    let full := (busyQueues 15 0 1).core 0
    let fresh := (busyQueues 1 1 0).core 0
    (busyQueues 15 0 1).ready (.qpushDq 1 1) = true ∧ (look {} full.dq 1).hasRoom 16 1 = false ∧
    full.sq.hasRoom 256 1 = false ∧ full.bq.hasRoom 64 1 = false ∧ (look {} fresh.dq 1).ready = [] ∧
    (look {} fresh.oq 0).ready = [] ∧ fresh.bq.ready = [] ∧ 15 + 1 = 16 ∧
    (look {} ((busyQueues 15 0 0).core 0).dq 1).hasRoom 16 1 = true ∧
    (busyQueues 1 1 0).ready (.qstat 1 3) = true ∧
    (let f : Cmd := { instr := .cpy 3 1 2 2 1 0 1 0, strm := .L }
     ({ full with cmds := [f] } : CoreSt).feeding .L 1 = true ∧
       ({ full with cmds := [{ f with stage := .drain }] } : CoreSt).feeding .L 1 = false) := by decide +kernel

/-- Core 0 runs stream L with three commands queued and the markers `ms`. -/
def markRuns (ms : List (Nat × Nat)) : State :=
  coreRuns .L fun c => { c with l := { c.l with
    seq := 4, marks := ms, near := [{ instr := .nmc 1 2 3 0, strm := .L, seq := 1 }]
    dray := [{ instr := .cpy 1 2 3 0 0 0 0 0, strm := .L, seq := 0 }, { instr := .cpy 1 2 3 0 0 0 0 0, strm := .L, seq := 3 }] } }

theorem witness_QueueForms_markers :
    let s := markRuns [(0, 2), (1, 1)]
    let u := coreRuns .L id
    s.ready (.mark 5) = true ∧ ((s.core 0).liveMarks .L).length < 15 ∧ s.ready .joinm = true ∧
    (s.core 0).liveMarks .L ≠ [] ∧ u.ready .joinm = true ∧ (u.core 0).liveMarks .L = [] := by decide +kernel

theorem witness_QueueForms_markers_full :
    let s := coreRuns .L fun c => { c with l := { c.l with
      seq := 40, marks := (List.range 15).map (fun i => (0, i + 1)), dray := [{ instr := .cpy 1 2 3 0 0 0 0 0, strm := .L, seq := 0 }] } }
    s.ready (.mark 1) = true ∧ (((List.range 4).filter (1 : BitVec 4).getLsbD).find? fun k =>
      15 ≤ (((s.core 0).liveMarks .L).filter fun m => m.1 == k).length) = some 0 := by decide +kernel

/-! Stack scope. -/

/-- A column whose slots 3 to 5 the layer of core 0 owns, for packets and for bulk transfers. -/
def slottedColumn : Column :=
  { slots := [(3, 0x101), (4, 0x31F), (5, 0x201)], round := 9, slot := 4, slotAt := 100 }

/-- Core 0 runs stream L with `n` packets queued, on a column with or without slots. -/
def scopeRuns (slots : Bool) (n : Nat) (f : CoreSt → CoreSt) : State :=
  { coreRuns .L fun c => f { c with l := { c.l with
      regs := [(1, 0x100), (2, 0x80), (4, 1), (5, 2), (6, 5), (7, 0x40000)]
      stackq := List.replicate n { op := .write, ea := 0x2000, n := 4 } } }
    with columns := [(0, if slots then slottedColumn else {})], regions := [(0, regionRecord)] }

theorem witness_StackForms :
    let s := scopeRuns true 7 id
    let u := scopeRuns false 0 id
    s.ready (.lds 3 1 3 0) = true ∧ s.ready (.sts 3 1 3 0) = true ∧ 0x100 % 8 = 0 ∧ s.scopeBlocked 0 .L 0x100 8 = false ∧
    s.scopeUnwatched [(0x100, 8)] = true ∧ s.hasPacketSlot 0 = true ∧ s.cur.stackq.length < 8 ∧
    u.ready (.sts 3 1 3 0) = true ∧ u.hasPacketSlot 0 = false ∧ s.ready (.swatch 1 2) = true ∧
    (s.cur.val 1).toNat + (s.cur.val 2).toNat ≤ 2 ^ 18 ∧ s.ready (.slotq 3 5) = true ∧ s.cur.val 5 = 2 ∧
    s.ready (.slotq 3 6) = true ∧ 4 < (s.cur.val 6).toNat := by decide +kernel

theorem witness_StackForms_waits :
    let s := scopeRuns true 8 id
    let hit := scopeRuns true 0 fun c => { c with l := { c.l with regs := [(1, 0x2000), (2, 0x40001)] } }
    let blocked := { hit with cores := [(0, { hit.core 0 with
      l := { (hit.core 0).l with stackq := [{ op := .write, ea := 0x2004, n := 4 }] } })] }
    let due := { hit with time := 204, columns := [(0, { slottedColumn with flying := [{ at_ := 200 }] })] }
    s.ready (.sts 3 1 3 0) = true ∧ s.cur.stackq.length = 8 ∧ blocked.ready (.lds 3 1 3 0) = true ∧
    blocked.scopeBlocked 0 .L 0x2000 8 = true ∧ due.ready (.lds 3 1 3 0) = true ∧ due.scopeDue 0 = true ∧
    due.scopeBlocked 0 .L 0x2000 8 = false ∧ ({ due with time := 203 } : State).scopeDue 0 = false ∧
    hit.ready (.swatch 1 2) = true ∧ 2 ^ 18 < (hit.cur.val 1).toNat + (hit.cur.val 2).toNat ∧
    hit.ready (.slotq 3 0) = true ∧ hit.cur.val 0 = 0 := by decide +kernel

theorem witness_ScopeAtomics :
    let s := scopeRuns true 7 id
    let u := scopeRuns true 0 fun c => { c with guard := 77 }
    ([.amosAdd 3 1 2 1, .amosMin 3 1 2 0, .amosMax 0 1 2 0, .amosAnd 3 1 2 0, .amosOr 3 1 2 0, .amosXor 3 1 2 0,
      .amosSwap 3 1 2 0, .cass 3 1 2 4 1] : List Instr).all (fun i => s.ready i && u.ready i && (scopeAtomic i s.cur).isSome) =
      true ∧ s.hasPacketSlot s.who = true ∧ u.hasPacketSlot u.who = true ∧ (s.core 0).guard = 0 ∧ s.cur.stackq.length < 8 ∧
    (((s.core 0).watchHit true true [(0x100, 8)]).or ((s.core 0).watchHit true false [(0x100, 8)])) = none ∧
    (u.core 0).guard ≠ 0 := by decide +kernel

theorem witness_ScopeAtomics_others :
    let full := scopeRuns true 8 id
    let none_ := scopeRuns false 0 id
    let seen := scopeRuns true 7 fun c => { c with ctr := { c.ctr with watch := [(1, 0xF000000000000100)] } }
    full.ready (.amosAdd 3 1 2 1) = true ∧ full.hasPacketSlot 0 = true ∧ 8 ≤ full.cur.stackq.length ∧
    none_.ready (.amosAdd 3 1 2 1) = true ∧ none_.hasPacketSlot 0 = false ∧ seen.ready (.amosAdd 3 1 2 1) = true ∧
    (seen.core 0).guard = 0 ∧ seen.cur.stackq.length < 8 ∧ (seen.core 0).watchHit true true [(0x100, 8)] = some 0x10001 := by
  decide +kernel

/-- Watched, unaligned and outside the segment. -/
theorem witness_StackForms_stops :
    let s := fun a : W64 => scopeRuns true 3 fun c => { c with
      ctr := { c.ctr with watch := [(1, 0xF000FF0000000100)] }, l := { c.l with regs := [(1, a), (2, 5), (4, 6)] } }
    ([0x100, 0x104, 0x3FFFC].all fun a => ([.lds 3 1 3 0, .sts 3 1 3 0, .amosAdd 3 1 2 1, .cass 3 1 2 4 1] : List Instr).all
      (s a).ready) = true ∧
    ([true, false].all fun w => (((s 0x100).core 0).watchHit true w [(0x100, 8)]).isSome) = true ∧
    (s 0x100).scopeBlocked 0 .L 0x100 8 = false ∧ (s 0x100).scopeDue 0 = false ∧ (s 0x100).hasPacketSlot 0 = true := by
  decide +kernel

theorem witness_SbcastAndSlotset_stops :
    let s := fun (off len mask : W64) (n : Nat) (slots : Bool) (m : List Nat) => scopeRuns slots 0 fun c => { c with
      bulk := List.replicate n {}, job := some { code := 1, len := 2, roles := [{ kind := 0, members := m }] }
      l := { c.l with regs := [(1, off), (2, len), (4, mask)] } }
    ([s 0 65 1 0 true [0], s 0 64 0 0 true [0], s 32 64 1 0 true [0], s 0xFFFC0 128 1 0 true [0], s 0x100 128 2 0 true [0],
      s 0x100 128 1 0 true [256], s 0x100 128 1 4 false [0], s 0x100 128 1 4 true [0]].all fun s => s.ready (.sbcast 3 1 2 4)) =
      true ∧
    ((s 0 0 1 0 true [0]).core 0).theJob.roles.length = 1 ∧ roleCores [{ kind := 0, members := [256] }] 1 0 = none ∧
    roleCores [{ kind := 0, members := [0] }] 1 0 ≠ none ∧
    ((s 0 0 1 0 false [0]).column 0).ownedSlots slotBulk (layerId 0) 0 = [] ∧
    ((s 0 0 1 0 true [0]).column 0).ownedSlots slotBulk (layerId 0) 0 ≠ [] := by decide +kernel

theorem witness_SbcastAndSlotset :
    let s := scopeRuns true 0 fun c => { c with job := some { code := 1, len := 2, roles := [{ kind := 0, members := [0] }] } }
    let u := fun n e w p => scopeRuns true 0 fun c =>
      { c with hm := true, posted := p, l := { c.l with regs := [(1, n), (2, e)], wait := w } }
    let a := u 63 0x101 none false
    let free := fun e => slotSound e && (slotKind e == 0 || (a.isWithin (slotRegion e) 0 &&
      decide ((a.column 0).ownedAfter 63 e (slotRegion e) ≤ a.slotsBudget (slotRegion e))))
    s.ready (.sbcast 3 1 2 4) = true ∧ roleCores (s.core 0).theJob.roles 1 0 ≠ none ∧
    (s.column 0).ownedSlots slotBulk (layerId 0) (s.core 0).theJob.region ≠ [] ∧ (s.core 0).bulk.length < 4 ∧
    a.ready (.slotset 1 2) = true ∧ a.cur.wait ≠ some .boundary ∧ free 0x101 = true ∧ free 0 = true ∧
    (u 64 0x101 none false).ready (.slotset 1 2) = true ∧
    (u 63 0x7F none false).ready (.slotset 1 2) = true ∧ slotSound 0x7F = false ∧
    (u 63 0x500000101 none false).ready (.slotset 1 2) = true ∧ free 0x500000101 = false ∧ slotSound 0x500000101 = true ∧
    ([true, false].all fun p => (u 63 0x101 (some .boundary) p).ready (.slotset 1 2) &&
      ((u 63 0x101 (some .boundary) p).core 0).posted == p) = true := by decide +kernel

theorem witness_SbcastAndSlotset_order :
    let p : PendingSlot := { value := 0x201, core := 3, at_ := 7 }
    ((some p).any fun p => p.at_ == 7 && 2 < p.core) = true ∧ ((some p).any fun p => p.at_ == 8 && 2 < p.core) = false := by decide

/-! Commands and tensors. -/

/-- A descriptor of a block in tier `tier`, frame `n`. -/
def blockDesc (b tier n : Nat) : Nat × BitVec 256 := (b, BitVec.ofNat 256 (2 ^ 64 * (tier * 2 ^ 61 + n) + 2 ^ 17 + 2 ^ 18 + 2 ^ 20))

/-- A tensor of state `st` with the blocks `bs`. -/
def tensorOf (st : Nat) (bs : List (Nat × BitVec 256)) : Tensor :=
  { info := { state := st, size := 0x20000, ver := 6 }, dimCount := 1, extents := [0x20000], strides := [1], blocks := bs }

/-- Core 0 runs stream L beside the weights 0x42 and the cache tensor 0x10000042; s1 and s4 hold the handles, s2 is `n`. -/
def tensorRuns (n : W64) (f : CoreSt → CoreSt) : State :=
  { coreRuns .L fun c => f { c with
      pins := [0x42], l := { c.l with regs := [(1, 0x42), (2, n), (4, 0x10000042), (5, 9), (6, 11)] } } with
    regions := [(0, regionRecord)]
    tensors := [(1, placedTensor), (0x42, tensorOf 1 [blockDesc 0 1 200, blockDesc 1 1 201]),
      (0x10000042, { tensorOf 1 [blockDesc 0 1 300, blockDesc 7 1 301] with kv := [(3, 7)], shares := [(7, 1)] })] }

/-- `tensorReady`, as a test. -/
def tensorReadyTest (s : State) (i : Instr) (ra : BitVec 5) (h : Nat) (classes : List Nat) : Bool :=
  s.ready i && s.cur.queued.isEmpty && (s.cur.val ra).toNat % 2 ^ 32 == h && (s.tensorFault s.who h classes).isNone

/-- The command that `i` issues. -/
def issuedCmd (s : State) (i : Instr) (tok : Nat) (a b : W64) : Cmd :=
  { instr := i, tok := tok, strm := s.strm, a := a, b := b, desc := (s.core s.who).scratch.bytes a.toNat 64
    seq := s.cur.seq, entered := (s.core s.who).entered, at_ := s.time.toNat, buf := s.cur.buftag, rqf := s.cur.rqf.toNat }

/-- Core 0 runs stream `x`; a descriptor with the fields (byte, length, value) of `d` stands at 0x1000, and s1 is `base`;
`q` copies are queued. -/
def commandRuns (x : Strm) (d : List (Nat × Nat × Nat)) (base : W64) (q : Nat) : State := coreRuns x fun c => ({ c with
  scratch := d.foldl (fun m f => m.setNum (0x1000 + f.1) f.2.1 f.2.2) c.scratch
  job := some { code := 1, len := 2, roles := [{ kind := 2, members := [0] }], handles := [0x42] } } : CoreSt).modStrm x fun t =>
    { t with regs := [(1, base)], dray := List.replicate q { instr := .cpy 3 1 2 0 0 0 0 0 } }

/-- The command of the descriptor `d` passes its checks. -/
def commandPasses (x : Strm) (d : List (Nat × Nat × Nat)) (i : Instr) : Bool :=
  let s := commandRuns x d 0x1000 0
  s.ready i && (commandFields i).isSome && (issuedCmd s i 3 0x1000 0).issueFault (s.core 0).theJob 0 s == none

theorem witness_CommandIssue :
    let copy := [(0, 4, 0x42), (40, 2, 32), (42, 2, 32), (44, 2, 1), (46, 2, 1)]
    let s := commandRuns .L copy
    let i : Instr := .cpy 3 1 2 0 0 0 0 0
    commandPasses .L copy i = true ∧ commandPasses .L copy (.gth 3 1 2 0 0) = true ∧
    commandPasses .L ((59, 1, 0) :: (60, 1, 0) :: (61, 1, 0x13) :: copy) (.cpyq 3 1 2 0) = true ∧
    commandPasses .L [(24, 4, 1)] (.coll 3 1 2 0 0) = true ∧ commandPasses .S [] (.nmc 3 1 2 0) = true ∧
    commandPasses .L [(25, 1, 2), (16, 4, 1), (24, 1, 1)] (.dec 3 1 2 0 0) = true ∧
    ((s 0x1000 15).cur.queueOf 0).length < classRoom 0 ∧ ((s 0x1000 15).core 0).ranged < 32 ∧
    classRoom 0 ≤ ((s 0x1000 16).cur.queueOf 0).length ∧ (s 0xFFFF0 0).ready i = true ∧ 2 ^ 20 < 0xFFFF0 + 64 ∧
    (s 0x1020 0).ready i = true ∧ 0x1020 % 64 ≠ 0 := by decide +kernel

theorem witness_CommandIssue_refused :
    let s := commandRuns .L [(0, 4, 0x42), (44, 2, 1), (46, 2, 1), (63, 1, 9)] 0x1000 0
    let i : Instr := .cpy 3 1 2 0 0 0 0 0
    s.ready i = true ∧ ((issuedCmd s i 3 0x1000 0).issueFault (s.core 0).theJob 0 s).isSome = true := by decide +kernel

theorem witness_TensorChecks :
    let s := tensorRuns 3 id
    let queued := tensorRuns 3 fun c => { c with l := { c.l with near := [{ instr := .nmc 1 1 1 0 }] } }
    let below := tensorRuns 3 fun c => { c with job := some { code := 1, len := 2, region := 5 } }
    let closed := { below with tensors := [(0x42, tensorOf 1 [(0, 0)])] }
    ([.tref 3 1, .tunpin 1, .thint 1 2, .tnewv 3 1 2, .tnewvZero 3 1 2, .pubv 3 1, .kvalloc 3 1 2, .kvmap 3 1 2, .kvfree 3 1 2,
      .kvshare 3 1 2 4] :
      List Instr).all (fun i => s.ready i && queued.ready i && closed.ready i) = true ∧ queued.cur.queued ≠ [] ∧
    s.cur.queued = [] ∧ s.tensorValid 9 = false ∧ s.tensorValid 0x42 = true ∧ handleClass 0x42 ∉ [1] ∧
    closed.tensorValid 0x42 = true ∧ dShared ((closed.tensor 0x42).block 0) = false ∧
    closed.isWithin (closed.tensor 0x42).info.region (closed.core 0).theJob.region = false := by decide +kernel

theorem witness_PinForms :
    let s := fun n => tensorRuns n id
    let free := tensorRuns 3 fun c => { c with pins := [] }
    let r := ((s 3).tensor 0x42).info
    tensorReadyTest (s 3) (.tref 3 1) 1 0x42 [0, 1, 3] = true ∧ ((s 3).core 0).pins.length < 16 ∧ r.state < 7 ∧ r.pin ≠ 0xFFFF ∧
    tensorReadyTest (s 3) (.tunpin 1) 1 0x42 [0, 1, 3] = true ∧ 0x42 ∈ ((s 3).core 0).pins ∧
    tensorReadyTest free (.tunpin 1) 1 0x42 [0, 1, 3] = true ∧ 0x42 ∉ (free.core 0).pins ∧
    ([0, 1, 3, 4, 8, 15, 16].all fun n => tensorReadyTest (s n) (.thint 1 2) 1 0x42 [0, 1, 3]) = true ∧
    r.pin = 0 ∧ ((s 3).tensor 0x42).tier.any (· != 3) = true ∧ ((s 3).tensor 0x42).tier.any (· != 1) = false ∧
    ((s 3).tensor 0x42).blocks.all (fun b => dget b.2 22 1 == 0 && dget b.2 21 1 == 0) = true ∧
    (s 3).takes (handleHome 0x42) 2 0x42 = true := by decide +kernel

theorem witness_PinForms_waits :
    let s := fun (st : Nat) (pin : Nat) (f : CoreSt → CoreSt) =>
      let s := tensorRuns 3 f
      { s with tensors := set s.tensors 0x42 { tensorOf st [blockDesc 0 1 200] with
          info := { (tensorOf st []).info with pin := BitVec.ofNat 16 pin } } }
    let full := s 1 0 fun c => { c with pins := List.replicate 16 0x42 }
    let own := s 9 0 fun c => { c with job := some { code := 1, len := 2, kind := .recipe 0x42 } }
    ([full, s 7 0 id, s 8 0 id, s 9 0 id, own, s 1 0xFFFF id, s 7 0 fun c => { c with hm := true }].all fun s =>
      tensorReadyTest s (.tref 3 1) 1 0x42 [0, 1, 3]) = true ∧ 16 ≤ (full.core 0).pins.length ∧
    ((s 7 0 id).core 0).rebuildFailed 0x42 = none ∧ ((s 7 0 id).core 0).hm = false ∧
    ((s 7 0 id).core 0).phase = .running ∧ (({ failed := some (0x42, 0x28) } : CoreSt).rebuildFailed 0x42) = some 0x28 ∧
    ((s 9 0 id).core 0).access.rebuilds ≠ some 0x42 ∧ (own.core 0).access.rebuilds = some 0x42 ∧
    ((s 1 0xFFFF id).tensor 0x42).info.pin = 0xFFFF := by decide +kernel

theorem witness_VersionForms :
    let s := tensorRuns 129 id
    let u := nextOf (exec (.tnewv 3 1 2) s)
    tensorReadyTest s (.tnewv 3 1 2) 1 0x42 [0] = true ∧ tensorReadyTest s (.tnewvZero 3 1 2) 1 0x42 [0] = true ∧
    dget ((s.tensor 0x42).block 0) 18 1 = 1 ∧ tensorReadyTest u (.pubv 3 1) 1 0x42 [0] = true ∧
    (u.tensor 0x42).info.shadow = true ∧ (u.tensor 0x42).closing = none ∧ u.admitted 0x42 = false ∧
    tensorReadyTest s (.pubv 3 1) 1 0x42 [0] = true ∧ (s.tensor 0x42).info.shadow = false ∧
    u.movingOf 0x42 = none ∧ (find (u.tensor 0x42).blocks 0).any (fun d => dShst d == 1) = true ∧
    dShst (BitVec.ofNat 256 (3 * 2 ^ 128)) ≠ 2 := by decide +kernel

theorem witness_VersionForms_waits :
    let s := tensorRuns 129 id
    let u := nextOf (exec (.tnewv 3 1 2) s)
    let late := u.modTensor 0x42 fun t => { t with came := (u.time.toNat, 1) }
    let busy := { u with transit := [{ frm := 0, dest := 1, vec := [1, 0, 0, 0], into := some 0x42 }] }
    tensorReadyTest late (.pubv 3 1) 1 0x42 [0] = true ∧ late.comesLate 0 0x42 = true ∧ u.comesLate 0 0x42 = false ∧
    tensorReadyTest busy (.pubv 3 1) 1 0x42 [0] = true ∧ busy.admitted 0x42 = true ∧ busy.comesLate 0 0x42 = false ∧
    (busy.tensor 0x42).closing = none := by decide +kernel

theorem witness_VersionForms_faults :
    let s := fun n => tensorRuns n id
    let closed := fun n => (nextOf (exec (.tnewv 3 1 2) (s 129))).modTensor 0x42 fun t => { t with closing := some n }
    let ro := (s 129).modTensor 0x42 fun t => { t with blocks := [blockDesc 0 1 200].map fun b => (b.1, dput b.2 18 1 0) }
    ([ro, s 128, s 300].all fun s => tensorReadyTest s (.tnewv 3 1 2) 1 0x42 [0] && tensorReadyTest s (.tnewvZero 3 1 2) 1 0x42 [0]) =
      true ∧ dget ((ro.tensor 0x42).block 0) 18 1 = 0 ∧ dget (((s 128).tensor 0x42).block 0) 18 1 = 1 ∧
    ([0, 5].all fun n => tensorReadyTest (closed n) (.pubv 3 1) 1 0x42 [0] && !(closed n).comesLate 0 0x42) = true ∧
    ((closed 0).tensor 0x42).info.shadow = true ∧ 4 * (closed 0).who + strmCode (closed 0).strm = 0 ∧
    (closed 0).admitted 0x42 = false ∧ ((closed 5).tensor 0x42).closing ≠ some 0 := by decide +kernel

theorem witness_CacheForms :
    let s := fun n => tensorRuns n id
    let h := 0x10000042
    let full := { s 5 with regions := [] }
    let t := (s 3).tensor h
    let late := (s 3).modTensor h fun t => { t with came := (0, 1) }
    tensorReadyTest (s 5) (.kvmap 3 4 2) 4 h [1] = true ∧ find t.kv 5 = none ∧ find t.kv 3 = some 7 ∧
    tensorReadyTest (s 3) (.kvmap 3 4 2) 4 h [1] = true ∧ (s 3).comesLate 0 h = false ∧
    tensorReadyTest (s 5) (.kvalloc 3 4 2) 4 h [1] = true ∧
    ((s 5).comes 0 h).allocateIn [0, 1] h (dTrl t.newDesc) ≠ none ∧
    tensorReadyTest full (.kvalloc 3 4 2) 4 h [1] = true ∧
    (full.comes 0 h).allocateIn [0, 1] h (dTrl t.newDesc) = none ∧
    tensorReadyTest (s 3) (.kvshare 3 4 2 6) 4 h [1] = true ∧ find t.kv 11 = none ∧ look 1 t.shares 7 ≠ 0xFFFF ∧
    tensorReadyTest (s 3) (.kvfree 3 4 2) 4 h [1] = true ∧
    tensorReadyTest (s 3) (.kvalloc 3 4 2) 4 h [1] = true ∧ tensorReadyTest (s 5) (.kvfree 3 4 2) 4 h [1] = true ∧
    tensorReadyTest (s 5) (.kvshare 3 4 2 6) 4 h [1] = true ∧
    ([Instr.kvmap 3 4 2, .kvalloc 3 4 2, .kvshare 3 4 2 6, .kvfree 3 4 2].all fun i =>
      tensorReadyTest late i 4 h [1] && tensorReadyTest (s (2 ^ 40)) i 4 h [1]) = true ∧ late.comesLate 0 h = true ∧
    2 ^ 40 ≤ ((s (2 ^ 40)).cur.val 2).toNat ∧
    (let max := (s 3).modTensor h fun t => { t with shares := [(7, 0xFFFF)] }
     tensorReadyTest max (.kvshare 3 4 2 6) 4 h [1] && find (max.tensor h).kv 3 == some 7 &&
       look 1 (max.tensor h).shares 7 == 0xFFFF) = true := by decide +kernel

theorem witness_InfoForms :
    let s := tensorRuns 3 id
    let hm := tensorRuns 3 fun c => { c with hm := true }
    let op := tensorRuns 3 fun c => { c with job := some { kind := .operator 1 3 0, code := 1, len := 2 } }
    let st : OpStream := { ring := 0x50, cap := 4, region := 0, tail := 15 }
    let l := fun tail => ({ regsRun .L [(1, 0x1000), (2, 5)] with
      regions := [(0, regionRecord)], tensors := [(1, placedTensor), (0x50, tensorOf 1 [blockDesc 0 1 400])]
      columns := [(0, { streams := [(5, { st with tail := tail })] })] } : State)
    s.ready (.tinfo 3 1 2) = true ∧ s.tensorValid 0x42 = true ∧ s.tensorValid 9 = false ∧
    s.tensorFault 0 0x42 [0, 1, 3] = none ∧ s.ready (.useadv 3 1) = true ∧ s.cur.queued = [] ∧ 1 ≤ 0x42 ∧ 0x42 ≤ 65535 ∧
    op.ready (.useadv 3 1) = true ∧ (op.core 0).theJob.kind = .operator 1 3 0 ∧ hm.ready (.binv 1 2) = true ∧
    (l 15).ready (.launch 3 1 2) = true ∧ (l 16).ready (.launch 3 1 2) = true ∧ (l 15).streamUsed 0 5 = true ∧
    (l 15).isWithin 0 ((l 15).core 0).theJob.region = true ∧ ((l 15).opStream 0 5).full = false ∧
    ((l 16).opStream 0 5).full = true := by decide +kernel

theorem witness_InfoForms_faults :
    let st : OpStream := { ring := 0x50, cap := 4, region := 0, tail := 15 }
    let l := fun (a b : W64) => ({ coreRuns .L fun c => { c with
        job := c.job.map fun j => { j with region := 5 }, l := { c.l with regs := [(1, a), (2, b)] } } with
      regions := [(0, regionRecord)], tensors := [(1, placedTensor), (0x50, tensorOf 1 [blockDesc 0 1 400])]
      columns := [(0, { streams := [(5, st)] })] } : State)
    let at_ := fun a b (i : Instr) => (l a b).ready i
    let queued := tensorRuns 3 fun c => { c with l := { c.l with near := [{ instr := .nmc 1 1 1 0 }] } }
    at_ 0xFFFC0 5 (.launch 3 1 2) = true ∧ 2 ^ 20 < 0xFFFC0 + 128 ∧ at_ 0x1020 5 (.launch 3 1 2) = true ∧ 0x1020 % 64 ≠ 0 ∧
    at_ 0x1000 0x1005 (.launch 3 1 2) = true ∧ 2 ^ 12 ≤ 0x1005 ∧ (l 0 0).streamUsed 0 6 = false ∧ (l 0 0).streamUsed 0 5 = true ∧
    at_ 0xFFF80 5 (.launch 3 1 2) = true ∧ (l 0 0).isWithin 0 5 = false ∧
    queued.ready (.useadv 3 1) = true ∧ queued.cur.queued ≠ [] ∧ at_ 0x10000 0 (.useadv 3 1) = true ∧
    at_ 0x10000 0 (.useadv 3 2) = true ∧ (65535 : Nat) < 0x10000 ∧
    (tensorRuns 6 id).ready (.tinfo 3 1 2) = true ∧ 5 < ((tensorRuns 6 id).cur.val 2).toNat ∧
    handleClass 0x20000001 = 2 := by decide +kernel

/-! The cullet stack and the counters. -/

/-- Core 0 runs stream C with 7 in lane 5 of v1 and 3 in every lane of v2, RQF 1, and a ring that is about to wrap. -/
def reversibleRuns : State := coreRuns .C fun c =>
  { c with acc := (276, 7) :: (List.range 64).map fun j => (512 + 4 * j, 3)
           c := { c.c with rqf := 1 }, culTop := 0x3FFF0, culBase := 0x3FF00, culSeq := 4 }

/-- The forward form may issue, has room, and gives a value in every lane (`ok`), or none in lane 0. -/
def forwardMeets (ok : Bool) (i : Instr) : Bool :=
  let c := reversibleRuns.core 0
  match forwardForm i c with
  | some ((_, _, pw, _), _, f) => reversibleRuns.ready i && decide (c.c.rqf.toNat ≤ 24 ∧ c.culSeq ≠ 0xFFFFF ∧ c.culMove ≠ 2 ∧
      c.occupancy + (8 * pw + 8) ≤ 2 ^ 18 - 8) &&
      if ok then (List.range 64).all fun j => (f j).isSome else (f 0).isNone
  | none => false

/-- The next issue of stream C after `i`. -/
def thenC (i : Instr) (s : State) : State := { nextOf (exec i s) with strm := .C }

/-- After the forward form `i` the undo form `u` may issue, meets its top entry, and gives a value in every lane (`ok`), or
none in lane 0. -/
def undoMeets (ok : Bool) (i u : Instr) : Bool :=
  let s := thenC i reversibleRuns
  let c := s.core 0
  match undoForm u c with
  | some (cls, va, _, param, frac, f) =>
    s.ready u && match c.topEntry cls va.toNat (some c.vwin.toNat) param with
      | .found h => frac.all (· == hdrFrac h) &&
          if ok then (List.range 64).all fun j => (f h j (c.remOf h j)).isSome else (f h 0 (c.remOf h 0)).isNone
      | _ => false
  | none => false

theorem witness_ReversibleForms : ([.rmul 3 1 2, .rshr 3 1 5, .rlrelu 3 1 2, .rnrw 3 1 1] : List Instr).all (forwardMeets true) =
    true := by decide +kernel
theorem witness_ReversibleForms_range : forwardMeets false (.rmul 3 1 5) = true := by decide +kernel
theorem witness_ReversibleForms_undo : undoMeets true (.rmul 3 1 2) (.rmulUndo 4 3 2) = true := by decide +kernel
theorem witness_ReversibleForms_unshift : undoMeets true (.rshr 3 1 1) (.rshrUndo 4 3 1) = true := by decide +kernel
theorem witness_ReversibleForms_unleak : undoMeets true (.rlrelu 3 1 2) (.rlreluUndo 4 3 2) = true := by decide +kernel
theorem witness_ReversibleForms_check : undoMeets false (.rmul 3 1 2) (.rmulUndo 4 3 5) = true := by decide +kernel
theorem witness_ReversibleForms_empty :
    (coreRuns .C id).ready (.rmulUndo 3 4 2) = true ∧ ((coreRuns .C id).core 0).culSeq = 0 := by decide +kernel

theorem witness_ReversibleForms_stops :
    let s := fun f : CoreSt → CoreSt => { reversibleRuns with cores := [(0, f (reversibleRuns.core 0))] }
    let full := fun h => s fun c => { c with culBase := 0x3FFF8, culHandle := h }
    let wide := s fun c => { c with c := { c.c with rqf := 25 } }
    let room := fun s : State => (s.core 0).occupancy + 16
    ([full 0, full 5, s fun c => { c with culSeq := 0xFFFFF }].all fun s => s.ready (.rmul 3 1 2) && s.ready (.cmark 7)) = true ∧
    2 ^ 18 - 8 < room (full 0) ∧ wide.ready (.rmul 3 1 2) = true ∧ wide.ready (.rlrelu 3 1 2) = true ∧
    (forwardForm (.rmul 3 1 2) (wide.core 0)).isSome = true ∧ 24 < (wide.core 0).c.rqf.toNat := by decide +kernel

/-- The top entry of another register, one being spilled, one with another place in the stack, and one of another shift. -/
theorem witness_ReversibleForms_top :
    let a := thenC (.rmul 3 1 2) reversibleRuns
    let s := fun f : CoreSt → CoreSt => { a with cores := [(0, f (a.core 0))] }
    let h := fun s : State => leNat (ringBytes (s.core 0).ring ((s.core 0).culTop - 8).toNat 8)
    let spilled := s fun c => { c with culMove := 1 }
    let moved := s fun c => { c with culSeq := 77 }
    let k := thenC (.rshr 3 1 5) reversibleRuns
    a.ready (.rmulUndo 4 5 2) = true ∧ hdrVreg (h a) ≠ 5 ∧ hdrVreg (h a) = 3 ∧ hdrClass (h a) = 1 ∧
    spilled.ready (.rmulUndo 4 3 2) = true ∧ (spilled.core 0).occupancy - 65536 < 8 ∧ moved.ready (.rmulUndo 4 3 2) = true ∧
    hdrSeq (h moved) ≠ ((moved.core 0).culSeq - 1).toNat ∧ moved.ready (.cchk 3) = true ∧ k.ready (.rshrUndo 4 3 6) = true ∧
    (match (k.core 0).topEntry 2 3 (some 0) none with | .found h => hdrFrac h == 5 | _ => false) = true := by decide +kernel

theorem witness_MarkerForms :
    let s := fun seq handle (v : W64) => coreRuns .C fun c =>
      { c with culSeq := seq, culHandle := handle, c := { c.c with regs := [(1, v)] } }
    let u := thenC (.cmark 0xA1) (s 0 0 0)
    let t := { s 0 0 0x42 with
      regions := [(0, regionRecord)], tensors := [(0x42, { tensorOf 1 [(0, 0)] with extents := [0] })] }
    (s 0 0 0).ready (.cmark 0xA1) = true ∧ ((s 0 0 0).core 0).occupancy + 8 ≤ 2 ^ 18 - 8 ∧ u.ready (.cchk 0xA1) = true ∧
    (match (u.core 0).topEntry 5 0 none none with | .found e => hdrParam e == 0xA1 | _ => false) = true ∧
    (s 0 0 0).ready (.catt 1) = true ∧ ((s 0 0 0).core 0).culLast = 0 ∧ (s 3 0x42 0x42).ready (.catt 1) = true ∧
    ((s 3 0x42 0x42).core 0).culLeave = none ∧ (s 3 0 0x42).ready (.catt 1) = true ∧ t.ready (.catt 1) = true := by
  decide +kernel

theorem witness_Cdepth : (coreRuns .C id).ready (.cdepth 3) = true := by decide +kernel

theorem witness_CounterForms :
    let s := coreRuns .C fun c => { c with
      job := c.job.map fun j => { j with region := 5 }
      c := { c.c with regs := [(1, 0xFFFFFFFF00000003), (2, 0xFFFF), (4, 0x10), (5, 3)] } }
    let full := coreRuns .C fun c => { c with ctr := { c.ctr with lwc := 5, pmcsel := [(3, 0x40000000)] } }
    ([.rdcnt 3 0 0, .rdcnt 3 2 0, .cntsel 1 15, .cntsel 1 16, .cntsel 4 0, .cntsel 5 0, .cntclr 0, .cntclr 16, .cntclr 17,
      .cntclr 18, .cntclr 19, .rdtime 3, .waitc 4, .bufsel 255, .bufsel 256, .psnap 3] : List Instr).all
        (fun i => s.ready i && full.ready i) = true ∧
    counterAt s 0 0 ≠ none ∧ counterAt s 0 0xFFFF = none ∧ counterAt s 0 0x1FFF ≠ none ∧ pmcselOk 0xFFFFFFFF00000003 = true ∧
    0xFFFFFFFF00000003 / 2 ^ 32 = noRegion ∧ pmcselOk 0x10 = false ∧ pmcselOk 3 = true ∧ s.isWithin 0 5 = false ∧
    (s.core 0).ctr.lwc ≤ 4 ∧ 4 < (full.core 0).ctr.lwc ∧ (look 0 (full.core 0).ctr.pmcsel 3).toNat / 2 ^ 29 % 8 ≠ full.vf 0 ∧
    (look 0 (s.core 0).ctr.pmcsel 3).toNat / 2 ^ 29 % 8 = s.vf 5 := by decide +kernel

/-! Events. -/

/-- Region 5, below region 0: priority 6, pre-empting, watchdog 1, pre-emption where region 0 has priority 4. -/
def childRecord : BitVec 512 := BitVec.ofNat 512
  (6 * 2 ^ 80 + 2 ^ 96 + 5 * 2 ^ 104 + 2 ^ 112 + 576 * 2 ^ 128 + 64 * 2 ^ 144 + (2 ^ 32 - 1) * 2 ^ 192 + (2 ^ 128 - 1) * 2 ^ 224)

/-- An operator of region 5 on core 0 with one tile to hand out. -/
def oneTile : Oper :=
  { idx := 0, seq := 0, region := 5, bounds := [1], roles := [{ kind := 0, members := [0] }], layers := [0], next := [0], ready := true }

/-- A package with regions 0 and 5, the operator `oneTile`, a context pool, and core 0 as given. -/
def package (c : CoreSt) : State :=
  { coreRuns .L fun _ => c with
    cores := [(0, c)], regions := [(0, regionRecord), (5, childRecord)], tensors := [(1, placedTensor), (2, poolTensor)]
    columns := [(0, { poolHandle := 2, poolAreas := 145, opers := [oneTile] })] }

theorem witness_CoreEvents_timer :
    let c : CoreSt := { job := some {}, phase := .running, timerDue := some 3, ctr := { lwc := 3 } }
    0 < c.ctr.lwc ∧ c.banks.any (fun e => e.1 / 256 == 4) = false ∧ c.timerDue = some 3 ∧ c.job.isSome = true ∧ c.hm = false ∧ c.debug = false ∧ c.phase = .running ∧
    ({ c with phase := .stopping .preempt } : CoreSt).phase = .stopping .preempt := by
  decide +kernel

theorem witness_CoreEvents_watchdog :
    (package { job := some { region := 5 }, phase := .running, c := { wait := some (.dog 8 0), dog := 1024 } }).dogLimit 0 .C =
      some 8 := by decide +kernel

theorem witness_CoreEvents_deadlocks :
    let s := package { job := some { region := 5 }, phase := .running, c := { wait := some (.dog 8 0), dog := 1024 }
                       s := { wait := some (.dog 9 1), dog := 1024 } }
    (allStrms.map fun x => s.dogLimit 0 x) = [none, some 8, some 265] ∧
    ({ banks := [(1024, (1, 0))] } : CoreSt).banks.any (fun e => e.1 / 256 == 4) = true := by decide +kernel

theorem witness_CoreEvents_preemption :
    let s := package { job := some { region := 0, kind := .operator 1 0 0 }, phase := .running }
    let u := { s with reached := [(0, { before := {}, layer := 0 })] }
    5 ∈ s.regionIds ∧ s.preemptFor 5 0 = true ∧ find s.reached 0 = none ∧ 5 ∈ u.regionIds ∧ u.preemptFor 5 0 = true ∧
    (find u.reached 0).isSome = true := by decide +kernel

theorem witness_CoreEvents_limit :
    let j : Job := { rlimit := 5 }
    let c : CoreSt := { job := some j, phase := .running, l := { issued := 6 } }
    c.hm = false ∧ j.rlimit ≠ 0 ∧ j.rlimit < c.l.issued + c.c.issued + c.s.issued := by decide +kernel

theorem witness_CoreEvents_retirement :
    let a : StreamSt := { arrived := true }
    let c : CoreSt := { job := some {}, phase := .running, l := a, c := a, s := a }
    let handler : CoreSt := { c with hm := true, guard := 77 }
    let ends : CoreSt := { handler with guard := 0, job := some { kind := .handler } }
    c.hm = false ∧ c.debug = false ∧ c.overLimit = false ∧ c.retireFault = none ∧ c.cmds = [] ∧ c.culHandle = 0 ∧
    (allStrms.all fun x => !(package c).scopePending 0 x) = true ∧ ({ c with guard := 77 } : CoreSt).retireFault ≠ none ∧
    handler.overLimit = false ∧ handler.retireFault ≠ none ∧ ends.overLimit = false ∧ ends.retireFault = none := by
  decide +kernel

theorem witness_CoreEvents_held :
    let s := State.reset.withFetchWord 32 0xA4028000
    let j : Job := { (s.core 0).theJob with held := true }
    let t : StreamSt := { (s.core 0).c with wait := some (.dog 6 0), pc := (s.core 0).l.pc }
    let c : CoreSt := { s.core 0 with job := some j, sq := { items := [5] }, c := t }
    coreValid 0 = true ∧ c.theJob.held = true ∧ c.canIssue .C = true ∧ c.c.wait = some (.dog 6 0) ∧ c.sq.ready ≠ [] ∧
    decode (BitVec.ofNat 32 ((s.setCore 0 c).lineWord 0 .C c.c.pc.line.toNat c.c.pc.slot.toNat)) = .instr (.mmas 0 0 1) := by
  decide +kernel

theorem witness_StopEvents :
    let f := package { job := some {}, phase := .stopping .fault, raised := [{ cause := 1 }] }
    let p := package { job := some {}, phase := .stopping .preempt }
    let h := package { job := some { kind := .handler }, hm := true, phase := .stopping .fault, raised := [{ cause := 1 }] }
    let r := { package { phase := .restoring 2 0 } with saves := [(0, { job := some {} })] }
    let e := package { job := some {}, phase := .escalated }
    let d := fun (s : State) => s.suspendFeeds 0
    (d f).debug = false ∧ (d f).hm = false ∧ f.stopSettled 0 (d f) = true ∧ f.areaThere 0 (faultArea 0) = true ∧
    p.stopSettled 0 (d p) = true ∧ (d h).hm = true ∧ h.stopSettled 0 (d h) = true ∧ topCause (d h).causes ≠ none ∧
    (r.core 0).debug = false ∧ find r.saves (saveKey (colOf 0) 0) ≠ none ∧ find r.reached 0 = none ∧
    (e.core 0).phase = .escalated ∧ (e.core 0).debug = false := by decide +kernel

theorem witness_StopEvents_preempted :
    (package {}).stopArea 0 .preempt = some 144 ∧ (package {}).stopArea 0 .suspend = some 144 := by decide +kernel

/-- Core 0, with its frame in the pool of handle 2, is to enter the handler of region 0, whose code is tensor 7. -/
def handlerAt : State :=
  ({ package { pool := 2 } with
    regions := [(0, regionRecord ||| (7 <<< 352))]
    tensors := [(2, poolTensor), (7, tensorOf 1 [blockDesc 0 1 100])] } : State).setImage 7 0 [0, 0, 0, 0xC0]

theorem witness_HandlerEntry :
    let u := handlerAt.setFrameItem 2 (faultArea 0) 4 0
    handlerAt.handlerRegion 9 0 0 = (some 0, 0) ∧ (handlerAt.core 0).pool = 2 ∧
    (match u.readHeader (u.hcode 0) (u.hline 0) with
      | some h => (List.range 8).all fun i => (h.slots.getD i (0, 0)).2 == 0
      | none => false) = true := by decide +kernel

/-! Engines and the stack bus. -/

/-- Core 0 has the command `m` accepted, or in its queue. -/
def commandAt (m : Cmd) : State :=
  package { job := some {}, phase := .running, cmds := [m], l := { dray := [{ instr := .cpy 3 1 2 0 0 0 0 0 }], pend := 8 } }

theorem witness_EngineEvents :
    let m : Cmd := { instr := .cpy 3 1 2 2 1 0 1 0, tok := 3, stage := .push, buffer := [7] }
    let s := commandAt m
    let qs := engineQueues (.dray 0 0)
    engineValid (.dray 0 0) = true ∧ s.engineRoom (.dray 0 0) = true ∧ look 0 (s.column 0).rotation 0 = 0 ∧
    (qs.getD 0 default).2.1 ≠ .C ∧ s.acceptable (qs.getD 0 default) = true ∧
    (s.modColumn 0 fun c => { c with took := [0] }).engineRoom (.dray 0 0) = false ∧
    (s.core 0).cmd .L 0 = some m ∧ m.feeds = some 1 ∧ (m.nextEntry s).length = 1 ∧
    (((s.core 0).incomplete .L).any fun a => a.stillFeeds 1 && a.seq < m.seq) = false ∧
    ((s.core 0).dqueue 1).items.length + ((s.core 0).dqueue 1).popped < 16 ∧
    ({ m with instr := .cpy 3 1 2 3 1 0 1 0 } : Cmd).feeds = some 4 ∧
    (s.core 0).sq.items.length + (s.core 0).sq.popped + 1 ≤ 256 ∧
    ({} : CoreSt).heldBack { m with stage := .queued } = false ∧ m.flying = 0 ∧ vcCovers (s.column 0).vc m.vec = true ∧
    m.peers.length = 0 ∧ ((s.core 0).strm .L).isPending m.tok = true := by decide +kernel

/-- Core 0 has the coll `m` at the head of its coach's queue; its handle is in state `st`. -/
def collAt (m : Cmd) (st : Nat) : State :=
  { commandAt m with
    regions := [(0, regionRecord ||| (200 <<< 152))], tensors := [(0x42, tensorOf st [blockDesc 0 1 200, blockDesc 1 1 201])]
    cores := [(0, { job := some { roles := [{ kind := 2, members := [0] }], handles := [0x42] }, phase := .running, l := { coach := [m] } })] }

theorem witness_EngineEvents_coll :
    let m : Cmd := { instr := .coll 3 1 2 0 0, tok := 3, desc := 0x42 :: List.replicate 23 0 ++ [64] ++ List.replicate 39 0 }
    let q := (engineQueues (.coach 0 0)).getD 0 default
    let ok := fun s => State.acceptable s q && State.engineRoom s (.coach 0 0) && (s.headOf q).isSome
    ([collAt m 1, collAt { m with group := 7 } 1, collAt { m with group := 7 } 7].all ok) = true ∧
    (collAt m 1).collDropped 0 m = none ∧ ((collAt m 1).collGroup 0 m).map List.length = some 1 ∧
    (collAt { m with group := 7 } 7).collDropped 0 m = some 0x42 ∧ ({ m with doomed := some (0x42, 0, 0x28) } : Cmd).doomed ≠ none ∧
    (commandAt m).writeOrder 0 m = false := by decide +kernel

theorem witness_EngineEvents_later :
    let s := package { job := some {}, phase := .running, s := { dray := [{ instr := .cpy 3 1 2 0 0 0 0 0, strm := .S }] } }
    let qs := engineQueues (.dray 0 0)
    let ready := fun d => if (qs.getD d default).2.1 = .C then s.moveReady (qs.getD d default).1 else s.acceptable (qs.getD d default)
    (List.range qs.length).filter ready = [1] ∧ (qs.getD 1 default).2.1 = .S := by decide +kernel

/-- A cpy of 4 elements of the tensor 1 into the scratchpad, at stage `st`. -/
def readCmd (st : Stage) (d : BitVec 256) : Cmd :=
  { instr := .cpy 3 1 2 0 0 0 1 0, tok := 3, stage := st, desc := [1] ++ List.replicate 39 0 ++ [4] ++ List.replicate 23 0
    under := d, run := 4 }

/-- Where the command's first unit lies. -/
def firstBlock (s : State) (m : Cmd) : Option Nat :=
  match s.baseOf (m.h 0) false with
  | .inl (h, v) => if v.isSome || h != 1 then none else match s.placeAt 0 m h v m.pos with | .inl p => some p.block | .inr _ => none
  | .inr _ => none

theorem witness_EngineEvents_walk :
    let m := readCmd .walk 0
    let s := commandAt m
    let d := s.descOf 1 (s.descAt 0 1 0)
    let t := (s.tensor 1).info
    (s.core 0).cmd .L 0 = some m ∧ s.writeOrder 0 m = false ∧ (s.core 0).btc = [] ∧
    (s.tensors.all fun e => e.2.blocks.all fun b => !dMoving b.2) = true ∧ m.dir ≠ 1 ∧ m.isGather = false ∧
    firstBlock s m = some 0 ∧ s.tensorValid 1 = true ∧ t.state ≠ 7 ∧ t.state ≠ 9 ∧ dTier d ≠ 0 ∧ s.isPool 1 = false ∧
    s.isWithin t.region (s.core 0).access.region = true ∧ dget d 17 1 = 1 ∧ descSound d = true ∧ dMoving d = false ∧
    fmtWidth (dFmt d) = fmtWidth t.fmt.toNat ∧ (s.walk 0 m).isSome = true := by decide +kernel

theorem witness_EngineEvents_serve :
    let m := readCmd (.read [0, 0, 0, 0]) (((package {}).tensor 1).block 0)
    let s := commandAt m
    let one := { m with run := 1 }
    let far := readCmd (.read [0, 0, 0, 0]) (blockDesc 0 4 9).2
    let roles : List Role := [{ kind := 5, members := [1] }]
    let lost := { commandAt far with
      cores := [(0, { (commandAt far).core 0 with job := some { roles := roles } })]
      links := [(2 * State.reset.peerIndex 1, { down := true }), (2 * State.reset.peerIndex 1 + 1, { down := true })] }
    (s.core 0).cmd .L 0 = some m ∧ firstBlock s m = some 0 ∧
    vcCovers (s.column (s.locColumn (handleHome 1) (dLoc m.under))).vc [0, 0, 0, 0] = true ∧
    s.partnerLost 0 (dLoc m.under) = false ∧ (s.eccBad (dLoc m.under)).1 = false ∧
    ([0, 1, 2, 3].all fun u => match s.placeAt 0 m 1 none u with
      | .inl q => (s.byteCheck m.under (q.bit / 8)).isNone
      | .inr _ => false) = true ∧
    m.dir = 0 ∧ one.unitBits s = 8 ∧ firstBlock lost far = some 0 ∧
    vcCovers (lost.column (lost.locColumn (handleHome 1) (dLoc far.under))).vc [0, 0, 0, 0] = true ∧
    lost.partnerLost 0 (dLoc far.under) = true := by decide +kernel

theorem witness_EngineEvents_refused :
    let m : Cmd := { readCmd .queued 0 with refused := true }
    ((commandAt m).core 0).heldBack m = false ∧ m.refused = true := by decide +kernel

theorem witness_WriteApply :
    let s : State := { State.reset with transit := [{ frm := 1, dest := 0, vec := [0, 1, 0, 0] }, { frm := 1, dest := 0, vec := [0, 2, 0, 0] }] }
    let f := fun n => (s.transit.filter fun f => f.dest == 0).getD n default
    ((List.range 4).all fun k => decide ((k = 1 → (f 0).vec.getD k 0 = ((s.column 0).vc.getD k 0 + 1) % 2 ^ 48) ∧
      (k ≠ 1 → vcLe ((f 0).vec.getD k 0) ((s.column 0).vc.getD k 0) = true))) = true ∧
    (f 0).write = none ∧ (f 1).vec.getD 1 0 ≠ ((s.column 0).vc.getD 1 0 + 1) % 2 ^ 48 := by decide +kernel

/-- Core 0 has a write of its command on its way to column 0, from column 1. -/
def writeComes (w : Landing) (ts : List (Nat × Tensor)) : State :=
  { commandAt { instr := .cpy 3 1 2 1 1 0 1 0, tok := 3, flying := 2, stage := .drain } with
    tensors := ts, transit := [{ frm := 1, dest := 0, vec := [0, 1, 0, 0], write := some w }] }

/-- A write to an ordinary tensor, into its shadow, into a tile, to a cache block alone, shared, and without space. -/
theorem witness_WriteApply_lands :
    let w : Landing := { handle := 0x42, block := 0, elems := [(8, 0x33)] }
    let t := tensorOf 1 [blockDesc 0 1 200]
    let tile := { writeComes w [(0x42, tensorOf 1 [(0, dput (dput (blockDesc 0 1 200).2 6 6 3) 16 1 1)])] with
      store := Memory.setNum [] (65536 * (2 ^ 61 + 201) + 2048) 8 1 }
    let k : Landing := { handle := 0x10000042, block := 7, key := 3, bytes := [(9, 4)] }
    let kv := fun n => { writeComes k [(0x10000042, { tensorOf 1 [blockDesc 7 1 301] with kv := [(3, 7)], shares := [(7, n)] })] with
      regions := [(0, regionRecord)] }
    let late := (kv 1).modTensor 0x10000042 fun t => { t with came := (0, 5) }
    let full := (kv 2).modColumn 0 fun c => { c with wmHi := [0, 0, 0, 0] }
    ([writeComes w [(0x42, t)], tile, kv 1, kv 2, late, full].all fun s => s.transit.length == 1 &&
      (s.transit.all fun f => f.vec.getD 1 0 == (s.column 0).vc.getD 1 0 + 1)) = true ∧
    (landsAt (writeComes w [(0x42, t)]) w).isSome = true ∧ (landsAt (writeComes w [(0x42, t)]) { w with target := some 7 }) = none ∧
    tile.tileSlot (2 ^ 61 + 200) 0 = some 0 ∧ handleClass 0x42 ≠ 1 ∧ handleClass 0x10000042 = 1 ∧
    (kv 1).comesLate 0 0x10000042 = false ∧ late.comesLate 0 0x10000042 = true ∧
    ((kv 2).allocateKv 0x10000042 (((kv 2).tensor 0x10000042).block 7)).isSome = true ∧
    full.allocateKv 0x10000042 ((full.tensor 0x10000042).block 7) = none := by decide +kernel

theorem witness_WriteApply_far :
    let s := writeComes { handle := 0x42, block := 0 } []
    let f : FarWrite := { rank := 1 }
    let there : List (Nat × Link) := [(2 * State.reset.peerIndex 1, { down := true }), (2 * State.reset.peerIndex 1 + 1, { down := true })]
    let lost : State := { s with transit := s.transit.map fun g => ({ g with dest := 4, far := some f } : Flight), links := there }
    lost.peerLost f.rank = true ∧ s.peerLost f.rank = false ∧ s.onLink f = false ∧ ((lost.core 0).cmd .L 0).isSome = true ∧
    (s.transit.map (·.strm)) = [.L] := by decide +kernel

theorem witness_WriteApply_other :
    let s : State := { State.reset with transit := [{ frm := 1, dest := 4, vec := [0, 1, 0, 0] }] }
    (s.transit.filter fun f => f.dest == otherPackage)[0]? = some { frm := 1, dest := 4, vec := [0, 1, 0, 0] } := by decide

theorem witness_StackEvents :
    let c : Column := { slot := 64, slotAt := 3, resync := some [0], resyncAt := some 3, flying := [{ at_ := 2 }], wakeAsked := [(1, 9)] }
    let t : W64 := 600
    64 ≤ c.slot ∧ c.slotAt ≤ t.toNat ∧ c.resyncLeft = 0 ∧ 0 < ({ c with resyncLeft := 3 } : Column).resyncLeft ∧
    ({ c with slot := 4 } : Column).slot < 64 ∧ 2 + 4 ≤ t.toNat ∧ 3 + 516 ≤ t.toNat ∧ 1 ∈ c.wakeAsked.map (·.1) ∧ c.pairPower 0 = 0 := by
  decide +kernel

/-- What slot 4 of column 0 carries in ac 101 of what core 0 has queued. -/
theorem witness_StackEvents_slots :
    let at_ := fun (s : State) => { s with time := 101 }
    let packets := at_ (scopeRuns true 2 id)
    let beat := at_ (scopeRuns true 0 fun c => { c with bulk := [{ len := 100, data := [1, 2], at_ := 9 }] })
    let e := (packets.column 0).slotEntry 4
    slotOffer (packets.column 0) = [1, 3, 5, 7, 9, 11, 13, 15] ∧ slotKind e = 3 ∧ slotPackets e = true ∧
    (packets.readyBeat 0 1 (slotRegion e)).isSome = false ∧ (packets.layerLoad 0 1 e).packets.length = 2 ∧
    (beat.readyBeat 0 1 (slotRegion e)).isSome = true ∧ (beat.layerLoad 0 1 e).beat ≠ none ∧
    (beat.layerLoad 0 1 e).packets = [] ∧ (beat.layerLoad 0 3 e).beat = none ∧ ((beat.column 0).slotAt ≤ beat.time.toNat) := by
  decide +kernel

/-- A slot that has carried an atomic of core 0, and one with the last beat of a broadcast to core 1. -/
theorem witness_StackEvents_apply :
    let p : Packet := { op := .amo 0 3, ea := 0x2000, n := 4, v := 5 }
    let l : SlotLoad := { at_ := 2, packets := [p] }
    let b : Beat := { core := 0, bulk := { tok := 9 }, last := true, off := 64, data := [1, 2], dests := [1] }
    let c : CoreSt := { l := { pend := 2 ^ 3 + 2 ^ 9, watchStart := 0x2000, watchLen := 4 } }
    let s := fun (l : SlotLoad) => { package c with time := 6, columns := [(0, { flying := [l] })] }
    ((s l).column 0).flying = [l] ∧ l.at_ + 4 ≤ (s l).time.toNat ∧ packetDest p = some 3 ∧ ((s l).core 0).l.isPending 3 = true ∧
    overlaps p.ea p.n ((s l).core 0).l.watchStart.toNat ((s l).core 0).l.watchLen.toNat = true ∧ l.beat = none ∧
    ((s { l with packets := [], beat := some b }).core 0).l.isPending b.bulk.tok = true ∧ b.dests.Nodup := by decide +kernel

/-! Operators and residency. -/

theorem witness_OperatorEvents :
    let st : OpStream := { ring := 1, cap := 4, tail := 1 }
    let done : Oper := { oneTile with next := [1] }
    let pub : Oper := { done with flags := 8, handles := [0x42], omask := 1 }
    let shadow := { tensorOf 1 [blockDesc 0 1 200] with info := { (tensorOf 1 []).info with shadow := true } }
    let s := { package {} with columns := [(0, { streams := [(0, st)], opers := [{ oneTile with ready := false }] })] }
    let e := fun (o : Oper) => { package {} with
      columns := [(0, { streams := [(0, st)], opers := [o] })], tensors := [(1, placedTensor), (2, poolTensor), (0x42, shadow)] }
    let w := { e pub with transit := [{ frm := 0, dest := 1, vec := [1, 0, 0, 0], into := some 0x42, core := 32 }] }
    let n := { package {} with columns := [(0, { streams := [(0, st)] })] }
    s.streamUsed 0 0 = true ∧ s.inputsSettled { oneTile with ready := false } = true ∧ (n.opStream 0 0).status = 0 ∧
    (n.opStream 0 0).head ≠ (n.opStream 0 0).tail ∧ (match n.readRecord [] 0 0 with | .inr c => c != 0 | _ => false) = true ∧
    (e done).operDone done = true ∧ (e done).operPubs done = [] ∧ (e pub).operDone pub = true ∧
    (e pub).operPubs pub = [0x42] ∧ (e pub).admitted 0x42 = false ∧ ((e pub).tensor 0x42).closing = none ∧
    w.operDone pub = true ∧ w.admitted 0x42 = true ∧ (w.tensor 0x42).closing = none := by decide +kernel

theorem witness_OperatorEvents_handOut :
    let s := package {}
    let ts := (s.readyTiles 0).filter fun t => s.freeOf 0 t.group != []
    (ts.map (·.region)) = [5] ∧ ((s.chooseRegion 0 ts).map (·.1)) = some 5 ∧
    (pickTile (ts.filter fun t => t.region == 5)).isSome = true ∧ pickCore (s.layer 0).start (s.freeOf 0 [0]) = some 0 := by
  decide +kernel

/-- The tensor 0x42, in HBM, beside what its home column does with it. -/
def residentOf (info : TensorRec) (col : Column) (cores : List (Nat × CoreSt)) : State :=
  { State.reset with
    regions := [(0, regionRecord)], columns := [(0, col)], cores := cores
    tensors := [(0x42, { tensorOf 2 [blockDesc 0 2 200] with info := info, inputs := [(0x43, 6)] }),
      (0x43, tensorOf 1 [blockDesc 0 1 300])] }

theorem witness_ResidencyEvents :
    let mv : Column := { moving := [{ handle := 0x42, action := .move 3 0 0, from_ := 2 }] }
    let s := residentOf { state := 8 } mv []
    let met := residentOf { state := 8, pin := 1 } mv []
    let full := residentOf { state := 2 } { wmHi := [0, 0, 0, 0], evalDue := [1] } []
    let calm := residentOf { state := 2 } { evalDue := [1] } []
    let move := fun (s : State) => (s.invalidate 0x42 fun _ => true).moveBlocks 0x42 0 2 0 (s.tensor 0x42).stored
    (s.movingOf 0x42).isSome = true ∧ s.actionMet 0x42 = false ∧ (move s).isSome = true ∧ met.actionMet 0x42 = true ∧
    (full.column 0).evalDue.contains 1 = true ∧ (full.modColumn 0 fun c => { c with evalDue := [] }).crossed 0 1 = true ∧
    (calm.column 0).evalDue.contains 1 = true ∧ (calm.modColumn 0 fun c => { c with evalDue := [] }).crossed 0 1 = false := by
  decide +kernel

theorem witness_ResidencyEvents_rebuild :
    let s := residentOf { state := 7, recipe := true, inputs := 1 } {} [(0, { susp := some 0x42 })]
    let r : Rebuild := { handle := 0x42, depth := 1, chain := [0x42], todo := [0x43] }
    let b := fun (q : Rebuild) => residentOf { state := 9, recipe := true } { rebuilds := [q] } []
    s.rebuildOf 0x42 = none ∧ (s.tensor 0x42).info.state = 7 ∧ s.referenced 0x42 = true ∧
    1 ≤ (s.column (handleHome 0x42)).depthMax.toNat ∧ (s.tensor 0x42).info.recipe = true ∧
    (b r).rebuildOf 0x42 = some r ∧ ((b r).rebuildStep r).isSome = true ∧
    (b { r with job := true }).freeCore (handleHome 0x42) = some 0 ∧ ({ r with ended := some true } : Rebuild).ended = some true := by
  decide +kernel

theorem witness_ResidencyEvents_timeout :
    let busy : CoreSt := { job := some {}, phase := .running }
    let still : CoreSt := { job := some {}, phase := .killing }
    let s := { residentOf { state := 9 } { poolHandle := 2, poolAreas := 145 }
        ((coresOfColumn 0).map fun k => (k, if k = 0 then busy else still)) with
      time := 1024, tensors := [(2, poolTensor), (0x42, tensorOf 9 [])] }
    let two := { s with cores := set s.cores 33 { busy with job := some { start := 9 } } }
    s.freeCore 0 = none ∧ s.preempting 0 = 0 ∧ (coresOfColumn 0).filter s.canPreempt = [0] ∧ 0 + 1024 ≤ s.time.toNat ∧
    two.freeCore 0 = none ∧ two.preempting 0 = 0 ∧ (coresOfColumn 0).filter two.canPreempt = [0, 33] ∧
    two.jobPrio (two.core 0).theJob = two.jobPrio (two.core 33).theJob ∧ (two.core 0).theJob.start < (two.core 33).theJob.start := by
  decide +kernel

/-- Core 0 has the cullet tensor 0x42 attached, with the chunks `n`. -/
def culletAt (n : W32) (c : CoreSt) : State :=
  { residentOf { state := 1, size := 0x200000 } {} [(0, { c with job := some {}, phase := .running, culHandle := 0x42, culChunks := n })] with
    tensors := [(0x42, { tensorOf 1 ((List.range 32).map fun b => blockDesc b 1 (200 + b)) with extents := [0x200000] })] }

theorem witness_MarkerForms_attach :
    let s := culletAt 0 {}
    let u := { s with
      strm := .C
      cores := [(0, { (coreRuns .C fun c => { c with c := { c.c with regs := [(1, 0x30000042)] } }).core 0 with culHandle := 0 })]
      tensors := [(1, placedTensor), (0x30000042, { tensorOf 1 ((List.range 32).map fun b => blockDesc b 1 (200 + b)) with
        extents := [0x200000] })] }
    u.ready (.catt 1) = true ∧ (u.core 0).culSeq = 0 ∧ (u.core 0).culHandle = 0 ∧
    (match (u.attach 0 0x30000042).2 with | .done t => decide ((t.core 0).culLast = 0) | _ => false) = true := by decide +kernel

/-- Core 0 runs C with a handle in s1; the tensors 0x30000041, which is pinned once, and 0x30000042 are cullet tensors. -/
def attachAt (v : W64) (f : CoreSt → CoreSt) : State :=
  let t := fun n pin => { tensorOf 1 ((List.range 32).map fun b => blockDesc b 1 (n + b)) with
    extents := [0x200000], info := { (tensorOf 1 []).info with pin := pin, size := 0x200000 } }
  { culletAt 0 {} with
    strm := .C, tensors := [(1, placedTensor), (0x30000041, t 300 1), (0x30000042, t 200 0)]
    cores := [(0, f { (coreRuns .C fun c => { c with c := { c.c with regs := [(1, v)] } }).core 0 with culHandle := 0x30000041 })] }

theorem witness_MarkerForms_detach :
    let stay := attachAt 0x30000041 fun c => { c with culLast := 7 }
    let go := attachAt 0x30000042 fun c => { c with culSeq := 3, culTop := 24 }
    let left := fun v => attachAt v fun c => { c with culSeq := 3, culLeave := some [0, 0, 0, 0] }
    let u := ((left 0x30000042).pinDown 0x30000041).unattach 0
    let fresh := attachAt 0x30000042 fun c => { c with culHandle := 0 }
    let short := fresh.setFrame (2 ^ 61 + 200) 4 (leBytes 4 1 ++ leBytes 4 9)
    let gone := fresh.setInfo 0x30000042 fun r => { r with state := 7 }
    let failed := attachAt 0x30000042 fun c => { c with culHandle := 0, failed := some (0x30000042, 0x28) }
    let wrong := attachAt 0x42 fun c => { c with culHandle := 0 }
    ([stay, go, left 0, left 0x30000042, fresh, short, gone, failed, wrong].all fun s => s.ready (.catt 1)) = true ∧
    (stay.core 0).culLast ≠ 0 ∧ (match (go.startDetach 0).1 with | .done _ => true | _ => false) = true ∧
    (left 0).performed 0 [0, 0, 0, 0] = true ∧ (u.core 0).rebuildFailed 0x30000042 = none ∧
    (match (u.attach 0 0x30000042).2 with | .done t => (t.core 0).culLast == 0 | _ => false) = true ∧
    (match (short.attach 0 0x30000042).2 with | .done t => (t.core 0).culLast == 9 | _ => false) = true ∧
    (match (gone.attach 0 0x30000042).2 with | .dropped => true | _ => false) = true ∧
    (match (wrong.attach 0 0x42).2 with | .bad _ => true | _ => false) = true ∧
    (failed.core 0).rebuildFailed 0x30000042 = some 0x28 := by decide +kernel

theorem witness_CulletEvents :
    let s := culletAt 0 { culTop := 0x31000 }
    let l := culletAt 1 {}
    coreValid 0 = true ∧ (s.core 0).movesBegin = true ∧ (s.core 0).culHandle ≠ 0 ∧ 65536 ≤ (s.core 0).occupancy ∧
    (s.core 0).culhw.toNat < (s.core 0).occupancy ∧ s.nextPlace (drayOf 0) s.moveReady = some (movePlace 0) ∧
    (l.core 0).movesBegin = true ∧ (l.core 0).culChunks ≠ 0 ∧ l.nextPlace (drayOf 0) l.moveReady = some (movePlace 0) ∧
    (l.core 0).occupancy + 65544 ≤ 2 ^ 18 ∧ (l.core 0).occupancy < (l.core 0).cullw.toNat ∧
    (culletAt 0 { phase := .draining, culTop := 0x31000 }).moveReady 0 = true := by decide +kernel

theorem witness_CulletEvents_spill :
    let s := culletAt 0 { culTop := 0x31000, culMove := 1 }
    let sent := fun fs => { culletAt 0 { culTop := 0x31000, culMove := 1, culSent := true } with transit := fs }
    let flying := fun t : State => t.transit.any fun f => f.core == 0 && f.strm == .C && f.write.isSome
    (match s.culletWrite 0 1 65536 (ringSlice (s.core 0).ring 0 65536) with | .done _ => true | _ => false) = true ∧
    flying (sent []) = false ∧ ((sent []).core 0).culSent = true ∧
    flying (sent [{ frm := 0, dest := 4, vec := [1, 0, 0, 0], core := 0, strm := .C, write := some default }]) = true ∧
    ({ sent [{ frm := 0, dest := 4, vec := [1, 0, 0, 0], core := 0, strm := .C, write := some default, far := some { rank := 1 } }] with
      links := [(2 * State.reset.peerIndex 1, { down := true }), (2 * State.reset.peerIndex 1 + 1, { down := true })] } :
        State).culletLost 0 = true := by
  decide +kernel

theorem witness_CulletEvents_refill :
    let s := culletAt 1 { culMove := 2 }
    let d := (s.tensor 0x42).block 1
    let trl := { s with tensors := [(0x42, { s.tensor 0x42 with blocks := [(1, d ||| 2 ^ 19)] })] }
    let bad := { s with tensors := [(0x42, { s.tensor 0x42 with blocks := [] })] }
    (match s.checkDesc (s.core 0).access 0x42 d 0 with | .ok e => e == d | _ => false) = true ∧
    vcCovers (s.column (s.locColumn (handleHome 0x42) (dLoc d))).vc (s.core 0).culVec = true ∧ dTrl d = false ∧
    locTier (dLoc d) = 1 ∧ s.partnerLost 0 (dLoc d) = false ∧
    (match bad.checkDesc (bad.core 0).access 0x42 ((bad.tensor 0x42).block 1) 0 with | .bad _ => true | _ => false) = true ∧
    (trl.core 0).culRec = none := by decide +kernel

/-! The outside, management and debugging. -/

theorem witness_OutsideEvents :
    let l : Link := { trained := true, out := some 3 }
    let s : State := { State.reset with links := [(7, l)] }
    let b : List Byte := [1, 2]
    let h := { residentOf { state := 3 } {} [] with
      tensors := [(0x42, tensorOf 3 [(0, BitVec.ofNat 256 (2 ^ 64 * (3 * 2 ^ 61 + 9) + 2 ^ 21))])] }
    let m := { State.reset with mgmt := { State.reset.mgmt with boot := .minimal } }
    (s.link 7).trained = true ∧ (s.link 7).down = false ∧ (List.replicate 256 (0 : Byte)).length = 256 ∧ (s.link 7).out = some 3 ∧
    (s.link 7).pending = none ∧ s.lit 7 = true ∧ farWritesOk [(2 * 2 ^ 61 + 9, 3, b)] = true ∧ farWritesOk [] = true ∧ locTier (3 * 2 ^ 61 + 9) = 3 ∧ 3 * 2 ^ 61 + 9 < 2 ^ 64 ∧ 0 + 2 ≤ 65536 ∧ b.length = 2 ∧
    h.hostFrame (3 * 2 ^ 61 + 9) = true ∧ h.hostFrame (3 * 2 ^ 61 + 10) = false ∧
    h.mgmt.running = true ∧ s.mgmt.running = true ∧ State.reset.mgmt.running = true ∧ m.mgmt.boot = .minimal ∧
    m.answers (.bootFlash b) = true ∧ m.answers (.read .bootFail) = true ∧
    State.reset.vfReaches 1 (.read (.hotness 0 0 1)) = false ∧ State.reset.vfReaches 0 (.read (.hotness 0 0 1)) = true ∧ m.answers (.lthr 3) = false ∧
    State.reset.vfReaches 0 (.hotness 0 0 1 5 5) = true ∧ State.reset.vfReaches 1 (.hotness 0 0 1 5 5) = false ∧
    (3 : Nat) < (State.reset.column 0).wmHi.length ∧ (3 : Nat) < (State.reset.column 0).wmLo.length ∧
    ((State.reset.modColumn 0 fun c => { c with cacheNext := some 3 }).inTheWay 0 3 = []) ∧
    (({ State.reset with tensors := [(0x42, tensorOf 1 [blockDesc 0 1 24000])] } : State).inTheWay 0 8 ≠ []) := by decide +kernel

/-- A flit of 232 bytes `f` and the check bytes that belong to it. -/
def checkedFlit (f : List Byte) : List Byte := f ++ leBytes 24 (Config.rsCheck f).toNat

/-- A payload flit, next in sequence, that its codeword carries, comes without an error. -/
theorem witness_OutsideEvents_flit :
    let f : List Byte := 1 :: List.replicate 231 0
    let sent := checkedFlit f
    sent.length = 256 ∧ sent.drop 232 = leBytes 24 (Config.rsCheck (sent.take 232)).toNat ∧
    ((List.range 256).filter fun i => sent.getD i 0 != sent.getD i 0).length ≤ 12 ∧
    leNat ((sent.drop 2).take 2) % 2 ^ 11 = ({} : Link).expect % 2 ^ 11 ∧ leNat (sent.take 2) % 4 ≠ 0 := by
  simp [checkedFlit, leBytes, leNat, (List.filter_eq_nil_iff (p := fun _ => false)).2]

theorem witness_ManagementEvents :
    let m : Mgmt := { boot := .handed }
    let f : Mgmt := { boot := .firmware 0, bootfail := 2 }
    m.running = true ∧ m.verified = true ∧ m.boot ≠ .off ∧ m.failedNow = 0 ∧ 0 < ({ m with failedNow := 2 } : Mgmt).failedNow ∧
    f.boot = .firmware 0 ∧ f.failedNow = 0 ∧ 0 + 1700000000 ≤ (1700000000 : W64).toNat ∧ f.bootfail = 2 ∧ ({ m with bootfail := 3 } : Mgmt).bootfail = 3 ∧ m.bootfail ≠ 3 ∧ m.granted ≠ some 850 ∧
    (850 : W64).toNat % 850 = 0 ∧ (851 : W64).toNat % 850 ≠ 0 ∧
    ({ negotiated := true, keyed := true } : SpdmState).keyed = true ∧ m.spdm.negotiated = false := by decide +kernel

/-- Two regions share what a limit leaves. -/
theorem witness_ManagementEvents_grants :
    let s := { package { job := some {}, phase := .running } with
      time := 850, mgmt := { (package {}).mgmt with limit := 2000 }
      regions := [(0, regionRecord ||| (100 <<< 160)), (5, childRecord ||| (130 <<< 160))] }
    s.time.toNat % 850 = 0 ∧ s.mgmt.granted ≠ some s.time.toNat ∧ s.mgmt.limit ≠ 0 ∧ s.jobWork.length = 1 ∧
    (([0, 5].map s.powerShare).sum ≤ 256) ∧ ({ s with mgmt := {} } : State).mgmt.limit = 0 := by decide +kernel

theorem witness_DebugEvents_items :
    let a := fun (unit off : Nat) => debugItem (2 ^ 46 + 2 * 2 ^ 43 + unit * 2 ^ 38 + off)
    let l := fun n : W64 => { package {} with layers := [(10, { trctl := n })] }
    a 3 0x200018 = .comparator 323 3 ∧ a 3 0x200048 = .comparator 323 5 ∧ a 24 0 = .trctl 10 ∧
    a 24 0x100018 = .traceEntry 10 1 1 ∧ a 25 16 = .replica 1 5 16 ∧ a 26 8 = .replica 1 6 8 ∧ a 27 65536 = .storage 1 2 65536 ∧
    65536 / 65536 < 24576 - 2048 * (State.reset.column 1).cacheUnits ∧ a 31 16 = .base 1 16 ∧ a 28 0 = .absent ∧
    ((l 0x20).layer 10).trctl.getLsbD 5 = true ∧ ((l 0).layer 10).trctl.getLsbD 5 = false ∧
    ({ stale := [(5, true)] } : Column).isStale 5 = true ∧ (State.reset.column 1).isStale 5 = false := by decide +kernel

theorem witness_DebugEvents :
    let s := package { job := some {}, phase := .running, debug := true }
    let gated := fun p : Nat => s.modColumn 0 fun c => { c with power := [(0, p)] }
    let y : Layer := { trctl := 0x20, traceAt := 65536 }
    coreValid 0 = true ∧ (s.core 0).phase = .running ∧ (s.core 0).debug = true ∧ debugItem 0x40 = .area 0 0x40 ∧
    entryPresent (s.debugImage 0) 0x40 = true ∧ (State.reset.core 0).debug = false ∧ debugItem 1 = .absent ∧
    (s.column 0).pairPower 0 = 0 ∧ ((gated 1).column 0).pairPower 0 = 1 ∧ ((gated 2).column 0).pairPower 0 = 2 ∧
    y.trctl.getLsbD 5 = true ∧ y.traceOver = true := by decide +kernel

/-! Encoding, steps and formats. -/

theorem witness_EncodeDecode : (Instr.vcvt 2 1 0x13 0 0 1 0).wf = true ∧ (Instr.vcvt 2 1 0x13 0 0 1 0).isEvent = false := by decide

theorem witness_DecodeEncode : decode 0b011110_000010_000001_010011_0_000_1_000 = .instr (.vcvt 2 1 0x13 0 0 1 0) := by
  decide +kernel

theorem witness_StepRunsDecoded :
    let s := State.reset.withFetchWord 32 0b000100_00011_00011_1111111111111011
    let u := { s with agenda := [] }
    let f := s.fetchLine 0 .L
    coreValid 0 = true ∧ (s.core 0).canIssue .L = true ∧ find s.reached 0 = none ∧ ((s.core 0).strm .L).ran = none ∧
    s.withheld 0 .L = false ∧ s.dogLimit 0 .L = none ∧ f.fetchFault 0 .L = none ∧ (f.core 0).breakAt .L = none ∧
    decode (f.wordAt 0 .L) = .instr (.addi 3 3 0xFFFB) ∧ s.agenda = [.stream 0 .L] ∧
    (u.firstEvent (((List.range 4).filter u.scopeDue).map execStackSlotApply)).isNone = true ∧
    (u.runnable.find? fun p => u.turn ≤ roundPlace p) = some (0, .L) ∧ s.hasTurn 1 .L = false := by decide +kernel

/-- Words that decode to nothing, and to a queue form that does not exist, where a step fetches them. -/
theorem witness_StepRunsDecoded_rejected :
    let s := fun w => State.reset.withFetchWord 32 w
    let ok := fun w => (s w).withheld 0 .L == false && ((s w).dogLimit 0 .L).isNone &&
      (((s w).fetchLine 0 .L).fetchFault 0 .L).isNone && ((((s w).fetchLine 0 .L).core 0).breakAt .L).isNone
    let word := fun w => decode (((s w).fetchLine 0 .L).wordAt 0 .L)
    ok 0 = true ∧ word 0 = .reject .noInstruction ∧ ok 0xB4000000 = true ∧ word 0xB4000000 = .reject .queueForm ∧ ok 0xAC000000 = true ∧
    word 0xAC000000 = .reject .outOfLimits := by decide +kernel

theorem witness_StepRunsDecoded_event :
    answersNext (exec .bootok { State.reset with mgmt := { State.reset.mgmt with boot := .firmware 0 } }) = true ∧
    answersNext (exec (.hostTailWrite 9 0 1) State.reset) = false := by decide +kernel

theorem witness_StepKeepsMemory :
    State.reset.memWf = true ∧ answersNext (step (State.reset.withFetchWord 32 0x54000000)) = true := by decide +kernel

theorem witness_ScaleFormat : (0xFE : Nat) ≤ 0xFE ∧ (0xFF : Nat) = 0xFF := by decide

end Sys2Proof.Tests
end

section
/-! The scale format e8m0 (R35): what `decodeNum` answers for format 0x06, and the statement of its values. -/
namespace Sys2Proof.Machine

/-- R35: the eight bits of an e8m0 code are its exponent, and the code of all ones is the NaN. -/
theorem decodeNum_e8m0 (rqf c : Nat) :
    decodeNum rqf 0x06 c = if c % 256 = 255 then .qnan else .fin false 1 ((c % 256 : Nat) - 127) := by
  simp [decodeNum]

theorem decodeNum_e8m0_of_le {c : Nat} (rqf : Nat) (h : c ≤ 0xFE) :
    decodeNum rqf 0x06 c = .fin false 1 ((c : Int) - 127) := by
  rw [decodeNum_e8m0, Nat.mod_eq_of_lt (by omega), if_neg (by omega)]

theorem decodeNum_e8m0_FF (rqf : Nat) : decodeNum rqf 0x06 0xFF = .qnan := by
  rw [decodeNum_e8m0, if_pos rfl]

/-- No number, of whatever size, is read as anything but the NaN or a positive power of two. -/
theorem decodeNum_e8m0_qnan_or_power (rqf c : Nat) :
    decodeNum rqf 0x06 c = .qnan ∨ ∃ e, decodeNum rqf 0x06 c = .fin false 1 e := by
  rw [decodeNum_e8m0]
  split
  · exact .inl rfl
  · exact .inr ⟨_, rfl⟩

/-- Settles O60: codes up to 0xFE and 0xFF by their values, and the absence of a zero, an infinity and a sign from
`decodeNum_e8m0_qnan_or_power`. -/
theorem scaleFormat : Obligations.ScaleFormat := by
  intro rqf E
  have hvalue : E ≤ 0xFE → decodeNum rqf 0x06 E = .fin false 1 ((E : Int) - 127) := decodeNum_e8m0_of_le rqf
  have hnan : E = 0xFF → (decodeNum rqf 0x06 E).isNan = true := by
    rintro rfl
    rw [decodeNum_e8m0_FF]
    rfl
  refine ⟨hvalue, hnan, ?_⟩
  obtain h | ⟨e, h⟩ := decodeNum_e8m0_qnan_or_power rqf E
  · simp [h, Num.qnan]
  · simp [h]

end Sys2Proof.Machine
end

section
/-! The privileged instructions (R80): which they are, and what their issue outside handler mode answers. -/
namespace Sys2Proof.Machine

/-- The control registers whose setc needs the mode (R94), by their numbers as words. -/
theorem cregSetPriv_toNat (c : BitVec 12) :
    cregSetPriv c.toNat = (c == 0x105 || c == 0x106 || c == 0x109) := by
  rw [Bool.eq_iff_iff]
  simp [cregSetPriv, BitVec.toNat_eq]

theorem privileged_eq_isPrivileged (i : Instr) : privileged i = isPrivileged i := by
  cases i with
  | setc _ c => exact cregSetPriv_toNat c
  | _ => rfl

/-- R80 names four forms of instruction and no other. -/
theorem form_of_isPrivileged {i : Instr} (h : isPrivileged i = true) :
    i = .eret ∨ (∃ ra rb, i = .binv ra rb) ∨ (∃ ra rb, i = .slotset ra rb) ∨ ∃ rs c, i = .setc rs c := by
  unfold isPrivileged at h
  split at h
  · exact .inl rfl
  · exact .inr (.inl ⟨_, _, rfl⟩)
  · exact .inr (.inr (.inl ⟨_, _, rfl⟩))
  · exact .inr (.inr (.inr ⟨_, _, rfl⟩))
  · exact absurd h Bool.false_ne_true

theorem encode_illegalOp (w : BitVec 32) : encode (.illegalOp w) = some w := by
  change some (BitVec.ofNat 32 w.toNat) = some w
  rw [BitVec.ofNat_toNat, BitVec.setWidth_eq]

/-- FINFO of a decode fault is the word itself, that of a word that is no instruction too (R375). -/
theorem instrFinfo_eq_encode (i : Instr) : instrFinfo i = ((encode i).getD 0).zeroExtend 64 := by
  unfold instrFinfo
  split
  next w => rw [encode_illegalOp, Option.getD_some]
  next => rfl

/-- R82: of the decode checks, the mode is the one that fails, whatever the instruction would do. -/
theorem attempt_outside_handler {s : State} {i : Instr} (hw : i.wf = true) (hp : permitted i s.strm = true)
    (hi : privileged i = true) (hm : (s.core s.who).hm = false) (body : State → Res State) :
    attempt i s body = .fault 0x04 (((encode i).getD 0).zeroExtend 64) := by
  simp [attempt, hw, hp, hi, hm, instrFinfo_eq_encode]

theorem issue_outside_handler {s : State} {i : Instr} (hl : s.live = true) (hw : i.wf = true)
    (hp : permitted i s.strm = true) (hi : privileged i = true) (hm : (s.core s.who).hm = false)
    (body : State → Res State) :
    issue i s body = .next (s.raise s.who (some s.strm) 0x04 (((encode i).getD 0).zeroExtend 64)) := by
  rw [issue_live hl, attempt_outside_handler hw hp hi hm]
  rfl

/-- eret, whose issue is its own, meets the same checks first. -/
theorem execEret_outside_handler {s : State} (hl : s.live = true) (hm : (s.core s.who).hm = false) :
    execEret s = .next (s.raise s.who (some s.strm) 0x04 (((encode .eret).getD 0).zeroExtend 64)) := by
  obtain ⟨hv, hc⟩ : coreValid s.who = true ∧ (s.core s.who).canIssue s.strm = true := by
    simpa [State.live] using hl
  simp only [execEret, hv, hc, attempt_outside_handler (i := .eret) rfl rfl rfl hm, Bool.not_true, Bool.false_eq_true,
    if_false]
  rfl

/-- Settles O9: one issue rule for binv, slotset and setc, eret's own beside it, and the two lists of R80 compared. -/
theorem Settles.privileged : Obligations.Privileged := by
  refine ⟨fun s i hl hw hp _ hi hm => ?_, privileged_eq_isPrivileged⟩
  have hi' := (privileged_eq_isPrivileged i).trans hi
  obtain rfl | ⟨ra, rb, rfl⟩ | ⟨ra, rb, rfl⟩ | ⟨rs, c, rfl⟩ := form_of_isPrivileged hi
  · exact execEret_outside_handler hl hm
  · exact issue_outside_handler hl hw hp hi' hm _
  · exact issue_outside_handler hl hw hp hi' hm _
  · exact issue_outside_handler hl hw hp hi' hm _

end Sys2Proof.Machine
end

section
/-! Division (R110): what each of the four instructions completes with, and the values of the rule's table. -/
namespace Sys2Proof.Machine

/-! ### What each instruction completes with -/

section
variable {s : State} {rd ra rb : BitVec 5}

theorem exec_div_ready (h : s.ready (.div rd ra rb) = true) :
    exec (.div rd ra rb) s = .next (s.completedReg (.div rd ra rb) rd (div64 (s.cur.val ra) (s.cur.val rb))) :=
  issueScalar_ready h rd _

theorem exec_divu_ready (h : s.ready (.divu rd ra rb) = true) :
    exec (.divu rd ra rb) s = .next (s.completedReg (.divu rd ra rb) rd (divu64 (s.cur.val ra) (s.cur.val rb))) :=
  issueScalar_ready h rd _

theorem exec_rem_ready (h : s.ready (.rem rd ra rb) = true) :
    exec (.rem rd ra rb) s = .next (s.completedReg (.rem rd ra rb) rd (rem64 (s.cur.val ra) (s.cur.val rb))) :=
  issueScalar_ready h rd _

theorem exec_remu_ready (h : s.ready (.remu rd ra rb) = true) :
    exec (.remu rd ra rb) s = .next (s.completedReg (.remu rd ra rb) rd (remu64 (s.cur.val ra) (s.cur.val rb))) :=
  issueScalar_ready h rd _

/-- R110, first sentence: the operands do not matter to whether a division completes. -/
theorem division_completes {i : Instr}
    (hi : i = .div rd ra rb ∨ i = .divu rd ra rb ∨ i = .rem rd ra rb ∨ i = .remu rd ra rb) (h : s.ready i = true) :
    ∃ v, exec i s = .next (s.completedReg i rd v) := by
  obtain rfl | rfl | rfl | rfl := hi
  · exact ⟨_, exec_div_ready h⟩
  · exact ⟨_, exec_divu_ready h⟩
  · exact ⟨_, exec_rem_ready h⟩
  · exact ⟨_, exec_remu_ready h⟩

end

/-! ### The table of R110 -/

@[simp] theorem div64_zero (a : W64) : div64 a 0 = 0xFFFFFFFFFFFFFFFF := if_pos rfl

@[simp] theorem divu64_zero (a : W64) : divu64 a 0 = 0xFFFFFFFFFFFFFFFF := if_pos rfl

@[simp] theorem rem64_zero (a : W64) : rem64 a 0 = a := if_pos rfl

@[simp] theorem remu64_zero (a : W64) : remu64 a 0 = a := if_pos rfl

/-- The quotient 2^63 does not fit, and wraps to the dividend -2^63. -/
theorem div64_overflow : div64 0x8000000000000000 0xFFFFFFFFFFFFFFFF = 0x8000000000000000 := by decide

theorem rem64_overflow : rem64 0x8000000000000000 0xFFFFFFFFFFFFFFFF = 0 := by decide

/-- Settles O2: the completion of each instruction by `issueScalar_ready`, with its value at the corner read from the
table. -/
theorem divisionCorners : Obligations.DivisionCorners := by
  intro s rd ra rb
  dsimp only
  refine ⟨fun i => division_completes, fun hb => ⟨fun h => ?_, fun h => ?_, fun h => ?_, fun h => ?_⟩,
    fun ha hb => ⟨fun h => ?_, fun h => ?_⟩⟩
  · rw [exec_div_ready h, hb, div64_zero]
  · rw [exec_divu_ready h, hb, divu64_zero]
  · rw [exec_rem_ready h, hb, rem64_zero]
  · rw [exec_remu_ready h, hb, remu64_zero]
  · rw [exec_div_ready h, ha, hb, div64_overflow]
  · rw [exec_rem_ready h, ha, hb, rem64_overflow]

end Sys2Proof.Machine
end

section
/-! The depth of the cullet stack (R306): the word that cdepth writes, as a sum and as the rule's OR of its fields. -/
namespace Sys2Proof.Machine

/-- A field moved up by `k` bits: as a summand and as a shift, each cut at the width of a word. -/
theorem ofNat_two_pow_mul {w : Nat} (k : Nat) (b : BitVec w) :
    BitVec.ofNat 64 (2 ^ k * b.toNat) = b.zeroExtend 64 <<< k := by
  apply BitVec.eq_of_toNat_eq
  simp [Nat.shiftLeft_eq, Nat.mul_comm]

/-- A sum whose lower part stays below the multiple of a power of two has no carry. -/
theorem add_two_pow_mul_eq_or {k n : Nat} (h : n < 2 ^ k) (m : Nat) : n + 2 ^ k * m = n ||| 2 ^ k * m := by
  rw [Nat.add_comm, Nat.two_pow_add_eq_or_of_lt h, Nat.or_comm]

/-- R306: the sequence number fills [19:0] and the occupancy [37:20], so that no two fields meet. The chunks may pass
bit 63: both sides then drop the same bits. -/
theorem cdepthWord_eq_or (seq : BitVec 20) (occ : BitVec 18) (chunks : BitVec 32) :
    BitVec.ofNat 64 (seq.toNat + 2 ^ 20 * occ.toNat + 2 ^ 38 * chunks.toNat) =
      (seq.zeroExtend 64 ||| (occ.zeroExtend 64 <<< 20) ||| (chunks.zeroExtend 64 <<< 38)) := by
  have hlow : seq.toNat + 2 ^ 20 * occ.toNat < 2 ^ 38 := by omega
  rw [add_two_pow_mul_eq_or hlow, add_two_pow_mul_eq_or seq.isLt, BitVec.ofNat_or, BitVec.ofNat_or,
    ofNat_two_pow_mul, ofNat_two_pow_mul, BitVec.ofNat_toNat]

theorem exec_cdepth_ready {s : State} {rd : BitVec 5} (h : s.ready (.cdepth rd) = true) :
    exec (.cdepth rd) s = .next (s.completedReg (.cdepth rd) rd (BitVec.ofNat 64 ((s.core s.who).culSeq.toNat +
      2 ^ 20 * ((s.core s.who).culTop - (s.core s.who).culBase).toNat + 2 ^ 38 * (s.core s.who).culChunks.toNat))) := by
  change execCdepth rd s = _
  rw [execCdepth, issueCore_ready h]
  rfl

/-- Settles O40: a ready cdepth completes with the sum of its fields, which `cdepthWord_eq_or` reads as the word of the
rule; no transfer of the stack is asked about. -/
theorem cdepth : Obligations.Cdepth := by
  intro s rd c h
  rw [exec_cdepth_ready h, cdepthWord_eq_or]

end Sys2Proof.Machine
end
